-- ==== Sys2Proof/Word.lean ====
section
/-! DEFINITION. The words of the block: bytes, 32-bit registers, 40-bit frequencies, 9-bit node
indices (00_scope.md R11), and bit sequences (R13). -/

namespace Sys2Proof

/-- A byte of a buffer, and a byte value of the alphabet (00_scope.md R8). -/
abbrev Byte := BitVec 8

/-- A register or bus word (00_scope.md R11). -/
abbrev Word := BitVec 32

/-- A node frequency, 40 bits (00_scope.md R11). -/
abbrev Freq := BitVec 40

/-- A node index, 9 bits (00_scope.md R11, 30_encoding.md R108). -/
abbrev NodeIdx := BitVec 9

/-- A bit sequence, first bit first (00_scope.md R13). -/
abbrev Bits := List Bool

end Sys2Proof
end

