-- ==== Sys2Proof/Config.lean ====
section
/-! DEFINITION. What an instance of the block fixes for its life (00_scope.md R9, R10; 10_state.md
R59), and the free values (20_memory.md R78). A state carries its configuration in its field `cfg`,
so every statement over all states is a statement over all configurations (log entry 1). -/

namespace Sys2Proof

/-- TIE_POLICY (00_scope.md R10): how BUILD orders queue entries of equal frequency. -/
inductive TiePolicy where
  | fifo
  | heap
  deriving DecidableEq, Repr

/-- The named parameters of the block (00_scope.md R9, R10). -/
structure Config where
  /-- IN_CAP, bytes in IN_BUF. -/
  inCap : Nat
  /-- OUT_CAP, bytes in OUT_BUF. -/
  outCap : Nat
  /-- PBUF_CAP, bytes in PBUF. -/
  pbufCap : Nat
  /-- TIE_POLICY. -/
  tie : TiePolicy
  deriving DecidableEq, Repr

/-- The configuration of 95_test_vectors.md's conventions, which `State.reset` takes.
DESIGN CHOICE (log entry 1): the spec leaves the capacities open. TIE_POLICY = FIFO is its default
(00_scope.md R10). -/
def Config.standard : Config :=
  { inCap := 4096, outCap := 4096, pbufCap := 1024, tie := .fifo }

/-- The value of the n-th read of a byte that nothing has written since reset: a free draw per read
(20_memory.md R78). It has no body, so no proof knows a value of it (log entry 3). -/
opaque Config.unwrittenByte : Nat → Byte

end Sys2Proof
end

