-- ==== Sys2Proof/Syntax.lean ====
section
/-! DEFINITION. The instructions: the eleven commands of HTB command set 1 (30_encoding.md R92).
A command has no operand field; every operand is implicit (30_encoding.md R94). -/

namespace Sys2Proof

/-- One constructor per row of the opcode map (30_encoding.md R92). -/
inductive Instr where
  | nop
  | clear
  | count
  | build
  | gencodes
  | pack
  | serialize
  | deserialize
  | unpack
  | compress
  | decompress
  deriving DecidableEq, Repr

end Sys2Proof
end

