-- ==== Sys2Proof/WellFormed.lean ====
section
/-! DEFINITION. Well-formedness: of an instruction, of a configuration (00_scope.md R9) and of a
container (30_encoding.md R100). -/

namespace Sys2Proof

/-- A command has no register, immediate or mode field to check (30_encoding.md R90, R94), so every
instruction is well formed. -/
def Instr.wf : Instr → Bool
  | .nop | .clear | .count | .build | .gencodes | .pack | .serialize | .deserialize | .unpack
  | .compress | .decompress => true

/-- The constraints on the capacities (00_scope.md R9). -/
def Config.wf (c : Config) : Bool :=
  decide (1025 ≤ c.inCap) && decide (c.inCap ≤ 2 ^ 30)
    && decide (1025 ≤ c.outCap) && decide (c.outCap ≤ 2 ^ 30)
    && decide (1 ≤ c.pbufCap) && decide (c.pbufCap ≤ 2 ^ 28)

/-- A byte string is a well-formed container (30_encoding.md R100): long enough, pad byte at most 7,
and no more pad bits than payload bits. -/
def containerWf (B : List Byte) : Bool :=
  match B.getLast? with
  | none => false
  | some p =>
    decide (1025 ≤ B.length) && decide (p.toNat ≤ 7)
      && decide (p.toNat ≤ 8 * (B.length - 1025))

end Sys2Proof
end

