-- ==== Sys2Proof/Decode.lean ====
section
/-! DEFINITION. Decoding of a command word, total on every 32-bit word (30_encoding.md R91, R93),
and, after it, the encoder (R92, R109). -/

namespace Sys2Proof

/-- Why a word is no command (30_encoding.md R91). -/
inductive DecodeError where
  /-- The opcode is not in the map: subcode 1. -/
  | reservedOpcode
  /-- The opcode is in the map and RSVD is not 0: subcode 2. -/
  | reservedBits
  deriving DecidableEq, Repr

/-- The field OPCODE, bits 7:0 (30_encoding.md R90). -/
def opcodeField (w : Word) : Byte := w.extractLsb' 0 8

/-- The field RSVD, bits 31:8 (30_encoding.md R90). -/
def reservedField (w : Word) : BitVec 24 := w.extractLsb' 8 24

/-- The opcode map (30_encoding.md R92). Every other opcode is reserved (R93). -/
def opcodeMap (op : Byte) : Option Instr :=
  match op with
  | 0x00#8 => some .nop
  | 0x01#8 => some .clear
  | 0x10#8 => some .count
  | 0x11#8 => some .build
  | 0x12#8 => some .gencodes
  | 0x13#8 => some .pack
  | 0x14#8 => some .serialize
  | 0x20#8 => some .deserialize
  | 0x21#8 => some .unpack
  | 0x30#8 => some .compress
  | 0x31#8 => some .decompress
  | _ => none

/-- Decoding (30_encoding.md R91): the opcode is checked first, then the reserved bits. -/
def decode (w : Word) : Except DecodeError Instr :=
  match opcodeMap (opcodeField w) with
  | none => .error .reservedOpcode
  | some i => if reservedField w = 0#24 then .ok i else .error .reservedBits

/-- The opcode of a command (30_encoding.md R92). -/
def Instr.opcode : Instr → Byte
  | .nop => 0x00#8
  | .clear => 0x01#8
  | .count => 0x10#8
  | .build => 0x11#8
  | .gencodes => 0x12#8
  | .pack => 0x13#8
  | .serialize => 0x14#8
  | .deserialize => 0x20#8
  | .unpack => 0x21#8
  | .compress => 0x30#8
  | .decompress => 0x31#8

/-- The command word: RSVD = 0 above the opcode (30_encoding.md R92, R109). -/
def encode (i : Instr) : Word := 0#24 ++ i.opcode

/-- The instruction the decoder reads from a word numbered as the opcode table numbers it. A command
is one 32-bit word (30_encoding.md R95), so more bits than 32 are no command. -/
def decodeTableWord (nbits w : Nat) : Option Instr :=
  if nbits ≤ 32 then
    match decode (BitVec.ofNat 32 (w % 2 ^ nbits)) with
    | .ok i => some i
    | .error _ => none
  else none

end Sys2Proof
end

