-- ==== Sys2Proof/Machine/State.lean ====
section
/-! DEFINITION. The state of the block as plain data: every register, flag, register array and buffer
of 10_state.md, the bus port, and the state right after reset (10_state.md R63,
70_reset_and_hazards.md R197). -/

namespace Sys2Proof.Machine

/-- Byte memory: address and byte of every byte written since reset, addresses strictly rising. An
unlisted byte has no defined value, so no entry is ever equal to one (20_memory.md R78). -/
abbrev Memory := List Host.Cell

/-- A node of the tree (10_state.md R49). -/
inductive Node where
  | leaf (sym : Byte) (freq : Freq)
  | internal (freq : Freq) (left right : NodeIdx)
  deriving DecidableEq, Repr

/-- An entry of the code table (10_state.md R52): `len` bits whose value is `val`
(30_encoding.md R106). `len = 0` is an absent entry. -/
structure Code where
  len : BitVec 8
  val : BitVec 256
  deriving DecidableEq, Repr

/-- The absent entry (10_state.md R52). -/
def Code.absent : Code := { len := 0#8, val := 0#256 }

/-- READ or WRITE (20_memory.md R67). -/
inductive BusKind where
  | read
  | write
  deriving DecidableEq, Repr

/-- A transaction's size: 1, 2 or 4 bytes (20_memory.md R67). -/
inductive BusSize where
  | b1
  | b2
  | b4
  deriving DecidableEq, Repr

/-- A host transaction (20_memory.md R67). -/
structure Transaction where
  kind : BusKind
  addr : Word
  size : BusSize
  wdata : Word
  deriving DecidableEq, Repr

/-- OKAY or ERROR (20_memory.md R67). -/
inductive Resp where
  | okay
  | error
  deriving DecidableEq, Repr

/-- The block's answer to a transaction (20_memory.md R67, R74). -/
structure Answer where
  resp : Resp
  rdata : Word
  deriving DecidableEq, Repr

/-- What comes next in the one total order of steps (20_memory.md R83, 70_reset_and_hazards.md R197):
a host transaction, the core's turn, or reset. -/
inductive Event where
  | bus (t : Transaction)
  | core
  | reset
  deriving DecidableEq, Repr

/-- The reasons the machine stops with a fault: there are none. The block has no trap and never gets
stuck (60_exceptions.md R182, R185); a command error is an outcome in ERR, ERRINFO and ERRARG, and a
bus error is an answer. The one fault the spec permits, a read of an unwritten byte
(20_memory.md R78), is a free draw here (log entry 3). No one raises a fault; safe. -/
inductive Fault where
  deriving DecidableEq, Repr

/-- The reasons the machine refuses. No command word is refused (60_exceptions.md R185). -/
inductive Refusal where
  /-- The instruction has no meaning in the model yet. Raised by no arm of `exec`: every command has
  its meaning. Safe. -/
  | notModelled (mnemonic : String)
  deriving DecidableEq, Repr

/-- The state of one instance of the block. -/
structure State where
  /-- IN_CAP, OUT_CAP, PBUF_CAP, TIE_POLICY: configuration, changed by no step (10_state.md R59). -/
  cfg : Config
  /-- CTRL.IE (10_state.md R25). -/
  ie : Bool
  /-- CTRL.DEGEN (10_state.md R25): false is FORCE, true is REJECT. -/
  degen : Bool
  /-- STATUS.BUSY (10_state.md R27). -/
  busy : Bool
  /-- STATUS.DONE (10_state.md R28). -/
  done : Bool
  /-- STATUS.TREE_VALID (10_state.md R29). -/
  treeValid : Bool
  /-- STATUS.CODES_VALID (10_state.md R30). -/
  codesValid : Bool
  /-- STATUS.PAYLOAD_VALID (10_state.md R31). -/
  payloadValid : Bool
  /-- STATUS.ERR (10_state.md R32). -/
  err : BitVec 4
  /-- LASTCMD (10_state.md R33). -/
  lastCmd : Word
  /-- LATCHED_DEGEN (10_state.md R54). -/
  latchedDegen : Bool
  /-- IN_LEN (10_state.md R34). -/
  inLen : Word
  /-- OUT_LEN (10_state.md R35). -/
  outLen : Word
  /-- PLEN (10_state.md R36). -/
  plen : Word
  /-- PAD (10_state.md R37). -/
  pad : BitVec 3
  /-- ERRINFO.SUBCODE (10_state.md R38). -/
  errSub : Byte
  /-- ERRINFO.SYM (10_state.md R38). -/
  errSym : Byte
  /-- ERRINFO.STAGE (10_state.md R38). -/
  errStage : Byte
  /-- ERRARG (10_state.md R39). -/
  errArg : Word
  /-- NSYM (10_state.md R40). -/
  nsym : BitVec 9
  /-- ROOT (10_state.md R41); `none` is NONE. -/
  root : Option NodeIdx
  /-- NNODES (10_state.md R43). -/
  nnodes : BitVec 10
  /-- TOTAL (10_state.md R42). -/
  total : Freq
  /-- CODE_IDX (10_state.md R44). -/
  codeIdx : Byte
  /-- NODE_IDX (10_state.md R47). -/
  nodeIdx : NodeIdx
  /-- HIST[0..255] (10_state.md R51). -/
  hist : Vector Word 256
  /-- CODE[0..255] (10_state.md R52). -/
  code : Vector Code 256
  /-- NODE[0..510] (10_state.md R49). -/
  node : Vector Node 511
  /-- PBUF (10_state.md R53), keyed by offset. -/
  pbuf : Memory
  /-- IN_BUF and OUT_BUF (10_state.md R58), keyed by bus address (20_memory.md R64). -/
  mem : Memory
  /-- The coming events, next one first: the model's own field (log entry 2). -/
  inbox : List Event
  /-- The answer to the last transaction (20_memory.md R67; log entry 8). -/
  answer : Option Answer
  /-- How many free draws have been taken: the model's own field (log entry 3). -/
  draws : Nat
  deriving DecidableEq, Repr

/-- The state after reset of an instance with configuration `c` (10_state.md R63,
70_reset_and_hazards.md R197). Buffer contents are unspecified (R198): no byte is listed. NODE's
contents are unobservable, since NNODES = 0; Leaf(0, 0) is a DESIGN CHOICE (log entry 5). -/
def State.resetWith (c : Config) : State :=
  { cfg := c
    ie := false, degen := false
    busy := false, done := false
    treeValid := false, codesValid := false, payloadValid := false
    err := 0#4
    lastCmd := 0#32, latchedDegen := false
    inLen := 0#32, outLen := 0#32, plen := 0#32, pad := 0#3
    errSub := 0#8, errSym := 0#8, errStage := 0#8, errArg := 0#32
    nsym := 0#9, root := none, nnodes := 0#10, total := 0#40
    codeIdx := 0#8, nodeIdx := 0#9
    hist := Vector.replicate 256 0#32
    code := Vector.replicate 256 Code.absent
    node := Vector.replicate 511 (.leaf 0#8 0#40)
    pbuf := [], mem := []
    inbox := [], answer := none, draws := 0 }

/-- The machine right after reset, with the configuration of the spec's conventions
(log entry 1). -/
def State.reset : State := State.resetWith Config.standard

end Sys2Proof.Machine
end

