-- ==== Sys2Proof/Machine/Ops.lean ====
section
/-! DEFINITION. The named operations: byte memory and byte order (00_scope.md R15), the registers'
invalidation procedures (10_state.md R57), and the block's one form of taking an exception, the
error outcome and the completion step (60_exceptions.md R176 to R178). -/

namespace Sys2Proof.Machine

/-! ## Byte memory -/

/-- The byte at address `a`, if one has been written since reset (20_memory.md R78). -/
def Memory.get? (m : Memory) (a : Nat) : Option Byte := List.lookup a m

/-- Bytes at rising addresses from `a`. -/
def cellsFrom (a : Nat) : List Byte → Memory
  | [] => []
  | b :: bs => (a, b) :: cellsFrom (a + 1) bs

/-- Store bytes at `a`, `a + 1`, …, keeping the addresses in rising order. Every store, of any width,
by host or core, is this one operation (00_scope.md R15, 20_memory.md R77). -/
def Memory.store (m : Memory) (a : Nat) (bs : List Byte) : Memory :=
  m.filter (fun c => decide (c.1 < a)) ++ cellsFrom a bs
    ++ m.filter (fun c => decide (a + bs.length ≤ c.1))

/-- The canonical form of a memory: addresses strictly rising. -/
abbrev Memory.wf (m : Memory) : Prop := List.Pairwise (fun c d => c.1 < d.1) m

/-- Read `n` bytes from address `a` on, lowest address first. `d` draws have been taken before; a
byte that nothing has written since reset takes the next one (20_memory.md R78). The answer is the
bytes and the number of draws taken after. -/
def Memory.read (m : Memory) : (a n d : Nat) → List Byte × Nat
  | _, 0, d => ([], d)
  | a, n + 1, d =>
    match m.get? a with
    | some b => let r := Memory.read m (a + 1) n d; (b :: r.1, r.2)
    | none => let r := Memory.read m (a + 1) n (d + 1); (Config.unwrittenByte d :: r.1, r.2)

/-! ## Byte order -/

/-- The `n` bytes of a word, least significant first (00_scope.md R15, 20_memory.md R68). -/
def leBytes (n : Nat) (v : Word) : List Byte :=
  (List.range n).map fun k => v.extractLsb' (8 * k) 8

/-- The number whose bytes are given, least significant first (00_scope.md R15). -/
def leNat : List Byte → Nat
  | [] => 0
  | b :: bs => b.toNat + 2 ^ 8 * leNat bs

/-- The word whose bytes are given, zero-extended (20_memory.md R68). -/
def leWord (bs : List Byte) : Word := BitVec.ofNat 32 (leNat bs)

/-! ## Address map -/

/-- The CSR window is offsets 0x000 to 0xFFF (20_memory.md R64). -/
def csrSize : Nat := 0x1000

/-- IN_BASE (20_memory.md R64). -/
def inBase : Nat := 0x40000000

/-- OUT_BASE (20_memory.md R64). -/
def outBase : Nat := 0x80000000

/-! ## Invalidation procedures -/

/-- InvalidateCodes (10_state.md R57). -/
def invalidateCodes (s : State) : State :=
  { s with code := Vector.replicate 256 Code.absent, codesValid := false }

/-- InvalidateTree (10_state.md R57). -/
def invalidateTree (s : State) : State :=
  invalidateCodes
    { s with nnodes := 0#10, nsym := 0#9, root := none, total := 0#40, treeValid := false }

/-- InvalidatePayload (10_state.md R57). PBUF's contents become unspecified: no byte of it is listed
any more (log entry 4). -/
def invalidatePayload (s : State) : State :=
  { s with plen := 0#32, pad := 0#3, payloadValid := false, pbuf := [] }

/-! ## Issue -/

/-- What an accepted CMD write does, in one step (20_memory.md R73). -/
def issue (w : Word) (s : State) : State :=
  { s with
    lastCmd := w, latchedDegen := s.degen
    done := false, err := 0#4
    errSub := 0#8, errSym := 0#8, errStage := 0#8, errArg := 0#32
    busy := true }

/-! ## Taking an exception: the error outcome and the completion step -/

/-- The error codes (60_exceptions.md R173). -/
inductive ErrCode where
  | malformedContainer
  | emptyTree
  | degenerateSingleSymbol
  | illegalCommand
  | capacity
  | sequence
  | absentCode
  deriving DecidableEq, Repr

/-- The value STATUS.ERR takes (60_exceptions.md R173). -/
def ErrCode.code : ErrCode → BitVec 4
  | .malformedContainer => 1#4
  | .emptyTree => 2#4
  | .degenerateSingleSymbol => 3#4
  | .illegalCommand => 4#4
  | .capacity => 5#4
  | .sequence => 6#4
  | .absentCode => 7#4

/-- The outcome of a `raise` (00_scope.md R16, 60_exceptions.md R176): code, subcode, symbol,
position, and the opcode of the operation whose pseudocode holds the `raise`. -/
structure Raised where
  err : ErrCode
  sub : Byte
  sym : Byte
  arg : Word
  stage : Byte
  deriving DecidableEq, Repr

/-- How the body of a command ends: it runs to its end, or it raises in a state that keeps every
change made before the `raise` (60_exceptions.md R176). -/
inductive BodyResult where
  | ok (s : State)
  | raised (r : Raised) (s : State)
  deriving DecidableEq, Repr

/-- Run the next sub-operation of a composite command, unless one has raised
(45_pipeline_and_control.md R161, R162). -/
def BodyResult.andThen (r : BodyResult) (next : State → BodyResult) : BodyResult :=
  match r with
  | .ok s => next s
  | .raised e s => .raised e s

/-- A successful outcome: STATUS.ERR ← 0; ERRINFO and ERRARG stay as they are since issue
(60_exceptions.md R177). -/
def recordSuccess (s : State) : State := { s with err := 0#4 }

/-- Taking an error: the outcome registers are written (60_exceptions.md R177). -/
def recordError (r : Raised) (s : State) : State :=
  { s with
    err := r.err.code
    errSub := r.sub, errSym := r.sym, errStage := r.stage, errArg := r.arg }

/-- The end of the completion step: BUSY ← 0, DONE ← 1 (60_exceptions.md R177). -/
def endCommand (s : State) : State := { s with busy := false, done := true }

/-- The commands that set OUT_LEN ← 0 when they fail (60_exceptions.md R178). -/
def clearsOutLenOnFailure : Instr → Bool
  | .serialize | .unpack | .compress | .decompress => true
  | .nop | .clear | .count | .build | .gencodes | .pack | .deserialize => false

/-- The failure effects (60_exceptions.md R178). -/
def failureEffects (i : Instr) (s : State) : State :=
  if clearsOutLenOnFailure i then { s with outLen := 0#32 } else s

/-- The completion step of command `i` whose body ended in `r` (60_exceptions.md R177). -/
def complete (i : Instr) (r : BodyResult) : State :=
  match r with
  | .ok s => endCommand (recordSuccess s)
  | .raised e s => endCommand (failureEffects i (recordError e s))

/-- The word the core decodes: LASTCMD (30_encoding.md R91). -/
def fetchCommand (s : State) : Word := s.lastCmd

/-- The subcode of an illegal command (30_encoding.md R91). -/
def illegalSubcode : DecodeError → Byte
  | .reservedOpcode => 1#8
  | .reservedBits => 2#8

/-- The completion step of an illegal word: ILLEGAL_COMMAND with the word in ERRARG and STAGE =
w[7:0], and no other effect (30_encoding.md R91, 60_exceptions.md R176, R178). -/
def illegalCommand (why : DecodeError) (s : State) : State :=
  endCommand
    (recordError
      { err := .illegalCommand, sub := illegalSubcode why, sym := 0#8
        arg := fetchCommand s, stage := opcodeField (fetchCommand s) } s)

/-- The reset event (70_reset_and_hazards.md R197, R198): every register takes its reset value, every
buffer byte counts as unwritten, and a command in execution is abandoned. The configuration, the
coming events and the count of draws taken are no state of the block (log entry 6). -/
def resetEvent (s : State) : State :=
  { State.resetWith s.cfg with inbox := s.inbox, draws := s.draws }

end Sys2Proof.Machine
end

