-- ==== Sys2Proof/Machine/Flags.lean ====
section
/-! DEFINITION. The flags and the registers as the host reads them: CTRL, STATUS and ERRINFO as words
(10_state.md R25, R26, R38), and the interrupt line (60_exceptions.md R187). -/

namespace Sys2Proof.Machine

/-- CTRL as a word: IE in bit 0, DEGEN in bit 1, the rest reads 0 (10_state.md R25). -/
def ctrlWord (s : State) : Word :=
  0#30 ++ BitVec.ofBool s.degen ++ BitVec.ofBool s.ie

/-- A write of CTRL stores bits 0 and 1 and ignores the rest (10_state.md R23, R25). -/
def writeCtrl (v : Word) (s : State) : State :=
  { s with ie := v.getLsbD 0, degen := v.getLsbD 1 }

/-- STATUS as a word: BUSY 0, DONE 1, TREE_VALID 2, CODES_VALID 3, PAYLOAD_VALID 4, ERR 11:8, the
rest reads 0 (10_state.md R26). -/
def statusWord (s : State) : Word :=
  0#20 ++ s.err ++ 0#3 ++ BitVec.ofBool s.payloadValid ++ BitVec.ofBool s.codesValid
    ++ BitVec.ofBool s.treeValid ++ BitVec.ofBool s.done ++ BitVec.ofBool s.busy

/-- A write of STATUS clears DONE where bit 1 is 1 and changes nothing else (10_state.md R28). -/
def writeStatus (v : Word) (s : State) : State :=
  if v.getLsbD 1 then { s with done := false } else s

/-- ERRINFO as a word: SUBCODE 7:0, SYM 15:8, STAGE 23:16 (10_state.md R38). -/
def errInfoWord (s : State) : Word := 0#8 ++ s.errStage ++ s.errSym ++ s.errSub

/-- The completion interrupt line: irq = CTRL.IE & STATUS.DONE (60_exceptions.md R187). -/
def irq (s : State) : Bool := s.ie && s.done

/-- The core's completion step is enabled whenever BUSY = 1 (60_exceptions.md R177). -/
def coreEnabled (s : State) : Bool := s.busy

end Sys2Proof.Machine
end

