-- ==== Sys2Proof/Machine/Operands.lean ====
section
/-! DEFINITION. The operands, all of them implicit (30_encoding.md R94): the input bytes, the packed
payload, the nodes of the tree, the entries of the code table, and their bit layouts
(30_encoding.md R104 to R107). -/

namespace Sys2Proof.Machine

/-! ## Register arrays -/

/-- The byte values 0 to 255, in ascending order (00_scope.md R8). -/
def allBytes : List Byte := (List.range 256).map (BitVec.ofNat 8)

/-- HIST[v] (10_state.md R51). -/
def histAt (hist : Vector Word 256) (v : Byte) : Word := hist[v.toNat]'v.isLt

/-- CODE[v] (10_state.md R52). -/
def codeAt (code : Vector Code 256) (v : Byte) : Code := code[v.toNat]'v.isLt

/-- CODE[v] ← c. -/
def setCode (code : Vector Code 256) (v : Byte) (c : Code) : Vector Code 256 :=
  code.set v.toNat c v.isLt

/-- NODE[n] (10_state.md R49). Index 511 names no node, and no tree holds it (10_state.md R50);
Leaf(0, 0) stands for it (log entry 9). -/
def nodeAt (node : Vector Node 511) (n : NodeIdx) : Node := node[n.toNat]?.getD (.leaf 0#8 0#40)

/-- The frequency of a node (10_state.md R49). -/
def Node.freq : Node → Freq
  | .leaf _ f => f
  | .internal f _ _ => f

/-! ## Buffers -/

/-- IN[0..IN_LEN−1], each byte read once in rising order, and the state after the draws
(00_scope.md R14, R15; log entry 10). -/
def readInput (s : State) : List Byte × State :=
  let r := s.mem.read inBase s.inLen.toNat s.draws
  (r.1, { s with draws := r.2 })

/-- PBUF[0..PLEN−1], each byte read once in rising order (10_state.md R53; log entry 10). -/
def readPayload (s : State) : List Byte × State :=
  let r := s.pbuf.read 0 s.plen.toNat s.draws
  (r.1, { s with draws := r.2 })

/-- OUT[0], OUT[1], … ← the bytes (00_scope.md R14). -/
def writeOutput (bs : List Byte) (s : State) : State :=
  { s with mem := s.mem.store outBase bs }

/-- PBUF[0..N−1] ← the bytes, PLEN ← N, PAD ← p, PAYLOAD_VALID ← 1: how PACK and DESERIALIZE end
(43_bit_packer.md R139, 44_container_framer.md R155). -/
def setPayload (bs : List Byte) (p : BitVec 3) (s : State) : State :=
  { s with
    pbuf := s.pbuf.store 0 bs
    plen := BitVec.ofNat 32 bs.length, pad := p, payloadValid := true }

/-! ## Bit layouts -/

/-- ceil(n / 8) (00_scope.md R17). -/
def ceilDiv8 (n : Nat) : Nat := (n + 7) / 8

/-- The pad count of a bit sequence of length `n` (30_encoding.md R104). -/
def padCount (n : Nat) : Nat := (8 - n % 8) % 8

/-- The number of a bit sequence whose first bit is the most significant (30_encoding.md R106). -/
def bitsNat (bs : Bits) : Nat := bs.foldl (fun v b => 2 * v + b.toNat) 0

/-- The bits of a byte, most significant first (30_encoding.md R105). -/
def byteBits (b : Byte) : Bits :=
  [b.getLsbD 7, b.getLsbD 6, b.getLsbD 5, b.getLsbD 4, b.getLsbD 3, b.getLsbD 2, b.getLsbD 1,
    b.getLsbD 0]

/-- Pack a bit sequence whose length is a multiple of 8, first bit of each group in bit 7
(30_encoding.md R104). -/
def packGroups : Bits → List Byte
  | b7 :: b6 :: b5 :: b4 :: b3 :: b2 :: b1 :: b0 :: rest =>
    BitVec.ofNat 8 (bitsNat [b7, b6, b5, b4, b3, b2, b1, b0]) :: packGroups rest
  | _ => []

/-- Pack a bit sequence into bytes, 0 bits appended up to a multiple of 8 (30_encoding.md R104). -/
def packBits (s : Bits) : List Byte :=
  packGroups (s ++ List.replicate (padCount s.length) false)

/-- The bits of a payload (30_encoding.md R105). -/
def unpackBytes (bs : List Byte) : Bits := bs.flatMap byteBits

/-- The retained bits: all but the last `pad` (30_encoding.md R105). -/
def retainedBits (bs : List Byte) (pad : BitVec 3) : Bits :=
  (unpackBytes bs).take (8 * bs.length - pad.toNat)

/-- The entry that stores a code (30_encoding.md R106). -/
def Code.ofBits (s : Bits) : Code :=
  { len := BitVec.ofNat 8 s.length, val := BitVec.ofNat 256 (bitsNat s) }

/-- The code an entry stores: V[L−1] … V[0] (30_encoding.md R107, 43_bit_packer.md R139). -/
def Code.bits (c : Code) : Bits :=
  (List.range c.len.toNat).map fun j => c.val.getLsbD (c.len.toNat - 1 - j)

end Sys2Proof.Machine
end

