-- ==== Sys2Proof/Machine/Bus.lean ====
section
/-! DEFINITION. The host bus: the register map (10_state.md R22), reads and writes of the CSR window
and of the buffers, and the answers (20_memory.md R67 to R75). -/

namespace Sys2Proof.Machine

/-- The control and status registers (10_state.md R22). -/
inductive Csr where
  | id | ctrl | status | cmd | inLen | outLen | plen | pad | errInfo | errArg | nsym | root | nnodes
  | totalLo | totalHi | codeIdx | codeLen
  | codeW (k : Fin 8)
  | nodeIdx | nodeInfo | nodeFreqLo | nodeFreqHi | nodeLeft | nodeRight
  | hist (v : Byte)
  deriving DecidableEq, Repr

/-- The register map (10_state.md R22). -/
def Csr.offset : Csr → Nat
  | .id => 0x000
  | .ctrl => 0x004
  | .status => 0x008
  | .cmd => 0x00C
  | .inLen => 0x010
  | .outLen => 0x014
  | .plen => 0x018
  | .pad => 0x01C
  | .errInfo => 0x020
  | .errArg => 0x024
  | .nsym => 0x028
  | .root => 0x02C
  | .nnodes => 0x030
  | .totalLo => 0x034
  | .totalHi => 0x038
  | .codeIdx => 0x040
  | .codeLen => 0x044
  | .codeW k => 0x048 + 4 * k.val
  | .nodeIdx => 0x080
  | .nodeInfo => 0x084
  | .nodeFreqLo => 0x088
  | .nodeFreqHi => 0x08C
  | .nodeLeft => 0x090
  | .nodeRight => 0x094
  | .hist v => 0x400 + 4 * v.toNat

/-- The registers with one offset of their own (10_state.md R22). -/
def singleCsrs : List Csr :=
  [.id, .ctrl, .status, .cmd, .inLen, .outLen, .plen, .pad, .errInfo, .errArg, .nsym, .root, .nnodes,
    .totalLo, .totalHi, .codeIdx, .codeLen, .nodeIdx, .nodeInfo, .nodeFreqLo, .nodeFreqHi, .nodeLeft,
    .nodeRight]

/-- The register at an offset of the CSR window, if one is listed (10_state.md R22). -/
def csrAt (off : Nat) : Option Csr :=
  if 0x400 ≤ off && off < 0x800 && off % 4 == 0 then
    some (.hist (BitVec.ofNat 8 ((off - 0x400) / 4)))
  else if 0x048 ≤ off && off < 0x068 && off % 4 == 0 then
    some (.codeW (Fin.ofNat 8 ((off - 0x048) / 4)))
  else singleCsrs.find? fun c => c.offset == off

/-- ID reads 0x48554631 (10_state.md R24). -/
def idValue : Word := 0x48554631#32

/-- The absent node index NONE (00_scope.md R17, 30_encoding.md R108). -/
def noneWord : Word := 0xFFFFFFFF#32

/-- A node index in a 32-bit register (30_encoding.md R108). -/
def nodeIdxWord : Option NodeIdx → Word
  | none => noneWord
  | some n => n.setWidth 32

/-- The node NODE_IDX selects, when it is present: NODE_IDX < NNODES (10_state.md R48). -/
def selectedNode (s : State) : Option Node :=
  if s.nodeIdx.toNat < s.nnodes.toNat then some (nodeAt s.node s.nodeIdx) else none

/-- NODE_INFO (10_state.md R48). -/
def nodeInfoWord : Option Node → Word
  | none => 0#32
  | some (.leaf sym _) => 1#1 ++ 0#15 ++ sym ++ 0#8
  | some (.internal _ _ _) => 0x80000001#32

/-- The frequency NODE_FREQ_LO and NODE_FREQ_HI show (10_state.md R48). -/
def nodeFreqOf : Option Node → Freq
  | none => 0#40
  | some n => n.freq

/-- NODE_LEFT (10_state.md R48). -/
def nodeLeftWord : Option Node → Word
  | some (.internal _ l _) => l.setWidth 32
  | some (.leaf _ _) | none => noneWord

/-- NODE_RIGHT (10_state.md R48). -/
def nodeRightWord : Option Node → Word
  | some (.internal _ _ r) => r.setWidth 32
  | some (.leaf _ _) | none => noneWord

/-- What a read of a register returns (10_state.md R24 to R51, R62). No read has a side effect
(20_memory.md R75). -/
def csrRead (s : State) : Csr → Word
  | .id => idValue
  | .ctrl => ctrlWord s
  | .status => statusWord s
  | .cmd => s.lastCmd
  | .inLen => s.inLen
  | .outLen => s.outLen
  | .plen => s.plen
  | .pad => s.pad.setWidth 32
  | .errInfo => errInfoWord s
  | .errArg => s.errArg
  | .nsym => s.nsym.setWidth 32
  | .root => nodeIdxWord s.root
  | .nnodes => s.nnodes.setWidth 32
  | .totalLo => s.total.extractLsb' 0 32
  | .totalHi => (s.total.extractLsb' 32 8).setWidth 32
  | .codeIdx => s.codeIdx.setWidth 32
  | .codeLen => (codeAt s.code s.codeIdx).len.setWidth 32
  | .codeW k => (codeAt s.code s.codeIdx).val.extractLsb' (32 * k.val) 32
  | .nodeIdx => s.nodeIdx.setWidth 32
  | .nodeInfo => nodeInfoWord (selectedNode s)
  | .nodeFreqLo => (nodeFreqOf (selectedNode s)).extractLsb' 0 32
  | .nodeFreqHi => ((nodeFreqOf (selectedNode s)).extractLsb' 32 8).setWidth 32
  | .nodeLeft => nodeLeftWord (selectedNode s)
  | .nodeRight => nodeRightWord (selectedNode s)
  | .hist v => histAt s.hist v

/-- A host write of HIST[v]: the data is stored and InvalidateTree runs (10_state.md R51). -/
def writeHist (v : Byte) (x : Word) (s : State) : State :=
  invalidateTree { s with hist := s.hist.set v.toNat x v.isLt }

/-- What a write of a register does: RW registers store the data truncated to their fields, STATUS
is W1C, CMD issues, RO registers ignore it (10_state.md R23; 20_memory.md R73, R75). -/
def csrWrite (v : Word) (s : State) : Csr → State
  | .ctrl => writeCtrl v s
  | .status => writeStatus v s
  | .cmd => issue v s
  | .inLen => { s with inLen := v }
  | .codeIdx => { s with codeIdx := v.setWidth 8 }
  | .nodeIdx => { s with nodeIdx := v.setWidth 9 }
  | .hist b => writeHist b v s
  | .id | .outLen | .plen | .pad | .errInfo | .errArg | .nsym | .root | .nnodes | .totalLo | .totalHi
  | .codeLen | .codeW _ | .nodeInfo | .nodeFreqLo | .nodeFreqHi | .nodeLeft | .nodeRight => s

/-- The CSR accesses served while BUSY = 1 (20_memory.md R72). -/
def servedWhileBusy : BusKind → Csr → Bool
  | .read, .id | .read, .ctrl | .read, .status | .read, .cmd => true
  | .write, .ctrl | .write, .status => true
  | _, _ => false

/-- The bytes of a transaction (20_memory.md R67). -/
def BusSize.bytes : BusSize → Nat
  | .b1 => 1
  | .b2 => 2
  | .b4 => 4

/-- An ERROR response returns rdata = 0 (20_memory.md R74). -/
def errorAnswer : Answer := { resp := .error, rdata := 0#32 }

/-- An OKAY response with read data. -/
def okayAnswer (v : Word) : Answer := { resp := .okay, rdata := v }

/-- A transaction in the CSR window (20_memory.md R70, R72). -/
def serveCsr (t : Transaction) (s : State) : Answer × State :=
  match t.size with
  | .b1 | .b2 => (errorAnswer, s)
  | .b4 =>
    match csrAt t.addr.toNat with
    | none => (errorAnswer, s)
    | some c =>
      if s.busy && !servedWhileBusy t.kind c then (errorAnswer, s)
      else
        match t.kind with
        | .read => (okayAnswer (csrRead s c), s)
        | .write => (okayAnswer 0#32, csrWrite t.wdata s c)

/-- In bounds of a buffer: base ≤ a and o + n ≤ cap (20_memory.md R71). -/
def inBuffer (base cap a n : Nat) : Bool := decide (base ≤ a) && decide (a + n ≤ base + cap)

/-- In bounds of IN_BUF or of OUT_BUF (20_memory.md R64, R71). -/
def inBuffers (c : Config) (a n : Nat) : Bool :=
  inBuffer inBase c.inCap a n || inBuffer outBase c.outCap a n

/-- A transaction in bounds of a buffer: little-endian, refused while BUSY (20_memory.md R68,
R72). -/
def serveBuffer (t : Transaction) (s : State) : Answer × State :=
  if s.busy then (errorAnswer, s)
  else
    match t.kind with
    | .read =>
      let r := s.mem.read t.addr.toNat t.size.bytes s.draws
      (okayAnswer (leWord r.1), { s with draws := r.2 })
    | .write =>
      (okayAnswer 0#32,
        { s with mem := s.mem.store t.addr.toNat (leBytes t.size.bytes t.wdata) })

/-- The answer to a transaction and the state after it (20_memory.md R69 to R75). -/
def serve (t : Transaction) (s : State) : Answer × State :=
  if t.addr.toNat % t.size.bytes ≠ 0 then (errorAnswer, s)
  else if t.addr.toNat < csrSize then serveCsr t s
  else if inBuffers s.cfg t.addr.toNat t.size.bytes then serveBuffer t s
  else (errorAnswer, s)

/-- A host step: the transaction is served and its answer stands at the port (20_memory.md R67). -/
def busStep (t : Transaction) (s : State) : State :=
  let r := serve t s
  { r.2 with answer := some r.1 }

end Sys2Proof.Machine
end

