-- ==== Sys2Proof/Machine/Control.lean ====
section
/-! DEFINITION. The control commands: NOP, CLEAR (45_pipeline_and_control.md). -/

namespace Sys2Proof.Machine

/-- The body of NOP: skip (45_pipeline_and_control.md R163). -/
def nopBody (s : State) : BodyResult := .ok s

/-- NOP (45_pipeline_and_control.md R163). -/
def execNop (s : State) : Host.Outcome State Fault Refusal := .next (complete .nop (nopBody s))

/-- The body of CLEAR (45_pipeline_and_control.md R164). -/
def clearBody (s : State) : BodyResult :=
  .ok { invalidatePayload (invalidateTree { s with hist := Vector.replicate 256 0#32 }) with
        outLen := 0#32 }

/-- CLEAR (45_pipeline_and_control.md R164). -/
def execClear (s : State) : Host.Outcome State Fault Refusal :=
  .next (complete .clear (clearBody s))

end Sys2Proof.Machine
end

