-- ==== Sys2Proof/Machine/Codes.lean ====
section
/-! DEFINITION. The code table generator: GENCODES (42_code_table.md). -/

namespace Sys2Proof.Machine

/-- Assign(n, s): depth-first from node `n`, whose path from the root is `s`; left appends 0, right
appends 1 (42_code_table.md R132). `fuel` bounds the depth of the calls; NNODES is enough, since a
path visits no node twice. -/
def assign (node : Vector Node 511) :
    (fuel : Nat) → NodeIdx → Bits → Vector Code 256 → Vector Code 256
  | 0, _, _, table => table
  | fuel + 1, n, s, table =>
    match nodeAt node n with
    | .leaf sym _ => setCode table sym (Code.ofBits s)
    | .internal _ l r =>
      assign node fuel r (s ++ [true]) (assign node fuel l (s ++ [false]) table)

/-- The table with every entry absent (10_state.md R52). -/
def absentTable : Vector Code 256 := Vector.replicate 256 Code.absent

/-- SEQUENCE subcode 1, TREE_INVALID (60_exceptions.md R174). -/
def treeInvalid (stage : Byte) : Raised :=
  { err := .sequence, sub := 1#8, sym := 0#8, arg := 0#32, stage := stage }

/-- DEGENERATE_SINGLE_SYMBOL subcode 1, with the symbol and TOTAL[31:0] (60_exceptions.md R174). -/
def singleSymbol (sym : Byte) (total : Freq) : Raised :=
  { err := .degenerateSingleSymbol, sub := 1#8, sym := sym, arg := total.setWidth 32
    stage := Instr.gencodes.opcode }

/-- The forced code "0" of a single-symbol tree (42_code_table.md R134). -/
def forcedCode : Code := { len := 1#8, val := 0#256 }

/-- The code table becomes `table`, CODES_VALID ← 1 (42_code_table.md R132). -/
def setCodes (table : Vector Code 256) (s : State) : State :=
  { s with code := table, codesValid := true }

/-- The code table of a tree: empty (42_code_table.md R135), of one leaf (R134), or assigned
depth-first from the root (R132). -/
def codeTable (node : Vector Node 511) (nnodes : Nat) : Option NodeIdx → Vector Code 256
  | none => absentTable
  | some r =>
    match nodeAt node r with
    | .leaf sym _ => setCode absentTable sym forcedCode
    | .internal _ _ _ => assign node nnodes r [] absentTable

/-- The symbol of a single-leaf tree: the root is a leaf (42_code_table.md R134). -/
def singleLeafSym (s : State) : Option Byte :=
  match s.root with
  | none => none
  | some r =>
    match nodeAt s.node r with
    | .leaf sym _ => some sym
    | .internal _ _ _ => none

/-- The body of GENCODES (42_code_table.md R132). -/
def gencodesBody (s : State) : BodyResult :=
  if s.treeValid = false then .raised (treeInvalid Instr.gencodes.opcode) s
  else
    match singleLeafSym s with
    | some sym =>
      if s.latchedDegen then .raised (singleSymbol sym s.total) (invalidateCodes s)
      else .ok (setCodes (codeTable s.node s.nnodes.toNat s.root) s)
    | none => .ok (setCodes (codeTable s.node s.nnodes.toNat s.root) s)

/-- GENCODES (42_code_table.md R132). -/
def execGencodes (s : State) : Host.Outcome State Fault Refusal :=
  .next (complete .gencodes (gencodesBody s))

end Sys2Proof.Machine
end

