-- ==== Sys2Proof/Machine/Counter.lean ====
section
/-! DEFINITION. The frequency counter: COUNT (40_frequency_counter.md). -/

namespace Sys2Proof.Machine

/-- The histogram of a byte sequence: for each value, how often it occurs
(40_frequency_counter.md R113). -/
def countBytes (bs : List Byte) : Vector Word 256 :=
  Vector.ofFn fun v : Fin 256 => BitVec.ofNat 32 (bs.count (BitVec.ofNat 8 v))

/-- CAPACITY subcode 1, IN_LEN_OVER, raised by the operation with opcode `stage`
(60_exceptions.md R174). -/
def inLenOver (stage : Byte) (s : State) : Raised :=
  { err := .capacity, sub := 1#8, sym := 0#8, arg := s.inLen, stage := stage }

/-- The body of COUNT (40_frequency_counter.md R113). -/
def countBody (s : State) : BodyResult :=
  if s.cfg.inCap < s.inLen.toNat then .raised (inLenOver Instr.count.opcode s) s
  else
    let r := readInput s
    .ok (invalidateTree { r.2 with hist := countBytes r.1 })

/-- COUNT (40_frequency_counter.md R113). -/
def execCount (s : State) : Host.Outcome State Fault Refusal :=
  .next (complete .count (countBody s))

end Sys2Proof.Machine
end

