-- ==== Sys2Proof/Machine/Packer.lean ====
section
/-! DEFINITION. The bit packer and unpacker: PACK, UNPACK (43_bit_packer.md). -/

namespace Sys2Proof.Machine

/-! ## PACK -/

/-- How PACK's loop ends: every byte encoded, or the first error (43_bit_packer.md R139). -/
inductive PackResult where
  | bits (s : Bits)
  /-- IN[i] = b has no code. -/
  | absent (b : Byte) (i : Nat)
  /-- With IN[i] = b the bits no longer fit PBUF_CAP bytes. -/
  | over (b : Byte) (i : Nat)
  deriving DecidableEq, Repr

/-- PACK's loop at offset `i` with the bits `s` so far; ABSENT_CODE is checked before CAPACITY
(43_bit_packer.md R139). -/
def packLoop (code : Vector Code 256) (cap : Nat) : (i : Nat) → Bits → List Byte → PackResult
  | _, s, [] => .bits s
  | i, s, b :: bs =>
    let c := codeAt code b
    if c.len = 0#8 then .absent b i
    else if cap < ceilDiv8 (s ++ c.bits).length then .over b i
    else packLoop code cap (i + 1) (s ++ c.bits) bs

/-- SEQUENCE subcode 2, CODES_INVALID (60_exceptions.md R174). -/
def codesInvalid : Raised :=
  { err := .sequence, sub := 2#8, sym := 0#8, arg := 0#32, stage := Instr.pack.opcode }

/-- ABSENT_CODE subcode 1 (60_exceptions.md R174). -/
def absentCode (b : Byte) (i : Nat) : Raised :=
  { err := .absentCode, sub := 1#8, sym := b, arg := BitVec.ofNat 32 i, stage := Instr.pack.opcode }

/-- CAPACITY subcode 2, PBUF_OVER, in PACK (60_exceptions.md R174). -/
def packOver (b : Byte) (i : Nat) : Raised :=
  { err := .capacity, sub := 2#8, sym := b, arg := BitVec.ofNat 32 i, stage := Instr.pack.opcode }

/-- The body of PACK (43_bit_packer.md R139, R142). -/
def packBody (s : State) : BodyResult :=
  if s.codesValid = false then .raised codesInvalid s
  else if s.cfg.inCap < s.inLen.toNat then .raised (inLenOver Instr.pack.opcode s) s
  else
    let r := readInput s
    match packLoop s.code s.cfg.pbufCap 0 [] r.1 with
    | .bits bits => .ok (setPayload (packBits bits) (BitVec.ofNat 3 (padCount bits.length)) r.2)
    | .absent b i => .raised (absentCode b i) (invalidatePayload r.2)
    | .over b i => .raised (packOver b i) (invalidatePayload r.2)

/-- PACK (43_bit_packer.md R139). -/
def execPack (s : State) : Host.Outcome State Fault Refusal :=
  .next (complete .pack (packBody s))

/-! ## UNPACK -/

/-- SEQUENCE subcode 3, PAYLOAD_INVALID (60_exceptions.md R174). -/
def payloadInvalid (stage : Byte) : Raised :=
  { err := .sequence, sub := 3#8, sym := 0#8, arg := 0#32, stage := stage }

/-- CAPACITY subcode 3, OUT_OVER (60_exceptions.md R174). -/
def outOver (n : Nat) (stage : Byte) : Raised :=
  { err := .capacity, sub := 3#8, sym := 0#8, arg := BitVec.ofNat 32 n, stage := stage }

/-- EMPTY_TREE subcode 1, with PLEN (60_exceptions.md R174). -/
def emptyTree (plen : Word) : Raised :=
  { err := .emptyTree, sub := 1#8, sym := 0#8, arg := plen, stage := Instr.unpack.opcode }

/-- MALFORMED_CONTAINER raised by the walk (60_exceptions.md R174). -/
def walkError (sub sym : Byte) (j : Nat) : Raised :=
  { err := .malformedContainer, sub := sub, sym := sym, arg := BitVec.ofNat 32 j
    stage := Instr.unpack.opcode }

/-- How a walk ends: the symbols emitted, and the error if there is one (43_bit_packer.md R148). -/
structure WalkResult where
  out : List Byte
  error : Option Raised
  deriving DecidableEq, Repr

/-- One more symbol in front. -/
def WalkResult.emit (b : Byte) (r : WalkResult) : WalkResult := { r with out := b :: r.out }

/-- The walk of a single-leaf tree, at bit `j` with `e` symbols emitted: BAD_BIT before
COUNT_MISMATCH (43_bit_packer.md R148). -/
def walkLeaf (sym : Byte) (total : Nat) : (j e : Nat) → Bits → WalkResult
  | j, e, [] =>
    { out := [], error := if e = total then none else some (walkError 5#8 0#8 j) }
  | j, e, b :: bs =>
    if b then { out := [], error := some (walkError 6#8 sym j) }
    else if e = total then { out := [], error := some (walkError 5#8 sym j) }
    else (walkLeaf sym total (j + 1) (e + 1) bs).emit sym

/-- The child a bit selects: 0 left, 1 right (43_bit_packer.md R148). A leaf has none; the walk never
steps from one (log entry 9). -/
def childOf (node : Vector Node 511) (pos : NodeIdx) (b : Bool) : NodeIdx :=
  match nodeAt node pos with
  | .leaf _ _ => pos
  | .internal _ l r => if b then r else l

/-- The walk of a tree with two leaves or more, at bit `j`, position `pos`, `e` symbols emitted
(43_bit_packer.md R148). -/
def walkTree (node : Vector Node 511) (root : NodeIdx) (total : Nat) :
    (pos : NodeIdx) → (j e : Nat) → Bits → WalkResult
  | pos, j, e, [] =>
    { out := []
      error :=
        if pos ≠ root then some (walkError 4#8 0#8 j)
        else if e = total then none
        else some (walkError 5#8 0#8 j) }
  | pos, j, e, b :: bs =>
    let p := childOf node pos b
    match nodeAt node p with
    | .leaf sym _ =>
      if e = total then { out := [], error := some (walkError 5#8 sym j) }
      else (walkTree node root total root (j + 1) (e + 1) bs).emit sym
    | .internal _ _ _ => walkTree node root total p (j + 1) e bs

/-- Walk() from the root (43_bit_packer.md R148). -/
def walk (node : Vector Node 511) (root : NodeIdx) (total : Nat) (bits : Bits) : WalkResult :=
  match nodeAt node root with
  | .leaf sym _ => walkLeaf sym total 0 0 bits
  | .internal _ _ _ => walkTree node root total root 0 0 bits

/-- The body of UNPACK (43_bit_packer.md R146, R149, R150). -/
def unpackBody (s : State) : BodyResult :=
  if s.treeValid = false then .raised (treeInvalid Instr.unpack.opcode) s
  else if s.payloadValid = false then .raised (payloadInvalid Instr.unpack.opcode) s
  else if s.cfg.outCap < s.total.toNat then
    .raised (outOver (min s.total.toNat 0xFFFFFFFF) Instr.unpack.opcode) s
  else
    match s.root with
    | none =>
      if s.plen ≠ 0#32 then .raised (emptyTree s.plen) s
      else .ok { s with outLen := 0#32 }
    | some root =>
      let r := readPayload s
      let w := walk s.node root s.total.toNat (retainedBits r.1 s.pad)
      let s' := writeOutput w.out r.2
      match w.error with
      | some e => .raised e s'
      | none => .ok { s' with outLen := BitVec.ofNat 32 w.out.length }

/-- UNPACK (43_bit_packer.md R146). -/
def execUnpack (s : State) : Host.Outcome State Fault Refusal :=
  .next (complete .unpack (unpackBody s))

end Sys2Proof.Machine
end

