-- ==== Sys2Proof/Machine/Framer.lean ====
section
/-! DEFINITION. The container framer: SERIALIZE, DESERIALIZE (44_container_framer.md), and the
container's byte layout (30_encoding.md R99, R102, R103). -/

namespace Sys2Proof.Machine

/-- The container of a histogram, a payload and a pad count (30_encoding.md R102). -/
def containerBytes (hist : Vector Word 256) (payload : List Byte) (pad : BitVec 3) : List Byte :=
  hist.toList.flatMap (leBytes 4) ++ payload ++ [pad.setWidth 8]

/-- The histogram of a container: H[v] from bytes 4v to 4v + 3 (30_encoding.md R103). -/
def parseHist (B : List Byte) : Vector Word 256 :=
  Vector.ofFn fun v : Fin 256 => leWord ((B.drop (4 * v.val)).take 4)

/-- The payload of a container: bytes 1024 to L − 2 (30_encoding.md R103). -/
def parsePayload (B : List Byte) : List Byte := (B.drop 1024).take (B.length - 1025)

/-- The pad byte of a container, its last byte (30_encoding.md R103). -/
def parsePad (B : List Byte) : Byte := B.getLast?.getD 0#8

/-! ## SERIALIZE -/

/-- The body of SERIALIZE (44_container_framer.md R153). -/
def serializeBody (s : State) : BodyResult :=
  if s.payloadValid = false then
    .raised (payloadInvalid Instr.serialize.opcode) { s with outLen := 0#32 }
  else if s.cfg.outCap < 1025 + s.plen.toNat then
    .raised (outOver (1025 + s.plen.toNat) Instr.serialize.opcode) { s with outLen := 0#32 }
  else
    let r := readPayload s
    .ok { writeOutput (containerBytes s.hist r.1 s.pad) r.2 with
          outLen := BitVec.ofNat 32 (1025 + s.plen.toNat) }

/-- SERIALIZE (44_container_framer.md R153). -/
def execSerialize (s : State) : Host.Outcome State Fault Refusal :=
  .next (complete .serialize (serializeBody s))

/-! ## DESERIALIZE -/

/-- MALFORMED_CONTAINER raised by DESERIALIZE (60_exceptions.md R174). -/
def framingError (sub sym : Byte) (n : Nat) : Raised :=
  { err := .malformedContainer, sub := sub, sym := sym, arg := BitVec.ofNat 32 n
    stage := Instr.deserialize.opcode }

/-- CAPACITY subcode 2, PBUF_OVER, in DESERIALIZE (60_exceptions.md R174). -/
def framingOver (n : Nat) : Raised :=
  { err := .capacity, sub := 2#8, sym := 0#8, arg := BitVec.ofNat 32 n
    stage := Instr.deserialize.opcode }

/-- The body of DESERIALIZE (44_container_framer.md R155). -/
def deserializeBody (s : State) : BodyResult :=
  let L := s.inLen.toNat
  if s.cfg.inCap < L then .raised (inLenOver Instr.deserialize.opcode s) s
  else if L < 1025 then .raised (framingError 1#8 0#8 L) s
  else
    let r := readInput s
    let p := parsePad r.1
    let N := L - 1025
    if 7 < p.toNat then .raised (framingError 2#8 p (L - 1)) r.2
    else if 8 * N < p.toNat then .raised (framingError 3#8 p N) r.2
    else if s.cfg.pbufCap < N then .raised (framingOver N) r.2
    else
      .ok (invalidateTree
            (setPayload (parsePayload r.1) (p.setWidth 3) { r.2 with hist := parseHist r.1 }))

/-- DESERIALIZE (44_container_framer.md R155). -/
def execDeserialize (s : State) : Host.Outcome State Fault Refusal :=
  .next (complete .deserialize (deserializeBody s))

end Sys2Proof.Machine
end

