-- ==== Sys2Proof/Machine/Queue.lean ====
section
/-! DEFINITION. BUILD's priority queue under both tie policies (41_tree_builder.md R122, R123). -/

namespace Sys2Proof.Machine

/-- A queue entry: a node index and that node's frequency, NODE[idx].freq (41_tree_builder.md R122,
R123). A node's frequency never changes once the node exists, so the entry carries it. -/
structure QEntry where
  freq : Freq
  idx : Nat
  deriving DecidableEq, Repr

/-! ## FIFO: an ordered multiset keyed by (freq, index) -/

/-- Lexicographic order on (freq, index) (41_tree_builder.md R122). -/
def QEntry.before (x y : QEntry) : Bool :=
  decide (x.freq < y.freq) || (decide (x.freq = y.freq) && decide (x.idx < y.idx))

/-- The least entry among `x` and the rest (41_tree_builder.md R122). -/
def fifoLeast (x : QEntry) (q : List QEntry) : QEntry :=
  q.foldl (fun m y => if y.before m then y else m) x

/-- QueueExtractMin under FIFO (41_tree_builder.md R122). -/
def fifoExtractMin : List QEntry → Option (QEntry × List QEntry)
  | [] => none
  | x :: q => let m := fifoLeast x q; some (m, (x :: q).erase m)

/-! ## HEAP: an array-based binary min-heap on frequency alone -/

/-- lt(x, y): strict, by frequency alone (41_tree_builder.md R123). -/
def QEntry.lt (x y : QEntry) : Bool := decide (x.freq < y.freq)

/-- H[i]. Every index used is below |H|. -/
def heapAt (h : List QEntry) (i : Nat) : QEntry := h[i]?.getD { freq := 0#40, idx := 0 }

/-- SiftDown's loop: `new` moves from `pos` toward the root. `fuel` bounds the steps; `pos` is
enough, since each step at least halves it (41_tree_builder.md R123). -/
def siftDownLoop (new : QEntry) (start : Nat) : (fuel : Nat) → List QEntry → (pos : Nat) → List QEntry
  | 0, h, pos => h.set pos new
  | fuel + 1, h, pos =>
    if start < pos then
      let parent := (pos - 1) / 2
      if new.lt (heapAt h parent) then
        siftDownLoop new start fuel (h.set pos (heapAt h parent)) parent
      else h.set pos new
    else h.set pos new

/-- SiftDown(H, start, pos) (41_tree_builder.md R123). -/
def siftDown (h : List QEntry) (start pos : Nat) : List QEntry :=
  siftDownLoop (heapAt h pos) start pos h pos

/-- SiftUp's loop: the hole at `pos` moves to a leaf, always to the smaller child, and to the right
one when neither is smaller. `fuel` bounds the steps; |H| is enough (41_tree_builder.md R123). -/
def siftUpLoop : (fuel : Nat) → List QEntry → (pos : Nat) → List QEntry × Nat
  | 0, h, pos => (h, pos)
  | fuel + 1, h, pos =>
    let child := 2 * pos + 1
    if child < h.length then
      let right := child + 1
      let c := if right < h.length && !(heapAt h child).lt (heapAt h right) then right else child
      siftUpLoop fuel (h.set pos (heapAt h c)) c
    else (h, pos)

/-- SiftUp(H, pos) (41_tree_builder.md R123). -/
def siftUp (h : List QEntry) (pos : Nat) : List QEntry :=
  let r := siftUpLoop h.length h pos
  siftDown (r.1.set r.2 (heapAt h pos)) pos r.2

/-- QueueInsert under HEAP (41_tree_builder.md R123). -/
def heapInsert (h : List QEntry) (e : QEntry) : List QEntry := siftDown (h ++ [e]) 0 h.length

/-- QueueExtractMin under HEAP (41_tree_builder.md R123). -/
def heapExtractMin (h : List QEntry) : Option (QEntry × List QEntry) :=
  match h.getLast? with
  | none => none
  | some last =>
    match h.dropLast with
    | [] => some (last, [])
    | top :: rest => some (top, siftUp (last :: rest) 0)

/-! ## The queue under a policy -/

/-- QueueInsert (41_tree_builder.md R122, R123). -/
def queueInsert (tie : TiePolicy) (q : List QEntry) (e : QEntry) : List QEntry :=
  match tie with
  | .fifo => q ++ [e]
  | .heap => heapInsert q e

/-- QueueExtractMin (41_tree_builder.md R122, R123). -/
def queueExtractMin (tie : TiePolicy) (q : List QEntry) : Option (QEntry × List QEntry) :=
  match tie with
  | .fifo => fifoExtractMin q
  | .heap => heapExtractMin q

/-- QueueInit: the entries inserted in order (41_tree_builder.md R122, R123). -/
def queueInit (tie : TiePolicy) (es : List QEntry) : List QEntry :=
  es.foldl (queueInsert tie) []

end Sys2Proof.Machine
end

