-- ==== Sys2Proof/Machine/Tree.lean ====
section
/-! DEFINITION. The tree builder: BUILD (41_tree_builder.md). -/

namespace Sys2Proof.Machine

/-- A built tree: the nodes in index order, the number of leaves, and the root's index. -/
structure HuffTree where
  nodes : List Node
  leaves : Nat
  root : Option Nat
  deriving DecidableEq, Repr

/-- One leaf per nonzero histogram entry, in ascending byte value (41_tree_builder.md R118). -/
def leavesOf (hist : Vector Word 256) : List Node :=
  allBytes.filterMap fun v =>
    if histAt hist v = 0#32 then none else some (.leaf v ((histAt hist v).setWidth 40))

/-- The queue entries of nodes with indices from `n` on. -/
def entriesFrom (n : Nat) : List Node → List QEntry
  | [] => []
  | x :: xs => { freq := x.freq, idx := n } :: entriesFrom (n + 1) xs

/-- The merge loop: while two entries remain, extract two, make their parent (the first extracted is
the left child, R124), and insert it. `fuel` bounds the merges; the number of leaves is enough
(41_tree_builder.md R118, R121). -/
def mergeLoop (tie : TiePolicy) : (fuel : Nat) → List Node → List QEntry → List Node × List QEntry
  | 0, ns, q => (ns, q)
  | fuel + 1, ns, q =>
    match queueExtractMin tie q with
    | none => (ns, q)
    | some (a, q1) =>
      match queueExtractMin tie q1 with
      | none => (ns, q)
      | some (b, q2) =>
        let f := a.freq + b.freq
        mergeLoop tie fuel
          (ns ++ [.internal f (BitVec.ofNat 9 a.idx) (BitVec.ofNat 9 b.idx)])
          (queueInsert tie q2 { freq := f, idx := ns.length })

/-- The tree of a histogram (41_tree_builder.md R118 to R121). -/
def buildTree (tie : TiePolicy) (hist : Vector Word 256) : HuffTree :=
  let ls := leavesOf hist
  match ls with
  | [] => { nodes := [], leaves := 0, root := none }
  | [_] => { nodes := ls, leaves := 1, root := some 0 }
  | _ :: _ :: _ =>
    let r := mergeLoop tie ls.length ls (queueInit tie (entriesFrom 0 ls))
    { nodes := r.1, leaves := ls.length
      root := (queueExtractMin tie r.2).map fun e => e.1.idx }

/-- TOTAL: the root's frequency, 0 for an empty tree (41_tree_builder.md R118). -/
def HuffTree.total (t : HuffTree) : Freq :=
  match t.root with
  | none => 0#40
  | some r => ((t.nodes[r]?).map Node.freq).getD 0#40

/-- NODE[0..m−1] ← the nodes; the other entries keep what they held (41_tree_builder.md R118). -/
def storeNodes (old : Vector Node 511) (ns : List Node) : Vector Node 511 :=
  Vector.ofFn fun i => (ns[i.val]?).getD old[i]

/-- The tree registers after a build of `t`: NODE, NSYM, NNODES, ROOT, TOTAL, TREE_VALID
(41_tree_builder.md R118). -/
def setTree (t : HuffTree) (s : State) : State :=
  { s with
    node := storeNodes s.node t.nodes
    nsym := BitVec.ofNat 9 t.leaves
    nnodes := BitVec.ofNat 10 t.nodes.length
    root := t.root.map (BitVec.ofNat 9)
    total := t.total
    treeValid := true }

/-- The body of BUILD, which never fails (41_tree_builder.md R118). -/
def buildBody (s : State) : BodyResult :=
  .ok (setTree (buildTree s.cfg.tie s.hist) (invalidateCodes s))

/-- BUILD (41_tree_builder.md R118). -/
def execBuild (s : State) : Host.Outcome State Fault Refusal :=
  .next (complete .build (buildBody s))

end Sys2Proof.Machine
end

