-- ==== Sys2Proof/Machine/Pipeline.lean ====
section
/-! DEFINITION. The composite commands: COMPRESS, DECOMPRESS (45_pipeline_and_control.md). Each runs
the bodies of its sub-operations within one completion step. -/

namespace Sys2Proof.Machine

/-- The body of COMPRESS (45_pipeline_and_control.md R161). -/
def compressBody (s : State) : BodyResult :=
  ((((countBody s).andThen buildBody).andThen gencodesBody).andThen packBody).andThen serializeBody

/-- COMPRESS (45_pipeline_and_control.md R161). -/
def execCompress (s : State) : Host.Outcome State Fault Refusal :=
  .next (complete .compress (compressBody s))

/-- The body of DECOMPRESS (45_pipeline_and_control.md R162). -/
def decompressBody (s : State) : BodyResult :=
  ((deserializeBody s).andThen buildBody).andThen unpackBody

/-- DECOMPRESS (45_pipeline_and_control.md R162). -/
def execDecompress (s : State) : Host.Outcome State Fault Refusal :=
  .next (complete .decompress (decompressBody s))

end Sys2Proof.Machine
end

