-- ==== Sys2Proof/Machine/Step.lean ====
section
/-! DEFINITION. One step of the block: the next event in the one total order (20_memory.md R83), or,
when none is pending, the completion step of the command in execution (60_exceptions.md R177). -/

namespace Sys2Proof.Machine

/-- DecodeAndExecute with the completion step around it (30_encoding.md R91, 60_exceptions.md
R177). -/
def completeCommand (s : State) : Host.Outcome State Fault Refusal :=
  match decode (fetchCommand s) with
  | .ok i => exec i s
  | .error why => .next (illegalCommand why s)

/-- The core's turn: its completion step when it is enabled, else nothing (60_exceptions.md R177,
70_reset_and_hazards.md R199). -/
def coreTurn (s : State) : Host.Outcome State Fault Refusal :=
  if coreEnabled s then completeCommand s else .next s

/-- One step (log entry 2). -/
def step (s : State) : Host.Outcome State Fault Refusal :=
  match s.inbox with
  | [] => coreTurn s
  | .core :: rest => coreTurn { s with inbox := rest }
  | .bus t :: rest => .next (busStep t { s with inbox := rest })
  | .reset :: rest => .next (resetEvent { s with inbox := rest })

/-- The command word `w` issued, and the core's turn next: what an accepted CMD write leaves
(20_memory.md R73; log entry 7). The bits above `nbits` are 0. -/
def State.withFetchWord (s : State) (nbits w : Nat) : State :=
  { issue (BitVec.ofNat 32 (w % 2 ^ nbits)) s with inbox := .core :: s.inbox }

end Sys2Proof.Machine
end

