-- ==== Sys2Proof/Machine/HostProgram.lean ====
section
/-! DEFINITION. The host-program notation (30_encoding.md R96, R97), expanded into the events of a
state's inbox, the expectations a line states about the answers, and the end of a run
(70_reset_and_hazards.md R211). -/

namespace Sys2Proof.Machine

/-- An address of the notation: a number, a register, `IN+o` or `OUT+o` (30_encoding.md R96). -/
inductive HostAddr where
  | num (a : Word)
  | reg (c : Csr)
  | inBuf (o : Nat)
  | outBuf (o : Nat)
  deriving DecidableEq, Repr

/-- The bus address (30_encoding.md R96). -/
def HostAddr.addr : HostAddr → Word
  | .num a => a
  | .reg c => BitVec.ofNat 32 c.offset
  | .inBuf o => BitVec.ofNat 32 (inBase + o)
  | .outBuf o => BitVec.ofNat 32 (outBase + o)

/-- What a line states about its answer (30_encoding.md R96): a response OKAY, OKAY with this data, or
ERROR. DESIGN CHOICE (log entry 16): R96 demands OKAY of a WR line that does not say `-> ERROR` and
says nothing of a RD line's response. The model gives every line an expectation, so that a RD line
without an assertion expects OKAY. -/
inductive Expect where
  | okay
  | data (v : Word)
  | error
  deriving DecidableEq, Repr

/-- An answer meets an expectation (30_encoding.md R96). DESIGN CHOICE (log entry 16): `RD32 a -> v`
asserts rdata = v, and R96 does not say of it that the response is OKAY; the model demands both. The
two differ for v = 0 alone, which an ERROR answer returns too (20_memory.md R74). -/
def Expect.met : Expect → Answer → Bool
  | .okay, a => a.resp == .okay
  | .data v, a => a.resp == .okay && a.rdata == v
  | .error, a => a.resp == .error

/-- A line of a host program (30_encoding.md R96, R97). `wait` is told how many polls see BUSY = 1
before the core's turn comes: the delay is finite and unspecified (70_reset_and_hazards.md R213).
DESIGN CHOICE (log entry 14): `wait` is the only line in which the core has its turn. -/
inductive HostLine where
  | wr (size : BusSize) (a : HostAddr) (v : Word) (e : Expect)
  | rd (size : BusSize) (a : HostAddr) (e : Expect)
  | cmd (i : Instr)
  | wait (polls : Nat)
  | ack
  | load (o : Nat) (bytes : List Byte)
  | zero (a : HostAddr) (n : Nat)
  deriving DecidableEq, Repr

/-- A READ transaction. -/
def readTxn (size : BusSize) (a : Word) : Transaction :=
  { kind := .read, addr := a, size := size, wdata := 0#32 }

/-- A WRITE transaction. -/
def writeTxn (size : BusSize) (a v : Word) : Transaction :=
  { kind := .write, addr := a, size := size, wdata := v }

/-- `RD32 STATUS`. -/
def pollStatus : Event := .bus (readTxn .b4 (BitVec.ofNat 32 Csr.status.offset))

/-- One `WR8 IN+(o+i)` for each byte (30_encoding.md R97). -/
def loadEvents (o : Nat) : List Byte → List Event
  | [] => []
  | b :: bs =>
    .bus (writeTxn .b1 (BitVec.ofNat 32 (inBase + o)) (b.setWidth 32)) :: loadEvents (o + 1) bs

/-- The expansion of a line (30_encoding.md R96, R97). DESIGN CHOICE (log entry 14): when a command
completes is open (70_reset_and_hazards.md R213), and a program's expansion gives the core its turn
only inside WAIT, after the polls that see BUSY = 1, never before a WAIT or between other lines. An
inbox with the core's turns elsewhere is a run of the same program in which commands complete earlier
or later. -/
def HostLine.events : HostLine → List Event
  | .wr size a v _ => [.bus (writeTxn size a.addr v)]
  | .rd size a _ => [.bus (readTxn size a.addr)]
  | .cmd i => [.bus (writeTxn .b4 (BitVec.ofNat 32 Csr.cmd.offset) (encode i))]
  | .wait polls => List.replicate polls pollStatus ++ [.core, pollStatus]
  | .ack => [.bus (writeTxn .b4 (BitVec.ofNat 32 Csr.status.offset) 2#32)]
  | .load o bytes => loadEvents o bytes
  | .zero a n =>
    (List.range (n / 4)).map fun i =>
      .bus (writeTxn .b4 (a.addr + BitVec.ofNat 32 (4 * i)) 0#32)

/-- The expectation a line states about its last answer (30_encoding.md R96, R97). `WAIT` ends with
BUSY = 0, which is a property of the data read, not one value; its last answer must be OKAY. -/
def HostLine.expect : HostLine → Expect
  | .wr _ _ _ e => e
  | .rd _ _ e => e
  | .cmd _ | .wait _ | .ack | .load _ _ | .zero _ _ => .okay

/-- The events of a program. -/
def programEvents (p : List HostLine) : List Event := p.flatMap HostLine.events

/-- A host program placed before the events already pending. -/
def withProgram (p : List HostLine) (s : State) : State :=
  { s with inbox := programEvents p ++ s.inbox }

/-- The event is a transaction of the host program; the core's turns and resets are no part of it
(30_encoding.md R96, R97). -/
def isTransaction : Event → Bool
  | .bus _ => true
  | .core | .reset => false

/-- A run is over when the host program has executed its last transaction and BUSY = 0
(70_reset_and_hazards.md R211): no transaction is pending. A turn of the idle core or a reset that still
stands in the inbox does not keep it from being over, and its observation is this state, before such a
reset. DESIGN CHOICE (log entry 16): R211 says nothing of a run that a reset interrupts, while BUSY = 1
or before the last transaction; the model puts the same test to the states after that reset. -/
def runOver (s : State) : Bool := !s.inbox.any isTransaction && !s.busy

end Sys2Proof.Machine
end

