-- ==== Sys2Proof/Safety.lean ====
section
/-! DEFINITION. What claims about the block are said in: bytes of memory, the groups of state a
command leaves alone, the effects every completion has, the errors of each command, how a walk fails,
the shape of a tree (10_state.md R50), the container of a payload, how entries move in a heap
(41_tree_builder.md R123), and the invariant of the machine (10_state.md R29 to R31, R61). -/

namespace Sys2Proof.Machine

/-! ## Memory -/

/-- Every one of `n` bytes from `a` on has been written since reset (20_memory.md R78). -/
def Written (m : Memory) (a n : Nat) : Prop := ∀ k, k < n → (m.get? (a + k)).isSome

/-- The bytes `bs` stand in memory from address `a` on. -/
def Holds (m : Memory) (a : Nat) (bs : List Byte) : Prop :=
  ∀ k, (h : k < bs.length) → m.get? (a + k) = some bs[k]

/-- How many of the `n` bytes from `a` on nothing has written since reset: the draws a read of them
takes (20_memory.md R78; log entry 3). -/
def unwrittenIn (m : Memory) (a n : Nat) : Nat :=
  (List.range n).countP fun k => (m.get? (a + k)).isNone

/-- Every address outside the `n` bytes from `a` on reads as before. -/
def SameOutside (a n : Nat) (m m' : Memory) : Prop :=
  ∀ x, x < a ∨ a + n ≤ x → m'.get? x = m.get? x

/-! ## Frames: groups of state -/

/-- The configuration, the host's registers and the model's port, which no command writes:
CTRL, LASTCMD, LATCHED_DEGEN, IN_LEN, CODE_IDX, NODE_IDX (30_encoding.md R94). -/
def SameControl (s t : State) : Prop :=
  t.cfg = s.cfg ∧ t.ie = s.ie ∧ t.degen = s.degen ∧ t.lastCmd = s.lastCmd
    ∧ t.latchedDegen = s.latchedDegen ∧ t.inLen = s.inLen ∧ t.codeIdx = s.codeIdx
    ∧ t.nodeIdx = s.nodeIdx ∧ t.inbox = s.inbox ∧ t.answer = s.answer

/-- The tree: NODE, NSYM, NNODES, ROOT, TOTAL, TREE_VALID. -/
def SameTree (s t : State) : Prop :=
  t.node = s.node ∧ t.nsym = s.nsym ∧ t.nnodes = s.nnodes ∧ t.root = s.root ∧ t.total = s.total
    ∧ t.treeValid = s.treeValid

/-- The code table and CODES_VALID. -/
def SameCodes (s t : State) : Prop := t.code = s.code ∧ t.codesValid = s.codesValid

/-- The packed payload: PBUF, PLEN, PAD, PAYLOAD_VALID. -/
def SamePayload (s t : State) : Prop :=
  t.pbuf = s.pbuf ∧ t.plen = s.plen ∧ t.pad = s.pad ∧ t.payloadValid = s.payloadValid

/-- What InvalidateTree leaves (10_state.md R57), the code table included. -/
def TreeCleared (t : State) : Prop :=
  t.nnodes = 0#10 ∧ t.nsym = 0#9 ∧ t.root = none ∧ t.total = 0#40 ∧ t.treeValid = false
    ∧ t.codesValid = false ∧ ∀ v, codeAt t.code v = Code.absent

/-- What InvalidatePayload leaves (10_state.md R57). -/
def PayloadCleared (t : State) : Prop :=
  t.plen = 0#32 ∧ t.pad = 0#3 ∧ t.payloadValid = false

/-- A successful completion of a command issued in `s`: ERR = 0, ERRINFO and ERRARG as at issue,
BUSY = 0, DONE = 1 (60_exceptions.md R177). -/
def CompletedOk (s t : State) : Prop :=
  t.err = 0#4 ∧ t.errSub = s.errSub ∧ t.errSym = s.errSym ∧ t.errStage = s.errStage
    ∧ t.errArg = s.errArg ∧ t.busy = false ∧ t.done = true

/-- A failed completion: the outcome registers, BUSY = 0, DONE = 1 (60_exceptions.md R177). -/
def CompletedWith (err : BitVec 4) (sub sym stage : Byte) (arg : Word) (t : State) : Prop :=
  t.err = err ∧ t.errSub = sub ∧ t.errSym = sym ∧ t.errStage = stage ∧ t.errArg = arg
    ∧ t.busy = false ∧ t.done = true

/-- The state `s` with a failed completion recorded and nothing else changed. -/
def failedState (err : BitVec 4) (sub sym stage : Byte) (arg : Word) (s : State) : State :=
  { s with
    err := err, errSub := sub, errSym := sym, errStage := stage, errArg := arg
    busy := false, done := true }

/-- The errors a command with a legal word can raise, as (ERR, SUBCODE, STAGE): its own checks, or those
of its sub-operations (60_exceptions.md R174, R178; 45_pipeline_and_control.md R161, R162). In COMPRESS
ABSENT_CODE needs an input byte never written since reset (log entry 15). -/
def errorsOf : Instr → List (Nat × Nat × Nat)
  | .nop | .clear | .build => []
  | .count => [(5, 1, 0x10)]
  | .gencodes => [(6, 1, 0x12), (3, 1, 0x12)]
  | .pack => [(6, 2, 0x13), (5, 1, 0x13), (7, 1, 0x13), (5, 2, 0x13)]
  | .serialize => [(6, 3, 0x14), (5, 3, 0x14)]
  | .deserialize => [(5, 1, 0x20), (1, 1, 0x20), (1, 2, 0x20), (1, 3, 0x20), (5, 2, 0x20)]
  | .unpack =>
    [(6, 1, 0x21), (6, 3, 0x21), (5, 3, 0x21), (2, 1, 0x21), (1, 4, 0x21), (1, 5, 0x21), (1, 6, 0x21)]
  | .compress => [(5, 1, 0x10), (3, 1, 0x12), (7, 1, 0x13), (5, 2, 0x13), (5, 3, 0x14)]
  | .decompress =>
    [(5, 1, 0x20), (1, 1, 0x20), (1, 2, 0x20), (1, 3, 0x20), (5, 2, 0x20), (5, 3, 0x21), (2, 1, 0x21),
      (1, 4, 0x21), (1, 5, 0x21), (1, 6, 0x21)]

/-- The errors whose ERRINFO.SYM is a byte of the data; every other has SYM = 0
(60_exceptions.md R174). -/
def errorsWithSym : List (Nat × Nat × Nat) :=
  [(1, 2, 0x20), (1, 3, 0x20), (1, 5, 0x21), (1, 6, 0x21), (3, 1, 0x12), (5, 2, 0x13), (7, 1, 0x13)]

/-! ## Operands and results -/

/-- The bytes a command reads as IN[0..IN_LEN−1]. -/
def inputOf (s : State) : List Byte := (readInput s).1

/-- The bytes a command reads as PBUF[0..PLEN−1]. -/
def payloadOf (s : State) : List Byte := (readPayload s).1

/-- The concatenated codes of a byte sequence (43_bit_packer.md R140). -/
def encodeWith (code : Vector Code 256) (d : List Byte) : Bits :=
  d.flatMap fun b => (codeAt code b).bits

/-- The number of nonzero histogram entries, the number of leaves (10_state.md R40). -/
def nonzeroCount (hist : Vector Word 256) : Nat :=
  allBytes.countP fun v => histAt hist v != 0#32

/-- Σ HIST[v] as an exact number. -/
def histSum (hist : Vector Word 256) : Nat := (allBytes.map fun v => (histAt hist v).toNat).sum

/-- The byte value has a code: its entry is present (10_state.md R52). -/
def HasCode (code : Vector Code 256) (b : Byte) : Prop := (codeAt code b).len ≠ 0#8

/-- The retained bits of the payload, the bits UNPACK walks (43_bit_packer.md R147). -/
def retainedOf (s : State) : Bits := retainedBits (payloadOf s) s.pad

/-- How the walk of the bits `bits` fails with the symbols `d` emitted, said of the bits alone: the
SUBCODE, SYM and ERRARG (43_bit_packer.md R148, 60_exceptions.md R174, R180 item 7). -/
inductive WalkFails (code : Vector Code 256) (total : Nat) (bits : Bits) (d : List Byte) :
    (sub sym : Byte) → (arg : Nat) → Prop
  /-- TRUNCATED_CODE: after the codes of `d` stands a proper part of a code; ERRARG is the number of
  retained bits. Checked before the number of symbols. -/
  | truncated (v : Byte) (rest more : Bits) (present : ∀ b, b ∈ d → HasCode code b)
      (within : d.length ≤ total) (read : bits = encodeWith code d ++ rest) (code_v : HasCode code v)
      (part : (codeAt code v).bits = rest ++ more) (started : rest ≠ []) (unfinished : more ≠ []) :
      WalkFails code total bits d 4#8 0#8 bits.length
  /-- COUNT_MISMATCH, too few symbols: the bits end with the codes of `d`. -/
  | tooFew (present : ∀ b, b ∈ d → HasCode code b) (read : bits = encodeWith code d)
      (short : d.length < total) : WalkFails code total bits d 5#8 0#8 bits.length
  /-- COUNT_MISMATCH, one symbol too many: TOTAL symbols are out and another whole code follows;
  ERRARG is the index of its last bit. -/
  | tooMany (sym : Byte) (more : Bits) (present : ∀ b, b ∈ d → HasCode code b)
      (full : d.length = total) (code_sym : HasCode code sym)
      (read : bits = encodeWith code d ++ (codeAt code sym).bits ++ more) :
      WalkFails code total bits d 5#8 sym
        ((encodeWith code d).length + (codeAt code sym).bits.length - 1)
  /-- BAD_BIT: one symbol has a code, and the next bit is 1; ERRARG is its index. Checked before the
  number of symbols. -/
  | badBit (sym : Byte) (more : Bits) (single : ∀ b, HasCode code b ↔ b = sym)
      (present : ∀ b, b ∈ d → HasCode code b) (within : d.length ≤ total)
      (read : bits = encodeWith code d ++ true :: more) :
      WalkFails code total bits d 6#8 sym (encodeWith code d).length

/-- HIST, the payload and PAD are the parts of the container `B` (30_encoding.md R103). -/
def HoldsContainer (B : List Byte) (t : State) : Prop :=
  (∀ (v : Byte) k, k < 4 → B[4 * v.toNat + k]? = some ((histAt t.hist v).extractLsb' (8 * k) 8))
    ∧ 1025 + t.plen.toNat = B.length
    ∧ (∀ i, i < t.plen.toNat → t.pbuf.get? i = B[1024 + i]?)
    ∧ B[1024 + t.plen.toNat]? = some (t.pad.setWidth 8)

/-- NODE[n] by number. -/
def nodeN (s : State) (n : Nat) : Node := nodeAt s.node (BitVec.ofNat 9 n)

/-- Node `n` is a child of node `p`. -/
def IsChild (s : State) (p n : Nat) : Prop :=
  ∃ f l r, nodeN s p = .internal f l r ∧ (l.toNat = n ∨ r.toNat = n)

/-- The node reached from `n` along a bit sequence, 0 left and 1 right. -/
def follow (node : Vector Node 511) : NodeIdx → Bits → NodeIdx
  | n, [] => n
  | n, b :: bs => follow node (childOf node n b) bs

/-- The shape of a nonempty tree (10_state.md R50). -/
structure TreeShape (s : State) : Prop where
  /-- Nodes 0 to NSYM − 1 are the leaves, one per nonzero HIST entry. -/
  leaves : ∀ n, n < s.nsym.toNat →
    ∃ v, nodeN s n = .leaf v ((histAt s.hist v).setWidth 40) ∧ histAt s.hist v ≠ 0#32
  /-- In strictly ascending order of sym. -/
  ascending : ∀ n n' v v' f f', n < n' → n' < s.nsym.toNat →
    nodeN s n = .leaf v f → nodeN s n' = .leaf v' f' → v.toNat < v'.toNat
  /-- Nodes NSYM to m − 1 are internal; children have smaller indices and differ; frequencies add
  up exactly. -/
  internals : ∀ n, s.nsym.toNat ≤ n → n < s.nnodes.toNat →
    ∃ f l r, nodeN s n = .internal f l r ∧ l.toNat < n ∧ r.toNat < n ∧ l ≠ r
      ∧ f.toNat = (nodeAt s.node l).freq.toNat + (nodeAt s.node r).freq.toNat
  /-- Every node except the root is the child of exactly one internal node. -/
  parents : ∀ n, n + 1 < s.nnodes.toNat →
    ∃ p, (p < s.nnodes.toNat ∧ IsChild s p n) ∧ ∀ p', p' < s.nnodes.toNat → IsChild s p' n → p' = p
  /-- ROOT = m − 1. -/
  root : ∃ r, s.root = some r ∧ r.toNat + 1 = s.nnodes.toNat ∧ (nodeAt s.node r).freq = s.total

/-- The order in which BUILD's queue gives two nodes out: by frequency and then index under FIFO, by
frequency alone under HEAP (41_tree_builder.md R122, R123). -/
def Precedes (tie : TiePolicy) (s : State) (m n : Nat) : Prop :=
  match tie with
  | .fifo =>
    (nodeN s m).freq < (nodeN s n).freq ∨ ((nodeN s m).freq = (nodeN s n).freq ∧ m < n)
  | .heap => (nodeN s m).freq ≤ (nodeN s n).freq

/-- The code table of a histogram under a tie policy: BUILD's tree through GENCODES. -/
def histCodes (tie : TiePolicy) (hist : Vector Word 256) : Vector Code 256 :=
  let t := buildTree tie hist
  codeTable (storeNodes (Vector.replicate 511 (.leaf 0#8 0#40)) t.nodes) t.nodes.length
    (t.root.map (BitVec.ofNat 9))

/-- The packed payload of a byte sequence: its codes, packed (30_encoding.md R104). -/
def packedOf (tie : TiePolicy) (d : List Byte) : List Byte :=
  packBits (encodeWith (histCodes tie (countBytes d)) d)

/-- The container of a byte sequence (30_encoding.md R102). -/
def containerOf (tie : TiePolicy) (d : List Byte) : List Byte :=
  containerBytes (countBytes d) (packedOf tie d)
    (BitVec.ofNat 3 (padCount (encodeWith (histCodes tie (countBytes d)) d).length))

/-! ## The queue -/

/-- The heap order: no entry is below its parent (41_tree_builder.md R123). -/
def HeapOrdered (h : List QEntry) : Prop :=
  ∀ i, 0 < i → i < h.length → (heapAt h i).lt (heapAt h ((i - 1) / 2)) = false

/-- Place `p` of the heap and the places above it: its parent, that one's parent, and so on. -/
def ancestor (p : Nat) : Nat → Nat
  | 0 => p
  | i + 1 => (ancestor p i - 1) / 2

/-- The entry `new` rises from the hole at `p` by `j` places: past each entry it is below, and no
farther; each of those takes the place under it; every other place keeps its entry
(41_tree_builder.md R123, SiftDown). -/
structure Rises (new : QEntry) (h : List QEntry) (p j : Nat) (h' : List QEntry) : Prop where
  above : ∀ i, i < j → 0 < ancestor p i ∧ new.freq < (heapAt h (ancestor p (i + 1))).freq
  stops : ancestor p j = 0 ∨ ¬ new.freq < (heapAt h (ancestor p (j + 1))).freq
  length : h'.length = h.length
  placed : h'[ancestor p j]? = some new
  moved : ∀ i, i < j → h'[ancestor p i]? = h[ancestor p (i + 1)]?
  others : ∀ x, (∀ i, i ≤ j → x ≠ ancestor p i) → h'[x]? = h[x]?

/-- The child a hole at `p` moves to: the left one when it is alone or below the right one, else the
right one (41_tree_builder.md R123, SiftUp). -/
def smallerChild (h : List QEntry) (p : Nat) : Nat :=
  if 2 * p + 2 < h.length ∧ ¬ (heapAt h (2 * p + 1)).freq < (heapAt h (2 * p + 2)).freq then
    2 * p + 2
  else 2 * p + 1

/-- The places a hole visits from `p` on, one smaller child after another. -/
def holePath (h : List QEntry) (p : Nat) : Nat → Nat
  | 0 => p
  | i + 1 => smallerChild h (holePath h p i)

/-- The hole at `p` sinks by `m` places to a leaf, always to the smaller child; each entry it passes
takes the place above it; every other place keeps its entry (41_tree_builder.md R123, SiftUp). -/
structure Sinks (h : List QEntry) (p m : Nat) (h' : List QEntry) : Prop where
  inner : ∀ i, i < m → 2 * holePath h p i + 1 < h.length
  leaf : h.length ≤ 2 * holePath h p m + 1
  length : h'.length = h.length
  moved : ∀ i, i < m → h'[holePath h p i]? = h[holePath h p (i + 1)]?
  others : ∀ x, (∀ i, i ≤ m → x ≠ holePath h p i) → h'[x]? = h[x]?

/-- The queue entry of node `n` (41_tree_builder.md R122, R123). -/
def entryOf (s : State) (n : Nat) : QEntry := { freq := (nodeN s n).freq, idx := n }

/-! ## Runs -/

/-- The components issued and completed one after another, each without an error
(60_exceptions.md R195). -/
def RunsInTurn : List Instr → State → State → Prop
  | [], s, t => t = s
  | i :: is, s, t => ∃ u, exec i (issue (encode i) s) = .next u ∧ u.err = 0#4 ∧ RunsInTurn is u t

/-! ## Reset -/

/-- Every register at the value 10_state.md R63 and 70_reset_and_hazards.md R197 give, and every
buffer byte unwritten (R198). -/
def AtReset (t : State) : Prop :=
  t.ie = false ∧ t.degen = false ∧ t.busy = false ∧ t.done = false ∧ t.payloadValid = false
    ∧ t.err = 0#4 ∧ t.lastCmd = 0#32 ∧ t.latchedDegen = false ∧ t.inLen = 0#32 ∧ t.outLen = 0#32
    ∧ t.plen = 0#32 ∧ t.pad = 0#3 ∧ t.errSub = 0#8 ∧ t.errSym = 0#8 ∧ t.errStage = 0#8
    ∧ t.errArg = 0#32 ∧ t.codeIdx = 0#8 ∧ t.nodeIdx = 0#9 ∧ (∀ v, histAt t.hist v = 0#32)
    ∧ TreeCleared t ∧ (∀ x, t.mem.get? x = none) ∧ ∀ x, t.pbuf.get? x = none

/-! ## The invariant -/

/-- While TREE_VALID = 1, the node store holds the tree BUILD makes from the present HIST
(10_state.md R29). -/
def TreeCoherent (s : State) : Prop :=
  s.treeValid = true →
    let t := buildTree s.cfg.tie s.hist
    s.nsym = BitVec.ofNat 9 t.leaves ∧ s.nnodes = BitVec.ofNat 10 t.nodes.length
      ∧ s.root = t.root.map (BitVec.ofNat 9) ∧ s.total = t.total
      ∧ ∀ n, (h : n < t.nodes.length) → s.node[n]? = some t.nodes[n]

/-- The invariant of the machine. -/
structure Inv (s : State) : Prop where
  /-- The capacities meet their constraints (00_scope.md R9). -/
  cfg : s.cfg.wf = true
  /-- The memory keeps its canonical form. -/
  mem : s.mem.wf
  /-- Only bytes that exist are written (20_memory.md R64, R71). -/
  mapped : ∀ c, c ∈ s.mem → inBuffers s.cfg c.1 1 = true
  /-- PBUF keeps its canonical form. -/
  pbuf : s.pbuf.wf
  /-- PBUF holds at most PBUF_CAP bytes (10_state.md R53). -/
  pbufFits : ∀ c, c ∈ s.pbuf → c.1 < s.cfg.pbufCap
  /-- DONE = 1 and BUSY = 1 never hold together (10_state.md R28). -/
  busyDone : ¬ (s.busy = true ∧ s.done = true)
  /-- A command in execution has a clear outcome (20_memory.md R73). -/
  busyClean : s.busy = true → s.err = 0#4
  /-- ERR values 8 to 15 are never written (10_state.md R32). -/
  errRange : s.err.toNat ≤ 7
  /-- When ERR = 0, ERRINFO = 0 and ERRARG = 0 (60_exceptions.md R174). -/
  errClean : s.err = 0#4 →
    s.errSub = 0#8 ∧ s.errSym = 0#8 ∧ s.errStage = 0#8 ∧ s.errArg = 0#32
  /-- TREE_VALID = 0 implies an empty tree summary (10_state.md R61). -/
  treeClear : s.treeValid = false →
    s.nnodes = 0#10 ∧ s.nsym = 0#9 ∧ s.root = none ∧ s.total = 0#40
  /-- CODES_VALID = 0 implies every entry absent (10_state.md R61). -/
  codesClear : s.codesValid = false → s.code = absentTable
  /-- CODES_VALID = 1 implies TREE_VALID = 1 (10_state.md R61). -/
  codesTree : s.codesValid = true → s.treeValid = true
  /-- PAYLOAD_VALID = 0 implies PLEN = 0 and PAD = 0 (10_state.md R61). -/
  payloadClear : s.payloadValid = false → s.plen = 0#32 ∧ s.pad = 0#3
  /-- PAYLOAD_VALID = 1 implies PAD ≤ 8·PLEN and PLEN ≤ PBUF_CAP (10_state.md R61). -/
  payloadFits : s.payloadValid = true →
    s.pad.toNat ≤ 8 * s.plen.toNat ∧ s.plen.toNat ≤ s.cfg.pbufCap
  /-- PAYLOAD_VALID = 1 implies PBUF[0..PLEN−1] hold a payload (10_state.md R31, R53). -/
  payloadWritten : s.payloadValid = true → Written s.pbuf 0 s.plen.toNat
  /-- TREE_VALID means what it says (10_state.md R29). -/
  tree : TreeCoherent s
  /-- CODES_VALID = 1: CODE holds the codes GENCODES derives from the present tree
  (10_state.md R30). -/
  codes : s.codesValid = true → s.code = codeTable s.node s.nnodes.toNat s.root
  /-- A result lies in OUT_BUF (20_memory.md R66). -/
  outLen : s.outLen.toNat ≤ s.cfg.outCap

end Sys2Proof.Machine
end

