-- ==== Sys2Proof/Certificates/Slice0/Obligations.lean ====
section
/-! DEFINITION. The statements about the block, for the provers. Each docstring names the rules of
spec/ it formalises. A statement about a command says that `exec` answers a next state, for every
state that meets the hypotheses. -/

open Sys2Proof Sys2Proof.Machine

/-! ## Command words -/

/-- Every legal command word and the two illegal examples (30_encoding.md R109). -/
def Obligations.CommandWordsDecode : Prop :=
  decode 0x00000000#32 = .ok .nop ∧ decode 0x00000001#32 = .ok .clear
    ∧ decode 0x00000010#32 = .ok .count ∧ decode 0x00000011#32 = .ok .build
    ∧ decode 0x00000012#32 = .ok .gencodes ∧ decode 0x00000013#32 = .ok .pack
    ∧ decode 0x00000014#32 = .ok .serialize ∧ decode 0x00000020#32 = .ok .deserialize
    ∧ decode 0x00000021#32 = .ok .unpack ∧ decode 0x00000030#32 = .ok .compress
    ∧ decode 0x00000031#32 = .ok .decompress
    ∧ (decode 0x00000015#32).toBool = false ∧ decode 0x00000015#32 = .error .reservedOpcode
    ∧ illegalSubcode .reservedOpcode = 1#8
    ∧ decode 0x00000130#32 = .error .reservedBits ∧ illegalSubcode .reservedBits = 2#8

/-- Every 32-bit word is a legal command, has a reserved opcode, or has nonzero reserved bits, and a
legal word is the encoding of the command it decodes to (30_encoding.md R93). -/
def Obligations.DecodeSortsEveryWord : Prop :=
  ∀ w : Word,
    let op := w.toNat % 2 ^ 8
    let reserved := (0x02 ≤ op ∧ op ≤ 0x0F) ∨ (0x15 ≤ op ∧ op ≤ 0x1F) ∨ (0x22 ≤ op ∧ op ≤ 0x2F)
      ∨ 0x32 ≤ op
    (reserved → decode w = .error .reservedOpcode)
      ∧ (¬ reserved → 2 ^ 8 ≤ w.toNat → decode w = .error .reservedBits)
      ∧ (¬ reserved → w.toNat < 2 ^ 8 → ∃ i, decode w = .ok i)
      ∧ ∀ i, decode w = .ok i ↔ w = encode i

/-! ## Steps -/

/-- The next event decides the step: the core's turn with a command in execution runs the command
LASTCMD encodes; a transaction is served; and the word `withFetchWord` places runs as issued
(30_encoding.md R91, 20_memory.md R83). The order of events, and that a word is placed for the next
step by `withFetchWord`, are the model's choices (log entries 2 and 7). -/
def Obligations.StepRunsDecodedCommand : Prop :=
  (∀ (s : State) (i : Instr), s.busy = true → decode s.lastCmd = .ok i →
      (s.inbox = [] → step s = exec i s)
        ∧ ∀ rest, s.inbox = .core :: rest → step s = exec i { s with inbox := rest })
    ∧ (∀ (s : State) (t : Transaction) (rest : List Event), s.inbox = .bus t :: rest →
        step s = .next (busStep t { s with inbox := rest }))
    ∧ (∀ (s : State) (rest : List Event), s.busy = false → s.inbox = .core :: rest →
        step s = .next { s with inbox := rest })
    ∧ (∀ s : State, s.busy = false → s.inbox = [] → step s = .next s)
    ∧ ∀ (s : State) (nbits w : Nat) (i : Instr), decode (BitVec.ofNat 32 (w % 2 ^ nbits)) = .ok i →
        step (s.withFetchWord nbits w) = exec i (issue (BitVec.ofNat 32 (w % 2 ^ nbits)) s)

/-- Decoding at the completion step: the opcode is checked first, then the reserved bits; an illegal
word changes nothing but the completion state (30_encoding.md R91). That `step` takes the core's turn when
no event is pending, and when the next event is the core's turn, is the model's choice (log entry 2). -/
def Obligations.CompletionDecodesLastCmd : Prop :=
  ∀ s : State, s.busy = true →
    let illegal (sub : Byte) (u : State) : Host.Outcome State Fault Refusal :=
      .next (failedState 4#4 sub 0#8 (opcodeField s.lastCmd) s.lastCmd u)
    ((∀ i : Instr, opcodeField s.lastCmd ≠ i.opcode) →
        coreTurn s = illegal 1#8 s ∧ (s.inbox = [] → step s = illegal 1#8 s)
          ∧ ∀ rest, s.inbox = .core :: rest → step s = illegal 1#8 { s with inbox := rest })
      ∧ (∀ i : Instr, opcodeField s.lastCmd = i.opcode → reservedField s.lastCmd ≠ 0#24 →
          coreTurn s = illegal 2#8 s ∧ (s.inbox = [] → step s = illegal 2#8 s)
            ∧ ∀ rest, s.inbox = .core :: rest → step s = illegal 2#8 { s with inbox := rest })
      ∧ ∀ i : Instr, opcodeField s.lastCmd = i.opcode → reservedField s.lastCmd = 0#24 →
          coreTurn s = exec i s

/-- Every command ends in its completion step: BUSY falls, DONE rises, a success leaves ERRINFO and
ERRARG alone, and no command writes CTRL, LASTCMD, LATCHED_DEGEN, IN_LEN, CODE_IDX or NODE_IDX
(60_exceptions.md R177, 30_encoding.md R94). No step faults or refuses, and none changes the
configuration (60_exceptions.md R185, 10_state.md R59). -/
def Obligations.EveryCommandCompletes : Prop :=
  (∀ (i : Instr) (s : State),
      ∃ t, exec i s = .next t ∧ t.busy = false ∧ t.done = true ∧ SameControl s t
        ∧ (t.err = 0#4 → t.errSub = s.errSub ∧ t.errSym = s.errSym ∧ t.errStage = s.errStage
            ∧ t.errArg = s.errArg))
    ∧ ∀ s : State, ∃ t, step s = .next t ∧ t.cfg = s.cfg

/-! ## NOP and CLEAR -/

/-- NOP changes only the completion state, and so raises the interrupt when IE = 1
(45_pipeline_and_control.md R163). -/
def Obligations.NopOnlyCompletes : Prop :=
  ∀ s : State, ∃ t,
    exec .nop s = .next t ∧ t = { s with err := 0#4, busy := false, done := true } ∧ irq t = s.ie

/-- CLEAR returns the datapath to its reset contents and leaves the host's registers and the buffers
alone (45_pipeline_and_control.md R164). -/
def Obligations.ClearResetsDatapath : Prop :=
  ∀ s : State, ∃ t, exec .clear s = .next t ∧ CompletedOk s t
    ∧ (∀ v, histAt t.hist v = 0#32) ∧ TreeCleared t ∧ PayloadCleared t ∧ t.outLen = 0#32
    ∧ SameControl s t ∧ t.mem = s.mem ∧ t.draws = s.draws

/-! ## COUNT -/

/-- COUNT replaces the histogram by the counts of the input bytes and invalidates the tree; with
IN_LEN over IN_CAP it fails and changes nothing else (40_frequency_counter.md R113). -/
def Obligations.CountBuildsHistogram : Prop :=
  ∀ s : State,
    (s.cfg.inCap < s.inLen.toNat →
        exec .count s = .next (failedState 5#4 1#8 0#8 0x10#8 s.inLen s))
      ∧ (s.inLen.toNat ≤ s.cfg.inCap →
          ∃ t, exec .count s = .next t ∧ CompletedOk s t
            ∧ (∀ v, (histAt t.hist v).toNat = (inputOf s).count v) ∧ TreeCleared t
            ∧ SamePayload s t ∧ SameControl s t ∧ t.mem = s.mem ∧ t.outLen = s.outLen
            ∧ t.node = s.node)

/-- After a successful COUNT the counters sum to IN_LEN (40_frequency_counter.md R114). -/
def Obligations.CountSumsToInLen : Prop :=
  ∀ s t : State, exec .count s = .next t → t.err = 0#4 → histSum t.hist = s.inLen.toNat

/-! ## BUILD -/

/-- An all-zero histogram gives the empty valid tree, and a single nonzero entry the tree of one leaf
(41_tree_builder.md R119, R120). -/
def Obligations.BuildOfNoneOrOne : Prop :=
  ∀ s : State,
    ((∀ v, histAt s.hist v = 0#32) →
        ∃ t, exec .build s = .next t ∧ t.err = 0#4 ∧ t.nsym = 0#9 ∧ t.nnodes = 0#10
          ∧ t.root = none ∧ t.total = 0#40 ∧ t.treeValid = true)
      ∧ ∀ v, histAt s.hist v ≠ 0#32 → (∀ u, u ≠ v → histAt s.hist u = 0#32) →
          ∃ t, exec .build s = .next t ∧ t.err = 0#4
            ∧ nodeN t 0 = .leaf v ((histAt s.hist v).setWidth 40) ∧ t.root = some 0#9
            ∧ t.nsym = 1#9 ∧ t.nnodes = 1#10 ∧ t.total = (histAt s.hist v).setWidth 40
            ∧ t.treeValid = true

/-- With k nonzero entries, leaves 0 to k − 1 come in ascending byte value, the internal nodes follow,
NNODES = 2k − 1 and ROOT = 2k − 2 (41_tree_builder.md R121). -/
def Obligations.BuildNumbersNodes : Prop :=
  ∀ s : State, nonzeroCount s.hist ≠ 0 →
    ∃ t r, exec .build s = .next t ∧ t.nsym.toNat = nonzeroCount s.hist
      ∧ t.nnodes.toNat + 1 = 2 * nonzeroCount s.hist
      ∧ t.root = some r ∧ r.toNat + 2 = 2 * nonzeroCount s.hist
      ∧ (∀ n v, (allBytes.filter fun u => histAt s.hist u != 0#32)[n]? = some v →
          ∃ f, nodeN t n = .leaf v f)
      ∧ ∀ n, nonzeroCount s.hist ≤ n → n < t.nnodes.toNat → ∃ f l r, nodeN t n = .internal f l r

/-- The tree has the shape of 10_state.md R50. -/
def Obligations.BuildMakesATree : Prop :=
  ∀ s : State, nonzeroCount s.hist ≠ 0 → ∃ t, exec .build s = .next t ∧ TreeShape t

/-- Frequencies are exact: a leaf has its counter, at least 1, an internal node the sum of its
children's, and TOTAL is the sum of the counters (41_tree_builder.md R127). -/
def Obligations.BuildSumsFrequencies : Prop :=
  ∀ s : State, ∃ t, exec .build s = .next t ∧ t.total.toNat = histSum s.hist
    ∧ (∀ n v f, n < t.nnodes.toNat → nodeN t n = .leaf v f →
        f.toNat = (histAt s.hist v).toNat ∧ 1 ≤ f.toNat)
    ∧ ∀ n f l r, n < t.nnodes.toNat → nodeN t n = .internal f l r →
        f.toNat = (nodeAt t.node l).freq.toNat + (nodeAt t.node r).freq.toNat

/-- The tree is a function of HIST alone, for a fixed TIE_POLICY (41_tree_builder.md R125). -/
def Obligations.BuildDependsOnHistOnly : Prop :=
  ∀ s s' t t' : State, s'.cfg.tie = s.cfg.tie → s'.hist = s.hist →
    exec .build s = .next t → exec .build s' = .next t' →
      t'.nsym = t.nsym ∧ t'.nnodes = t.nnodes ∧ t'.root = t.root ∧ t'.total = t.total
        ∧ ∀ n, n < t.nnodes.toNat → nodeN t' n = nodeN t n

/-- BUILD always succeeds, sets TREE_VALID, clears the code table, and writes nothing outside the node
store, the tree summary and the code table (41_tree_builder.md R130). That node entries at or above
NNODES keep what they held is the model's choice (log entry 5). -/
def Obligations.BuildWritesOnlyTheTree : Prop :=
  ∀ s : State, ∃ t, exec .build s = .next t ∧ CompletedOk s t ∧ t.treeValid = true
    ∧ t.codesValid = false ∧ (∀ v, codeAt t.code v = Code.absent)
    ∧ (∀ n : Nat, t.nnodes.toNat ≤ n → t.node[n]? = s.node[n]?)
    ∧ t.hist = s.hist ∧ SamePayload s t ∧ SameControl s t ∧ t.mem = s.mem ∧ t.outLen = s.outLen
    ∧ t.draws = s.draws

/-- Every merge takes the two nodes that come first in the queue's order among the nodes not yet
merged, and the first of them is the left child (41_tree_builder.md R118, R122 to R124). Under either
policy the merges are the queue's: it starts with the leaves inserted in index order, node `n` is made
of the two entries extracted from the queue `Q n` and inserted after them, and ROOT is what is left, so
that among equal frequencies too the choice is the queue's. -/
def Obligations.BuildMergesTheTwoLeast : Prop :=
  ∀ s : State, ∃ t, exec .build s = .next t
    ∧ (∀ n f l r, n < t.nnodes.toNat → nodeN t n = .internal f l r →
        Precedes s.cfg.tie t l.toNat r.toNat
          ∧ ∀ x, x < n → x ≠ l.toNat → x ≠ r.toNat → (∀ p, p < n → ¬ IsChild t p x) →
              Precedes s.cfg.tie t r.toNat x)
    ∧ ∃ Q : Nat → List QEntry,
        Q t.nsym.toNat = queueInit s.cfg.tie ((List.range t.nsym.toNat).map (entryOf t))
          ∧ (∀ n f l r, n < t.nnodes.toNat → nodeN t n = .internal f l r →
              ∃ q1 q2, queueExtractMin s.cfg.tie (Q n) = some (entryOf t l.toNat, q1)
                ∧ queueExtractMin s.cfg.tie q1 = some (entryOf t r.toNat, q2)
                ∧ Q (n + 1) = queueInsert s.cfg.tie q2 (entryOf t n))
          ∧ ∀ r, t.root = some r →
              queueExtractMin s.cfg.tie (Q t.nnodes.toNat) = some (entryOf t r.toNat, [])

/-- The FIFO queue is an ordered multiset keyed by (frequency, index); the HEAP queue keeps the heap
order and gives out an entry of least frequency (41_tree_builder.md R122, R123, R126). Under HEAP every
entry's place is R123's: an inserted entry rises from the end; an extraction gives out the root, the
hole sinks to a leaf by the smaller children, the right one in a tie, and the last entry rises from
there. -/
def Obligations.QueuesGiveOutTheLeast : Prop :=
  (∀ tie es, (queueInit tie es).Perm es)
    ∧ (∀ tie q e, (queueInsert tie q e).Perm (e :: q))
    ∧ (∀ tie q, queueExtractMin tie q = none ↔ q = [])
    ∧ (∀ q e q', queueExtractMin .fifo q = some (e, q') →
        q.Perm (e :: q')
          ∧ ∀ y, y ∈ q → e.freq < y.freq ∨ (e.freq = y.freq ∧ e.idx ≤ y.idx))
    ∧ (∀ es, HeapOrdered (queueInit .heap es))
    ∧ (∀ h e, HeapOrdered h → HeapOrdered (queueInsert .heap h e))
    ∧ (∀ h e h', HeapOrdered h → queueExtractMin .heap h = some (e, h') →
        HeapOrdered h' ∧ h.Perm (e :: h') ∧ ∀ y, y ∈ h → e.freq ≤ y.freq)
    ∧ (∀ tie, queueInit tie [] = [])
    ∧ (∀ tie es e, queueInit tie (es ++ [e]) = queueInsert tie (queueInit tie es) e)
    ∧ (∀ h e, ∃ j, Rises e (h ++ [e]) h.length j (queueInsert .heap h e))
    ∧ (∀ e, queueExtractMin .heap [e] = some (e, []))
    ∧ ∀ top rest last, ∃ h' m j g,
        queueExtractMin .heap (top :: (rest ++ [last])) = some (top, h')
          ∧ Sinks (last :: rest) 0 m g ∧ Rises last g (holePath (last :: rest) 0 m) j h'

/-! ## GENCODES -/

/-- A single-symbol tree: the forced code "0" under FORCE, DEGENERATE_SINGLE_SYMBOL under REJECT
(42_code_table.md R134). -/
def Obligations.GencodesOfASingleSymbol : Prop :=
  ∀ (s : State) (r : NodeIdx) (sym : Byte) (f : Freq), s.treeValid = true → s.root = some r →
    nodeAt s.node r = .leaf sym f →
      (s.latchedDegen = false →
          ∃ t, exec .gencodes s = .next t ∧ CompletedOk s t ∧ t.codesValid = true
            ∧ codeAt t.code sym = { len := 1#8, val := 0#256 }
            ∧ (∀ v, v ≠ sym → codeAt t.code v = Code.absent)
            ∧ SameControl s t ∧ SameTree s t ∧ SamePayload s t ∧ t.hist = s.hist ∧ t.mem = s.mem
            ∧ t.outLen = s.outLen ∧ t.draws = s.draws)
        ∧ (s.latchedDegen = true →
          ∃ t, exec .gencodes s = .next t
            ∧ CompletedWith 3#4 1#8 sym 0x12#8 (s.total.setWidth 32) t ∧ t.codesValid = false
            ∧ (∀ v, codeAt t.code v = Code.absent)
            ∧ SameControl s t ∧ SameTree s t ∧ SamePayload s t ∧ t.hist = s.hist ∧ t.mem = s.mem
            ∧ t.outLen = s.outLen ∧ t.draws = s.draws)

/-- The empty tree gives the empty table, with which PACK of an empty input succeeds; and PACK of an
empty input succeeds whatever the tree (42_code_table.md R135, 43_bit_packer.md R143). -/
def Obligations.EmptyTreeAndEmptyInputCode : Prop :=
  (∀ s : State, s.treeValid = true → s.root = none →
      ∃ t, exec .gencodes s = .next t ∧ CompletedOk s t ∧ t.codesValid = true
        ∧ (∀ v, codeAt t.code v = Code.absent)
        ∧ (s.inLen = 0#32 → ∃ u, exec .pack t = .next u ∧ u.err = 0#4))
    ∧ ∀ s : State, s.codesValid = true → s.inLen = 0#32 →
        ∃ t, exec .pack s = .next t ∧ CompletedOk s t ∧ t.plen = 0#32 ∧ t.pad = 0#3
          ∧ t.payloadValid = true

/-- GENCODES is a function of the tree and LATCHED_DEGEN, running it again writes the same table, and
it writes nothing but the code table (42_code_table.md R137). Without a valid tree it fails with
SEQUENCE and changes nothing else. -/
def Obligations.GencodesIsPure : Prop :=
  (∀ s : State, s.treeValid = false →
      exec .gencodes s = .next (failedState 6#4 1#8 0#8 0x12#8 0#32 s))
    ∧ (∀ s : State, ∃ t, exec .gencodes s = .next t ∧ SameControl s t ∧ SameTree s t ∧ SamePayload s t
        ∧ t.hist = s.hist ∧ t.mem = s.mem ∧ t.outLen = s.outLen ∧ t.draws = s.draws
        ∧ ∃ u, exec .gencodes t = .next u ∧ u.code = t.code ∧ u.codesValid = t.codesValid)
    ∧ ∀ s s' t t' : State, s.treeValid = true → SameTree s s' → s'.latchedDegen = s.latchedDegen →
        exec .gencodes s = .next t → exec .gencodes s' = .next t' →
          t'.code = t.code ∧ t'.codesValid = t.codesValid

/-- Each symbol of the tree gets the path from the root to its leaf: every proper part of it ends at
an internal node, its whole at the leaf, and its length is at least 1 and below NSYM; every other
entry is absent (42_code_table.md R132, R136, 41_tree_builder.md R128, 30_encoding.md R106). -/
def Obligations.GencodesWritesPaths : Prop :=
  ∀ s : State, s.treeValid = true → TreeCoherent s → 2 ≤ nonzeroCount s.hist →
    ∃ t r, exec .gencodes s = .next t ∧ CompletedOk s t ∧ t.codesValid = true ∧ s.root = some r
      ∧ (∀ v, histAt s.hist v = 0#32 → codeAt t.code v = Code.absent)
      ∧ ∀ v, histAt s.hist v ≠ 0#32 →
          1 ≤ (codeAt t.code v).len.toNat ∧ (codeAt t.code v).len.toNat < s.nsym.toNat
            ∧ (codeAt t.code v).val.toNat < 2 ^ (codeAt t.code v).len.toNat
            ∧ (∃ f, nodeAt s.node (follow s.node r (codeAt t.code v).bits) = .leaf v f)
            ∧ ∀ k, k < (codeAt t.code v).len.toNat →
                ∃ f a b, nodeAt s.node (follow s.node r ((codeAt t.code v).bits.take k))
                  = .internal f a b

/-- With two symbols or more, no code is a prefix of another, the lengths meet Kraft's equality, and
every infinite bit string starts with exactly one code (42_code_table.md R133). -/
def Obligations.CodesFormACompletePrefixCode : Prop :=
  ∀ s : State, s.treeValid = true → TreeCoherent s → 2 ≤ nonzeroCount s.hist →
    ∃ t, exec .gencodes s = .next t ∧ t.err = 0#4
      ∧ (∀ v, HasCode t.code v → 1 ≤ (codeAt t.code v).len.toNat)
      ∧ (∀ u v, HasCode t.code u → HasCode t.code v → u ≠ v →
          ¬ (codeAt t.code u).bits <+: (codeAt t.code v).bits)
      ∧ ((allBytes.filter fun v => (codeAt t.code v).len != 0#8).map
          fun v => 2 ^ (255 - (codeAt t.code v).len.toNat)).sum = 2 ^ 255
      ∧ ∀ bit : Nat → Bool, ∃ v, (HasCode t.code v
            ∧ (codeAt t.code v).bits = (List.range (codeAt t.code v).len.toNat).map bit)
          ∧ ∀ u, HasCode t.code u →
              (codeAt t.code u).bits = (List.range (codeAt t.code u).len.toNat).map bit → u = v

/-! ## PACK -/

/-- PACK writes the concatenated codes of the input, first bit in bit 7, and pads with 0 bits:
PLEN · 8 = T + PAD (43_bit_packer.md R140, R141). -/
def Obligations.PackWritesTheStream : Prop :=
  ∀ s : State, s.cfg.wf = true → s.codesValid = true → s.inLen.toNat ≤ s.cfg.inCap →
    (∀ b, b ∈ inputOf s → HasCode s.code b) →
    (encodeWith s.code (inputOf s)).length ≤ 8 * s.cfg.pbufCap →
      ∃ t, exec .pack s = .next t ∧ CompletedOk s t ∧ t.payloadValid = true
        ∧ t.pad.toNat = (8 - (encodeWith s.code (inputOf s)).length % 8) % 8
        ∧ t.plen.toNat * 8 = (encodeWith s.code (inputOf s)).length + t.pad.toNat
        ∧ (t.pad = 0#3 ↔ (encodeWith s.code (inputOf s)).length % 8 = 0)
        ∧ (∀ j bit, (encodeWith s.code (inputOf s))[j]? = some bit →
            ∃ b, t.pbuf.get? (j / 8) = some b ∧ b.getLsbD (7 - j % 8) = bit)
        ∧ (∀ j, (encodeWith s.code (inputOf s)).length ≤ j → j < 8 * t.plen.toNat →
            ∃ b, t.pbuf.get? (j / 8) = some b ∧ b.getLsbD (7 - j % 8) = false)
        ∧ SameControl s t ∧ SameTree s t ∧ SameCodes s t ∧ t.hist = s.hist ∧ t.mem = s.mem
        ∧ t.outLen = s.outLen

/-- PACK's failures: the precondition checks write nothing; the first byte without a code, or at which
the bits stop fitting, invalidates the payload, and nothing else is written
(43_bit_packer.md R142, 60_exceptions.md R180). -/
def Obligations.PackFailsAtTheFirstError : Prop :=
  ∀ s : State,
    (s.codesValid = false → exec .pack s = .next (failedState 6#4 2#8 0#8 0x13#8 0#32 s))
      ∧ (s.codesValid = true → s.cfg.inCap < s.inLen.toNat →
          exec .pack s = .next (failedState 5#4 1#8 0#8 0x13#8 s.inLen s))
      ∧ ∀ i b, s.codesValid = true → s.inLen.toNat ≤ s.cfg.inCap → (inputOf s)[i]? = some b →
          (∀ c, c ∈ (inputOf s).take i → HasCode s.code c) →
          (encodeWith s.code ((inputOf s).take i)).length ≤ 8 * s.cfg.pbufCap →
            (¬ HasCode s.code b →
                ∃ t, exec .pack s = .next t
                  ∧ CompletedWith 7#4 1#8 b 0x13#8 (BitVec.ofNat 32 i) t ∧ PayloadCleared t
                  ∧ SameControl s t ∧ SameTree s t ∧ SameCodes s t ∧ t.hist = s.hist
                  ∧ t.mem = s.mem ∧ t.outLen = s.outLen)
              ∧ (HasCode s.code b →
                8 * s.cfg.pbufCap < (encodeWith s.code ((inputOf s).take (i + 1))).length →
                ∃ t, exec .pack s = .next t
                  ∧ CompletedWith 5#4 2#8 b 0x13#8 (BitVec.ofNat 32 i) t ∧ PayloadCleared t
                  ∧ SameControl s t ∧ SameTree s t ∧ SameCodes s t ∧ t.hist = s.hist
                  ∧ t.mem = s.mem ∧ t.outLen = s.outLen)

/-! ## UNPACK -/

/-- UNPACK's checks before the walk, in order: each failure sets OUT_LEN to 0 and changes nothing else
(43_bit_packer.md R146, 60_exceptions.md R180). -/
def Obligations.UnpackChecksInOrder : Prop :=
  ∀ s : State,
    (s.treeValid = false →
        exec .unpack s = .next { failedState 6#4 1#8 0#8 0x21#8 0#32 s with outLen := 0#32 })
      ∧ (s.treeValid = true → s.payloadValid = false →
        exec .unpack s = .next { failedState 6#4 3#8 0#8 0x21#8 0#32 s with outLen := 0#32 })
      ∧ (s.treeValid = true → s.payloadValid = true → s.cfg.outCap < s.total.toNat →
        exec .unpack s = .next
          { failedState 5#4 3#8 0#8 0x21#8 (BitVec.ofNat 32 (min s.total.toNat 0xFFFFFFFF)) s with
            outLen := 0#32 })

/-- UNPACK with an empty tree: an empty payload gives an empty output, a nonempty one EMPTY_TREE, and
nothing else changes (43_bit_packer.md R149). -/
def Obligations.UnpackOfTheEmptyTree : Prop :=
  ∀ s : State, s.treeValid = true → s.payloadValid = true → s.total.toNat ≤ s.cfg.outCap →
    s.root = none →
      (s.plen = 0#32 →
          exec .unpack s = .next { s with outLen := 0#32, err := 0#4, busy := false, done := true })
        ∧ (s.plen ≠ 0#32 →
          exec .unpack s = .next { failedState 2#4 1#8 0#8 0x21#8 s.plen s with outLen := 0#32 })

/-- A failed UNPACK: OUT_LEN = 0; after a walk the symbols emitted stand in OUT_BUF, at most TOTAL of
them; without a walk no byte is written; nothing else changes (43_bit_packer.md R150). A failed walk of
the present histogram's tree has read the codes of those symbols and raises TRUNCATED_CODE,
COUNT_MISMATCH or BAD_BIT by what the retained bits hold after them, with SYM and ERRARG as
43_bit_packer.md R148 and 60_exceptions.md R174, R180 say. -/
def Obligations.UnpackFailureKeepsEmittedSymbols : Prop :=
  ∀ s t : State, exec .unpack s = .next t → t.err ≠ 0#4 →
    t.outLen = 0#32 ∧ SameControl s t ∧ SameTree s t ∧ SameCodes s t ∧ SamePayload s t
      ∧ t.hist = s.hist
      ∧ (s.treeValid = false ∨ s.payloadValid = false ∨ s.cfg.outCap < s.total.toNat
          ∨ s.root = none → t.mem = s.mem)
      ∧ ∀ r, s.treeValid = true → s.payloadValid = true → s.total.toNat ≤ s.cfg.outCap →
          s.root = some r →
            let out := (walk s.node r s.total.toNat (retainedOf s)).out
            out.length ≤ s.total.toNat ∧ Holds t.mem outBase out
              ∧ SameOutside outBase out.length s.mem t.mem
              ∧ (TreeCoherent s → nonzeroCount s.hist ≠ 0 →
                t.err = 1#4 ∧ t.errStage = 0x21#8
                  ∧ ∃ n, t.errArg = BitVec.ofNat 32 n
                    ∧ WalkFails (histCodes s.cfg.tie s.hist) (histSum s.hist) (retainedOf s) out
                        t.errSub t.errSym n)

/-- The walk reads the retained bits alone: two payloads that differ only in pad bits decode alike;
and on success exactly TOTAL symbols are emitted (43_bit_packer.md R151). -/
def Obligations.UnpackReadsRetainedBitsOnly : Prop :=
  ∀ s s' t t' : State, s.cfg.wf = true → s'.cfg = s.cfg → SameTree s s' → s'.mem = s.mem →
    s'.payloadValid = s.payloadValid → s'.plen = s.plen → retainedOf s' = retainedOf s →
    exec .unpack s = .next t → exec .unpack s' = .next t' →
      t'.err = t.err ∧ t'.outLen = t.outLen ∧ t'.mem = t.mem
        ∧ (t.err ≠ 0#4 → t'.errSub = t.errSub ∧ t'.errSym = t.errSym ∧ t'.errStage = t.errStage
            ∧ t'.errArg = t.errArg)
        ∧ (t.err = 0#4 → s.root ≠ none → t.outLen.toNat = s.total.toNat)

/-- UNPACK of the concatenated codes of TOTAL symbols of the tree gives those symbols
(43_bit_packer.md R146, R148). -/
def Obligations.UnpackDecodesCodedPayloads : Prop :=
  ∀ (s : State) (d : List Byte), s.cfg.wf = true → s.treeValid = true → s.payloadValid = true →
    TreeCoherent s → nonzeroCount s.hist ≠ 0 → d.length = histSum s.hist →
    d.length ≤ s.cfg.outCap → (∀ b, b ∈ d → histAt s.hist b ≠ 0#32) →
    retainedOf s = encodeWith (histCodes s.cfg.tie s.hist) d →
      ∃ t, exec .unpack s = .next t ∧ CompletedOk s t ∧ t.outLen.toNat = d.length
        ∧ Holds t.mem outBase d ∧ SameOutside outBase d.length s.mem t.mem
        ∧ SameControl s t ∧ SameTree s t ∧ SameCodes s t ∧ SamePayload s t ∧ t.hist = s.hist

/-- A successful UNPACK has decoded: the retained bits are exactly the concatenated codes of the
output, and the output is TOTAL symbols long (43_bit_packer.md R148, R151). -/
def Obligations.UnpackSucceedsOnlyOnCodedPayloads : Prop :=
  ∀ s t : State, s.cfg.wf = true → TreeCoherent s → nonzeroCount s.hist ≠ 0 →
    exec .unpack s = .next t → t.err = 0#4 →
      ∃ d : List Byte, t.outLen.toNat = d.length ∧ d.length = histSum s.hist
        ∧ Holds t.mem outBase d ∧ SameOutside outBase d.length s.mem t.mem
        ∧ (∀ b, b ∈ d → histAt s.hist b ≠ 0#32)
        ∧ retainedOf s = encodeWith (histCodes s.cfg.tie s.hist) d

/-- UNPACK inverts PACK: with the present tree's codes and TOTAL = IN_LEN, the input comes back. The
bound TOTAL ≤ OUT_CAP is a premise the rule leaves unsaid (43_bit_packer.md R152; log entry 13). -/
def Obligations.UnpackInvertsPack : Prop :=
  ∀ s t u : State, Inv s → exec .pack s = .next t → t.err = 0#4 →
    s.total.toNat = s.inLen.toNat → s.total.toNat ≤ s.cfg.outCap →
    u.cfg = t.cfg → SameTree t u → SamePayload t u →
      ∃ v, exec .unpack u = .next v ∧ v.err = 0#4 ∧ v.outLen = s.inLen
        ∧ Holds v.mem outBase (inputOf s)

/-! ## SERIALIZE and DESERIALIZE -/

/-- SERIALIZE: the two checks, and the container of HIST, the payload and PAD, byte for byte
(44_container_framer.md R153). -/
def Obligations.SerializeWritesTheContainer : Prop :=
  ∀ s : State, s.cfg.wf = true →
    (s.payloadValid = false →
        exec .serialize s = .next { failedState 6#4 3#8 0#8 0x14#8 0#32 s with outLen := 0#32 })
      ∧ (s.payloadValid = true → s.cfg.outCap < 1025 + s.plen.toNat →
        exec .serialize s = .next
          { failedState 5#4 3#8 0#8 0x14#8 (BitVec.ofNat 32 (1025 + s.plen.toNat)) s with
            outLen := 0#32 })
      ∧ (s.payloadValid = true → 1025 + s.plen.toNat ≤ s.cfg.outCap →
        ∃ t, exec .serialize s = .next t ∧ CompletedOk s t
          ∧ t.outLen.toNat = 1025 + s.plen.toNat
          ∧ (∀ (v : Byte) k, k < 4 → t.mem.get? (outBase + 4 * v.toNat + k)
              = some ((histAt s.hist v).extractLsb' (8 * k) 8))
          ∧ (∀ i, i < s.plen.toNat → t.mem.get? (outBase + 1024 + i) = (payloadOf s)[i]?)
          ∧ t.mem.get? (outBase + 1024 + s.plen.toNat) = some (s.pad.setWidth 8)
          ∧ SameOutside outBase (1025 + s.plen.toNat) s.mem t.mem
          ∧ SameControl s t ∧ SameTree s t ∧ SameCodes s t ∧ SamePayload s t ∧ t.hist = s.hist)

/-- DESERIALIZE: the five checks in order, each of which changes nothing but the completion state and,
once the container is read, the model's count of draws; and the parts of the container
(44_container_framer.md R155). The count, and that every input byte is read once, also before a check
that needs the last one alone, are the model's choices (log entries 3 and 10). -/
def Obligations.DeserializeParsesTheContainer : Prop :=
  ∀ s : State,
    let drawn := s.draws + unwrittenIn s.mem inBase s.inLen.toNat
    (s.cfg.inCap < s.inLen.toNat →
        exec .deserialize s = .next (failedState 5#4 1#8 0#8 0x20#8 s.inLen s))
      ∧ (s.inLen.toNat ≤ s.cfg.inCap → s.inLen.toNat < 1025 →
        exec .deserialize s = .next (failedState 1#4 1#8 0#8 0x20#8 s.inLen s))
      ∧ ∀ p, s.inLen.toNat ≤ s.cfg.inCap → 1025 ≤ s.inLen.toNat → (inputOf s).getLast? = some p →
          (7 < p.toNat →
              exec .deserialize s = .next
                { failedState 1#4 2#8 p 0x20#8 (s.inLen - 1#32) s with draws := drawn })
            ∧ (p.toNat ≤ 7 → 8 * (s.inLen.toNat - 1025) < p.toNat →
              exec .deserialize s = .next
                { failedState 1#4 3#8 p 0x20#8 (s.inLen - 1025#32) s with draws := drawn })
            ∧ (p.toNat ≤ 7 → p.toNat ≤ 8 * (s.inLen.toNat - 1025) →
              s.cfg.pbufCap < s.inLen.toNat - 1025 →
              exec .deserialize s = .next
                { failedState 5#4 2#8 0#8 0x20#8 (s.inLen - 1025#32) s with draws := drawn })
            ∧ (p.toNat ≤ 7 → p.toNat ≤ 8 * (s.inLen.toNat - 1025) →
              s.inLen.toNat - 1025 ≤ s.cfg.pbufCap →
              ∃ t, exec .deserialize s = .next t ∧ CompletedOk s t
                ∧ (∀ (v : Byte) k, k < 4 → (inputOf s)[4 * v.toNat + k]?
                    = some ((histAt t.hist v).extractLsb' (8 * k) 8))
                ∧ t.plen.toNat = s.inLen.toNat - 1025
                ∧ (∀ i, i < t.plen.toNat → t.pbuf.get? i = (inputOf s)[1024 + i]?)
                ∧ t.pad.toNat = p.toNat ∧ t.payloadValid = true ∧ TreeCleared t
                ∧ SameControl s t ∧ t.node = s.node ∧ t.mem = s.mem ∧ t.outLen = s.outLen
                ∧ t.draws = drawn)

/-- With IN_LEN below 1025, DESERIALIZE and DECOMPRESS fail with MALFORMED_CONTAINER subcode 1 and
read no byte (44_container_framer.md R157). -/
def Obligations.ShortContainersAreRefused : Prop :=
  ∀ s : State, s.cfg.wf = true → s.inLen.toNat < 1025 →
    exec .deserialize s = .next (failedState 1#4 1#8 0#8 0x20#8 s.inLen s)
      ∧ exec .decompress s = .next { failedState 1#4 1#8 0#8 0x20#8 s.inLen s with outLen := 0#32 }

/-- A container SERIALIZE wrote, copied to IN_BUF, gives HIST, the payload and PAD back
(44_container_framer.md R158). -/
def Obligations.FramingRoundTrip : Prop :=
  ∀ s t u : State, Inv s → exec .serialize s = .next t → t.err = 0#4 →
    u.cfg = s.cfg → u.inLen = t.outLen → t.outLen.toNat ≤ u.cfg.inCap →
    (∀ k, k < t.outLen.toNat → u.mem.get? (inBase + k) = t.mem.get? (outBase + k)) →
      ∃ v, exec .deserialize u = .next v ∧ v.err = 0#4 ∧ v.hist = s.hist ∧ v.plen = s.plen
        ∧ v.pad = s.pad ∧ ∀ i, i < s.plen.toNat → v.pbuf.get? i = s.pbuf.get? i

/-! ## COMPRESS and DECOMPRESS -/

/-- COMPRESS of a written input writes its container and leaves the three validity flags set, when the
capacities suffice and the input is not one symbol under REJECT (45_pipeline_and_control.md R161,
R166). -/
def Obligations.CompressWritesTheContainer : Prop :=
  ∀ (s : State) (d : List Byte), s.cfg.wf = true → Holds s.mem inBase d →
    d.length = s.inLen.toNat → s.inLen.toNat ≤ s.cfg.inCap →
    (s.latchedDegen = false ∨ nonzeroCount (countBytes d) ≠ 1) →
    (packedOf s.cfg.tie d).length ≤ s.cfg.pbufCap →
    1025 + (packedOf s.cfg.tie d).length ≤ s.cfg.outCap →
      ∃ t, exec .compress s = .next t ∧ CompletedOk s t
        ∧ t.outLen.toNat = 1025 + (packedOf s.cfg.tie d).length
        ∧ Holds t.mem outBase (containerOf s.cfg.tie d)
        ∧ SameOutside outBase t.outLen.toNat s.mem t.mem
        ∧ t.hist = countBytes d ∧ histSum t.hist = s.inLen.toNat
        ∧ t.code = histCodes s.cfg.tie (countBytes d)
        ∧ t.treeValid = true ∧ t.codesValid = true ∧ t.payloadValid = true ∧ SameControl s t

/-- COMPRESS of a written input fails in four cases only, SEQUENCE and ABSENT_CODE not among them; and
DECOMPRESS fails in eight, which are DESERIALIZE's five, and, with the container's parts in the state,
OUT_OVER, EMPTY_TREE and a failed walk. Each case with its ERRINFO and ERRARG, and with the state it
leaves: all that the sub-operations before it wrote, and nothing else but OUT_LEN = 0
(45_pipeline_and_control.md R161, R162; 60_exceptions.md R174 to R176, R178 to R180). The count of draws
is the model's (log entries 3 and 10). -/
def Obligations.PipelinesFailInTheseCasesOnly : Prop :=
  (∀ (s t : State) (d : List Byte), s.cfg.wf = true →
    (s.inLen.toNat ≤ s.cfg.inCap → Holds s.mem inBase d ∧ d.length = s.inLen.toNat) →
    exec .compress s = .next t → t.err ≠ 0#4 →
      let codes := histCodes s.cfg.tie (countBytes d)
      (s.cfg.inCap < s.inLen.toNat
          ∧ t = { failedState 5#4 1#8 0#8 0x10#8 s.inLen s with outLen := 0#32 })
        ∨ (s.inLen.toNat ≤ s.cfg.inCap
          ∧ t.outLen = 0#32 ∧ t.hist = countBytes d ∧ t.treeValid = true ∧ TreeCoherent t
          ∧ SameControl s t ∧ t.mem = s.mem ∧ t.draws = s.draws
          ∧ ((nonzeroCount (countBytes d) = 1 ∧ s.latchedDegen = true ∧ t.codesValid = false
              ∧ (∀ v, codeAt t.code v = Code.absent) ∧ SamePayload s t
              ∧ ∃ b, b ∈ d ∧ CompletedWith 3#4 1#8 b 0x12#8 s.inLen t)
            ∨ ((s.latchedDegen = false ∨ nonzeroCount (countBytes d) ≠ 1)
              ∧ t.code = codes ∧ t.codesValid = true
              ∧ ((PayloadCleared t
                  ∧ ∃ i b, d[i]? = some b
                    ∧ (encodeWith codes (d.take i)).length ≤ 8 * s.cfg.pbufCap
                    ∧ 8 * s.cfg.pbufCap < (encodeWith codes (d.take (i + 1))).length
                    ∧ CompletedWith 5#4 2#8 b 0x13#8 (BitVec.ofNat 32 i) t)
                ∨ ((packedOf s.cfg.tie d).length ≤ s.cfg.pbufCap
                  ∧ s.cfg.outCap < 1025 + (packedOf s.cfg.tie d).length
                  ∧ t.payloadValid = true ∧ t.plen.toNat = (packedOf s.cfg.tie d).length
                  ∧ t.pad = BitVec.ofNat 3 (padCount (encodeWith codes d).length)
                  ∧ Holds t.pbuf 0 (packedOf s.cfg.tie d)
                  ∧ CompletedWith 5#4 3#8 0#8 0x14#8
                      (BitVec.ofNat 32 (1025 + (packedOf s.cfg.tie d).length)) t))))))
    ∧ ∀ s t : State, s.cfg.wf = true → exec .decompress s = .next t → t.err ≠ 0#4 →
      let drawn := s.draws + unwrittenIn s.mem inBase s.inLen.toNat
      let framing (err : BitVec 4) (sub sym : Byte) (n k : Nat) : State :=
        { failedState err sub sym 0x20#8 (BitVec.ofNat 32 n) s with outLen := 0#32, draws := k }
      (s.cfg.inCap < s.inLen.toNat ∧ t = framing 5#4 1#8 0#8 s.inLen.toNat s.draws)
        ∨ (s.inLen.toNat < 1025 ∧ t = framing 1#4 1#8 0#8 s.inLen.toNat s.draws)
        ∨ ∃ (p : Byte) (n : Nat), s.inLen.toNat ≤ s.cfg.inCap ∧ s.inLen.toNat = 1025 + n
          ∧ (inputOf s)[1024 + n]? = some p
          ∧ ((7 < p.toNat ∧ t = framing 1#4 2#8 p (1024 + n) drawn)
            ∨ (p.toNat ≤ 7 ∧ 8 * n < p.toNat ∧ t = framing 1#4 3#8 p n drawn)
            ∨ (p.toNat ≤ 7 ∧ p.toNat ≤ 8 * n ∧ s.cfg.pbufCap < n
              ∧ t = framing 5#4 2#8 0#8 n drawn)
            ∨ (p.toNat ≤ 7 ∧ p.toNat ≤ 8 * n ∧ n ≤ s.cfg.pbufCap
              ∧ t.outLen = 0#32 ∧ HoldsContainer (inputOf s) t ∧ t.payloadValid = true
              ∧ t.treeValid = true ∧ TreeCoherent t ∧ t.codesValid = false
              ∧ (∀ v, codeAt t.code v = Code.absent) ∧ SameControl s t ∧ t.draws = drawn
              ∧ ((s.cfg.outCap < histSum t.hist
                  ∧ CompletedWith 5#4 3#8 0#8 0x21#8
                      (BitVec.ofNat 32 (min (histSum t.hist) 0xFFFFFFFF)) t ∧ t.mem = s.mem)
                ∨ (histSum t.hist = 0 ∧ 0 < n
                  ∧ CompletedWith 2#4 1#8 0#8 0x21#8 (BitVec.ofNat 32 n) t ∧ t.mem = s.mem)
                ∨ (0 < histSum t.hist ∧ histSum t.hist ≤ s.cfg.outCap
                  ∧ ∃ d sub sym j,
                      WalkFails (histCodes s.cfg.tie t.hist) (histSum t.hist) (retainedOf t) d
                        sub sym j
                      ∧ CompletedWith 1#4 sub sym 0x21#8 (BitVec.ofNat 32 j) t
                      ∧ Holds t.mem outBase d ∧ SameOutside outBase d.length s.mem t.mem))))

/-- COMPRESS of the empty input gives 1025 zero bytes, and DECOMPRESS of 1025 zero bytes the empty
output (45_pipeline_and_control.md R168). -/
def Obligations.EmptyInputRoundTrip : Prop :=
  (∀ s : State, s.cfg.wf = true → s.inLen = 0#32 →
      ∃ t, exec .compress s = .next t ∧ CompletedOk s t ∧ t.outLen = 1025#32
        ∧ ∀ k, k < 1025 → t.mem.get? (outBase + k) = some 0#8)
    ∧ ∀ s : State, s.cfg.wf = true → s.inLen = 1025#32 →
        (∀ k, k < 1025 → s.mem.get? (inBase + k) = some 0#8) →
          ∃ t, exec .decompress s = .next t ∧ CompletedOk s t ∧ t.outLen = 0#32

/-- One distinct byte: under REJECT, COMPRESS fails with DEGENERATE_SINGLE_SYMBOL, the symbol and
IN_LEN, and keeps the tree; under FORCE, "aaaa" gives HIST[97] = 4, payload 00 and pad 04, and
DECOMPRESS gives it back (45_pipeline_and_control.md R169). -/
def Obligations.SingleByteInput : Prop :=
  (∀ (s : State) (b : Byte), s.latchedDegen = true → 0 < s.inLen.toNat →
      s.inLen.toNat ≤ s.cfg.inCap → Holds s.mem inBase (List.replicate s.inLen.toNat b) →
        ∃ t, exec .compress s = .next t ∧ CompletedWith 3#4 1#8 b 0x12#8 s.inLen t
          ∧ t.outLen = 0#32 ∧ t.treeValid = true ∧ t.codesValid = false ∧ t.mem = s.mem
          ∧ SameControl s t ∧ SamePayload s t)
    ∧ ∀ s : State, s.cfg.wf = true → s.latchedDegen = false → s.inLen = 4#32 →
        Holds s.mem inBase [0x61#8, 0x61#8, 0x61#8, 0x61#8] → 1026 ≤ s.cfg.outCap →
          ∃ t, exec .compress s = .next t ∧ t.err = 0#4 ∧ t.outLen = 1026#32
            ∧ histAt t.hist 0x61#8 = 4#32 ∧ t.mem.get? (outBase + 1024) = some 0x00#8
            ∧ t.mem.get? (outBase + 1025) = some 0x04#8
            ∧ ∀ u : State, u.cfg.wf = true → u.cfg.tie = s.cfg.tie → u.inLen = 1026#32 →
                1026 ≤ u.cfg.inCap →
                (∀ k, k < 1026 → u.mem.get? (inBase + k) = t.mem.get? (outBase + k)) →
                  ∃ v, exec .decompress u = .next v ∧ v.err = 0#4 ∧ v.outLen = 4#32
                    ∧ Holds v.mem outBase [0x61#8, 0x61#8, 0x61#8, 0x61#8]

/-- The outcome of COMPRESS is a function of IN_LEN, the input bytes, LATCHED_DEGEN and the
configuration alone, that of DECOMPRESS of IN_LEN, the input bytes and the configuration alone: the
outcome registers, the result, and every register the command writes
(45_pipeline_and_control.md R165). -/
def Obligations.PipelinesAreStateless : Prop :=
  (∀ s s' t t' : State, s.cfg.wf = true → s'.cfg = s.cfg → s'.inLen = s.inLen →
      s'.latchedDegen = s.latchedDegen →
      (s.inLen.toNat ≤ s.cfg.inCap → Written s.mem inBase s.inLen.toNat) →
      (∀ k, k < s.inLen.toNat → s'.mem.get? (inBase + k) = s.mem.get? (inBase + k)) →
      exec .compress s = .next t → exec .compress s' = .next t' →
        t'.err = t.err ∧ t'.outLen = t.outLen
          ∧ (t.err ≠ 0#4 → t'.errSub = t.errSub ∧ t'.errSym = t.errSym ∧ t'.errStage = t.errStage
              ∧ t'.errArg = t.errArg)
          ∧ (∀ k, k < t.outLen.toNat → t'.mem.get? (outBase + k) = t.mem.get? (outBase + k))
          ∧ (s.inLen.toNat ≤ s.cfg.inCap →
              t'.hist = t.hist ∧ t'.nsym = t.nsym ∧ t'.nnodes = t.nnodes ∧ t'.root = t.root
                ∧ t'.total = t.total ∧ t'.treeValid = t.treeValid ∧ t'.code = t.code
                ∧ t'.codesValid = t.codesValid
                ∧ (∀ n, n < t.nnodes.toNat → nodeN t' n = nodeN t n)
                ∧ (t.err ≠ 3#4 → t'.plen = t.plen ∧ t'.pad = t.pad
                    ∧ t'.payloadValid = t.payloadValid
                    ∧ ∀ k, k < t.plen.toNat → t'.pbuf.get? k = t.pbuf.get? k)))
    ∧ ∀ s s' t t' : State, s.cfg.wf = true → s'.cfg = s.cfg → s'.inLen = s.inLen →
        (s.inLen.toNat ≤ s.cfg.inCap → Written s.mem inBase s.inLen.toNat) →
        (∀ k, k < s.inLen.toNat → s'.mem.get? (inBase + k) = s.mem.get? (inBase + k)) →
        exec .decompress s = .next t → exec .decompress s' = .next t' →
          t'.err = t.err ∧ t'.outLen = t.outLen
            ∧ (t.err ≠ 0#4 → t'.errSub = t.errSub ∧ t'.errSym = t.errSym ∧ t'.errStage = t.errStage
                ∧ t'.errArg = t.errArg)
            ∧ (∀ k, k < t.outLen.toNat → t'.mem.get? (outBase + k) = t.mem.get? (outBase + k))
            ∧ (t.err = 0#4 ∨ t.errStage = 0x21#8 →
                t'.hist = t.hist ∧ t'.nsym = t.nsym ∧ t'.nnodes = t.nnodes ∧ t'.root = t.root
                  ∧ t'.total = t.total ∧ t'.treeValid = t.treeValid ∧ t'.code = t.code
                  ∧ t'.codesValid = t.codesValid
                  ∧ (∀ n, n < t.nnodes.toNat → nodeN t' n = nodeN t n)
                  ∧ t'.plen = t.plen ∧ t'.pad = t.pad ∧ t'.payloadValid = t.payloadValid
                  ∧ ∀ k, k < t.plen.toNat → t'.pbuf.get? k = t.pbuf.get? k)

/-- DECOMPRESS of the container of a sequence gives the sequence, when the capacities suffice; the
tree and the payload stay valid and the code table is cleared (45_pipeline_and_control.md R162). -/
def Obligations.DecompressDecodesContainers : Prop :=
  ∀ (s : State) (d : List Byte), s.cfg.wf = true →
    Holds s.mem inBase (containerOf s.cfg.tie d) →
    s.inLen.toNat = (containerOf s.cfg.tie d).length → s.inLen.toNat ≤ s.cfg.inCap →
    (packedOf s.cfg.tie d).length ≤ s.cfg.pbufCap → d.length ≤ s.cfg.outCap →
      ∃ t, exec .decompress s = .next t ∧ CompletedOk s t ∧ t.outLen.toNat = d.length
        ∧ Holds t.mem outBase d ∧ SameOutside outBase d.length s.mem t.mem
        ∧ t.treeValid = true ∧ t.payloadValid = true ∧ t.codesValid = false ∧ SameControl s t

/-- Round trip: what COMPRESS wrote, DECOMPRESS on a core with the same TIE_POLICY takes back. That
the second core's capacities suffice, its PBUF_CAP among them, is a premise
(45_pipeline_and_control.md R167; log entry 13). -/
def Obligations.CompressDecompressRoundTrip : Prop :=
  ∀ (s t u : State) (d : List Byte), s.cfg.wf = true → Holds s.mem inBase d →
    d.length = s.inLen.toNat → exec .compress s = .next t → t.err = 0#4 →
    u.cfg.wf = true → u.cfg.tie = s.cfg.tie → u.inLen = t.outLen →
    u.inLen.toNat ≤ u.cfg.inCap → u.inLen.toNat ≤ 1025 + u.cfg.pbufCap →
    d.length ≤ u.cfg.outCap →
    (∀ k, k < t.outLen.toNat → u.mem.get? (inBase + k) = t.mem.get? (outBase + k)) →
      ∃ v, exec .decompress u = .next v ∧ CompletedOk u v ∧ v.outLen.toNat = d.length
        ∧ Holds v.mem outBase d

/-- A successful DECOMPRESS puts out as many bytes as its container's counters sum to
(45_pipeline_and_control.md R170). -/
def Obligations.DecompressOutputLength : Prop :=
  ∀ s t : State, s.cfg.wf = true → exec .decompress s = .next t → t.err = 0#4 →
    t.outLen.toNat = histSum t.hist ∧ t.outLen.toNat = t.total.toNat
      ∧ ∀ (v : Byte) k, k < 4 → (inputOf s)[4 * v.toNat + k]?
          = some ((histAt t.hist v).extractLsb' (8 * k) 8)

/-- A composite that succeeds ends as its components do when issued one by one, apart from LASTCMD
(60_exceptions.md R195). -/
def Obligations.CompositesEqualTheirComponents : Prop :=
  ∀ s t : State,
    (exec .compress (issue (encode .compress) s) = .next t → t.err = 0#4 →
        RunsInTurn [.count, .build, .gencodes, .pack, .serialize] s
          { t with lastCmd := encode .serialize })
      ∧ (exec .decompress (issue (encode .decompress) s) = .next t → t.err = 0#4 →
        RunsInTurn [.deserialize, .build, .unpack] s { t with lastCmd := encode .unpack })

/-! ## All commands -/

/-- No command writes a byte outside OUT_BUF, and a successful one writes no byte at OUT_LEN or above
(20_memory.md R65, R66). -/
def Obligations.CommandsWriteOnlyTheResult : Prop :=
  ∀ (i : Instr) (s : State), s.cfg.wf = true →
    ∃ t, exec i s = .next t
      ∧ SameOutside outBase s.cfg.outCap s.mem t.mem
      ∧ (t.err = 0#4 → ∀ x, outBase + t.outLen.toNat ≤ x → t.mem.get? x = s.mem.get? x)

/-- A failed SERIALIZE, UNPACK, COMPRESS or DECOMPRESS leaves OUT_LEN = 0; no other failure writes
OUT_LEN (60_exceptions.md R178). -/
def Obligations.FailureClearsOutLen : Prop :=
  ∀ (i : Instr) (s t : State), exec i s = .next t → t.err ≠ 0#4 →
    (i = .serialize ∨ i = .unpack ∨ i = .compress ∨ i = .decompress → t.outLen = 0#32)
      ∧ (i = .nop ∨ i = .clear ∨ i = .count ∨ i = .build ∨ i = .gencodes ∨ i = .pack
          ∨ i = .deserialize → t.outLen = s.outLen)

/-- A failing command writes an (ERR, SUBCODE, STAGE) that its own checks or its sub-operations' raise,
NOP, CLEAR and BUILD none, and ERRINFO.SYM is 0 in every row of the table that says so
(60_exceptions.md R173, R174, R178). That COMPRESS may raise ABSENT_CODE, over an unwritten input alone,
is the model's reading (log entry 15). -/
def Obligations.FailuresAreInTheTable : Prop :=
  ∀ (i : Instr) (s t : State), exec i s = .next t → t.err ≠ 0#4 →
    (t.err.toNat, t.errSub.toNat, t.errStage.toNat) ∈ errorsOf i
      ∧ (t.errSym ≠ 0#8 →
          (t.err.toNat, t.errSub.toNat, t.errStage.toNat) ∈ errorsWithSym)

/-! ## The invariant, reset, the interrupt -/

/-- The invariant holds after reset, in every legal configuration. -/
def Obligations.InvHoldsAtReset : Prop :=
  Inv State.reset ∧ ∀ c : Config, c.wf = true → Inv (State.resetWith c)

/-- Every step keeps the invariant (10_state.md R28 to R32, R61). -/
def Obligations.StepKeepsInv : Prop :=
  ∀ s t : State, Inv s → step s = .next t → Inv t

/-- Reset sets every piece of state to its reset value, makes every buffer byte unwritten, and
abandons a command in execution (10_state.md R63, 70_reset_and_hazards.md R197, R198). That the
configuration and the events still pending survive it is the model's choice (log entry 6). -/
def Obligations.ResetValues : Prop :=
  AtReset State.reset
    ∧ ∀ (s : State) (rest : List Event), s.inbox = .reset :: rest →
        ∃ t, step s = .next t ∧ AtReset t ∧ t.cfg = s.cfg ∧ t.inbox = rest

/-- The interrupt line is IE & DONE: every completion step sets DONE, whatever the outcome; a STATUS
write with bit 1 set, an issue and reset clear it; a CTRL write masks or raises the line at once
(60_exceptions.md R187). -/
def Obligations.InterruptFollowsIeAndDone : Prop :=
  (∀ s : State, irq s = (s.ie && s.done))
    ∧ (∀ s t : State, s.busy = true → coreTurn s = .next t → t.done = true ∧ irq t = s.ie)
    ∧ (∀ (s : State) (v : Word),
        let t := busStep { kind := .write, addr := 0x00000008#32, size := .b4, wdata := v } s
        t.done = (s.done && !v.getLsbD 1) ∧ t.ie = s.ie)
    ∧ (∀ (s : State) (v : Word),
        let t := busStep { kind := .write, addr := 0x00000004#32, size := .b4, wdata := v } s
        t.done = s.done ∧ irq t = (v.getLsbD 0 && s.done))
    ∧ (∀ (s : State) (w : Word), s.busy = false →
        irq (busStep { kind := .write, addr := 0x0000000C#32, size := .b4, wdata := w } s) = false)
    ∧ ∀ s : State, irq (resetEvent s) = false

/-! ## The host bus -/

/-- An accepted CMD write issues: LASTCMD, LATCHED_DEGEN, DONE, ERR, ERRINFO, ERRARG and BUSY are
written in one step, and nothing else (20_memory.md R73). -/
def Obligations.CmdWriteIssues : Prop :=
  ∀ (s : State) (w : Word), s.busy = false →
    busStep { kind := .write, addr := 0x0000000C#32, size := .b4, wdata := w } s =
      { s with
        lastCmd := w, latchedDegen := s.degen, done := false, err := 0#4
        errSub := 0#8, errSym := 0#8, errStage := 0#8, errArg := 0#32, busy := true
        answer := some { resp := .okay, rdata := 0#32 } }

/-- While BUSY = 1, reads of ID, CTRL, STATUS and LASTCMD and writes of CTRL and STATUS are served;
every other transaction gets ERROR and has no effect (20_memory.md R72). The words read are said by
their bits: bit 0 of STATUS reads 1. -/
def Obligations.BusyWindow : Prop :=
  ∀ (s : State) (t : Transaction), s.busy = true →
    (t.kind = .read → t.size = .b4 → t.addr = 0x000#32 ∨ t.addr = 0x004#32 ∨ t.addr = 0x008#32
        ∨ t.addr = 0x00C#32 →
        ∃ v, busStep t s = { s with answer := some { resp := .okay, rdata := v } }
          ∧ (t.addr = 0x000#32 → v = 0x48554631#32)
          ∧ (t.addr = 0x004#32 → v.toNat = s.ie.toNat + 2 * s.degen.toNat)
          ∧ (t.addr = 0x008#32 → v.toNat = 1 + 2 * s.done.toNat + 4 * s.treeValid.toNat
              + 8 * s.codesValid.toNat + 16 * s.payloadValid.toNat + 256 * s.err.toNat)
          ∧ (t.addr = 0x00C#32 → v = s.lastCmd))
      ∧ (t.kind = .write → t.size = .b4 → t.addr = 0x004#32 →
        busStep t s =
          { s with
            ie := t.wdata.getLsbD 0, degen := t.wdata.getLsbD 1
            answer := some { resp := .okay, rdata := 0#32 } })
      ∧ (t.kind = .write → t.size = .b4 → t.addr = 0x008#32 →
        busStep t s =
          { s with
            done := s.done && !t.wdata.getLsbD 1
            answer := some { resp := .okay, rdata := 0#32 } })
      ∧ (¬ (t.size = .b4
            ∧ ((t.kind = .read ∧ (t.addr = 0x000#32 ∨ t.addr = 0x004#32 ∨ t.addr = 0x008#32
                  ∨ t.addr = 0x00C#32))
              ∨ (t.kind = .write ∧ (t.addr = 0x004#32 ∨ t.addr = 0x008#32)))) →
        busStep t s = { s with answer := some { resp := .error, rdata := 0#32 } })

/-- A misaligned transaction, a CSR access of size 1 or 2 or at an unlisted offset, a buffer access
out of bounds and an access to an unmapped address get ERROR and have no effect
(20_memory.md R69, R70, R71). -/
def Obligations.BadTransactionsGetError : Prop :=
  ∀ (s : State) (t : Transaction), s.cfg.wf = true →
    let a := t.addr.toNat
    (a % t.size.bytes ≠ 0
        ∨ (a < 0x1000 ∧ t.size ≠ .b4)
        ∨ (a < 0x1000 ∧ ∀ c : Csr, c.offset ≠ a)
        ∨ (0x1000 ≤ a ∧ a < 0x40000000)
        ∨ (0x40000000 ≤ a ∧ a < 0x80000000 ∧ s.cfg.inCap < a - 0x40000000 + t.size.bytes)
        ∨ (0x80000000 ≤ a ∧ a < 0xC0000000 ∧ s.cfg.outCap < a - 0x80000000 + t.size.bytes)
        ∨ 0xC0000000 ≤ a) →
      busStep t s = { s with answer := some { resp := .error, rdata := 0#32 } }

/-- An ERROR answer has rdata = 0 and leaves every register and buffer byte alone, an OKAY answer to a
write has rdata = 0, and a read changes nothing but the port and the model's count of draws
(20_memory.md R74, R75, 60_exceptions.md R184). A read of a register takes no draw; a read of a buffer
takes one for each byte nothing has written, and returns them and the written bytes lowest address
first (20_memory.md R68, R78). How draws are numbered is the model's choice (log entries 3, 10). -/
def Obligations.ErrorsAndReadsChangeNothing : Prop :=
  ∀ (s : State) (t : Transaction), ∃ a,
    (busStep t s).answer = some a
      ∧ (a.resp = .error → a.rdata = 0#32 ∧ busStep t s = { s with answer := some a })
      ∧ (a.resp = .okay → t.kind = .write → a.rdata = 0#32)
      ∧ (t.kind = .read → t.addr.toNat < 0x1000 → busStep t s = { s with answer := some a })
      ∧ (a.resp = .okay → t.kind = .read → 0x1000 ≤ t.addr.toNat →
          busStep t s =
              { s with
                answer := some a
                draws := s.draws + unwrittenIn s.mem t.addr.toNat t.size.bytes }
            ∧ ∀ k, k < t.size.bytes → a.rdata.extractLsb' (8 * k) 8 =
                (s.mem.get? (t.addr.toNat + k)).getD
                  (Config.unwrittenByte (s.draws + unwrittenIn s.mem t.addr.toNat k)))

/-- A transaction in bounds of a buffer while idle: a write stores the low bytes of wdata, lowest
address first, and nothing else; a read of written bytes returns them zero-extended, and changes
nothing (20_memory.md R68). -/
def Obligations.BufferAccessIsLittleEndian : Prop :=
  ∀ (s : State) (t : Transaction), s.cfg.wf = true → s.busy = false →
    t.addr.toNat % t.size.bytes = 0 →
    (0x40000000 ≤ t.addr.toNat ∧ t.addr.toNat + t.size.bytes ≤ 0x40000000 + s.cfg.inCap
      ∨ 0x80000000 ≤ t.addr.toNat ∧ t.addr.toNat + t.size.bytes ≤ 0x80000000 + s.cfg.outCap) →
      (t.kind = .write →
          ∃ m, busStep t s = { s with mem := m, answer := some { resp := .okay, rdata := 0#32 } }
            ∧ (∀ k, k < t.size.bytes →
                m.get? (t.addr.toNat + k) = some (t.wdata.extractLsb' (8 * k) 8))
            ∧ SameOutside t.addr.toNat t.size.bytes s.mem m)
        ∧ (t.kind = .read → ∀ bs, Holds s.mem t.addr.toNat bs → bs.length = t.size.bytes →
          ∃ v, busStep t s = { s with answer := some { resp := .okay, rdata := v } }
            ∧ (∀ k b, bs[k]? = some b → v.extractLsb' (8 * k) 8 = b)
            ∧ ∀ j, 8 * t.size.bytes ≤ j → v.getLsbD j = false)

/-- Host writes of registers while idle: RO registers ignore them, RW registers store the data
truncated to their fields, STATUS is W1C (10_state.md R23); a HIST write stores the data and
invalidates the tree (10_state.md R51). -/
def Obligations.RegisterWrites : Prop :=
  ∀ (s : State) (v : Word) (c : Csr), s.busy = false →
    let t := busStep { kind := .write, addr := BitVec.ofNat 32 c.offset, size := .b4, wdata := v } s
    let ok : Option Answer := some { resp := .okay, rdata := 0#32 }
    (c ∈ [.id, .outLen, .plen, .pad, .errInfo, .errArg, .nsym, .root, .nnodes, .totalLo, .totalHi,
        .codeLen, .nodeInfo, .nodeFreqLo, .nodeFreqHi, .nodeLeft, .nodeRight]
        ∨ (∃ k, c = .codeW k) → t = { s with answer := ok })
      ∧ (c = .ctrl → t = { s with ie := v.getLsbD 0, degen := v.getLsbD 1, answer := ok })
      ∧ (c = .status → t = { s with done := s.done && !v.getLsbD 1, answer := ok })
      ∧ (c = .inLen → t = { s with inLen := v, answer := ok })
      ∧ (c = .codeIdx → t = { s with codeIdx := v.extractLsb' 0 8, answer := ok })
      ∧ (c = .nodeIdx → t = { s with nodeIdx := v.extractLsb' 0 9, answer := ok })
      ∧ ∀ b, c = .hist b →
          (∀ u, histAt t.hist u = if u = b then v else histAt s.hist u) ∧ TreeCleared t
            ∧ SameControl s { t with answer := s.answer } ∧ t.answer = ok ∧ SamePayload s t
            ∧ t.mem = s.mem ∧ t.node = s.node ∧ t.outLen = s.outLen ∧ t.busy = s.busy
            ∧ t.done = s.done ∧ t.err = s.err ∧ t.errSub = s.errSub ∧ t.errSym = s.errSym
            ∧ t.errStage = s.errStage ∧ t.errArg = s.errArg ∧ t.draws = s.draws

/-- The register map: each register answers at its own offset, no two share one, and every offset is
a multiple of 4 below 0x800 (10_state.md R22). -/
def Obligations.RegisterMap : Prop :=
  (∀ c : Csr, csrAt c.offset = some c ∧ c.offset % 4 = 0 ∧ c.offset < 0x800)
    ∧ (∀ (off : Nat) (c : Csr), csrAt off = some c → c.offset = off)
    ∧ (∀ k : Fin 8, (Csr.codeW k).offset = 0x048 + 4 * k.val)
    ∧ (∀ v : Byte, (Csr.hist v).offset = 0x400 + 4 * v.toNat)
    ∧ [Csr.id, .ctrl, .status, .cmd, .inLen, .outLen, .plen, .pad, .errInfo, .errArg, .nsym, .root,
        .nnodes, .totalLo, .totalHi, .codeIdx, .codeLen, .nodeIdx, .nodeInfo, .nodeFreqLo,
        .nodeFreqHi, .nodeLeft, .nodeRight].map Csr.offset =
      [0x000, 0x004, 0x008, 0x00C, 0x010, 0x014, 0x018, 0x01C, 0x020, 0x024, 0x028, 0x02C, 0x030,
        0x034, 0x038, 0x040, 0x044, 0x080, 0x084, 0x088, 0x08C, 0x090, 0x094]

/-- What the host reads while idle: STATUS, CTRL, ERRINFO and the tree summary by their bits, ID, and
CODE_IDX and NODE_IDX, and the views of the code table and of the selected node (10_state.md R24 to R26,
R38, R41, R42, R44 to R48). -/
def Obligations.RegisterReads : Prop :=
  ∀ s : State, s.busy = false →
    ∃ val : Csr → Word,
      (∀ c, busStep { kind := .read, addr := BitVec.ofNat 32 c.offset, size := .b4, wdata := 0#32 } s
          = { s with answer := some { resp := .okay, rdata := val c } })
        ∧ val .id = 0x48554631#32
        ∧ (val .ctrl).toNat = s.ie.toNat + 2 * s.degen.toNat
        ∧ (val .status).toNat = s.busy.toNat + 2 * s.done.toNat + 4 * s.treeValid.toNat
            + 8 * s.codesValid.toNat + 16 * s.payloadValid.toNat + 256 * s.err.toNat
        ∧ val .cmd = s.lastCmd ∧ val .inLen = s.inLen ∧ val .outLen = s.outLen
        ∧ val .plen = s.plen ∧ (val .pad).toNat = s.pad.toNat
        ∧ (val .errInfo).toNat = s.errSub.toNat + 2 ^ 8 * s.errSym.toNat + 2 ^ 16 * s.errStage.toNat
        ∧ val .errArg = s.errArg ∧ (val .nsym).toNat = s.nsym.toNat
        ∧ (val .nnodes).toNat = s.nnodes.toNat
        ∧ (s.root = none → val .root = 0xFFFFFFFF#32)
        ∧ (∀ r, s.root = some r → (val .root).toNat = r.toNat)
        ∧ (val .totalLo).toNat + 2 ^ 32 * (val .totalHi).toNat = s.total.toNat
        ∧ (val .codeIdx).toNat = s.codeIdx.toNat ∧ (val .nodeIdx).toNat = s.nodeIdx.toNat
        ∧ (val .codeLen).toNat = (codeAt s.code s.codeIdx).len.toNat
        ∧ (∀ k : Fin 8, val (.codeW k) = (codeAt s.code s.codeIdx).val.extractLsb' (32 * k.val) 32)
        ∧ (∀ v, val (.hist v) = histAt s.hist v)
        ∧ (s.nnodes.toNat ≤ s.nodeIdx.toNat →
            val .nodeInfo = 0#32 ∧ val .nodeFreqLo = 0#32 ∧ val .nodeFreqHi = 0#32
              ∧ val .nodeLeft = 0xFFFFFFFF#32 ∧ val .nodeRight = 0xFFFFFFFF#32)
        ∧ (∀ sym f, s.nodeIdx.toNat < s.nnodes.toNat → nodeAt s.node s.nodeIdx = .leaf sym f →
            (val .nodeInfo).toNat = 2 ^ 31 + 2 ^ 8 * sym.toNat
              ∧ (val .nodeFreqLo).toNat + 2 ^ 32 * (val .nodeFreqHi).toNat = f.toNat
              ∧ val .nodeLeft = 0xFFFFFFFF#32 ∧ val .nodeRight = 0xFFFFFFFF#32)
        ∧ ∀ f l r, s.nodeIdx.toNat < s.nnodes.toNat → nodeAt s.node s.nodeIdx = .internal f l r →
            (val .nodeInfo).toNat = 2 ^ 31 + 1
              ∧ (val .nodeFreqLo).toNat + 2 ^ 32 * (val .nodeFreqHi).toNat = f.toNat
              ∧ (val .nodeLeft).toNat = l.toNat ∧ (val .nodeRight).toNat = r.toNat

/-- The bytes a command reads: IN_LEN of them, or PLEN; a byte written since reset reads as last
written, and any other takes a free draw of its own, so that a command that reads takes as many draws
as there are unwritten bytes it reads, each time it reads them (20_memory.md R78, R83). COMPRESS reads
its input in COUNT and, unless GENCODES fails, again in PACK. How draws are numbered is the model's
choice (log entries 3, 10). -/
def Obligations.CommandsReadWrittenBytes : Prop :=
  ∀ s : State,
    let unwritten := unwrittenIn s.mem inBase s.inLen.toNat
    let unwrittenPayload := unwrittenIn s.pbuf 0 s.plen.toNat
    (inputOf s).length = s.inLen.toNat ∧ (payloadOf s).length = s.plen.toNat
      ∧ (∀ k, k < s.inLen.toNat →
          (∀ b, s.mem.get? (inBase + k) = some b → (inputOf s)[k]? = some b)
            ∧ (s.mem.get? (inBase + k) = none →
                (inputOf s)[k]? = some
                  (Config.unwrittenByte (s.draws + unwrittenIn s.mem inBase k))))
      ∧ (∀ k, k < s.plen.toNat →
          (∀ b, s.pbuf.get? k = some b → (payloadOf s)[k]? = some b)
            ∧ (s.pbuf.get? k = none →
                (payloadOf s)[k]? = some
                  (Config.unwrittenByte (s.draws + unwrittenIn s.pbuf 0 k))))
      ∧ (s.inLen.toNat ≤ s.cfg.inCap →
          (∃ t, exec .count s = .next t ∧ t.draws = s.draws + unwritten)
            ∧ (s.codesValid = true →
                ∃ t, exec .pack s = .next t ∧ t.draws = s.draws + unwritten)
            ∧ (1025 ≤ s.inLen.toNat →
                (∃ t, exec .deserialize s = .next t ∧ t.draws = s.draws + unwritten)
                  ∧ ∃ t, exec .decompress s = .next t ∧ t.draws = s.draws + unwritten)
            ∧ ∃ t, exec .compress s = .next t
                ∧ (t.err = 3#4 → t.draws = s.draws + unwritten)
                ∧ (t.err ≠ 3#4 → t.draws = s.draws + 2 * unwritten))
      ∧ (s.payloadValid = true →
          (1025 + s.plen.toNat ≤ s.cfg.outCap →
              ∃ t, exec .serialize s = .next t ∧ t.draws = s.draws + unwrittenPayload)
            ∧ (s.treeValid = true → s.total.toNat ≤ s.cfg.outCap → s.root ≠ none →
                ∃ t, exec .unpack s = .next t ∧ t.draws = s.draws + unwrittenPayload))
end

