-- ==== Sys2Proof/Laws/State.lean ====
section
/-! SUPPORT. One lemma per field per update of State, so that no proof unfolds a record update. -/

namespace Sys2Proof.Machine

/-! ## invalidateCodes -/

@[simp] theorem invalidateCodes_cfg (s : State) : (invalidateCodes s).cfg = s.cfg := rfl
@[simp] theorem invalidateCodes_ie (s : State) : (invalidateCodes s).ie = s.ie := rfl
@[simp] theorem invalidateCodes_degen (s : State) : (invalidateCodes s).degen = s.degen := rfl
@[simp] theorem invalidateCodes_busy (s : State) : (invalidateCodes s).busy = s.busy := rfl
@[simp] theorem invalidateCodes_done (s : State) : (invalidateCodes s).done = s.done := rfl
@[simp] theorem invalidateCodes_treeValid (s : State) : (invalidateCodes s).treeValid = s.treeValid := rfl
@[simp] theorem invalidateCodes_codesValid (s : State) : (invalidateCodes s).codesValid = false := rfl
@[simp] theorem invalidateCodes_payloadValid (s : State) : (invalidateCodes s).payloadValid = s.payloadValid := rfl
@[simp] theorem invalidateCodes_err (s : State) : (invalidateCodes s).err = s.err := rfl
@[simp] theorem invalidateCodes_lastCmd (s : State) : (invalidateCodes s).lastCmd = s.lastCmd := rfl
@[simp] theorem invalidateCodes_latchedDegen (s : State) : (invalidateCodes s).latchedDegen = s.latchedDegen := rfl
@[simp] theorem invalidateCodes_inLen (s : State) : (invalidateCodes s).inLen = s.inLen := rfl
@[simp] theorem invalidateCodes_outLen (s : State) : (invalidateCodes s).outLen = s.outLen := rfl
@[simp] theorem invalidateCodes_plen (s : State) : (invalidateCodes s).plen = s.plen := rfl
@[simp] theorem invalidateCodes_pad (s : State) : (invalidateCodes s).pad = s.pad := rfl
@[simp] theorem invalidateCodes_errSub (s : State) : (invalidateCodes s).errSub = s.errSub := rfl
@[simp] theorem invalidateCodes_errSym (s : State) : (invalidateCodes s).errSym = s.errSym := rfl
@[simp] theorem invalidateCodes_errStage (s : State) : (invalidateCodes s).errStage = s.errStage := rfl
@[simp] theorem invalidateCodes_errArg (s : State) : (invalidateCodes s).errArg = s.errArg := rfl
@[simp] theorem invalidateCodes_nsym (s : State) : (invalidateCodes s).nsym = s.nsym := rfl
@[simp] theorem invalidateCodes_root (s : State) : (invalidateCodes s).root = s.root := rfl
@[simp] theorem invalidateCodes_nnodes (s : State) : (invalidateCodes s).nnodes = s.nnodes := rfl
@[simp] theorem invalidateCodes_total (s : State) : (invalidateCodes s).total = s.total := rfl
@[simp] theorem invalidateCodes_codeIdx (s : State) : (invalidateCodes s).codeIdx = s.codeIdx := rfl
@[simp] theorem invalidateCodes_nodeIdx (s : State) : (invalidateCodes s).nodeIdx = s.nodeIdx := rfl
@[simp] theorem invalidateCodes_hist (s : State) : (invalidateCodes s).hist = s.hist := rfl
@[simp] theorem invalidateCodes_code (s : State) : (invalidateCodes s).code = Vector.replicate 256 Code.absent := rfl
@[simp] theorem invalidateCodes_node (s : State) : (invalidateCodes s).node = s.node := rfl
@[simp] theorem invalidateCodes_pbuf (s : State) : (invalidateCodes s).pbuf = s.pbuf := rfl
@[simp] theorem invalidateCodes_mem (s : State) : (invalidateCodes s).mem = s.mem := rfl
@[simp] theorem invalidateCodes_inbox (s : State) : (invalidateCodes s).inbox = s.inbox := rfl
@[simp] theorem invalidateCodes_answer (s : State) : (invalidateCodes s).answer = s.answer := rfl
@[simp] theorem invalidateCodes_draws (s : State) : (invalidateCodes s).draws = s.draws := rfl

/-! ## invalidateTree -/

@[simp] theorem invalidateTree_cfg (s : State) : (invalidateTree s).cfg = s.cfg := rfl
@[simp] theorem invalidateTree_ie (s : State) : (invalidateTree s).ie = s.ie := rfl
@[simp] theorem invalidateTree_degen (s : State) : (invalidateTree s).degen = s.degen := rfl
@[simp] theorem invalidateTree_busy (s : State) : (invalidateTree s).busy = s.busy := rfl
@[simp] theorem invalidateTree_done (s : State) : (invalidateTree s).done = s.done := rfl
@[simp] theorem invalidateTree_treeValid (s : State) : (invalidateTree s).treeValid = false := rfl
@[simp] theorem invalidateTree_codesValid (s : State) : (invalidateTree s).codesValid = false := rfl
@[simp] theorem invalidateTree_payloadValid (s : State) : (invalidateTree s).payloadValid = s.payloadValid := rfl
@[simp] theorem invalidateTree_err (s : State) : (invalidateTree s).err = s.err := rfl
@[simp] theorem invalidateTree_lastCmd (s : State) : (invalidateTree s).lastCmd = s.lastCmd := rfl
@[simp] theorem invalidateTree_latchedDegen (s : State) : (invalidateTree s).latchedDegen = s.latchedDegen := rfl
@[simp] theorem invalidateTree_inLen (s : State) : (invalidateTree s).inLen = s.inLen := rfl
@[simp] theorem invalidateTree_outLen (s : State) : (invalidateTree s).outLen = s.outLen := rfl
@[simp] theorem invalidateTree_plen (s : State) : (invalidateTree s).plen = s.plen := rfl
@[simp] theorem invalidateTree_pad (s : State) : (invalidateTree s).pad = s.pad := rfl
@[simp] theorem invalidateTree_errSub (s : State) : (invalidateTree s).errSub = s.errSub := rfl
@[simp] theorem invalidateTree_errSym (s : State) : (invalidateTree s).errSym = s.errSym := rfl
@[simp] theorem invalidateTree_errStage (s : State) : (invalidateTree s).errStage = s.errStage := rfl
@[simp] theorem invalidateTree_errArg (s : State) : (invalidateTree s).errArg = s.errArg := rfl
@[simp] theorem invalidateTree_nsym (s : State) : (invalidateTree s).nsym = 0#9 := rfl
@[simp] theorem invalidateTree_root (s : State) : (invalidateTree s).root = none := rfl
@[simp] theorem invalidateTree_nnodes (s : State) : (invalidateTree s).nnodes = 0#10 := rfl
@[simp] theorem invalidateTree_total (s : State) : (invalidateTree s).total = 0#40 := rfl
@[simp] theorem invalidateTree_codeIdx (s : State) : (invalidateTree s).codeIdx = s.codeIdx := rfl
@[simp] theorem invalidateTree_nodeIdx (s : State) : (invalidateTree s).nodeIdx = s.nodeIdx := rfl
@[simp] theorem invalidateTree_hist (s : State) : (invalidateTree s).hist = s.hist := rfl
@[simp] theorem invalidateTree_code (s : State) : (invalidateTree s).code = Vector.replicate 256 Code.absent := rfl
@[simp] theorem invalidateTree_node (s : State) : (invalidateTree s).node = s.node := rfl
@[simp] theorem invalidateTree_pbuf (s : State) : (invalidateTree s).pbuf = s.pbuf := rfl
@[simp] theorem invalidateTree_mem (s : State) : (invalidateTree s).mem = s.mem := rfl
@[simp] theorem invalidateTree_inbox (s : State) : (invalidateTree s).inbox = s.inbox := rfl
@[simp] theorem invalidateTree_answer (s : State) : (invalidateTree s).answer = s.answer := rfl
@[simp] theorem invalidateTree_draws (s : State) : (invalidateTree s).draws = s.draws := rfl

/-! ## invalidatePayload -/

@[simp] theorem invalidatePayload_cfg (s : State) : (invalidatePayload s).cfg = s.cfg := rfl
@[simp] theorem invalidatePayload_ie (s : State) : (invalidatePayload s).ie = s.ie := rfl
@[simp] theorem invalidatePayload_degen (s : State) : (invalidatePayload s).degen = s.degen := rfl
@[simp] theorem invalidatePayload_busy (s : State) : (invalidatePayload s).busy = s.busy := rfl
@[simp] theorem invalidatePayload_done (s : State) : (invalidatePayload s).done = s.done := rfl
@[simp] theorem invalidatePayload_treeValid (s : State) : (invalidatePayload s).treeValid = s.treeValid := rfl
@[simp] theorem invalidatePayload_codesValid (s : State) : (invalidatePayload s).codesValid = s.codesValid := rfl
@[simp] theorem invalidatePayload_payloadValid (s : State) : (invalidatePayload s).payloadValid = false := rfl
@[simp] theorem invalidatePayload_err (s : State) : (invalidatePayload s).err = s.err := rfl
@[simp] theorem invalidatePayload_lastCmd (s : State) : (invalidatePayload s).lastCmd = s.lastCmd := rfl
@[simp] theorem invalidatePayload_latchedDegen (s : State) : (invalidatePayload s).latchedDegen = s.latchedDegen := rfl
@[simp] theorem invalidatePayload_inLen (s : State) : (invalidatePayload s).inLen = s.inLen := rfl
@[simp] theorem invalidatePayload_outLen (s : State) : (invalidatePayload s).outLen = s.outLen := rfl
@[simp] theorem invalidatePayload_plen (s : State) : (invalidatePayload s).plen = 0#32 := rfl
@[simp] theorem invalidatePayload_pad (s : State) : (invalidatePayload s).pad = 0#3 := rfl
@[simp] theorem invalidatePayload_errSub (s : State) : (invalidatePayload s).errSub = s.errSub := rfl
@[simp] theorem invalidatePayload_errSym (s : State) : (invalidatePayload s).errSym = s.errSym := rfl
@[simp] theorem invalidatePayload_errStage (s : State) : (invalidatePayload s).errStage = s.errStage := rfl
@[simp] theorem invalidatePayload_errArg (s : State) : (invalidatePayload s).errArg = s.errArg := rfl
@[simp] theorem invalidatePayload_nsym (s : State) : (invalidatePayload s).nsym = s.nsym := rfl
@[simp] theorem invalidatePayload_root (s : State) : (invalidatePayload s).root = s.root := rfl
@[simp] theorem invalidatePayload_nnodes (s : State) : (invalidatePayload s).nnodes = s.nnodes := rfl
@[simp] theorem invalidatePayload_total (s : State) : (invalidatePayload s).total = s.total := rfl
@[simp] theorem invalidatePayload_codeIdx (s : State) : (invalidatePayload s).codeIdx = s.codeIdx := rfl
@[simp] theorem invalidatePayload_nodeIdx (s : State) : (invalidatePayload s).nodeIdx = s.nodeIdx := rfl
@[simp] theorem invalidatePayload_hist (s : State) : (invalidatePayload s).hist = s.hist := rfl
@[simp] theorem invalidatePayload_code (s : State) : (invalidatePayload s).code = s.code := rfl
@[simp] theorem invalidatePayload_node (s : State) : (invalidatePayload s).node = s.node := rfl
@[simp] theorem invalidatePayload_pbuf (s : State) : (invalidatePayload s).pbuf = [] := rfl
@[simp] theorem invalidatePayload_mem (s : State) : (invalidatePayload s).mem = s.mem := rfl
@[simp] theorem invalidatePayload_inbox (s : State) : (invalidatePayload s).inbox = s.inbox := rfl
@[simp] theorem invalidatePayload_answer (s : State) : (invalidatePayload s).answer = s.answer := rfl
@[simp] theorem invalidatePayload_draws (s : State) : (invalidatePayload s).draws = s.draws := rfl

/-! ## issue -/

@[simp] theorem issue_cfg (w : Word) (s : State) : (issue w s).cfg = s.cfg := rfl
@[simp] theorem issue_ie (w : Word) (s : State) : (issue w s).ie = s.ie := rfl
@[simp] theorem issue_degen (w : Word) (s : State) : (issue w s).degen = s.degen := rfl
@[simp] theorem issue_busy (w : Word) (s : State) : (issue w s).busy = true := rfl
@[simp] theorem issue_done (w : Word) (s : State) : (issue w s).done = false := rfl
@[simp] theorem issue_treeValid (w : Word) (s : State) : (issue w s).treeValid = s.treeValid := rfl
@[simp] theorem issue_codesValid (w : Word) (s : State) : (issue w s).codesValid = s.codesValid := rfl
@[simp] theorem issue_payloadValid (w : Word) (s : State) : (issue w s).payloadValid = s.payloadValid := rfl
@[simp] theorem issue_err (w : Word) (s : State) : (issue w s).err = 0#4 := rfl
@[simp] theorem issue_lastCmd (w : Word) (s : State) : (issue w s).lastCmd = w := rfl
@[simp] theorem issue_latchedDegen (w : Word) (s : State) : (issue w s).latchedDegen = s.degen := rfl
@[simp] theorem issue_inLen (w : Word) (s : State) : (issue w s).inLen = s.inLen := rfl
@[simp] theorem issue_outLen (w : Word) (s : State) : (issue w s).outLen = s.outLen := rfl
@[simp] theorem issue_plen (w : Word) (s : State) : (issue w s).plen = s.plen := rfl
@[simp] theorem issue_pad (w : Word) (s : State) : (issue w s).pad = s.pad := rfl
@[simp] theorem issue_errSub (w : Word) (s : State) : (issue w s).errSub = 0#8 := rfl
@[simp] theorem issue_errSym (w : Word) (s : State) : (issue w s).errSym = 0#8 := rfl
@[simp] theorem issue_errStage (w : Word) (s : State) : (issue w s).errStage = 0#8 := rfl
@[simp] theorem issue_errArg (w : Word) (s : State) : (issue w s).errArg = 0#32 := rfl
@[simp] theorem issue_nsym (w : Word) (s : State) : (issue w s).nsym = s.nsym := rfl
@[simp] theorem issue_root (w : Word) (s : State) : (issue w s).root = s.root := rfl
@[simp] theorem issue_nnodes (w : Word) (s : State) : (issue w s).nnodes = s.nnodes := rfl
@[simp] theorem issue_total (w : Word) (s : State) : (issue w s).total = s.total := rfl
@[simp] theorem issue_codeIdx (w : Word) (s : State) : (issue w s).codeIdx = s.codeIdx := rfl
@[simp] theorem issue_nodeIdx (w : Word) (s : State) : (issue w s).nodeIdx = s.nodeIdx := rfl
@[simp] theorem issue_hist (w : Word) (s : State) : (issue w s).hist = s.hist := rfl
@[simp] theorem issue_code (w : Word) (s : State) : (issue w s).code = s.code := rfl
@[simp] theorem issue_node (w : Word) (s : State) : (issue w s).node = s.node := rfl
@[simp] theorem issue_pbuf (w : Word) (s : State) : (issue w s).pbuf = s.pbuf := rfl
@[simp] theorem issue_mem (w : Word) (s : State) : (issue w s).mem = s.mem := rfl
@[simp] theorem issue_inbox (w : Word) (s : State) : (issue w s).inbox = s.inbox := rfl
@[simp] theorem issue_answer (w : Word) (s : State) : (issue w s).answer = s.answer := rfl
@[simp] theorem issue_draws (w : Word) (s : State) : (issue w s).draws = s.draws := rfl

/-! ## recordSuccess -/

@[simp] theorem recordSuccess_cfg (s : State) : (recordSuccess s).cfg = s.cfg := rfl
@[simp] theorem recordSuccess_ie (s : State) : (recordSuccess s).ie = s.ie := rfl
@[simp] theorem recordSuccess_degen (s : State) : (recordSuccess s).degen = s.degen := rfl
@[simp] theorem recordSuccess_busy (s : State) : (recordSuccess s).busy = s.busy := rfl
@[simp] theorem recordSuccess_done (s : State) : (recordSuccess s).done = s.done := rfl
@[simp] theorem recordSuccess_treeValid (s : State) : (recordSuccess s).treeValid = s.treeValid := rfl
@[simp] theorem recordSuccess_codesValid (s : State) : (recordSuccess s).codesValid = s.codesValid := rfl
@[simp] theorem recordSuccess_payloadValid (s : State) : (recordSuccess s).payloadValid = s.payloadValid := rfl
@[simp] theorem recordSuccess_err (s : State) : (recordSuccess s).err = 0#4 := rfl
@[simp] theorem recordSuccess_lastCmd (s : State) : (recordSuccess s).lastCmd = s.lastCmd := rfl
@[simp] theorem recordSuccess_latchedDegen (s : State) : (recordSuccess s).latchedDegen = s.latchedDegen := rfl
@[simp] theorem recordSuccess_inLen (s : State) : (recordSuccess s).inLen = s.inLen := rfl
@[simp] theorem recordSuccess_outLen (s : State) : (recordSuccess s).outLen = s.outLen := rfl
@[simp] theorem recordSuccess_plen (s : State) : (recordSuccess s).plen = s.plen := rfl
@[simp] theorem recordSuccess_pad (s : State) : (recordSuccess s).pad = s.pad := rfl
@[simp] theorem recordSuccess_errSub (s : State) : (recordSuccess s).errSub = s.errSub := rfl
@[simp] theorem recordSuccess_errSym (s : State) : (recordSuccess s).errSym = s.errSym := rfl
@[simp] theorem recordSuccess_errStage (s : State) : (recordSuccess s).errStage = s.errStage := rfl
@[simp] theorem recordSuccess_errArg (s : State) : (recordSuccess s).errArg = s.errArg := rfl
@[simp] theorem recordSuccess_nsym (s : State) : (recordSuccess s).nsym = s.nsym := rfl
@[simp] theorem recordSuccess_root (s : State) : (recordSuccess s).root = s.root := rfl
@[simp] theorem recordSuccess_nnodes (s : State) : (recordSuccess s).nnodes = s.nnodes := rfl
@[simp] theorem recordSuccess_total (s : State) : (recordSuccess s).total = s.total := rfl
@[simp] theorem recordSuccess_codeIdx (s : State) : (recordSuccess s).codeIdx = s.codeIdx := rfl
@[simp] theorem recordSuccess_nodeIdx (s : State) : (recordSuccess s).nodeIdx = s.nodeIdx := rfl
@[simp] theorem recordSuccess_hist (s : State) : (recordSuccess s).hist = s.hist := rfl
@[simp] theorem recordSuccess_code (s : State) : (recordSuccess s).code = s.code := rfl
@[simp] theorem recordSuccess_node (s : State) : (recordSuccess s).node = s.node := rfl
@[simp] theorem recordSuccess_pbuf (s : State) : (recordSuccess s).pbuf = s.pbuf := rfl
@[simp] theorem recordSuccess_mem (s : State) : (recordSuccess s).mem = s.mem := rfl
@[simp] theorem recordSuccess_inbox (s : State) : (recordSuccess s).inbox = s.inbox := rfl
@[simp] theorem recordSuccess_answer (s : State) : (recordSuccess s).answer = s.answer := rfl
@[simp] theorem recordSuccess_draws (s : State) : (recordSuccess s).draws = s.draws := rfl

/-! ## recordError -/

@[simp] theorem recordError_cfg (r : Raised) (s : State) : (recordError r s).cfg = s.cfg := rfl
@[simp] theorem recordError_ie (r : Raised) (s : State) : (recordError r s).ie = s.ie := rfl
@[simp] theorem recordError_degen (r : Raised) (s : State) : (recordError r s).degen = s.degen := rfl
@[simp] theorem recordError_busy (r : Raised) (s : State) : (recordError r s).busy = s.busy := rfl
@[simp] theorem recordError_done (r : Raised) (s : State) : (recordError r s).done = s.done := rfl
@[simp] theorem recordError_treeValid (r : Raised) (s : State) : (recordError r s).treeValid = s.treeValid := rfl
@[simp] theorem recordError_codesValid (r : Raised) (s : State) : (recordError r s).codesValid = s.codesValid := rfl
@[simp] theorem recordError_payloadValid (r : Raised) (s : State) : (recordError r s).payloadValid = s.payloadValid := rfl
@[simp] theorem recordError_err (r : Raised) (s : State) : (recordError r s).err = r.err.code := rfl
@[simp] theorem recordError_lastCmd (r : Raised) (s : State) : (recordError r s).lastCmd = s.lastCmd := rfl
@[simp] theorem recordError_latchedDegen (r : Raised) (s : State) : (recordError r s).latchedDegen = s.latchedDegen := rfl
@[simp] theorem recordError_inLen (r : Raised) (s : State) : (recordError r s).inLen = s.inLen := rfl
@[simp] theorem recordError_outLen (r : Raised) (s : State) : (recordError r s).outLen = s.outLen := rfl
@[simp] theorem recordError_plen (r : Raised) (s : State) : (recordError r s).plen = s.plen := rfl
@[simp] theorem recordError_pad (r : Raised) (s : State) : (recordError r s).pad = s.pad := rfl
@[simp] theorem recordError_errSub (r : Raised) (s : State) : (recordError r s).errSub = r.sub := rfl
@[simp] theorem recordError_errSym (r : Raised) (s : State) : (recordError r s).errSym = r.sym := rfl
@[simp] theorem recordError_errStage (r : Raised) (s : State) : (recordError r s).errStage = r.stage := rfl
@[simp] theorem recordError_errArg (r : Raised) (s : State) : (recordError r s).errArg = r.arg := rfl
@[simp] theorem recordError_nsym (r : Raised) (s : State) : (recordError r s).nsym = s.nsym := rfl
@[simp] theorem recordError_root (r : Raised) (s : State) : (recordError r s).root = s.root := rfl
@[simp] theorem recordError_nnodes (r : Raised) (s : State) : (recordError r s).nnodes = s.nnodes := rfl
@[simp] theorem recordError_total (r : Raised) (s : State) : (recordError r s).total = s.total := rfl
@[simp] theorem recordError_codeIdx (r : Raised) (s : State) : (recordError r s).codeIdx = s.codeIdx := rfl
@[simp] theorem recordError_nodeIdx (r : Raised) (s : State) : (recordError r s).nodeIdx = s.nodeIdx := rfl
@[simp] theorem recordError_hist (r : Raised) (s : State) : (recordError r s).hist = s.hist := rfl
@[simp] theorem recordError_code (r : Raised) (s : State) : (recordError r s).code = s.code := rfl
@[simp] theorem recordError_node (r : Raised) (s : State) : (recordError r s).node = s.node := rfl
@[simp] theorem recordError_pbuf (r : Raised) (s : State) : (recordError r s).pbuf = s.pbuf := rfl
@[simp] theorem recordError_mem (r : Raised) (s : State) : (recordError r s).mem = s.mem := rfl
@[simp] theorem recordError_inbox (r : Raised) (s : State) : (recordError r s).inbox = s.inbox := rfl
@[simp] theorem recordError_answer (r : Raised) (s : State) : (recordError r s).answer = s.answer := rfl
@[simp] theorem recordError_draws (r : Raised) (s : State) : (recordError r s).draws = s.draws := rfl

/-! ## endCommand -/

@[simp] theorem endCommand_cfg (s : State) : (endCommand s).cfg = s.cfg := rfl
@[simp] theorem endCommand_ie (s : State) : (endCommand s).ie = s.ie := rfl
@[simp] theorem endCommand_degen (s : State) : (endCommand s).degen = s.degen := rfl
@[simp] theorem endCommand_busy (s : State) : (endCommand s).busy = false := rfl
@[simp] theorem endCommand_done (s : State) : (endCommand s).done = true := rfl
@[simp] theorem endCommand_treeValid (s : State) : (endCommand s).treeValid = s.treeValid := rfl
@[simp] theorem endCommand_codesValid (s : State) : (endCommand s).codesValid = s.codesValid := rfl
@[simp] theorem endCommand_payloadValid (s : State) : (endCommand s).payloadValid = s.payloadValid := rfl
@[simp] theorem endCommand_err (s : State) : (endCommand s).err = s.err := rfl
@[simp] theorem endCommand_lastCmd (s : State) : (endCommand s).lastCmd = s.lastCmd := rfl
@[simp] theorem endCommand_latchedDegen (s : State) : (endCommand s).latchedDegen = s.latchedDegen := rfl
@[simp] theorem endCommand_inLen (s : State) : (endCommand s).inLen = s.inLen := rfl
@[simp] theorem endCommand_outLen (s : State) : (endCommand s).outLen = s.outLen := rfl
@[simp] theorem endCommand_plen (s : State) : (endCommand s).plen = s.plen := rfl
@[simp] theorem endCommand_pad (s : State) : (endCommand s).pad = s.pad := rfl
@[simp] theorem endCommand_errSub (s : State) : (endCommand s).errSub = s.errSub := rfl
@[simp] theorem endCommand_errSym (s : State) : (endCommand s).errSym = s.errSym := rfl
@[simp] theorem endCommand_errStage (s : State) : (endCommand s).errStage = s.errStage := rfl
@[simp] theorem endCommand_errArg (s : State) : (endCommand s).errArg = s.errArg := rfl
@[simp] theorem endCommand_nsym (s : State) : (endCommand s).nsym = s.nsym := rfl
@[simp] theorem endCommand_root (s : State) : (endCommand s).root = s.root := rfl
@[simp] theorem endCommand_nnodes (s : State) : (endCommand s).nnodes = s.nnodes := rfl
@[simp] theorem endCommand_total (s : State) : (endCommand s).total = s.total := rfl
@[simp] theorem endCommand_codeIdx (s : State) : (endCommand s).codeIdx = s.codeIdx := rfl
@[simp] theorem endCommand_nodeIdx (s : State) : (endCommand s).nodeIdx = s.nodeIdx := rfl
@[simp] theorem endCommand_hist (s : State) : (endCommand s).hist = s.hist := rfl
@[simp] theorem endCommand_code (s : State) : (endCommand s).code = s.code := rfl
@[simp] theorem endCommand_node (s : State) : (endCommand s).node = s.node := rfl
@[simp] theorem endCommand_pbuf (s : State) : (endCommand s).pbuf = s.pbuf := rfl
@[simp] theorem endCommand_mem (s : State) : (endCommand s).mem = s.mem := rfl
@[simp] theorem endCommand_inbox (s : State) : (endCommand s).inbox = s.inbox := rfl
@[simp] theorem endCommand_answer (s : State) : (endCommand s).answer = s.answer := rfl
@[simp] theorem endCommand_draws (s : State) : (endCommand s).draws = s.draws := rfl

/-! ## failureEffects -/

@[simp] theorem failureEffects_cfg (i : Instr) (s : State) : (failureEffects i s).cfg = s.cfg := by unfold failureEffects; split <;> rfl
@[simp] theorem failureEffects_ie (i : Instr) (s : State) : (failureEffects i s).ie = s.ie := by unfold failureEffects; split <;> rfl
@[simp] theorem failureEffects_degen (i : Instr) (s : State) : (failureEffects i s).degen = s.degen := by unfold failureEffects; split <;> rfl
@[simp] theorem failureEffects_busy (i : Instr) (s : State) : (failureEffects i s).busy = s.busy := by unfold failureEffects; split <;> rfl
@[simp] theorem failureEffects_done (i : Instr) (s : State) : (failureEffects i s).done = s.done := by unfold failureEffects; split <;> rfl
@[simp] theorem failureEffects_treeValid (i : Instr) (s : State) : (failureEffects i s).treeValid = s.treeValid := by unfold failureEffects; split <;> rfl
@[simp] theorem failureEffects_codesValid (i : Instr) (s : State) : (failureEffects i s).codesValid = s.codesValid := by unfold failureEffects; split <;> rfl
@[simp] theorem failureEffects_payloadValid (i : Instr) (s : State) : (failureEffects i s).payloadValid = s.payloadValid := by unfold failureEffects; split <;> rfl
@[simp] theorem failureEffects_err (i : Instr) (s : State) : (failureEffects i s).err = s.err := by unfold failureEffects; split <;> rfl
@[simp] theorem failureEffects_lastCmd (i : Instr) (s : State) : (failureEffects i s).lastCmd = s.lastCmd := by unfold failureEffects; split <;> rfl
@[simp] theorem failureEffects_latchedDegen (i : Instr) (s : State) : (failureEffects i s).latchedDegen = s.latchedDegen := by unfold failureEffects; split <;> rfl
@[simp] theorem failureEffects_inLen (i : Instr) (s : State) : (failureEffects i s).inLen = s.inLen := by unfold failureEffects; split <;> rfl
@[simp] theorem failureEffects_outLen (i : Instr) (s : State) : (failureEffects i s).outLen = if clearsOutLenOnFailure i then 0#32 else s.outLen := by unfold failureEffects; split <;> rfl
@[simp] theorem failureEffects_plen (i : Instr) (s : State) : (failureEffects i s).plen = s.plen := by unfold failureEffects; split <;> rfl
@[simp] theorem failureEffects_pad (i : Instr) (s : State) : (failureEffects i s).pad = s.pad := by unfold failureEffects; split <;> rfl
@[simp] theorem failureEffects_errSub (i : Instr) (s : State) : (failureEffects i s).errSub = s.errSub := by unfold failureEffects; split <;> rfl
@[simp] theorem failureEffects_errSym (i : Instr) (s : State) : (failureEffects i s).errSym = s.errSym := by unfold failureEffects; split <;> rfl
@[simp] theorem failureEffects_errStage (i : Instr) (s : State) : (failureEffects i s).errStage = s.errStage := by unfold failureEffects; split <;> rfl
@[simp] theorem failureEffects_errArg (i : Instr) (s : State) : (failureEffects i s).errArg = s.errArg := by unfold failureEffects; split <;> rfl
@[simp] theorem failureEffects_nsym (i : Instr) (s : State) : (failureEffects i s).nsym = s.nsym := by unfold failureEffects; split <;> rfl
@[simp] theorem failureEffects_root (i : Instr) (s : State) : (failureEffects i s).root = s.root := by unfold failureEffects; split <;> rfl
@[simp] theorem failureEffects_nnodes (i : Instr) (s : State) : (failureEffects i s).nnodes = s.nnodes := by unfold failureEffects; split <;> rfl
@[simp] theorem failureEffects_total (i : Instr) (s : State) : (failureEffects i s).total = s.total := by unfold failureEffects; split <;> rfl
@[simp] theorem failureEffects_codeIdx (i : Instr) (s : State) : (failureEffects i s).codeIdx = s.codeIdx := by unfold failureEffects; split <;> rfl
@[simp] theorem failureEffects_nodeIdx (i : Instr) (s : State) : (failureEffects i s).nodeIdx = s.nodeIdx := by unfold failureEffects; split <;> rfl
@[simp] theorem failureEffects_hist (i : Instr) (s : State) : (failureEffects i s).hist = s.hist := by unfold failureEffects; split <;> rfl
@[simp] theorem failureEffects_code (i : Instr) (s : State) : (failureEffects i s).code = s.code := by unfold failureEffects; split <;> rfl
@[simp] theorem failureEffects_node (i : Instr) (s : State) : (failureEffects i s).node = s.node := by unfold failureEffects; split <;> rfl
@[simp] theorem failureEffects_pbuf (i : Instr) (s : State) : (failureEffects i s).pbuf = s.pbuf := by unfold failureEffects; split <;> rfl
@[simp] theorem failureEffects_mem (i : Instr) (s : State) : (failureEffects i s).mem = s.mem := by unfold failureEffects; split <;> rfl
@[simp] theorem failureEffects_inbox (i : Instr) (s : State) : (failureEffects i s).inbox = s.inbox := by unfold failureEffects; split <;> rfl
@[simp] theorem failureEffects_answer (i : Instr) (s : State) : (failureEffects i s).answer = s.answer := by unfold failureEffects; split <;> rfl
@[simp] theorem failureEffects_draws (i : Instr) (s : State) : (failureEffects i s).draws = s.draws := by unfold failureEffects; split <;> rfl

/-! ## setTree -/

@[simp] theorem setTree_cfg (t : HuffTree) (s : State) : (setTree t s).cfg = s.cfg := rfl
@[simp] theorem setTree_ie (t : HuffTree) (s : State) : (setTree t s).ie = s.ie := rfl
@[simp] theorem setTree_degen (t : HuffTree) (s : State) : (setTree t s).degen = s.degen := rfl
@[simp] theorem setTree_busy (t : HuffTree) (s : State) : (setTree t s).busy = s.busy := rfl
@[simp] theorem setTree_done (t : HuffTree) (s : State) : (setTree t s).done = s.done := rfl
@[simp] theorem setTree_treeValid (t : HuffTree) (s : State) : (setTree t s).treeValid = true := rfl
@[simp] theorem setTree_codesValid (t : HuffTree) (s : State) : (setTree t s).codesValid = s.codesValid := rfl
@[simp] theorem setTree_payloadValid (t : HuffTree) (s : State) : (setTree t s).payloadValid = s.payloadValid := rfl
@[simp] theorem setTree_err (t : HuffTree) (s : State) : (setTree t s).err = s.err := rfl
@[simp] theorem setTree_lastCmd (t : HuffTree) (s : State) : (setTree t s).lastCmd = s.lastCmd := rfl
@[simp] theorem setTree_latchedDegen (t : HuffTree) (s : State) : (setTree t s).latchedDegen = s.latchedDegen := rfl
@[simp] theorem setTree_inLen (t : HuffTree) (s : State) : (setTree t s).inLen = s.inLen := rfl
@[simp] theorem setTree_outLen (t : HuffTree) (s : State) : (setTree t s).outLen = s.outLen := rfl
@[simp] theorem setTree_plen (t : HuffTree) (s : State) : (setTree t s).plen = s.plen := rfl
@[simp] theorem setTree_pad (t : HuffTree) (s : State) : (setTree t s).pad = s.pad := rfl
@[simp] theorem setTree_errSub (t : HuffTree) (s : State) : (setTree t s).errSub = s.errSub := rfl
@[simp] theorem setTree_errSym (t : HuffTree) (s : State) : (setTree t s).errSym = s.errSym := rfl
@[simp] theorem setTree_errStage (t : HuffTree) (s : State) : (setTree t s).errStage = s.errStage := rfl
@[simp] theorem setTree_errArg (t : HuffTree) (s : State) : (setTree t s).errArg = s.errArg := rfl
@[simp] theorem setTree_nsym (t : HuffTree) (s : State) : (setTree t s).nsym = BitVec.ofNat 9 t.leaves := rfl
@[simp] theorem setTree_root (t : HuffTree) (s : State) : (setTree t s).root = t.root.map (BitVec.ofNat 9) := rfl
@[simp] theorem setTree_nnodes (t : HuffTree) (s : State) : (setTree t s).nnodes = BitVec.ofNat 10 t.nodes.length := rfl
@[simp] theorem setTree_total (t : HuffTree) (s : State) : (setTree t s).total = t.total := rfl
@[simp] theorem setTree_codeIdx (t : HuffTree) (s : State) : (setTree t s).codeIdx = s.codeIdx := rfl
@[simp] theorem setTree_nodeIdx (t : HuffTree) (s : State) : (setTree t s).nodeIdx = s.nodeIdx := rfl
@[simp] theorem setTree_hist (t : HuffTree) (s : State) : (setTree t s).hist = s.hist := rfl
@[simp] theorem setTree_code (t : HuffTree) (s : State) : (setTree t s).code = s.code := rfl
@[simp] theorem setTree_node (t : HuffTree) (s : State) : (setTree t s).node = storeNodes s.node t.nodes := rfl
@[simp] theorem setTree_pbuf (t : HuffTree) (s : State) : (setTree t s).pbuf = s.pbuf := rfl
@[simp] theorem setTree_mem (t : HuffTree) (s : State) : (setTree t s).mem = s.mem := rfl
@[simp] theorem setTree_inbox (t : HuffTree) (s : State) : (setTree t s).inbox = s.inbox := rfl
@[simp] theorem setTree_answer (t : HuffTree) (s : State) : (setTree t s).answer = s.answer := rfl
@[simp] theorem setTree_draws (t : HuffTree) (s : State) : (setTree t s).draws = s.draws := rfl

/-! ## setCodes -/

@[simp] theorem setCodes_cfg (table : Vector Code 256) (s : State) : (setCodes table s).cfg = s.cfg := rfl
@[simp] theorem setCodes_ie (table : Vector Code 256) (s : State) : (setCodes table s).ie = s.ie := rfl
@[simp] theorem setCodes_degen (table : Vector Code 256) (s : State) : (setCodes table s).degen = s.degen := rfl
@[simp] theorem setCodes_busy (table : Vector Code 256) (s : State) : (setCodes table s).busy = s.busy := rfl
@[simp] theorem setCodes_done (table : Vector Code 256) (s : State) : (setCodes table s).done = s.done := rfl
@[simp] theorem setCodes_treeValid (table : Vector Code 256) (s : State) : (setCodes table s).treeValid = s.treeValid := rfl
@[simp] theorem setCodes_codesValid (table : Vector Code 256) (s : State) : (setCodes table s).codesValid = true := rfl
@[simp] theorem setCodes_payloadValid (table : Vector Code 256) (s : State) : (setCodes table s).payloadValid = s.payloadValid := rfl
@[simp] theorem setCodes_err (table : Vector Code 256) (s : State) : (setCodes table s).err = s.err := rfl
@[simp] theorem setCodes_lastCmd (table : Vector Code 256) (s : State) : (setCodes table s).lastCmd = s.lastCmd := rfl
@[simp] theorem setCodes_latchedDegen (table : Vector Code 256) (s : State) : (setCodes table s).latchedDegen = s.latchedDegen := rfl
@[simp] theorem setCodes_inLen (table : Vector Code 256) (s : State) : (setCodes table s).inLen = s.inLen := rfl
@[simp] theorem setCodes_outLen (table : Vector Code 256) (s : State) : (setCodes table s).outLen = s.outLen := rfl
@[simp] theorem setCodes_plen (table : Vector Code 256) (s : State) : (setCodes table s).plen = s.plen := rfl
@[simp] theorem setCodes_pad (table : Vector Code 256) (s : State) : (setCodes table s).pad = s.pad := rfl
@[simp] theorem setCodes_errSub (table : Vector Code 256) (s : State) : (setCodes table s).errSub = s.errSub := rfl
@[simp] theorem setCodes_errSym (table : Vector Code 256) (s : State) : (setCodes table s).errSym = s.errSym := rfl
@[simp] theorem setCodes_errStage (table : Vector Code 256) (s : State) : (setCodes table s).errStage = s.errStage := rfl
@[simp] theorem setCodes_errArg (table : Vector Code 256) (s : State) : (setCodes table s).errArg = s.errArg := rfl
@[simp] theorem setCodes_nsym (table : Vector Code 256) (s : State) : (setCodes table s).nsym = s.nsym := rfl
@[simp] theorem setCodes_root (table : Vector Code 256) (s : State) : (setCodes table s).root = s.root := rfl
@[simp] theorem setCodes_nnodes (table : Vector Code 256) (s : State) : (setCodes table s).nnodes = s.nnodes := rfl
@[simp] theorem setCodes_total (table : Vector Code 256) (s : State) : (setCodes table s).total = s.total := rfl
@[simp] theorem setCodes_codeIdx (table : Vector Code 256) (s : State) : (setCodes table s).codeIdx = s.codeIdx := rfl
@[simp] theorem setCodes_nodeIdx (table : Vector Code 256) (s : State) : (setCodes table s).nodeIdx = s.nodeIdx := rfl
@[simp] theorem setCodes_hist (table : Vector Code 256) (s : State) : (setCodes table s).hist = s.hist := rfl
@[simp] theorem setCodes_code (table : Vector Code 256) (s : State) : (setCodes table s).code = table := rfl
@[simp] theorem setCodes_node (table : Vector Code 256) (s : State) : (setCodes table s).node = s.node := rfl
@[simp] theorem setCodes_pbuf (table : Vector Code 256) (s : State) : (setCodes table s).pbuf = s.pbuf := rfl
@[simp] theorem setCodes_mem (table : Vector Code 256) (s : State) : (setCodes table s).mem = s.mem := rfl
@[simp] theorem setCodes_inbox (table : Vector Code 256) (s : State) : (setCodes table s).inbox = s.inbox := rfl
@[simp] theorem setCodes_answer (table : Vector Code 256) (s : State) : (setCodes table s).answer = s.answer := rfl
@[simp] theorem setCodes_draws (table : Vector Code 256) (s : State) : (setCodes table s).draws = s.draws := rfl

/-! ## setPayload -/

@[simp] theorem setPayload_cfg (bs : List Byte) (p : BitVec 3) (s : State) : (setPayload bs p s).cfg = s.cfg := rfl
@[simp] theorem setPayload_ie (bs : List Byte) (p : BitVec 3) (s : State) : (setPayload bs p s).ie = s.ie := rfl
@[simp] theorem setPayload_degen (bs : List Byte) (p : BitVec 3) (s : State) : (setPayload bs p s).degen = s.degen := rfl
@[simp] theorem setPayload_busy (bs : List Byte) (p : BitVec 3) (s : State) : (setPayload bs p s).busy = s.busy := rfl
@[simp] theorem setPayload_done (bs : List Byte) (p : BitVec 3) (s : State) : (setPayload bs p s).done = s.done := rfl
@[simp] theorem setPayload_treeValid (bs : List Byte) (p : BitVec 3) (s : State) : (setPayload bs p s).treeValid = s.treeValid := rfl
@[simp] theorem setPayload_codesValid (bs : List Byte) (p : BitVec 3) (s : State) : (setPayload bs p s).codesValid = s.codesValid := rfl
@[simp] theorem setPayload_payloadValid (bs : List Byte) (p : BitVec 3) (s : State) : (setPayload bs p s).payloadValid = true := rfl
@[simp] theorem setPayload_err (bs : List Byte) (p : BitVec 3) (s : State) : (setPayload bs p s).err = s.err := rfl
@[simp] theorem setPayload_lastCmd (bs : List Byte) (p : BitVec 3) (s : State) : (setPayload bs p s).lastCmd = s.lastCmd := rfl
@[simp] theorem setPayload_latchedDegen (bs : List Byte) (p : BitVec 3) (s : State) : (setPayload bs p s).latchedDegen = s.latchedDegen := rfl
@[simp] theorem setPayload_inLen (bs : List Byte) (p : BitVec 3) (s : State) : (setPayload bs p s).inLen = s.inLen := rfl
@[simp] theorem setPayload_outLen (bs : List Byte) (p : BitVec 3) (s : State) : (setPayload bs p s).outLen = s.outLen := rfl
@[simp] theorem setPayload_plen (bs : List Byte) (p : BitVec 3) (s : State) : (setPayload bs p s).plen = BitVec.ofNat 32 bs.length := rfl
@[simp] theorem setPayload_pad (bs : List Byte) (p : BitVec 3) (s : State) : (setPayload bs p s).pad = p := rfl
@[simp] theorem setPayload_errSub (bs : List Byte) (p : BitVec 3) (s : State) : (setPayload bs p s).errSub = s.errSub := rfl
@[simp] theorem setPayload_errSym (bs : List Byte) (p : BitVec 3) (s : State) : (setPayload bs p s).errSym = s.errSym := rfl
@[simp] theorem setPayload_errStage (bs : List Byte) (p : BitVec 3) (s : State) : (setPayload bs p s).errStage = s.errStage := rfl
@[simp] theorem setPayload_errArg (bs : List Byte) (p : BitVec 3) (s : State) : (setPayload bs p s).errArg = s.errArg := rfl
@[simp] theorem setPayload_nsym (bs : List Byte) (p : BitVec 3) (s : State) : (setPayload bs p s).nsym = s.nsym := rfl
@[simp] theorem setPayload_root (bs : List Byte) (p : BitVec 3) (s : State) : (setPayload bs p s).root = s.root := rfl
@[simp] theorem setPayload_nnodes (bs : List Byte) (p : BitVec 3) (s : State) : (setPayload bs p s).nnodes = s.nnodes := rfl
@[simp] theorem setPayload_total (bs : List Byte) (p : BitVec 3) (s : State) : (setPayload bs p s).total = s.total := rfl
@[simp] theorem setPayload_codeIdx (bs : List Byte) (p : BitVec 3) (s : State) : (setPayload bs p s).codeIdx = s.codeIdx := rfl
@[simp] theorem setPayload_nodeIdx (bs : List Byte) (p : BitVec 3) (s : State) : (setPayload bs p s).nodeIdx = s.nodeIdx := rfl
@[simp] theorem setPayload_hist (bs : List Byte) (p : BitVec 3) (s : State) : (setPayload bs p s).hist = s.hist := rfl
@[simp] theorem setPayload_code (bs : List Byte) (p : BitVec 3) (s : State) : (setPayload bs p s).code = s.code := rfl
@[simp] theorem setPayload_node (bs : List Byte) (p : BitVec 3) (s : State) : (setPayload bs p s).node = s.node := rfl
@[simp] theorem setPayload_pbuf (bs : List Byte) (p : BitVec 3) (s : State) : (setPayload bs p s).pbuf = s.pbuf.store 0 bs := rfl
@[simp] theorem setPayload_mem (bs : List Byte) (p : BitVec 3) (s : State) : (setPayload bs p s).mem = s.mem := rfl
@[simp] theorem setPayload_inbox (bs : List Byte) (p : BitVec 3) (s : State) : (setPayload bs p s).inbox = s.inbox := rfl
@[simp] theorem setPayload_answer (bs : List Byte) (p : BitVec 3) (s : State) : (setPayload bs p s).answer = s.answer := rfl
@[simp] theorem setPayload_draws (bs : List Byte) (p : BitVec 3) (s : State) : (setPayload bs p s).draws = s.draws := rfl

/-! ## writeOutput -/

@[simp] theorem writeOutput_cfg (bs : List Byte) (s : State) : (writeOutput bs s).cfg = s.cfg := rfl
@[simp] theorem writeOutput_ie (bs : List Byte) (s : State) : (writeOutput bs s).ie = s.ie := rfl
@[simp] theorem writeOutput_degen (bs : List Byte) (s : State) : (writeOutput bs s).degen = s.degen := rfl
@[simp] theorem writeOutput_busy (bs : List Byte) (s : State) : (writeOutput bs s).busy = s.busy := rfl
@[simp] theorem writeOutput_done (bs : List Byte) (s : State) : (writeOutput bs s).done = s.done := rfl
@[simp] theorem writeOutput_treeValid (bs : List Byte) (s : State) : (writeOutput bs s).treeValid = s.treeValid := rfl
@[simp] theorem writeOutput_codesValid (bs : List Byte) (s : State) : (writeOutput bs s).codesValid = s.codesValid := rfl
@[simp] theorem writeOutput_payloadValid (bs : List Byte) (s : State) : (writeOutput bs s).payloadValid = s.payloadValid := rfl
@[simp] theorem writeOutput_err (bs : List Byte) (s : State) : (writeOutput bs s).err = s.err := rfl
@[simp] theorem writeOutput_lastCmd (bs : List Byte) (s : State) : (writeOutput bs s).lastCmd = s.lastCmd := rfl
@[simp] theorem writeOutput_latchedDegen (bs : List Byte) (s : State) : (writeOutput bs s).latchedDegen = s.latchedDegen := rfl
@[simp] theorem writeOutput_inLen (bs : List Byte) (s : State) : (writeOutput bs s).inLen = s.inLen := rfl
@[simp] theorem writeOutput_outLen (bs : List Byte) (s : State) : (writeOutput bs s).outLen = s.outLen := rfl
@[simp] theorem writeOutput_plen (bs : List Byte) (s : State) : (writeOutput bs s).plen = s.plen := rfl
@[simp] theorem writeOutput_pad (bs : List Byte) (s : State) : (writeOutput bs s).pad = s.pad := rfl
@[simp] theorem writeOutput_errSub (bs : List Byte) (s : State) : (writeOutput bs s).errSub = s.errSub := rfl
@[simp] theorem writeOutput_errSym (bs : List Byte) (s : State) : (writeOutput bs s).errSym = s.errSym := rfl
@[simp] theorem writeOutput_errStage (bs : List Byte) (s : State) : (writeOutput bs s).errStage = s.errStage := rfl
@[simp] theorem writeOutput_errArg (bs : List Byte) (s : State) : (writeOutput bs s).errArg = s.errArg := rfl
@[simp] theorem writeOutput_nsym (bs : List Byte) (s : State) : (writeOutput bs s).nsym = s.nsym := rfl
@[simp] theorem writeOutput_root (bs : List Byte) (s : State) : (writeOutput bs s).root = s.root := rfl
@[simp] theorem writeOutput_nnodes (bs : List Byte) (s : State) : (writeOutput bs s).nnodes = s.nnodes := rfl
@[simp] theorem writeOutput_total (bs : List Byte) (s : State) : (writeOutput bs s).total = s.total := rfl
@[simp] theorem writeOutput_codeIdx (bs : List Byte) (s : State) : (writeOutput bs s).codeIdx = s.codeIdx := rfl
@[simp] theorem writeOutput_nodeIdx (bs : List Byte) (s : State) : (writeOutput bs s).nodeIdx = s.nodeIdx := rfl
@[simp] theorem writeOutput_hist (bs : List Byte) (s : State) : (writeOutput bs s).hist = s.hist := rfl
@[simp] theorem writeOutput_code (bs : List Byte) (s : State) : (writeOutput bs s).code = s.code := rfl
@[simp] theorem writeOutput_node (bs : List Byte) (s : State) : (writeOutput bs s).node = s.node := rfl
@[simp] theorem writeOutput_pbuf (bs : List Byte) (s : State) : (writeOutput bs s).pbuf = s.pbuf := rfl
@[simp] theorem writeOutput_mem (bs : List Byte) (s : State) : (writeOutput bs s).mem = s.mem.store outBase bs := rfl
@[simp] theorem writeOutput_inbox (bs : List Byte) (s : State) : (writeOutput bs s).inbox = s.inbox := rfl
@[simp] theorem writeOutput_answer (bs : List Byte) (s : State) : (writeOutput bs s).answer = s.answer := rfl
@[simp] theorem writeOutput_draws (bs : List Byte) (s : State) : (writeOutput bs s).draws = s.draws := rfl

/-! ## readInput -/

@[simp] theorem readInput_cfg (s : State) : (readInput s).2.cfg = s.cfg := rfl
@[simp] theorem readInput_ie (s : State) : (readInput s).2.ie = s.ie := rfl
@[simp] theorem readInput_degen (s : State) : (readInput s).2.degen = s.degen := rfl
@[simp] theorem readInput_busy (s : State) : (readInput s).2.busy = s.busy := rfl
@[simp] theorem readInput_done (s : State) : (readInput s).2.done = s.done := rfl
@[simp] theorem readInput_treeValid (s : State) : (readInput s).2.treeValid = s.treeValid := rfl
@[simp] theorem readInput_codesValid (s : State) : (readInput s).2.codesValid = s.codesValid := rfl
@[simp] theorem readInput_payloadValid (s : State) : (readInput s).2.payloadValid = s.payloadValid := rfl
@[simp] theorem readInput_err (s : State) : (readInput s).2.err = s.err := rfl
@[simp] theorem readInput_lastCmd (s : State) : (readInput s).2.lastCmd = s.lastCmd := rfl
@[simp] theorem readInput_latchedDegen (s : State) : (readInput s).2.latchedDegen = s.latchedDegen := rfl
@[simp] theorem readInput_inLen (s : State) : (readInput s).2.inLen = s.inLen := rfl
@[simp] theorem readInput_outLen (s : State) : (readInput s).2.outLen = s.outLen := rfl
@[simp] theorem readInput_plen (s : State) : (readInput s).2.plen = s.plen := rfl
@[simp] theorem readInput_pad (s : State) : (readInput s).2.pad = s.pad := rfl
@[simp] theorem readInput_errSub (s : State) : (readInput s).2.errSub = s.errSub := rfl
@[simp] theorem readInput_errSym (s : State) : (readInput s).2.errSym = s.errSym := rfl
@[simp] theorem readInput_errStage (s : State) : (readInput s).2.errStage = s.errStage := rfl
@[simp] theorem readInput_errArg (s : State) : (readInput s).2.errArg = s.errArg := rfl
@[simp] theorem readInput_nsym (s : State) : (readInput s).2.nsym = s.nsym := rfl
@[simp] theorem readInput_root (s : State) : (readInput s).2.root = s.root := rfl
@[simp] theorem readInput_nnodes (s : State) : (readInput s).2.nnodes = s.nnodes := rfl
@[simp] theorem readInput_total (s : State) : (readInput s).2.total = s.total := rfl
@[simp] theorem readInput_codeIdx (s : State) : (readInput s).2.codeIdx = s.codeIdx := rfl
@[simp] theorem readInput_nodeIdx (s : State) : (readInput s).2.nodeIdx = s.nodeIdx := rfl
@[simp] theorem readInput_hist (s : State) : (readInput s).2.hist = s.hist := rfl
@[simp] theorem readInput_code (s : State) : (readInput s).2.code = s.code := rfl
@[simp] theorem readInput_node (s : State) : (readInput s).2.node = s.node := rfl
@[simp] theorem readInput_pbuf (s : State) : (readInput s).2.pbuf = s.pbuf := rfl
@[simp] theorem readInput_mem (s : State) : (readInput s).2.mem = s.mem := rfl
@[simp] theorem readInput_inbox (s : State) : (readInput s).2.inbox = s.inbox := rfl
@[simp] theorem readInput_answer (s : State) : (readInput s).2.answer = s.answer := rfl
@[simp] theorem readInput_draws (s : State) : (readInput s).2.draws = (s.mem.read inBase s.inLen.toNat s.draws).2 := rfl

/-! ## readPayload -/

@[simp] theorem readPayload_cfg (s : State) : (readPayload s).2.cfg = s.cfg := rfl
@[simp] theorem readPayload_ie (s : State) : (readPayload s).2.ie = s.ie := rfl
@[simp] theorem readPayload_degen (s : State) : (readPayload s).2.degen = s.degen := rfl
@[simp] theorem readPayload_busy (s : State) : (readPayload s).2.busy = s.busy := rfl
@[simp] theorem readPayload_done (s : State) : (readPayload s).2.done = s.done := rfl
@[simp] theorem readPayload_treeValid (s : State) : (readPayload s).2.treeValid = s.treeValid := rfl
@[simp] theorem readPayload_codesValid (s : State) : (readPayload s).2.codesValid = s.codesValid := rfl
@[simp] theorem readPayload_payloadValid (s : State) : (readPayload s).2.payloadValid = s.payloadValid := rfl
@[simp] theorem readPayload_err (s : State) : (readPayload s).2.err = s.err := rfl
@[simp] theorem readPayload_lastCmd (s : State) : (readPayload s).2.lastCmd = s.lastCmd := rfl
@[simp] theorem readPayload_latchedDegen (s : State) : (readPayload s).2.latchedDegen = s.latchedDegen := rfl
@[simp] theorem readPayload_inLen (s : State) : (readPayload s).2.inLen = s.inLen := rfl
@[simp] theorem readPayload_outLen (s : State) : (readPayload s).2.outLen = s.outLen := rfl
@[simp] theorem readPayload_plen (s : State) : (readPayload s).2.plen = s.plen := rfl
@[simp] theorem readPayload_pad (s : State) : (readPayload s).2.pad = s.pad := rfl
@[simp] theorem readPayload_errSub (s : State) : (readPayload s).2.errSub = s.errSub := rfl
@[simp] theorem readPayload_errSym (s : State) : (readPayload s).2.errSym = s.errSym := rfl
@[simp] theorem readPayload_errStage (s : State) : (readPayload s).2.errStage = s.errStage := rfl
@[simp] theorem readPayload_errArg (s : State) : (readPayload s).2.errArg = s.errArg := rfl
@[simp] theorem readPayload_nsym (s : State) : (readPayload s).2.nsym = s.nsym := rfl
@[simp] theorem readPayload_root (s : State) : (readPayload s).2.root = s.root := rfl
@[simp] theorem readPayload_nnodes (s : State) : (readPayload s).2.nnodes = s.nnodes := rfl
@[simp] theorem readPayload_total (s : State) : (readPayload s).2.total = s.total := rfl
@[simp] theorem readPayload_codeIdx (s : State) : (readPayload s).2.codeIdx = s.codeIdx := rfl
@[simp] theorem readPayload_nodeIdx (s : State) : (readPayload s).2.nodeIdx = s.nodeIdx := rfl
@[simp] theorem readPayload_hist (s : State) : (readPayload s).2.hist = s.hist := rfl
@[simp] theorem readPayload_code (s : State) : (readPayload s).2.code = s.code := rfl
@[simp] theorem readPayload_node (s : State) : (readPayload s).2.node = s.node := rfl
@[simp] theorem readPayload_pbuf (s : State) : (readPayload s).2.pbuf = s.pbuf := rfl
@[simp] theorem readPayload_mem (s : State) : (readPayload s).2.mem = s.mem := rfl
@[simp] theorem readPayload_inbox (s : State) : (readPayload s).2.inbox = s.inbox := rfl
@[simp] theorem readPayload_answer (s : State) : (readPayload s).2.answer = s.answer := rfl
@[simp] theorem readPayload_draws (s : State) : (readPayload s).2.draws = (s.pbuf.read 0 s.plen.toNat s.draws).2 := rfl

/-! ## writeHist -/

@[simp] theorem writeHist_cfg (v : Byte) (x : Word) (s : State) : (writeHist v x s).cfg = s.cfg := rfl
@[simp] theorem writeHist_ie (v : Byte) (x : Word) (s : State) : (writeHist v x s).ie = s.ie := rfl
@[simp] theorem writeHist_degen (v : Byte) (x : Word) (s : State) : (writeHist v x s).degen = s.degen := rfl
@[simp] theorem writeHist_busy (v : Byte) (x : Word) (s : State) : (writeHist v x s).busy = s.busy := rfl
@[simp] theorem writeHist_done (v : Byte) (x : Word) (s : State) : (writeHist v x s).done = s.done := rfl
@[simp] theorem writeHist_treeValid (v : Byte) (x : Word) (s : State) : (writeHist v x s).treeValid = false := rfl
@[simp] theorem writeHist_codesValid (v : Byte) (x : Word) (s : State) : (writeHist v x s).codesValid = false := rfl
@[simp] theorem writeHist_payloadValid (v : Byte) (x : Word) (s : State) : (writeHist v x s).payloadValid = s.payloadValid := rfl
@[simp] theorem writeHist_err (v : Byte) (x : Word) (s : State) : (writeHist v x s).err = s.err := rfl
@[simp] theorem writeHist_lastCmd (v : Byte) (x : Word) (s : State) : (writeHist v x s).lastCmd = s.lastCmd := rfl
@[simp] theorem writeHist_latchedDegen (v : Byte) (x : Word) (s : State) : (writeHist v x s).latchedDegen = s.latchedDegen := rfl
@[simp] theorem writeHist_inLen (v : Byte) (x : Word) (s : State) : (writeHist v x s).inLen = s.inLen := rfl
@[simp] theorem writeHist_outLen (v : Byte) (x : Word) (s : State) : (writeHist v x s).outLen = s.outLen := rfl
@[simp] theorem writeHist_plen (v : Byte) (x : Word) (s : State) : (writeHist v x s).plen = s.plen := rfl
@[simp] theorem writeHist_pad (v : Byte) (x : Word) (s : State) : (writeHist v x s).pad = s.pad := rfl
@[simp] theorem writeHist_errSub (v : Byte) (x : Word) (s : State) : (writeHist v x s).errSub = s.errSub := rfl
@[simp] theorem writeHist_errSym (v : Byte) (x : Word) (s : State) : (writeHist v x s).errSym = s.errSym := rfl
@[simp] theorem writeHist_errStage (v : Byte) (x : Word) (s : State) : (writeHist v x s).errStage = s.errStage := rfl
@[simp] theorem writeHist_errArg (v : Byte) (x : Word) (s : State) : (writeHist v x s).errArg = s.errArg := rfl
@[simp] theorem writeHist_nsym (v : Byte) (x : Word) (s : State) : (writeHist v x s).nsym = 0#9 := rfl
@[simp] theorem writeHist_root (v : Byte) (x : Word) (s : State) : (writeHist v x s).root = none := rfl
@[simp] theorem writeHist_nnodes (v : Byte) (x : Word) (s : State) : (writeHist v x s).nnodes = 0#10 := rfl
@[simp] theorem writeHist_total (v : Byte) (x : Word) (s : State) : (writeHist v x s).total = 0#40 := rfl
@[simp] theorem writeHist_codeIdx (v : Byte) (x : Word) (s : State) : (writeHist v x s).codeIdx = s.codeIdx := rfl
@[simp] theorem writeHist_nodeIdx (v : Byte) (x : Word) (s : State) : (writeHist v x s).nodeIdx = s.nodeIdx := rfl
@[simp] theorem writeHist_hist (v : Byte) (x : Word) (s : State) : (writeHist v x s).hist = s.hist.set v.toNat x v.isLt := rfl
@[simp] theorem writeHist_code (v : Byte) (x : Word) (s : State) : (writeHist v x s).code = Vector.replicate 256 Code.absent := rfl
@[simp] theorem writeHist_node (v : Byte) (x : Word) (s : State) : (writeHist v x s).node = s.node := rfl
@[simp] theorem writeHist_pbuf (v : Byte) (x : Word) (s : State) : (writeHist v x s).pbuf = s.pbuf := rfl
@[simp] theorem writeHist_mem (v : Byte) (x : Word) (s : State) : (writeHist v x s).mem = s.mem := rfl
@[simp] theorem writeHist_inbox (v : Byte) (x : Word) (s : State) : (writeHist v x s).inbox = s.inbox := rfl
@[simp] theorem writeHist_answer (v : Byte) (x : Word) (s : State) : (writeHist v x s).answer = s.answer := rfl
@[simp] theorem writeHist_draws (v : Byte) (x : Word) (s : State) : (writeHist v x s).draws = s.draws := rfl

/-! ## writeCtrl -/

@[simp] theorem writeCtrl_cfg (v : Word) (s : State) : (writeCtrl v s).cfg = s.cfg := rfl
@[simp] theorem writeCtrl_ie (v : Word) (s : State) : (writeCtrl v s).ie = v.getLsbD 0 := rfl
@[simp] theorem writeCtrl_degen (v : Word) (s : State) : (writeCtrl v s).degen = v.getLsbD 1 := rfl
@[simp] theorem writeCtrl_busy (v : Word) (s : State) : (writeCtrl v s).busy = s.busy := rfl
@[simp] theorem writeCtrl_done (v : Word) (s : State) : (writeCtrl v s).done = s.done := rfl
@[simp] theorem writeCtrl_treeValid (v : Word) (s : State) : (writeCtrl v s).treeValid = s.treeValid := rfl
@[simp] theorem writeCtrl_codesValid (v : Word) (s : State) : (writeCtrl v s).codesValid = s.codesValid := rfl
@[simp] theorem writeCtrl_payloadValid (v : Word) (s : State) : (writeCtrl v s).payloadValid = s.payloadValid := rfl
@[simp] theorem writeCtrl_err (v : Word) (s : State) : (writeCtrl v s).err = s.err := rfl
@[simp] theorem writeCtrl_lastCmd (v : Word) (s : State) : (writeCtrl v s).lastCmd = s.lastCmd := rfl
@[simp] theorem writeCtrl_latchedDegen (v : Word) (s : State) : (writeCtrl v s).latchedDegen = s.latchedDegen := rfl
@[simp] theorem writeCtrl_inLen (v : Word) (s : State) : (writeCtrl v s).inLen = s.inLen := rfl
@[simp] theorem writeCtrl_outLen (v : Word) (s : State) : (writeCtrl v s).outLen = s.outLen := rfl
@[simp] theorem writeCtrl_plen (v : Word) (s : State) : (writeCtrl v s).plen = s.plen := rfl
@[simp] theorem writeCtrl_pad (v : Word) (s : State) : (writeCtrl v s).pad = s.pad := rfl
@[simp] theorem writeCtrl_errSub (v : Word) (s : State) : (writeCtrl v s).errSub = s.errSub := rfl
@[simp] theorem writeCtrl_errSym (v : Word) (s : State) : (writeCtrl v s).errSym = s.errSym := rfl
@[simp] theorem writeCtrl_errStage (v : Word) (s : State) : (writeCtrl v s).errStage = s.errStage := rfl
@[simp] theorem writeCtrl_errArg (v : Word) (s : State) : (writeCtrl v s).errArg = s.errArg := rfl
@[simp] theorem writeCtrl_nsym (v : Word) (s : State) : (writeCtrl v s).nsym = s.nsym := rfl
@[simp] theorem writeCtrl_root (v : Word) (s : State) : (writeCtrl v s).root = s.root := rfl
@[simp] theorem writeCtrl_nnodes (v : Word) (s : State) : (writeCtrl v s).nnodes = s.nnodes := rfl
@[simp] theorem writeCtrl_total (v : Word) (s : State) : (writeCtrl v s).total = s.total := rfl
@[simp] theorem writeCtrl_codeIdx (v : Word) (s : State) : (writeCtrl v s).codeIdx = s.codeIdx := rfl
@[simp] theorem writeCtrl_nodeIdx (v : Word) (s : State) : (writeCtrl v s).nodeIdx = s.nodeIdx := rfl
@[simp] theorem writeCtrl_hist (v : Word) (s : State) : (writeCtrl v s).hist = s.hist := rfl
@[simp] theorem writeCtrl_code (v : Word) (s : State) : (writeCtrl v s).code = s.code := rfl
@[simp] theorem writeCtrl_node (v : Word) (s : State) : (writeCtrl v s).node = s.node := rfl
@[simp] theorem writeCtrl_pbuf (v : Word) (s : State) : (writeCtrl v s).pbuf = s.pbuf := rfl
@[simp] theorem writeCtrl_mem (v : Word) (s : State) : (writeCtrl v s).mem = s.mem := rfl
@[simp] theorem writeCtrl_inbox (v : Word) (s : State) : (writeCtrl v s).inbox = s.inbox := rfl
@[simp] theorem writeCtrl_answer (v : Word) (s : State) : (writeCtrl v s).answer = s.answer := rfl
@[simp] theorem writeCtrl_draws (v : Word) (s : State) : (writeCtrl v s).draws = s.draws := rfl

/-! ## writeStatus -/

@[simp] theorem writeStatus_cfg (v : Word) (s : State) : (writeStatus v s).cfg = s.cfg := by unfold writeStatus; split <;> rfl
@[simp] theorem writeStatus_ie (v : Word) (s : State) : (writeStatus v s).ie = s.ie := by unfold writeStatus; split <;> rfl
@[simp] theorem writeStatus_degen (v : Word) (s : State) : (writeStatus v s).degen = s.degen := by unfold writeStatus; split <;> rfl
@[simp] theorem writeStatus_busy (v : Word) (s : State) : (writeStatus v s).busy = s.busy := by unfold writeStatus; split <;> rfl
@[simp] theorem writeStatus_done (v : Word) (s : State) : (writeStatus v s).done = if v.getLsbD 1 then false else s.done := by unfold writeStatus; split <;> simp_all
@[simp] theorem writeStatus_treeValid (v : Word) (s : State) : (writeStatus v s).treeValid = s.treeValid := by unfold writeStatus; split <;> rfl
@[simp] theorem writeStatus_codesValid (v : Word) (s : State) : (writeStatus v s).codesValid = s.codesValid := by unfold writeStatus; split <;> rfl
@[simp] theorem writeStatus_payloadValid (v : Word) (s : State) : (writeStatus v s).payloadValid = s.payloadValid := by unfold writeStatus; split <;> rfl
@[simp] theorem writeStatus_err (v : Word) (s : State) : (writeStatus v s).err = s.err := by unfold writeStatus; split <;> rfl
@[simp] theorem writeStatus_lastCmd (v : Word) (s : State) : (writeStatus v s).lastCmd = s.lastCmd := by unfold writeStatus; split <;> rfl
@[simp] theorem writeStatus_latchedDegen (v : Word) (s : State) : (writeStatus v s).latchedDegen = s.latchedDegen := by unfold writeStatus; split <;> rfl
@[simp] theorem writeStatus_inLen (v : Word) (s : State) : (writeStatus v s).inLen = s.inLen := by unfold writeStatus; split <;> rfl
@[simp] theorem writeStatus_outLen (v : Word) (s : State) : (writeStatus v s).outLen = s.outLen := by unfold writeStatus; split <;> rfl
@[simp] theorem writeStatus_plen (v : Word) (s : State) : (writeStatus v s).plen = s.plen := by unfold writeStatus; split <;> rfl
@[simp] theorem writeStatus_pad (v : Word) (s : State) : (writeStatus v s).pad = s.pad := by unfold writeStatus; split <;> rfl
@[simp] theorem writeStatus_errSub (v : Word) (s : State) : (writeStatus v s).errSub = s.errSub := by unfold writeStatus; split <;> rfl
@[simp] theorem writeStatus_errSym (v : Word) (s : State) : (writeStatus v s).errSym = s.errSym := by unfold writeStatus; split <;> rfl
@[simp] theorem writeStatus_errStage (v : Word) (s : State) : (writeStatus v s).errStage = s.errStage := by unfold writeStatus; split <;> rfl
@[simp] theorem writeStatus_errArg (v : Word) (s : State) : (writeStatus v s).errArg = s.errArg := by unfold writeStatus; split <;> rfl
@[simp] theorem writeStatus_nsym (v : Word) (s : State) : (writeStatus v s).nsym = s.nsym := by unfold writeStatus; split <;> rfl
@[simp] theorem writeStatus_root (v : Word) (s : State) : (writeStatus v s).root = s.root := by unfold writeStatus; split <;> rfl
@[simp] theorem writeStatus_nnodes (v : Word) (s : State) : (writeStatus v s).nnodes = s.nnodes := by unfold writeStatus; split <;> rfl
@[simp] theorem writeStatus_total (v : Word) (s : State) : (writeStatus v s).total = s.total := by unfold writeStatus; split <;> rfl
@[simp] theorem writeStatus_codeIdx (v : Word) (s : State) : (writeStatus v s).codeIdx = s.codeIdx := by unfold writeStatus; split <;> rfl
@[simp] theorem writeStatus_nodeIdx (v : Word) (s : State) : (writeStatus v s).nodeIdx = s.nodeIdx := by unfold writeStatus; split <;> rfl
@[simp] theorem writeStatus_hist (v : Word) (s : State) : (writeStatus v s).hist = s.hist := by unfold writeStatus; split <;> rfl
@[simp] theorem writeStatus_code (v : Word) (s : State) : (writeStatus v s).code = s.code := by unfold writeStatus; split <;> rfl
@[simp] theorem writeStatus_node (v : Word) (s : State) : (writeStatus v s).node = s.node := by unfold writeStatus; split <;> rfl
@[simp] theorem writeStatus_pbuf (v : Word) (s : State) : (writeStatus v s).pbuf = s.pbuf := by unfold writeStatus; split <;> rfl
@[simp] theorem writeStatus_mem (v : Word) (s : State) : (writeStatus v s).mem = s.mem := by unfold writeStatus; split <;> rfl
@[simp] theorem writeStatus_inbox (v : Word) (s : State) : (writeStatus v s).inbox = s.inbox := by unfold writeStatus; split <;> rfl
@[simp] theorem writeStatus_answer (v : Word) (s : State) : (writeStatus v s).answer = s.answer := by unfold writeStatus; split <;> rfl
@[simp] theorem writeStatus_draws (v : Word) (s : State) : (writeStatus v s).draws = s.draws := by unfold writeStatus; split <;> rfl

end Sys2Proof.Machine
end

