-- ==== Sys2Proof/Laws/Memory.lean ====
section
/-! SUPPORT. The laws of byte memory: what a store changes, that it keeps the canonical form, what a
read of written bytes gives, and how many draws a read takes. -/

namespace Sys2Proof.Machine

theorem Memory.get?_nil (x : Nat) : Memory.get? [] x = none := rfl

theorem Memory.get?_cons (c : Host.Cell) (m : Memory) (x : Nat) :
    Memory.get? (c :: m) x = if x = c.1 then some c.2 else Memory.get? m x := by
  obtain ⟨a, b⟩ := c
  unfold Memory.get?
  by_cases h : x = a
  · subst h; simp [List.lookup]
  · have : (x == a) = false := by simpa using h
    simp [List.lookup, this, h]

theorem Memory.get?_append (m n : Memory) (x : Nat) :
    Memory.get? (m ++ n) x = (Memory.get? m x).or (Memory.get? n x) := by
  induction m with
  | nil => simp [Memory.get?_nil]
  | cons c m ih => simp only [List.cons_append, Memory.get?_cons, ih]; split <;> simp

theorem Memory.get?_filter (m : Memory) (p : Nat → Bool) (x : Nat) :
    Memory.get? (m.filter fun c => p c.1) x = if p x then Memory.get? m x else none := by
  induction m with
  | nil => simp [Memory.get?_nil]
  | cons c m ih =>
    by_cases hp : p c.1
    · simp only [List.filter_cons, hp, if_true, Memory.get?_cons, ih]
      by_cases hx : x = c.1 <;> simp [hx, hp]
    · rw [List.filter_cons_of_neg (by simpa using hp), ih, Memory.get?_cons]
      by_cases hx : x = c.1 <;> simp [hx, hp]

theorem Memory.get?_cellsFrom (a : Nat) (bs : List Byte) (x : Nat) :
    Memory.get? (cellsFrom a bs) x = if a ≤ x then bs[x - a]? else none := by
  induction bs generalizing a with
  | nil => simp [cellsFrom, Memory.get?_nil]
  | cons b bs ih =>
    simp only [cellsFrom, Memory.get?_cons, ih]
    by_cases h : x = a
    · subst h; simp
    · by_cases h' : a ≤ x
      · have e : x - a = (x - (a + 1)) + 1 := by omega
        have : a + 1 ≤ x := by omega
        simp [h, h', this, e]
      · have : ¬ a + 1 ≤ x := by omega
        simp [h, h', this]

/-- A read after a store: the stored bytes inside, what was there before outside. -/
theorem Memory.get?_store (m : Memory) (a : Nat) (bs : List Byte) (x : Nat) :
    (m.store a bs).get? x =
      if a ≤ x ∧ x < a + bs.length then bs[x - a]? else m.get? x := by
  unfold Memory.store
  rw [Memory.get?_append, Memory.get?_append, Memory.get?_filter m (fun y => decide (y < a)),
    Memory.get?_filter m (fun y => decide (a + bs.length ≤ y)), Memory.get?_cellsFrom]
  by_cases h1 : x < a
  · have h2 : ¬ a ≤ x := by omega
    have h3 : ¬ a + bs.length ≤ x := by omega
    simp [h1, h2, h3]
  · have h2 : a ≤ x := by omega
    by_cases h3 : x < a + bs.length
    · have h4 : ¬ a + bs.length ≤ x := by omega
      simp [h1, h2, h3, h4]
    · have h4 : a + bs.length ≤ x := by omega
      have h5 : bs[x - a]? = none := by simp; omega
      simp [h1, h2, h3, h4, h5]

theorem Memory.store_holds (m : Memory) (a : Nat) (bs : List Byte) : Holds (m.store a bs) a bs := by
  intro k h
  rw [Memory.get?_store, if_pos (by omega)]
  simp [h]

theorem Memory.store_sameOutside (m : Memory) (a : Nat) (bs : List Byte) :
    SameOutside a bs.length m (m.store a bs) := by
  intro x h
  rw [Memory.get?_store, if_neg (by omega)]

theorem mem_cellsFrom {a : Nat} {bs : List Byte} {c : Host.Cell} (h : c ∈ cellsFrom a bs) :
    a ≤ c.1 ∧ c.1 < a + bs.length := by
  induction bs generalizing a with
  | nil => simp [cellsFrom] at h
  | cons b bs ih =>
    simp only [cellsFrom, List.mem_cons] at h
    rcases h with rfl | h
    · simp
    · have := ih h; simp; omega

theorem cellsFrom_wf (a : Nat) (bs : List Byte) : Memory.wf (cellsFrom a bs) := by
  induction bs generalizing a with
  | nil => exact List.Pairwise.nil
  | cons b bs ih =>
    refine List.Pairwise.cons (fun c hc => ?_) (ih (a + 1))
    have := (mem_cellsFrom hc).1
    simp only; omega

/-- A stored memory lists only what was listed and what was stored. -/
theorem Memory.mem_store {m : Memory} {a : Nat} {bs : List Byte} {c : Host.Cell}
    (h : c ∈ m.store a bs) : c ∈ m ∨ (a ≤ c.1 ∧ c.1 < a + bs.length) := by
  unfold Memory.store at h
  simp only [List.mem_append, List.mem_filter] at h
  rcases h with (h | h) | h
  · exact .inl h.1
  · exact .inr (mem_cellsFrom h)
  · exact .inl h.1

/-- Every store keeps the canonical form. -/
theorem Memory.store_wf {m : Memory} (hm : m.wf) (a : Nat) (bs : List Byte) : (m.store a bs).wf := by
  unfold Memory.store Memory.wf
  rw [List.pairwise_append, List.pairwise_append]
  refine ⟨⟨hm.filter _, cellsFrom_wf a bs, ?_⟩, hm.filter _, ?_⟩
  · intro c hc d hd
    have h1 := (List.mem_filter.1 hc).2
    have h2 := (mem_cellsFrom hd).1
    simp at h1; omega
  · intro c hc d hd
    have h2 := (List.mem_filter.1 hd).2
    simp only [decide_eq_true_eq] at h2
    rcases List.mem_append.1 hc with hc | hc
    · have h1 := (List.mem_filter.1 hc).2
      simp at h1; omega
    · have h1 := (mem_cellsFrom hc).2
      omega

theorem Memory.read_length (m : Memory) (a n d : Nat) : (m.read a n d).1.length = n := by
  induction n generalizing a d with
  | zero => rfl
  | succ n ih => simp only [Memory.read]; split <;> simp [ih]

theorem unwrittenIn_succ (m : Memory) (a n : Nat) :
    unwrittenIn m a (n + 1) = unwrittenIn m (a + 1) n + if (m.get? a).isNone then 1 else 0 := by
  unfold unwrittenIn
  rw [List.range_succ_eq_map, List.countP_cons, List.countP_map]
  congr 2
  funext j
  simp only [Function.comp_apply, Nat.succ_eq_add_one]
  rw [show a + (j + 1) = a + 1 + j by omega]

/-- Written bytes are none of the unwritten. -/
theorem Written.unwrittenIn {m : Memory} {a n : Nat} (h : Written m a n) : unwrittenIn m a n = 0 := by
  rw [Machine.unwrittenIn, List.countP_eq_zero]
  intro k hk
  simpa [Option.isNone_iff_eq_none, ← Option.isSome_iff_ne_none] using h k (List.mem_range.1 hk)

/-- A read takes one draw for each byte that nothing has written. -/
theorem Memory.read_draws (m : Memory) (a n d : Nat) : (m.read a n d).2 = d + unwrittenIn m a n := by
  induction n generalizing a d with
  | zero => rfl
  | succ n ih => rw [Memory.read, unwrittenIn_succ]; cases h : m.get? a <;> simp [ih]; omega

/-- Byte `k` of a read: the byte written, or a draw numbered by the unwritten bytes before it. -/
theorem Memory.read_getElem? (m : Memory) (a n d k : Nat) (hk : k < n) :
    (m.read a n d).1[k]? =
      some ((m.get? (a + k)).getD (Config.unwrittenByte (d + unwrittenIn m a k))) := by
  induction n generalizing a d k with
  | zero => omega
  | succ n ih =>
    rw [Memory.read]
    cases k with
    | zero => cases h : m.get? a <;> simp [unwrittenIn]
    | succ k =>
      rw [unwrittenIn_succ, show a + (k + 1) = a + 1 + k by omega]
      cases h : m.get? a with
      | some b => simpa using ih (a + 1) d k (by omega)
      | none =>
        have e : d + 1 + unwrittenIn m (a + 1) k = d + (unwrittenIn m (a + 1) k + 1) := by omega
        simpa [e] using ih (a + 1) (d + 1) k (by omega)

/-- A read of bytes that stand in memory gives them and takes no draw. -/
theorem Memory.read_of_holds {m : Memory} {a : Nat} {bs : List Byte} (h : Holds m a bs) (d : Nat) :
    m.read a bs.length d = (bs, d) := by
  induction bs generalizing a with
  | nil => rfl
  | cons b bs ih =>
    have h0 : m.get? a = some b := h 0 (by simp)
    have hr : Holds m (a + 1) bs := by
      intro k hk
      have := h (k + 1) (by simpa using hk)
      simpa [Nat.add_assoc, Nat.add_comm 1 k] using this
    simp [Memory.read, h0, ih hr]

/-- Written bytes are some bytes that stand in memory. -/
theorem Written.exists_holds {m : Memory} {a n : Nat} (h : Written m a n) :
    ∃ bs : List Byte, bs.length = n ∧ Holds m a bs := by
  refine ⟨(List.range n).map fun k => (m.get? (a + k)).getD 0#8, by simp, ?_⟩
  intro k hk
  simp only [List.length_map, List.length_range] at hk
  obtain ⟨b, hb⟩ := Option.isSome_iff_exists.1 (h k hk)
  simp [hb]

theorem Holds.written {m : Memory} {a : Nat} {bs : List Byte} (h : Holds m a bs) :
    Written m a bs.length := fun k hk => by simp [h k hk]

/-- A read of written bytes takes no draw, and the bytes it gives stand in memory. -/
theorem Memory.read_of_written {m : Memory} {a n : Nat} (h : Written m a n) (d : Nat) :
    (m.read a n d).2 = d ∧ Holds m a (m.read a n d).1 := by
  obtain ⟨bs, rfl, hb⟩ := h.exists_holds
  rw [Memory.read_of_holds hb]
  exact ⟨rfl, hb⟩

/-- Two memories with the same bytes in a range read the same there. -/
theorem Memory.read_congr {m m' : Memory} {a n : Nat}
    (h : ∀ k, k < n → m'.get? (a + k) = m.get? (a + k)) (d : Nat) :
    m'.read a n d = m.read a n d := by
  induction n generalizing a d with
  | zero => rfl
  | succ n ih =>
    have h0 : m'.get? a = m.get? a := by simpa using h 0 (by omega)
    have hr := fun k (hk : k < n) => by
      have := h (k + 1) (by omega)
      rwa [← Nat.add_assoc, Nat.add_right_comm] at this
    simp only [Memory.read, h0, ih hr]

/-- Two memories that hold the same bytes agree there. -/
theorem Holds.unique {m : Memory} {a : Nat} {bs cs : List Byte} (h : Holds m a bs) (h' : Holds m a cs)
    (hl : bs.length = cs.length) : bs = cs := by
  refine List.ext_getElem hl fun k h1 h2 => ?_
  have := (h k h1).symm.trans (h' k h2)
  simpa using this

/-- The first bytes of a store take no draw. -/
theorem Memory.store_unwrittenIn (m : Memory) (a : Nat) {n : Nat} {bs : List Byte}
    (h : n ≤ bs.length) : unwrittenIn (m.store a bs) a n = 0 :=
  Written.unwrittenIn fun k hk => (Memory.store_holds m a bs).written k (by omega)

theorem readInput_drawn (s : State) :
    (readInput s).2.draws = s.draws + unwrittenIn s.mem inBase s.inLen.toNat := Memory.read_draws ..

theorem readPayload_drawn (s : State) :
    (readPayload s).2.draws = s.draws + unwrittenIn s.pbuf 0 s.plen.toNat := Memory.read_draws ..

@[simp] theorem readInput_length (s : State) : (readInput s).1.length = s.inLen.toNat :=
  Memory.read_length ..

@[simp] theorem readPayload_length (s : State) : (readPayload s).1.length = s.plen.toNat :=
  Memory.read_length ..

end Sys2Proof.Machine
end

