-- ==== Sys2Proof/Laws/Bits.lean ====
section
/-! SUPPORT. The bit and byte layouts: byte order, packing and unpacking are inverse, a code's entry
gives the code back. -/

namespace Sys2Proof.Machine

/-! ## Byte order -/

@[simp] theorem leBytes_length (n : Nat) (v : Word) : (leBytes n v).length = n := by simp [leBytes]

theorem leBytes_getElem (n : Nat) (v : Word) (k : Nat) (h : k < (leBytes n v).length) :
    (leBytes n v)[k] = v.extractLsb' (8 * k) 8 := by simp [leBytes]

/-- The four bytes of a word give the word back. -/
theorem leNat_lt (bs : List Byte) : leNat bs < 2 ^ (8 * bs.length) := by
  induction bs with
  | nil => simp [leNat]
  | cons b bs ih =>
    have := b.isLt
    have e : 2 ^ (8 * (b :: bs).length) = 2 ^ 8 * 2 ^ (8 * bs.length) := by
      rw [← Nat.pow_add]; congr 1; simp; omega
    rw [leNat, e]
    omega

/-- Byte `k` of the number is the `k`-th byte. -/
theorem leNat_byte {bs : List Byte} {k : Nat} {b : Byte} (h : bs[k]? = some b) :
    leNat bs / 2 ^ (8 * k) % 2 ^ 8 = b.toNat := by
  induction bs generalizing k with
  | nil => simp at h
  | cons c bs ih =>
    have hc := c.isLt
    cases k with
    | zero =>
      simp only [List.getElem?_cons_zero, Option.some.injEq] at h
      subst h
      simp only [leNat, Nat.mul_zero, Nat.pow_zero, Nat.div_one]
      omega
    | succ k =>
      simp only [List.getElem?_cons_succ] at h
      rw [← ih h, show 8 * (k + 1) = 8 + 8 * k by omega, Nat.pow_add, ← Nat.div_div_eq_div_mul, leNat]
      congr 2
      omega

theorem leWord_byte {bs : List Byte} (hl : bs.length ≤ 4) {k : Nat} {b : Byte} (h : bs[k]? = some b) :
    (leWord bs).extractLsb' (8 * k) 8 = b := by
  apply BitVec.eq_of_toNat_eq
  have h1 := leNat_lt bs
  have h2 : 2 ^ (8 * bs.length) ≤ 2 ^ 32 := Nat.pow_le_pow_right (by omega) (by omega)
  have e : (leWord bs).toNat = leNat bs := by
    rw [leWord, BitVec.toNat_ofNat, Nat.mod_eq_of_lt (by omega)]
  rw [BitVec.extractLsb'_toNat, e, Nat.shiftRight_eq_div_pow, leNat_byte h]

theorem leWord_getLsbD {bs : List Byte} {j : Nat} (h : 8 * bs.length ≤ j) :
    (leWord bs).getLsbD j = false := by
  rw [leWord, BitVec.getLsbD_ofNat, Nat.testBit_lt_two_pow, Bool.and_false]
  exact Nat.lt_of_lt_of_le (leNat_lt bs) (Nat.pow_le_pow_right (by omega) h)

theorem leWord_leBytes (v : Word) : leWord (leBytes 4 v) = v := by
  apply BitVec.eq_of_toNat_eq
  have hv := v.isLt
  simp [leWord, leBytes, List.range_succ, leNat, BitVec.extractLsb'_toNat, Nat.shiftRight_eq_div_pow]
  omega

/-! ## Counting -/

theorem ceilDiv8_eq (n : Nat) : 8 * ceilDiv8 n = n + padCount n := by
  unfold ceilDiv8 padCount; omega

theorem padCount_lt (n : Nat) : padCount n < 8 := by unfold padCount; omega

theorem padCount_zero_iff (n : Nat) : padCount n = 0 ↔ n % 8 = 0 := by unfold padCount; omega

/-! ## Packing and unpacking -/

@[simp] theorem byteBits_length (b : Byte) : (byteBits b).length = 8 := rfl

/-- A byte whose bits are given has those bits. -/
theorem byteBits_ofBits (b7 b6 b5 b4 b3 b2 b1 b0 : Bool) :
    byteBits (BitVec.ofNat 8 (bitsNat [b7, b6, b5, b4, b3, b2, b1, b0])) =
      [b7, b6, b5, b4, b3, b2, b1, b0] := by
  revert b7 b6 b5 b4 b3 b2 b1 b0; decide

theorem byteBits_getElem (b : Byte) (j : Nat) (h : j < 8) :
    (byteBits b)[j]'(by simpa using h) = b.getLsbD (7 - j) := by
  match j, h with
  | 0, _ | 1, _ | 2, _ | 3, _ | 4, _ | 5, _ | 6, _ | 7, _ => rfl

@[simp] theorem unpackBytes_nil : unpackBytes [] = [] := rfl

@[simp] theorem unpackBytes_cons (b : Byte) (bs : List Byte) :
    unpackBytes (b :: bs) = byteBits b ++ unpackBytes bs := rfl

@[simp] theorem unpackBytes_length (bs : List Byte) : (unpackBytes bs).length = 8 * bs.length := by
  induction bs with
  | nil => rfl
  | cons b bs ih => simp [ih]; omega

/-- Bit j of the payload is bit 7 − (j mod 8) of byte j div 8 (30_encoding.md R105). -/
theorem unpackBytes_getElem (bs : List Byte) (j : Nat) (h : j < (unpackBytes bs).length) :
    (unpackBytes bs)[j] =
      (bs[j / 8]'(by simp at h; omega)).getLsbD (7 - j % 8) := by
  induction bs generalizing j with
  | nil => simp at h
  | cons b bs ih =>
    simp only [unpackBytes_cons]
    by_cases hj : j < 8
    · rw [List.getElem_append_left (by simpa using hj), byteBits_getElem b j hj]
      have e0 : j / 8 = 0 := by omega
      have e1 : j % 8 = j := by omega
      simp [e0, e1]
    · have hj' : 8 ≤ j := by omega
      rw [List.getElem_append_right (by simpa using hj'), ih]
      have e1 : (j - 8) % 8 = j % 8 := by omega
      have e2 : j / 8 = (j - 8) / 8 + 1 := by omega
      simp [byteBits_length, e1, e2]

/-- Unpacking packed groups gives the bits back, when they come in whole groups. -/
theorem unpack_packGroups (s : Bits) (h : s.length % 8 = 0) : unpackBytes (packGroups s) = s := by
  fun_induction packGroups s with
  | case1 b7 b6 b5 b4 b3 b2 b1 b0 rest ih =>
    have := ih (by simp at h; omega)
    simp [this, byteBits_ofBits]
  | case2 s hs =>
    match s with
    | [] => rfl
    | [_] | [_, _] | [_, _, _] | [_, _, _, _] | [_, _, _, _, _] | [_, _, _, _, _, _]
    | [_, _, _, _, _, _, _] => simp at h
    | _ :: _ :: _ :: _ :: _ :: _ :: _ :: _ :: _ => exact absurd rfl (hs _ _ _ _ _ _ _ _ _)

theorem packGroups_length (s : Bits) : (packGroups s).length = s.length / 8 := by
  fun_induction packGroups s with
  | case1 b7 b6 b5 b4 b3 b2 b1 b0 rest ih => simp [ih]; omega
  | case2 s hs =>
    match s with
    | [] | [_] | [_, _] | [_, _, _] | [_, _, _, _] | [_, _, _, _, _] | [_, _, _, _, _, _]
    | [_, _, _, _, _, _, _] => simp
    | _ :: _ :: _ :: _ :: _ :: _ :: _ :: _ :: _ => exact absurd rfl (hs _ _ _ _ _ _ _ _ _)

@[simp] theorem packBits_length (s : Bits) : (packBits s).length = ceilDiv8 s.length := by
  unfold packBits
  rw [packGroups_length, List.length_append, List.length_replicate]
  unfold ceilDiv8 padCount; omega

/-- Unpacking packed bits gives them back, followed by the 0 pad bits. -/
theorem unpack_packBits (s : Bits) :
    unpackBytes (packBits s) = s ++ List.replicate (padCount s.length) false := by
  unfold packBits
  refine unpack_packGroups _ ?_
  rw [List.length_append, List.length_replicate]
  unfold padCount; omega

/-- For every s, unpacking the packed bits gives back exactly s (30_encoding.md R105). -/
theorem retained_packBits (s : Bits) :
    retainedBits (packBits s) (BitVec.ofNat 3 (padCount s.length)) = s := by
  unfold retainedBits
  have h := ceilDiv8_eq s.length
  have hp := padCount_lt s.length
  have e : (BitVec.ofNat 3 (padCount s.length)).toNat = padCount s.length := by
    simp only [BitVec.toNat_ofNat]; omega
  rw [unpack_packBits, packBits_length, e, show 8 * ceilDiv8 s.length - padCount s.length = s.length
    by omega]
  simp

/-! ## Codes -/

theorem bitsNat_append (s : Bits) (b : Bool) : bitsNat (s ++ [b]) = 2 * bitsNat s + b.toNat := by
  simp [bitsNat]

theorem bitsNat_lt (s : Bits) : bitsNat s < 2 ^ s.length := by
  induction s using List.reverseRecOn with
  | nil => simp [bitsNat]
  | append_singleton s b ih =>
    rw [bitsNat_append, List.length_append, List.length_singleton, Nat.pow_succ]
    have : b.toNat ≤ 1 := by cases b <;> simp
    omega

/-- Bit L − 1 − j of a code's value is its bit j (30_encoding.md R107). -/
theorem bitsNat_testBit (s : Bits) (j : Nat) (h : j < s.length) :
    (bitsNat s).testBit (s.length - 1 - j) = s[j] := by
  induction s using List.reverseRecOn with
  | nil => simp at h
  | append_singleton s b ih =>
    rw [bitsNat_append]
    simp only [List.length_append, List.length_singleton] at h ⊢
    by_cases hj : j < s.length
    · have e : s.length + 1 - 1 - j = (s.length - 1 - j) + 1 := by omega
      rw [e, Nat.testBit_succ, show (2 * bitsNat s + b.toNat) / 2 = bitsNat s by
        have := b.toNat_le; omega, ih hj, List.getElem_append_left hj]
    · have ej : j = s.length := by omega
      subst ej
      simp only [Nat.add_sub_cancel, Nat.sub_self, List.getElem_concat_length]
      cases b <;> simp [Nat.testBit_zero]

/-- The entry of a code of at most 255 bits gives the code back (30_encoding.md R106, R107). -/
theorem Code.bits_ofBits (s : Bits) (h : s.length ≤ 255) : (Code.ofBits s).bits = s := by
  have hl : (Code.ofBits s).len.toNat = s.length := by
    simp only [Code.ofBits, BitVec.toNat_ofNat]; omega
  refine List.ext_getElem (by simp [Code.bits, hl]) fun j h1 h2 => ?_
  simp only [Code.bits, List.getElem_map, List.getElem_range, hl]
  rw [← bitsNat_testBit s j h2]
  simp only [Code.ofBits, BitVec.getLsbD_ofNat]
  have : s.length - 1 - j < 256 := by omega
  simp [this]

theorem Code.bits_length (c : Code) : c.bits.length = c.len.toNat := by simp [Code.bits]

/-! ## Register arrays -/

theorem histAt_ofFn (f : Fin 256 → Word) (v : Byte) :
    histAt (Vector.ofFn f) v = f ⟨v.toNat, v.isLt⟩ := by simp [histAt]

theorem histAt_set (hist : Vector Word 256) (v u : Byte) (x : Word) :
    histAt (hist.set v.toNat x v.isLt) u = if u = v then x else histAt hist u := by
  unfold histAt
  rw [Vector.getElem_set]
  simp only [BitVec.toNat_inj, eq_comm (a := v)]

theorem codeAt_setCode (t : Vector Code 256) (v u : Byte) (c : Code) :
    codeAt (setCode t v c) u = if u = v then c else codeAt t u := by
  unfold codeAt setCode
  rw [Vector.getElem_set]
  simp only [BitVec.toNat_inj, eq_comm (a := v)]

@[simp] theorem codeAt_absent (v : Byte) : codeAt absentTable v = Code.absent := by
  simp [codeAt, absentTable]

@[simp] theorem histAt_countBytes (bs : List Byte) (v : Byte) :
    histAt (countBytes bs) v = BitVec.ofNat 32 (bs.count v) := by
  rw [countBytes, histAt_ofFn]; simp

/-- Two histograms with the same counts are equal. -/
theorem hist_ext {h h' : Vector Word 256} (e : ∀ v, histAt h v = histAt h' v) : h = h' := by
  refine Vector.ext fun i hi => ?_
  have := e (BitVec.ofNat 8 i)
  have ei : i % 256 = i := Nat.mod_eq_of_lt hi
  simpa [histAt, BitVec.toNat_ofNat, ei] using this

/-- Two code tables with the same entries are equal. -/
theorem code_ext {c c' : Vector Code 256} (e : ∀ v, codeAt c v = codeAt c' v) : c = c' := by
  refine Vector.ext fun i hi => ?_
  have := e (BitVec.ofNat 8 i)
  have ei : i % 256 = i := Nat.mod_eq_of_lt hi
  simpa [codeAt, BitVec.toNat_ofNat, ei] using this

theorem mem_allBytes (v : Byte) : v ∈ allBytes := by
  simp only [allBytes, List.mem_map, List.mem_range]
  exact ⟨v.toNat, v.isLt, by simp⟩

end Sys2Proof.Machine
end

