-- ==== Sys2Proof/Laws/Queue.lean ====
section
/-! SUPPORT. The priority queue under both policies: an insertion adds one entry, an extraction takes
one away, and under FIFO it is the least (41_tree_builder.md R122, R123). -/

namespace Sys2Proof.Machine

/-! ## HEAP -/

theorem heapAt_eq {h : List QEntry} {i : Nat} (hi : i < h.length) : heapAt h i = h[i] := by
  simp [heapAt, hi]

/-- Moving the entry at `par` to `pos` and `new` to `par` is `new` at `pos`, up to order. -/
theorem set_swap_perm (h : List QEntry) (new : QEntry) {pos par : Nat} (hpos : pos < h.length)
    (hpar : par < h.length) (hne : par ≠ pos) :
    ((h.set pos h[par]).set par new).Perm (h.set pos new) := by
  have key := List.set_set_perm (as := h.set pos new) (i := pos) (j := par) (by simpa using hpos)
    (by simpa using hpar)
  have e1 : (h.set pos new)[par]'(by simpa using hpar) = h[par] := by
    rw [List.getElem_set_ne (Ne.symm hne)]
  have e2 : (h.set pos new)[pos]'(by simpa using hpos) = new := by simp
  rw [e1, e2, List.set_set] at key
  exact key

@[simp] theorem siftDownLoop_length (new : QEntry) (start fuel : Nat) (h : List QEntry) (pos : Nat) :
    (siftDownLoop new start fuel h pos).length = h.length := by
  induction fuel generalizing h pos with
  | zero => simp [siftDownLoop]
  | succ fuel ih =>
    simp only [siftDownLoop]
    split
    · split
      · rw [ih]; simp
      · simp
    · simp

theorem siftDownLoop_perm (new : QEntry) (start fuel : Nat) (h : List QEntry) (pos : Nat)
    (hpos : pos < h.length) : (siftDownLoop new start fuel h pos).Perm (h.set pos new) := by
  induction fuel generalizing h pos with
  | zero => exact List.Perm.refl _
  | succ fuel ih =>
    simp only [siftDownLoop]
    split
    · rename_i hs
      split
      · have hpar : (pos - 1) / 2 < h.length := by omega
        refine (ih _ _ (by simpa using hpar)).trans ?_
        rw [heapAt_eq hpar]
        exact set_swap_perm h new hpos hpar (by omega)
      · exact List.Perm.refl _
    · exact List.Perm.refl _

theorem siftDown_perm (h : List QEntry) (start pos : Nat) (hpos : pos < h.length) :
    (siftDown h start pos).Perm h := by
  unfold siftDown
  refine (siftDownLoop_perm _ _ _ _ _ hpos).trans ?_
  rw [heapAt_eq hpos, List.set_getElem_self]

theorem siftUpLoop_perm (fuel : Nat) (h : List QEntry) (pos : Nat) (hpos : pos < h.length) :
    (siftUpLoop fuel h pos).1.length = h.length ∧ (siftUpLoop fuel h pos).2 < h.length
      ∧ ∀ new, ((siftUpLoop fuel h pos).1.set (siftUpLoop fuel h pos).2 new).Perm (h.set pos new) := by
  induction fuel generalizing h pos with
  | zero => exact ⟨rfl, hpos, fun _ => List.Perm.refl _⟩
  | succ fuel ih =>
    simp only [siftUpLoop]
    split
    · rename_i hc
      generalize hcdef : (if 2 * pos + 1 + 1 < h.length &&
        !(heapAt h (2 * pos + 1)).lt (heapAt h (2 * pos + 1 + 1)) then 2 * pos + 1 + 1
        else 2 * pos + 1) = c
      have hcl : c < h.length := by
        subst hcdef
        split
        · rename_i hh
          simp only [Bool.and_eq_true, decide_eq_true_eq] at hh
          exact hh.1
        · exact hc
      have hcp : c ≠ pos := by subst hcdef; split <;> omega
      obtain ⟨h1, h2, h3⟩ := ih (h.set pos (heapAt h c)) c (by simpa using hcl)
      refine ⟨by simpa using h1, by simpa using h2, fun new => (h3 new).trans ?_⟩
      rw [heapAt_eq hcl]
      exact set_swap_perm h new hpos hcl hcp
    · exact ⟨rfl, hpos, fun _ => List.Perm.refl _⟩

theorem siftUp_perm (h : List QEntry) (pos : Nat) (hpos : pos < h.length) : (siftUp h pos).Perm h := by
  obtain ⟨h1, h2, h3⟩ := siftUpLoop_perm h.length h pos hpos
  unfold siftUp
  refine (siftDown_perm _ _ _ (by simpa [h1] using h2)).trans ((h3 _).trans ?_)
  rw [heapAt_eq hpos, List.set_getElem_self]

theorem heapInsert_perm (h : List QEntry) (e : QEntry) : (heapInsert h e).Perm (e :: h) :=
  (siftDown_perm _ _ _ (by simp)).trans (List.perm_append_singleton e h)

theorem heapExtractMin_perm {h q : List QEntry} {e : QEntry}
    (hx : heapExtractMin h = some (e, q)) : (e :: q).Perm h := by
  unfold heapExtractMin at hx
  split at hx
  · cases hx
  · rename_i last hl
    have hh : h = h.dropLast ++ [last] := by
      obtain ⟨hne, rfl⟩ := List.mem_getLast?_eq_getLast hl
      exact (List.dropLast_append_getLast hne).symm
    split at hx
    · rename_i hd
      cases hx
      rw [hh, hd]; exact List.Perm.refl _
    · rename_i top rest hd
      simp only [Option.some.injEq, Prod.mk.injEq] at hx
      obtain ⟨rfl, rfl⟩ := hx
      rw [hh, hd]
      refine ((siftUp_perm (last :: rest) 0 (by simp)).cons top).trans ?_
      exact (List.perm_append_singleton last rest).symm.cons top

theorem heapExtractMin_isSome {h : List QEntry} (hn : h ≠ []) : (heapExtractMin h).isSome := by
  unfold heapExtractMin
  split
  · rename_i hl; simp [hn] at hl
  · split <;> rfl

/-! ## FIFO -/

theorem QEntry.before_irrefl (x : QEntry) : x.before x = false := by simp [QEntry.before]

theorem QEntry.before_iff (x y : QEntry) :
    x.before y = true ↔ x.freq.toNat < y.freq.toNat ∨ (x.freq.toNat = y.freq.toNat ∧ x.idx < y.idx) := by
  simp only [QEntry.before, Bool.or_eq_true, Bool.and_eq_true, decide_eq_true_eq, BitVec.lt_def,
    ← BitVec.toNat_inj]

theorem fifoLeast_mem (x : QEntry) (q : List QEntry) : fifoLeast x q ∈ x :: q := by
  unfold fifoLeast
  induction q generalizing x with
  | nil => simp
  | cons y q ih =>
    simp only [List.foldl_cons]
    split
    · have := ih y; simp only [List.mem_cons] at this ⊢; tauto
    · have := ih x; simp only [List.mem_cons] at this ⊢; tauto

/-- No entry comes before the one chosen. -/
theorem fifoLeast_le (x : QEntry) (q : List QEntry) : ∀ y ∈ x :: q, y.before (fifoLeast x q) = false := by
  unfold fifoLeast
  induction q generalizing x with
  | nil => simp [QEntry.before_irrefl]
  | cons z q ih =>
    intro y hy
    simp only [List.foldl_cons]
    have trans : ∀ a b c : QEntry, a.before b = false → b.before c = false → a.before c = false := by
      intro a b c h1 h2
      rw [← Bool.not_eq_true, QEntry.before_iff] at *
      omega
    have asymm : ∀ a b : QEntry, a.before b = true → b.before a = false := by
      intro a b h
      rw [← Bool.not_eq_true, QEntry.before_iff] at *
      omega
    split
    · rename_i hz
      have h1 := ih z
      simp only [List.mem_cons] at hy h1
      rcases hy with rfl | rfl | hy
      · exact trans _ z _ (asymm _ _ hz) (h1 z (.inl rfl))
      · exact h1 y (.inl rfl)
      · exact h1 y (.inr hy)
    · rename_i hz
      have h1 := ih x
      simp only [List.mem_cons] at hy h1
      rcases hy with rfl | rfl | hy
      · exact h1 y (.inl rfl)
      · exact trans _ x _ (by simpa using hz) (h1 x (.inl rfl))
      · exact h1 y (.inr hy)

theorem fifoExtractMin_perm {h q : List QEntry} {e : QEntry}
    (hx : fifoExtractMin h = some (e, q)) : (e :: q).Perm h := by
  cases h with
  | nil => cases hx
  | cons x h =>
    simp only [fifoExtractMin, Option.some.injEq, Prod.mk.injEq] at hx
    obtain ⟨rfl, rfl⟩ := hx
    exact (List.perm_cons_erase (fifoLeast_mem x h)).symm

/-! ## Under either policy -/

theorem queueInsert_perm (tie : TiePolicy) (q : List QEntry) (e : QEntry) :
    (queueInsert tie q e).Perm (e :: q) := by
  cases tie
  · exact List.perm_append_singleton e q
  · exact heapInsert_perm q e

theorem queueExtractMin_perm {tie : TiePolicy} {h q : List QEntry} {e : QEntry}
    (hx : queueExtractMin tie h = some (e, q)) : (e :: q).Perm h := by
  cases tie
  · exact fifoExtractMin_perm hx
  · exact heapExtractMin_perm hx

theorem queueExtractMin_isSome (tie : TiePolicy) {h : List QEntry} (hn : h ≠ []) :
    (queueExtractMin tie h).isSome := by
  cases tie
  · cases h with
    | nil => exact absurd rfl hn
    | cons x h => rfl
  · exact heapExtractMin_isSome hn

theorem queueInit_perm (tie : TiePolicy) (es : List QEntry) : (queueInit tie es).Perm es := by
  unfold queueInit
  suffices h : ∀ (q : List QEntry), (es.foldl (queueInsert tie) q).Perm (q ++ es) by simpa using h []
  induction es with
  | nil => intro q; simp
  | cons e es ih =>
    intro q
    simp only [List.foldl_cons]
    refine (ih _).trans ?_
    refine ((queueInsert_perm tie q e).append_right es).trans ?_
    exact (List.perm_middle (a := e) (l₁ := q) (l₂ := es)).symm

end Sys2Proof.Machine
end

