-- ==== Sys2Proof/Laws/Trees.lean ====
section
/-! SUPPORT. Binary trees with symbols at the leaves, which a node store represents: their paths, and
that BUILD's node store represents one (41_tree_builder.md R118, R121, R127, R128). -/

namespace Sys2Proof.Machine

/-! ## Trees and paths -/

/-- A binary tree with a symbol at each leaf. -/
inductive BTree where
  | leaf (v : Byte)
  | node (l r : BTree)
  deriving DecidableEq, Repr

/-- The symbols, left to right. -/
def BTree.syms : BTree → List Byte
  | .leaf v => [v]
  | .node l r => l.syms ++ r.syms

/-- Each symbol with its path from the root. -/
def BTree.paths : BTree → List (Byte × Bits)
  | .leaf v => [(v, [])]
  | .node l r =>
    l.paths.map (fun x => (x.1, false :: x.2)) ++ r.paths.map (fun x => (x.1, true :: x.2))

/-- The depth. -/
def BTree.depth : BTree → Nat
  | .leaf _ => 0
  | .node l r => max l.depth r.depth + 1

theorem BTree.syms_pos (t : BTree) : 0 < t.syms.length := by
  cases t with
  | leaf v => simp [BTree.syms]
  | node l r => have := l.syms_pos; simp [BTree.syms]; omega

/-- A tree with k leaves has depth at most k − 1 (41_tree_builder.md R128). -/
theorem BTree.depth_lt (t : BTree) : t.depth < t.syms.length := by
  induction t with
  | leaf v => simp [BTree.syms, BTree.depth]
  | node l r ihl ihr =>
    have := l.syms_pos; have := r.syms_pos
    simp [BTree.syms, BTree.depth]; omega

theorem BTree.path_length {t : BTree} {v : Byte} {p : Bits} (h : (v, p) ∈ t.paths) :
    p.length ≤ t.depth := by
  induction t generalizing p with
  | leaf u => simp [BTree.paths] at h; simp [h.2]
  | node l r ihl ihr =>
    simp only [BTree.paths, List.mem_append, List.mem_map] at h
    rcases h with ⟨⟨u, q⟩, hq, he⟩ | ⟨⟨u, q⟩, hq, he⟩
    · obtain ⟨rfl, rfl⟩ := Prod.mk.inj he
      have := ihl hq; simp [BTree.depth]; omega
    · obtain ⟨rfl, rfl⟩ := Prod.mk.inj he
      have := ihr hq; simp [BTree.depth]; omega

theorem BTree.mem_syms {t : BTree} {v : Byte} : v ∈ t.syms ↔ ∃ p, (v, p) ∈ t.paths := by
  induction t with
  | leaf u => simp [BTree.syms, BTree.paths]
  | node l r ihl ihr =>
    simp only [BTree.syms, BTree.paths, List.mem_append, List.mem_map, ihl, ihr]
    constructor
    · rintro (⟨p, h⟩ | ⟨p, h⟩)
      · exact ⟨false :: p, .inl ⟨_, h, rfl⟩⟩
      · exact ⟨true :: p, .inr ⟨_, h, rfl⟩⟩
    · rintro ⟨p, ⟨⟨u, q⟩, hq, he⟩ | ⟨⟨u, q⟩, hq, he⟩⟩
      · obtain ⟨rfl, rfl⟩ := Prod.mk.inj he; exact .inl ⟨q, hq⟩
      · obtain ⟨rfl, rfl⟩ := Prod.mk.inj he; exact .inr ⟨q, hq⟩

/-- Two leaves of which one path extends the other are one leaf. -/
theorem BTree.paths_prefix {t : BTree} {u v : Byte} {p q : Bits} (hp : (u, p) ∈ t.paths)
    (hq : (v, q) ∈ t.paths) (h : p <+: q) : u = v ∧ p = q := by
  induction t generalizing p q with
  | leaf w => simp [BTree.paths] at hp hq; simp [hp, hq]
  | node l r ihl ihr =>
    simp only [BTree.paths, List.mem_append, List.mem_map] at hp hq
    rcases hp with ⟨⟨a, p'⟩, hp, e⟩ | ⟨⟨a, p'⟩, hp, e⟩ <;> obtain ⟨rfl, rfl⟩ := Prod.mk.inj e <;>
    rcases hq with ⟨⟨b, q'⟩, hq, e'⟩ | ⟨⟨b, q'⟩, hq, e'⟩ <;> obtain ⟨rfl, rfl⟩ := Prod.mk.inj e' <;>
    simp only [List.cons_prefix_cons] at h
    · obtain ⟨h1, h2⟩ := ihl hp hq h.2
      exact ⟨h1, by rw [h2]⟩
    · exact absurd h.1 (by simp)
    · exact absurd h.1 (by simp)
    · obtain ⟨h1, h2⟩ := ihr hp hq h.2
      exact ⟨h1, by rw [h2]⟩

/-- A symbol that stands once in the tree has one path. -/
theorem BTree.path_unique {t : BTree} (hn : t.syms.Nodup) {v : Byte} {p q : Bits}
    (hp : (v, p) ∈ t.paths) (hq : (v, q) ∈ t.paths) : p = q := by
  induction t generalizing p q with
  | leaf w => simp [BTree.paths] at hp hq; simp [hp, hq]
  | node l r ihl ihr =>
    simp only [BTree.syms, List.nodup_append] at hn
    obtain ⟨hl, hr, hd⟩ := hn
    simp only [BTree.paths, List.mem_append, List.mem_map] at hp hq
    rcases hp with ⟨⟨a, p'⟩, hp, e⟩ | ⟨⟨a, p'⟩, hp, e⟩ <;> obtain ⟨rfl, rfl⟩ := Prod.mk.inj e <;>
    rcases hq with ⟨⟨b, q'⟩, hq, e'⟩ | ⟨⟨b, q'⟩, hq, e'⟩ <;> obtain ⟨h1, rfl⟩ := Prod.mk.inj e' <;>
    simp only at h1 <;> subst h1
    · rw [ihl hl hp hq]
    · exact absurd rfl (hd _ (BTree.mem_syms.2 ⟨_, hp⟩) _ (BTree.mem_syms.2 ⟨_, hq⟩))
    · exact absurd rfl (hd _ (BTree.mem_syms.2 ⟨_, hq⟩) _ (BTree.mem_syms.2 ⟨_, hp⟩))
    · rw [ihr hr hp hq]

/-- Every infinite bit string starts with exactly one path; here: with at least one. -/
theorem BTree.exists_path (t : BTree) (f : Nat → Bool) :
    ∃ v p, (v, p) ∈ t.paths ∧ p = (List.range p.length).map f := by
  induction t generalizing f with
  | leaf v => exact ⟨v, [], by simp [BTree.paths], rfl⟩
  | node l r ihl ihr =>
    have step : ∀ (b : Bool) (p : Bits), f 0 = b → p = (List.range p.length).map (fun n => f (n + 1)) →
        b :: p = (List.range (b :: p).length).map f := by
      intro b p hb hp
      rw [List.length_cons, List.range_succ_eq_map, List.map_cons, List.map_map, hb]
      congr 1
    cases hb : f 0 with
    | false =>
      obtain ⟨v, p, hp, e⟩ := ihl (fun n => f (n + 1))
      exact ⟨v, false :: p, by simp [BTree.paths, hp], step _ _ hb e⟩
    | true =>
      obtain ⟨v, p, hp, e⟩ := ihr (fun n => f (n + 1))
      exact ⟨v, true :: p, by simp [BTree.paths, hp], step _ _ hb e⟩

/-- Kraft's sum: Σ 2^(D − length) = 2^D for any D at least the depth (42_code_table.md R133). -/
theorem BTree.kraft (t : BTree) (D : Nat) (h : t.depth ≤ D) :
    (t.paths.map fun x => 2 ^ (D - x.2.length)).sum = 2 ^ D := by
  induction t generalizing D with
  | leaf v => simp [BTree.paths]
  | node l r ihl ihr =>
    simp only [BTree.depth] at h
    obtain ⟨D, rfl⟩ : ∃ D', D = D' + 1 := ⟨D - 1, by omega⟩
    have hl := ihl D (by omega)
    have hr := ihr D (by omega)
    simp only [BTree.paths, List.map_append, List.map_map, List.sum_append, Function.comp_def,
      List.length_cons, Nat.add_sub_add_right, hl, hr, Nat.pow_succ]
    omega

theorem BTree.paths_syms (t : BTree) : t.paths.map Prod.fst = t.syms := by
  induction t with
  | leaf v => rfl
  | node l r ihl ihr => simp [BTree.paths, BTree.syms, ← ihl, ← ihr, Function.comp_def]

/-! ## A list of nodes represents a tree -/

/-- Nodes `ns` hold tree `t` with its root at index `n`. -/
def RepList (ns : List Node) : BTree → Nat → Prop
  | .leaf v, n => ∃ f, ns[n]? = some (.leaf v f)
  | .node l r, n => ∃ f a b, ns[n]? = some (.internal f a b) ∧ RepList ns l a.toNat ∧ RepList ns r b.toNat

/-- The node store holds tree `t` with its root at index `n`. -/
def Rep (node : Vector Node 511) : BTree → NodeIdx → Prop
  | .leaf v, n => ∃ f, nodeAt node n = .leaf v f
  | .node l r, n => ∃ f a b, nodeAt node n = .internal f a b ∧ Rep node l a ∧ Rep node r b

theorem RepList.append {ns : List Node} {t : BTree} {n : Nat} (h : RepList ns t n) (ms : List Node) :
    RepList (ns ++ ms) t n := by
  have key : ∀ {n : Nat} {x : Node}, ns[n]? = some x → (ns ++ ms)[n]? = some x := by
    intro n x hx
    obtain ⟨hl, _⟩ := List.getElem?_eq_some_iff.1 hx
    rw [List.getElem?_append_left hl]; exact hx
  induction t generalizing n with
  | leaf v => obtain ⟨f, hf⟩ := h; exact ⟨f, key hf⟩
  | node l r ihl ihr =>
    obtain ⟨f, a, b, hf, hl, hr⟩ := h
    exact ⟨f, a, b, key hf, ihl hl, ihr hr⟩

/-- Node `n` is a child of node `p` in a list of nodes. -/
def ChildList (ns : List Node) (p n : Nat) : Prop :=
  ∃ f l r, ns[p]? = some (.internal f l r) ∧ (l.toNat = n ∨ r.toNat = n)

/-- The symbol of a node, if it is a leaf. -/
def Node.leafSym : Node → Option Byte
  | .leaf v _ => some v
  | .internal _ _ _ => none

/-- What holds between two merges: `ls` the leaves, `ns` the nodes so far, `ts` the queue's entries
with the trees below them. -/
structure MergeInv (ls ns : List Node) (ts : List (QEntry × BTree)) : Prop where
  idx : ∀ t ∈ ts, t.1.idx < ns.length ∧ RepList ns t.2 t.1.idx
    ∧ (ns[t.1.idx]?).map Node.freq = some t.1.freq
  syms : (ts.flatMap fun t => t.2.syms).Perm (ls.filterMap Node.leafSym)
  sum : (ts.map fun t => t.1.freq.toNat).sum = (ls.map fun x => x.freq.toNat).sum
  count : ns.length + ts.length = 2 * ls.length
  nodup : (ts.map fun t => t.1.idx).Nodup
  leaves : ls <+: ns
  areLeaves : ∀ n, n < ls.length → ∃ v f, ns[n]? = some (.leaf v f)
  internals : ∀ n, ls.length ≤ n → n < ns.length → ∃ f l r, ns[n]? = some (.internal f l r)
    ∧ l.toNat < n ∧ r.toNat < n ∧ l ≠ r
    ∧ ∃ x y, ns[l.toNat]? = some x ∧ ns[r.toNat]? = some y
      ∧ f.toNat = x.freq.toNat + y.freq.toNat
  noParent : ∀ t ∈ ts, ∀ p, ¬ ChildList ns p t.1.idx
  parent : ∀ n, n < ns.length → (∀ t ∈ ts, t.1.idx ≠ n) →
    ∃ p, ChildList ns p n ∧ ∀ p', ChildList ns p' n → p' = p

/-- An entry taken from the queue is one of the paired entries. -/
theorem perm_map_cons {α β : Type} {f : α → β} {ts : List α} {a : β} {q : List β}
    (h : (a :: q).Perm (ts.map f)) :
    ∃ t ts1, f t = a ∧ ts.Perm (t :: ts1) ∧ q.Perm (ts1.map f) := by
  have ha : a ∈ ts.map f := h.subset (by simp)
  obtain ⟨t, ht, rfl⟩ := List.mem_map.1 ha
  obtain ⟨l1, l2, rfl⟩ := List.append_of_mem ht
  refine ⟨t, l1 ++ l2, rfl, List.perm_middle, ?_⟩
  have : (f t :: q).Perm (f t :: (l1 ++ l2).map f) := by
    refine h.trans ?_
    rw [List.map_append, List.map_cons, List.map_append]
    exact List.perm_middle
  exact (List.perm_cons _).1 this

theorem MergeInv.perm {ls ns : List Node} {ts ts' : List (QEntry × BTree)} (h : MergeInv ls ns ts)
    (hp : ts.Perm ts') : MergeInv ls ns ts' where
  idx t ht := h.idx t (hp.symm.subset ht)
  syms := (hp.symm.flatMap_right _).trans h.syms
  sum := by rw [← h.sum]; exact ((hp.map _).symm.sum_eq)
  count := by rw [← h.count, hp.length_eq]
  nodup := (hp.map _).nodup_iff.1 h.nodup
  leaves := h.leaves
  areLeaves := h.areLeaves
  internals := h.internals
  noParent t ht := h.noParent t (hp.symm.subset ht)
  parent n hn ht := h.parent n hn fun t ht' => ht t (hp.subset ht')

/-- One merge keeps the invariant. -/
theorem MergeInv.merge {ls ns : List Node} {a b : QEntry × BTree} {ts : List (QEntry × BTree)}
    (h : MergeInv ls ns (a :: b :: ts)) (hk : ls.length ≤ 256)
    (hS : (ls.map fun x => x.freq.toNat).sum < 2 ^ 40) :
    MergeInv ls
      (ns ++ [.internal (a.1.freq + b.1.freq) (BitVec.ofNat 9 a.1.idx) (BitVec.ofNat 9 b.1.idx)])
      (({ freq := a.1.freq + b.1.freq, idx := ns.length }, .node a.2 b.2) :: ts) := by
  obtain ⟨ha1, ha2, ha3⟩ := h.idx a (by simp)
  obtain ⟨hb1, hb2, hb3⟩ := h.idx b (by simp)
  have hcount := h.count
  simp only [List.length_cons] at hcount
  have hm : ns.length < 511 := by omega
  have ea : (BitVec.ofNat 9 a.1.idx).toNat = a.1.idx := by
    rw [BitVec.toNat_ofNat, Nat.mod_eq_of_lt (by omega)]
  have eb : (BitVec.ofNat 9 b.1.idx).toNat = b.1.idx := by
    rw [BitVec.toNat_ofNat, Nat.mod_eq_of_lt (by omega)]
  have hsum := h.sum
  simp only [List.map_cons, List.sum_cons] at hsum
  have hf : (a.1.freq + b.1.freq).toNat = a.1.freq.toNat + b.1.freq.toNat := by
    rw [BitVec.toNat_add, Nat.mod_eq_of_lt (by omega)]
  have hnd := h.nodup
  simp only [List.map_cons, List.nodup_cons, List.mem_cons, not_or] at hnd
  obtain ⟨⟨hab, hat⟩, hbt, hnd'⟩ := hnd
  have hlt : ∀ t ∈ ts, t.1.idx < ns.length := fun t ht => (h.idx t (by simp [ht])).1
  have new_get : (ns ++ [Node.internal (a.1.freq + b.1.freq) (BitVec.ofNat 9 a.1.idx)
      (BitVec.ofNat 9 b.1.idx)])[ns.length]? = some (.internal (a.1.freq + b.1.freq)
      (BitVec.ofNat 9 a.1.idx) (BitVec.ofNat 9 b.1.idx)) := by simp
  have old_get : ∀ n, n < ns.length → (ns ++ [Node.internal (a.1.freq + b.1.freq)
      (BitVec.ofNat 9 a.1.idx) (BitVec.ofNat 9 b.1.idx)])[n]? = ns[n]? := fun n hn => by
    rw [List.getElem?_append_left hn]
  -- a child in the longer list is a child in the shorter, or one of the two merged
  have child_iff : ∀ p n, ChildList (ns ++ [Node.internal (a.1.freq + b.1.freq)
      (BitVec.ofNat 9 a.1.idx) (BitVec.ofNat 9 b.1.idx)]) p n ↔
      ChildList ns p n ∨ (p = ns.length ∧ (a.1.idx = n ∨ b.1.idx = n)) := by
    intro p n
    rcases Nat.lt_trichotomy p ns.length with hp | hp | hp
    · unfold ChildList
      rw [old_get p hp]
      constructor
      · exact .inl
      · rintro (h | ⟨h, -⟩)
        · exact h
        · omega
    · subst hp
      unfold ChildList
      rw [new_get]
      constructor
      · rintro ⟨f, l, r, hx, hc⟩
        cases hx
        rw [ea, eb] at hc; exact .inr ⟨rfl, hc⟩
      · rintro (⟨f, l, r, hx, -⟩ | ⟨-, hc⟩)
        · simp at hx
        · exact ⟨_, _, _, rfl, by rw [ea, eb]; exact hc⟩
    · unfold ChildList
      have e1 : ns[p]? = none := by simp; omega
      have e2 : (ns ++ [Node.internal (a.1.freq + b.1.freq) (BitVec.ofNat 9 a.1.idx)
        (BitVec.ofNat 9 b.1.idx)])[p]? = none := by simp; omega
      rw [e1, e2]
      constructor
      · rintro ⟨f, l, r, hx, -⟩; cases hx
      · rintro (⟨f, l, r, hx, -⟩ | ⟨h, -⟩)
        · cases hx
        · omega
  constructor
  · intro t ht
    rcases List.mem_cons.1 ht with rfl | ht
    · refine ⟨by simp, ⟨_, _, _, new_get, ?_, ?_⟩, by simp [Node.freq]⟩
      · rw [ea]; exact ha2.append _
      · rw [eb]; exact hb2.append _
    · obtain ⟨h1, h2, h3⟩ := h.idx t (by simp [ht])
      exact ⟨by simp; omega, h2.append _, by rw [old_get _ h1]; exact h3⟩
  · have := h.syms
    simpa [BTree.syms, List.append_assoc] using this
  · simp only [List.map_cons, List.sum_cons, hf]
    omega
  · simp; omega
  · simp only [List.map_cons, List.nodup_cons]
    refine ⟨fun hx => ?_, hnd'⟩
    obtain ⟨t, ht, e⟩ := List.mem_map.1 hx
    have := hlt t ht
    omega
  · exact h.leaves.trans (List.prefix_append _ _)
  · intro n hn
    rw [old_get n (Nat.lt_of_lt_of_le hn h.leaves.length_le)]
    exact h.areLeaves n hn
  · intro n h1 h2
    simp only [List.length_append, List.length_singleton] at h2
    by_cases hn : n < ns.length
    · obtain ⟨f, l, r, hx, hl, hr, hne, x, y, hxl, hyr, hs⟩ := h.internals n h1 hn
      refine ⟨f, l, r, by rw [old_get n hn]; exact hx, hl, hr, hne, x, y, ?_, ?_, hs⟩
      · rw [old_get _ (by omega)]; exact hxl
      · rw [old_get _ (by omega)]; exact hyr
    · have en : n = ns.length := by omega
      subst en
      obtain ⟨x, hx, hxf⟩ := Option.map_eq_some_iff.1 ha3
      obtain ⟨y, hy, hyf⟩ := Option.map_eq_some_iff.1 hb3
      refine ⟨_, _, _, new_get, by omega, by omega, ?_, x, y, ?_, ?_, ?_⟩
      · intro e
        have := congrArg BitVec.toNat e
        rw [ea, eb] at this
        exact hab this
      · rw [ea, old_get _ ha1]; exact hx
      · rw [eb, old_get _ hb1]; exact hy
      · rw [hf, hxf, hyf]
  · intro t ht p hc
    rw [child_iff] at hc
    rcases List.mem_cons.1 ht with rfl | ht
    · rcases hc with ⟨f, l, r, hx, hc⟩ | ⟨hp, hc⟩
      · obtain ⟨hpl, -⟩ := List.getElem?_eq_some_iff.1 hx
        by_cases hpk : ls.length ≤ p
        · obtain ⟨f', l', r', hx', hl', hr', -⟩ := h.internals p hpk hpl
          rw [hx'] at hx
          simp only [Option.some.injEq, Node.internal.injEq] at hx
          obtain ⟨-, rfl, rfl⟩ := hx
          change l'.toNat = ns.length ∨ r'.toNat = ns.length at hc
          omega
        · obtain ⟨v, f', hx'⟩ := h.areLeaves p (by omega)
          rw [hx'] at hx
          cases hx
      · change a.1.idx = ns.length ∨ b.1.idx = ns.length at hc
        omega
    · have hnp := h.noParent t (by simp [ht]) p
      rcases hc with hc | ⟨-, hc | hc⟩
      · exact hnp hc
      · exact hat (List.mem_map.2 ⟨t, ht, hc.symm⟩)
      · exact hbt (List.mem_map.2 ⟨t, ht, hc.symm⟩)
  · intro n hn hne
    have hnn : n ≠ ns.length := fun e => hne _ (List.mem_cons_self ..) e.symm
    simp only [List.length_append, List.length_singleton] at hn
    by_cases hmem : a.1.idx = n ∨ b.1.idx = n
    · refine ⟨ns.length, (child_iff _ _).2 (.inr ⟨rfl, hmem⟩), fun p' hp' => ?_⟩
      rcases (child_iff _ _).1 hp' with hc | ⟨rfl, -⟩
      · rcases hmem with rfl | rfl
        · exact absurd hc (h.noParent a (by simp) p')
        · exact absurd hc (h.noParent b (by simp) p')
      · rfl
    · obtain ⟨p, hp, hu⟩ := h.parent n (by omega) (by
        intro t ht e
        simp only [List.mem_cons] at ht
        rcases ht with rfl | rfl | ht
        · exact hmem (.inl e)
        · exact hmem (.inr e)
        · exact hne t (by simp [ht]) e)
      refine ⟨p, (child_iff _ _).2 (.inl hp), fun p' hp' => ?_⟩
      rcases (child_iff _ _).1 hp' with hc | ⟨-, hc⟩
      · exact hu p' hc
      · exact absurd hc hmem

end Sys2Proof.Machine
end

