-- ==== Sys2Proof/Laws/Build.lean ====
section
/-! SUPPORT. What BUILD's tree is: its leaves, its node count and root, the tree its nodes represent
(41_tree_builder.md R118 to R121, R127). -/

namespace Sys2Proof.Machine

/-! ## The leaves -/

theorem allBytes_pairwise : allBytes.Pairwise fun u v => u.toNat < v.toNat := by
  unfold allBytes
  rw [List.pairwise_map]
  refine List.Pairwise.imp_of_mem ?_ (List.pairwise_lt_range (n := 256))
  intro a b ha hb h
  rw [List.mem_range] at ha hb
  simp only [BitVec.toNat_ofNat]
  omega

theorem allBytes_length : allBytes.length = 256 := by simp [allBytes]

/-- The byte values with a nonzero count, in ascending order. -/
def nonzeroSyms (hist : Vector Word 256) : List Byte :=
  allBytes.filter fun v => histAt hist v != 0#32

/-- The leaf of a byte value. -/
def leafFor (hist : Vector Word 256) (v : Byte) : Node := .leaf v ((histAt hist v).setWidth 40)

theorem leavesOf_eq (hist : Vector Word 256) : leavesOf hist = (nonzeroSyms hist).map (leafFor hist) := by
  unfold leavesOf nonzeroSyms leafFor
  induction allBytes with
  | nil => rfl
  | cons v vs ih =>
    by_cases h : histAt hist v = 0#32
    · simp [h, ih]
    · simp [h, ih]

theorem nonzeroSyms_length (hist : Vector Word 256) : (nonzeroSyms hist).length = nonzeroCount hist := by
  simp [nonzeroSyms, nonzeroCount, List.countP_eq_length_filter]

@[simp] theorem leavesOf_length (hist : Vector Word 256) : (leavesOf hist).length = nonzeroCount hist := by
  rw [leavesOf_eq, List.length_map, nonzeroSyms_length]

theorem nonzeroCount_le (hist : Vector Word 256) : nonzeroCount hist ≤ 256 := by
  unfold nonzeroCount
  exact allBytes_length ▸ List.countP_le_length

theorem mem_nonzeroSyms {hist : Vector Word 256} {v : Byte} :
    v ∈ nonzeroSyms hist ↔ histAt hist v ≠ 0#32 := by
  simp [nonzeroSyms, mem_allBytes]

theorem nonzeroSyms_pairwise (hist : Vector Word 256) :
    (nonzeroSyms hist).Pairwise fun u v => u.toNat < v.toNat := allBytes_pairwise.filter _

theorem nonzeroSyms_nodup (hist : Vector Word 256) : (nonzeroSyms hist).Nodup :=
  (nonzeroSyms_pairwise hist).imp fun h e => by subst e; omega

theorem leavesOf_sum (hist : Vector Word 256) :
    ((leavesOf hist).map fun x => x.freq.toNat).sum = histSum hist := by
  rw [leavesOf_eq, List.map_map]
  unfold nonzeroSyms histSum
  induction allBytes with
  | nil => rfl
  | cons v vs ih =>
    by_cases h : histAt hist v = 0#32
    · simp [h, ih]
    · have hv := (histAt hist v).isLt
      have e : (histAt hist v).toNat % 2 ^ 40 = (histAt hist v).toNat := Nat.mod_eq_of_lt (by omega)
      simp only [bne_iff_ne, ne_eq, h, not_false_eq_true, List.filter_cons_of_pos, List.map_cons,
        List.sum_cons, Function.comp_apply, ih]
      simp only [leafFor, Node.freq, BitVec.toNat_setWidth, e]

/-- No sum of 256 counts of 32 bits overflows 40 bits (00_scope.md R11). -/
theorem histSum_lt (hist : Vector Word 256) : histSum hist < 2 ^ 40 := by
  have h : ∀ vs : List Byte, (vs.map fun v => (histAt hist v).toNat).sum ≤ vs.length * (2 ^ 32 - 1) := by
    intro vs
    induction vs with
    | nil => simp
    | cons v vs ih =>
      have := (histAt hist v).isLt
      simp only [List.map_cons, List.sum_cons, List.length_cons]
      omega
  have := h allBytes
  rw [allBytes_length] at this
  unfold histSum
  omega

/-! ## The merge loop -/

/-- The symbol of a leaf. -/
def Node.sym : Node → Byte
  | .leaf v _ => v
  | .internal _ _ _ => 0#8

/-- The queue's first entries, each with its one-leaf tree. -/
def leafTrees (n : Nat) : List Node → List (QEntry × BTree)
  | [] => []
  | x :: xs => ({ freq := x.freq, idx := n }, .leaf x.sym) :: leafTrees (n + 1) xs

theorem leafTrees_fst (n : Nat) (ls : List Node) : (leafTrees n ls).map Prod.fst = entriesFrom n ls := by
  induction ls generalizing n with
  | nil => rfl
  | cons x xs ih => simp [leafTrees, entriesFrom, ih]

theorem leafTrees_length (n : Nat) (ls : List Node) : (leafTrees n ls).length = ls.length := by
  induction ls generalizing n with
  | nil => rfl
  | cons x xs ih => simp [leafTrees, ih]

theorem mem_leafTrees {n : Nat} {ls : List Node} {t : QEntry × BTree} (h : t ∈ leafTrees n ls) :
    n ≤ t.1.idx ∧ ∃ x, ls[t.1.idx - n]? = some x ∧ t.1.freq = x.freq ∧ t.2 = .leaf x.sym := by
  induction ls generalizing n with
  | nil => simp [leafTrees] at h
  | cons x xs ih =>
    rcases List.mem_cons.1 h with rfl | h
    · simp
    · obtain ⟨h1, y, h2, h3, h4⟩ := ih h
      refine ⟨by omega, y, ?_, h3, h4⟩
      have e : t.1.idx - n = (t.1.idx - (n + 1)) + 1 := by omega
      rw [e]; simpa using h2

theorem leafTrees_idx (n : Nat) (ls : List Node) :
    (leafTrees n ls).map (fun t => t.1.idx) = List.range' n ls.length := by
  induction ls generalizing n with
  | nil => rfl
  | cons x xs ih => simp [leafTrees, ih, List.range'_succ]

/-- The invariant before the first merge. -/
theorem MergeInv.init (hist : Vector Word 256) :
    MergeInv (leavesOf hist) (leavesOf hist) (leafTrees 0 (leavesOf hist)) := by
  have hleaf : ∀ (n : Nat) (x : Node), (leavesOf hist)[n]? = some x → x = leafFor hist x.sym := by
    intro n x hx
    rw [leavesOf_eq] at hx
    obtain ⟨v, -, rfl⟩ := List.mem_map.1 (List.mem_of_getElem? hx)
    rfl
  have nochild : ∀ p n, ¬ ChildList (leavesOf hist) p n := by
    rintro p n ⟨f, l, r, hx, -⟩
    have := hleaf p _ hx
    simp [leafFor] at this
  constructor
  · intro t ht
    obtain ⟨-, x, h2, h3, h4⟩ := mem_leafTrees ht
    rw [Nat.sub_zero] at h2
    obtain ⟨hl, -⟩ := List.getElem?_eq_some_iff.1 h2
    refine ⟨hl, ?_, by rw [h2, h3]; rfl⟩
    rw [h4]
    exact ⟨x.freq, by rw [h2, hleaf _ _ h2]; rfl⟩
  · rw [leavesOf_eq]
    generalize nonzeroSyms hist = vs
    suffices h : ∀ n, ((leafTrees n (vs.map (leafFor hist))).flatMap fun t => t.2.syms) =
        ((vs.map (leafFor hist)).filterMap Node.leafSym) by
      rw [h]
    induction vs with
    | nil => intro n; rfl
    | cons v vs ih =>
      intro n
      simp only [List.map_cons, leafTrees, List.flatMap_cons, ih]
      rfl
  · have h : ∀ (ls : List Node) n, ((leafTrees n ls).map fun t => t.1.freq.toNat).sum =
        (ls.map fun x => x.freq.toNat).sum := by
      intro ls
      induction ls with
      | nil => intro n; rfl
      | cons x xs ih => intro n; simp [leafTrees, ih]
    exact h _ _
  · rw [leafTrees_length]; omega
  · rw [leafTrees_idx]; exact List.nodup_range'
  · exact List.prefix_refl _
  · intro n hn
    have hx := List.getElem?_eq_getElem hn
    exact ⟨_, _, by rw [hx, hleaf _ _ hx]; rfl⟩
  · intro n h1 h2; omega
  · exact fun t _ p => nochild p _
  · intro n hn h
    exfalso
    have : n ∈ (leafTrees 0 (leavesOf hist)).map (fun t => t.1.idx) := by
      rw [leafTrees_idx, List.mem_range']; exact ⟨n, hn, by omega⟩
    obtain ⟨t, ht, e⟩ := List.mem_map.1 this
    exact h t ht e

/-- The merge loop keeps the invariant and ends with one entry. -/
theorem mergeLoop_inv (tie : TiePolicy) {ls : List Node} (hk : ls.length ≤ 256)
    (hS : (ls.map fun x => x.freq.toNat).sum < 2 ^ 40) (fuel : Nat) {ns : List Node} {q : List QEntry}
    {ts : List (QEntry × BTree)} (hq : q.Perm (ts.map Prod.fst)) (h : MergeInv ls ns ts)
    (hne : ts ≠ []) (hf : ts.length ≤ fuel + 1) :
    ∃ t, MergeInv ls (mergeLoop tie fuel ns q).1 [t] ∧ (mergeLoop tie fuel ns q).2 = [t.1] := by
  induction fuel generalizing ns q ts with
  | zero =>
    match ts, hne, hf with
    | [t], _, _ => exact ⟨t, h, List.perm_singleton.1 hq⟩
  | succ fuel ih =>
    have hqne : q ≠ [] := by
      intro e; subst e
      have := hq.length_eq
      simp only [List.length_nil, List.length_map] at this
      exact hne (List.length_eq_zero_iff.1 this.symm)
    simp only [mergeLoop]
    obtain ⟨⟨a, q1⟩, hx⟩ := Option.isSome_iff_exists.1 (queueExtractMin_isSome tie hqne)
    obtain ⟨ta, ts1, rfl, hp1, hq1⟩ := perm_map_cons ((queueExtractMin_perm hx).trans hq)
    rw [hx]
    by_cases hq1e : q1 = []
    · subst hq1e
      have e1 : ts1 = [] := by
        have := hq1.length_eq
        simp only [List.length_nil, List.length_map] at this
        exact List.length_eq_zero_iff.1 this.symm
      subst e1
      have e2 : queueExtractMin tie [] = none := by cases tie <;> rfl
      simp only [e2]
      refine ⟨ta, h.perm hp1, ?_⟩
      exact List.perm_singleton.1 (hq.trans (hp1.map _))
    · obtain ⟨⟨b, q2⟩, hy⟩ := Option.isSome_iff_exists.1 (queueExtractMin_isSome tie hq1e)
      obtain ⟨tb, ts2, rfl, hp2, hq2⟩ := perm_map_cons ((queueExtractMin_perm hy).trans hq1)
      simp only [hy]
      have h' := h.perm (hp1.trans (hp2.cons ta))
      refine ih ?_ (h'.merge hk hS) (by simp) ?_
      · exact (queueInsert_perm _ _ _).trans (hq2.cons _)
      · have := (hp1.trans (hp2.cons ta)).length_eq
        simp only [List.length_cons] at this hf ⊢
        omega

/-! ## The built tree -/

/-- What BUILD makes of a histogram with `k ≥ 1` nonzero entries: `k` leaves, 2k − 1 nodes, the root
last, and a tree whose symbols are the nonzero entries (41_tree_builder.md R118 to R121). -/
structure Built (hist : Vector Word 256) (t : HuffTree) (T : BTree) : Prop where
  leaves : t.leaves = nonzeroCount hist
  root : t.root = some (2 * nonzeroCount hist - 2)
  inv : MergeInv (leavesOf hist) t.nodes
    [({ freq := t.total, idx := 2 * nonzeroCount hist - 2 }, T)]

/-- With an all-zero histogram the tree is empty (41_tree_builder.md R119). -/
theorem buildTree_empty (tie : TiePolicy) (hist : Vector Word 256) (h : nonzeroCount hist = 0) :
    buildTree tie hist = { nodes := [], leaves := 0, root := none } := by
  have : leavesOf hist = [] := List.length_eq_zero_iff.1 (by rw [leavesOf_length, h])
  simp [buildTree, this]

theorem buildTree_built (tie : TiePolicy) (hist : Vector Word 256) (h : nonzeroCount hist ≠ 0) :
    ∃ T, Built hist (buildTree tie hist) T := by
  have hlen := leavesOf_length hist
  have hinit := MergeInv.init hist
  match hls : leavesOf hist, hlen with
  | [], hlen => exact absurd hlen.symm h
  | [x], hlen =>
    have hb : buildTree tie hist = { nodes := [x], leaves := 1, root := some 0 } := by
      simp [buildTree, hls]
    rw [hls] at hinit
    have hk : nonzeroCount hist = 1 := hlen.symm
    refine ⟨.leaf x.sym, ?_, ?_, ?_⟩
    · rw [hb, hk]
    · rw [hb, hk]
    · rw [hb, hk, hls]; exact hinit
  | x :: y :: zs, hlen =>
    have hb : buildTree tie hist =
        { nodes := (mergeLoop tie (leavesOf hist).length (leavesOf hist)
            (queueInit tie (entriesFrom 0 (leavesOf hist)))).1
          leaves := (leavesOf hist).length
          root := (queueExtractMin tie (mergeLoop tie (leavesOf hist).length (leavesOf hist)
            (queueInit tie (entriesFrom 0 (leavesOf hist)))).2).map fun e => e.1.idx } := by
      simp only [buildTree, hls]
    have hk : (leavesOf hist).length ≤ 256 := by rw [leavesOf_length]; exact nonzeroCount_le hist
    have hS : ((leavesOf hist).map fun x => x.freq.toNat).sum < 2 ^ 40 := by
      rw [leavesOf_sum]; exact histSum_lt hist
    obtain ⟨t, ht, hq⟩ := mergeLoop_inv tie hk hS (leavesOf hist).length
      (q := queueInit tie (entriesFrom 0 (leavesOf hist)))
      (by rw [leafTrees_fst]; exact queueInit_perm tie _) hinit
      (by rw [hls]; simp [leafTrees]) (by rw [leafTrees_length]; omega)
    generalize hR : mergeLoop tie (leavesOf hist).length (leavesOf hist)
      (queueInit tie (entriesFrom 0 (leavesOf hist))) = R at ht hq hb
    rw [hq] at hb
    have hx1 : queueExtractMin tie [t.1] = some (t.1, []) := by
      cases tie
      · simp [queueExtractMin, fifoExtractMin, fifoLeast]
      · rfl
    rw [hx1] at hb
    simp only [Option.map_some] at hb
    have hcount := ht.count
    simp only [List.length_singleton, leavesOf_length] at hcount
    obtain ⟨hi1, -, hi3⟩ := ht.idx t (by simp)
    -- the one entry left is the last node
    have hlast : t.1.idx = 2 * nonzeroCount hist - 2 := by
      by_contra hne
      obtain ⟨p, hp, -⟩ := ht.parent (2 * nonzeroCount hist - 2) (by omega) (by
        intro t' ht' e
        rw [List.mem_singleton] at ht'
        subst ht'
        exact hne e)
      obtain ⟨f, l, r, hx, hc⟩ := hp
      obtain ⟨hpl, -⟩ := List.getElem?_eq_some_iff.1 hx
      by_cases hpk : (leavesOf hist).length ≤ p
      · obtain ⟨f', l', r', hx', hl, hr, -⟩ := ht.internals p hpk hpl
        rw [hx'] at hx
        cases hx
        omega
      · obtain ⟨v, f', hx'⟩ := ht.areLeaves p (by omega)
        rw [hx'] at hx
        cases hx
    have htot : (buildTree tie hist).total = t.1.freq := by
      rw [hb]
      simp [HuffTree.total, hi3]
    refine ⟨t.2, ?_, ?_, ?_⟩
    · rw [hb]; exact leavesOf_length hist
    · rw [hb, ← hlast]
    · have e : ({ freq := (buildTree tie hist).total, idx := 2 * nonzeroCount hist - 2 } : QEntry) = t.1 := by
        rw [htot, ← hlast]
      rw [e]
      rw [hb]
      exact ht

theorem Built.nodes_length {hist : Vector Word 256} {t : HuffTree} {T : BTree} (h : Built hist t T) :
    t.nodes.length + 1 = 2 * nonzeroCount hist := by
  have := h.inv.count
  simpa using this

theorem Built.syms {hist : Vector Word 256} {t : HuffTree} {T : BTree} (h : Built hist t T) :
    T.syms.Perm (nonzeroSyms hist) := by
  have := h.inv.syms
  rw [leavesOf_eq, List.filterMap_map] at this
  simpa [leafFor, Node.leafSym, Function.comp_def] using this

theorem Built.total {hist : Vector Word 256} {t : HuffTree} {T : BTree} (h : Built hist t T) :
    t.total.toNat = histSum hist := by
  have := h.inv.sum
  rw [leavesOf_sum] at this
  simpa using this

end Sys2Proof.Machine
end

