-- ==== Sys2Proof/Laws/Bus.lean ====
section
/-! SUPPORT. The register map, and a host transaction at a register or a buffer, said once. -/

namespace Sys2Proof.Machine

theorem Csr.offset_lt (c : Csr) : c.offset < 0x800 := by
  cases c <;> simp only [Csr.offset] <;> omega

theorem Csr.offset_mod (c : Csr) : c.offset % 4 = 0 := by
  cases c <;> simp only [Csr.offset] <;> omega

/-- Every register answers at its own offset. -/
@[simp] theorem csrAt_offset (c : Csr) : csrAt c.offset = some c := by
  cases c
  case codeW k => revert k; decide +kernel
  case hist v =>
    have all : ∀ v : Fin 256,
        csrAt (Csr.hist (BitVec.ofFin v)).offset = some (Csr.hist (BitVec.ofFin v)) := by
      decide +kernel
    exact all v.toFin
  all_goals decide +kernel

theorem csrAt_some {off : Nat} {c : Csr} (h : csrAt off = some c) : c.offset = off := by
  unfold csrAt at h
  split at h
  · rename_i hc; simp at hc; cases h
    simp [Csr.offset]; omega
  · split at h
    · rename_i hc; simp at hc; cases h
      simp [Csr.offset, Fin.ofNat]; omega
    · simpa using List.find?_some h

theorem csrAddr_toNat (c : Csr) : (BitVec.ofNat 32 c.offset).toNat = c.offset := by
  have := c.offset_lt
  rw [BitVec.toNat_ofNat]
  omega

/-- A 4-byte transaction at a register. -/
theorem serve_csr (s : State) (c : Csr) (k : BusKind) (v : Word) :
    serve { kind := k, addr := BitVec.ofNat 32 c.offset, size := .b4, wdata := v } s =
      if s.busy && !servedWhileBusy k c then (errorAnswer, s)
      else
        match k with
        | .read => (okayAnswer (csrRead s c), s)
        | .write => (okayAnswer 0#32, csrWrite v s c) := by
  have h := c.offset_lt
  unfold serve
  simp only [csrAddr_toNat, BusSize.bytes, Csr.offset_mod, ne_eq, not_true_eq_false, if_false]
  rw [if_pos (by unfold csrSize; omega)]
  cases k <;> simp only [serveCsr, csrAddr_toNat, csrAt_offset]

/-- A served write of a register. -/
theorem busStep_write (s : State) (c : Csr) (v : Word)
    (h : s.busy = false ∨ servedWhileBusy .write c = true) :
    busStep { kind := .write, addr := BitVec.ofNat 32 c.offset, size := .b4, wdata := v } s =
      { csrWrite v s c with answer := some (okayAnswer 0#32) } := by
  unfold busStep
  rw [serve_csr, if_neg (by rcases h with h | h <;> simp [h])]

/-- A served read of a register. -/
theorem busStep_read (s : State) (c : Csr) (v : Word)
    (h : s.busy = false ∨ servedWhileBusy .read c = true) :
    busStep { kind := .read, addr := BitVec.ofNat 32 c.offset, size := .b4, wdata := v } s =
      { s with answer := some (okayAnswer (csrRead s c)) } := by
  unfold busStep
  rw [serve_csr, if_neg (by rcases h with h | h <;> simp [h])]

theorem inBuffers_iff (c : Config) (a n : Nat) :
    inBuffers c a n = true ↔
      (0x40000000 ≤ a ∧ a + n ≤ 0x40000000 + c.inCap)
        ∨ (0x80000000 ≤ a ∧ a + n ≤ 0x80000000 + c.outCap) := by
  unfold inBuffers inBuffer inBase outBase
  rw [Bool.or_eq_true, Bool.and_eq_true, Bool.and_eq_true]
  exact or_congr (and_congr decide_eq_true_iff decide_eq_true_iff)
    (and_congr decide_eq_true_iff decide_eq_true_iff)

/-- Everything a transaction can do: it is refused, or it reads or writes a register, or it reads or
writes bytes of a buffer while the block is idle. -/
theorem serve_cases (t : Transaction) (s : State) :
    serve t s = (errorAnswer, s)
      ∨ (∃ c, csrAt t.addr.toNat = some c ∧ t.size = .b4 ∧ t.kind = .read
          ∧ serve t s = (okayAnswer (csrRead s c), s))
      ∨ (∃ c, csrAt t.addr.toNat = some c ∧ t.size = .b4 ∧ t.kind = .write
          ∧ (s.busy = false ∨ servedWhileBusy .write c = true)
          ∧ serve t s = (okayAnswer 0#32, csrWrite t.wdata s c))
      ∨ (s.busy = false ∧ inBuffers s.cfg t.addr.toNat t.size.bytes = true
          ∧ ((t.kind = .read
              ∧ serve t s =
                  (okayAnswer (leWord (s.mem.read t.addr.toNat t.size.bytes s.draws).1),
                    { s with draws := (s.mem.read t.addr.toNat t.size.bytes s.draws).2 }))
            ∨ (t.kind = .write
              ∧ serve t s =
                  (okayAnswer 0#32,
                    { s with mem := s.mem.store t.addr.toNat (leBytes t.size.bytes t.wdata) })))) := by
  unfold serve
  split
  · exact .inl rfl
  split
  · unfold serveCsr
    split
    · exact .inl rfl
    · exact .inl rfl
    · split
      · exact .inl rfl
      · rename_i c hc
        split
        · exact .inl rfl
        · rename_i hb
          split
          · exact .inr (.inl ⟨c, hc, ‹_›, ‹_›, rfl⟩)
          · rename_i hk
            refine .inr (.inr (.inl ⟨c, hc, ‹_›, hk, ?_, rfl⟩))
            rw [hk] at hb
            cases hbusy : s.busy with
            | false => exact .inl rfl
            | true => right; simpa [hbusy] using hb
  split
  · rename_i hin
    unfold serveBuffer
    split
    · exact .inl rfl
    · rename_i hb
      refine .inr (.inr (.inr ⟨by simpa using hb, hin, ?_⟩))
      split
      · exact .inl ⟨‹_›, rfl⟩
      · exact .inr ⟨‹_›, rfl⟩
  · exact .inl rfl

end Sys2Proof.Machine
end

