-- ==== Sys2Proof/Laws/Codes.lean ====
section
/-! SUPPORT. The node store of a built tree represents it; GENCODES' table holds its paths, and
what UNPACK's walk reads of any bits (42_code_table.md R132, R133; 43_bit_packer.md R148, R152). -/

namespace Sys2Proof.Machine

/-! ## The node store -/

/-- The node store holds the nodes `ns` at the indices from 0 on. -/
def Stores (node : Vector Node 511) (ns : List Node) : Prop :=
  ∀ n, (h : n < ns.length) → node[n]? = some ns[n]

theorem storeNodes_stores (old : Vector Node 511) (ns : List Node) (h : ns.length ≤ 511) :
    Stores (storeNodes old ns) ns := by
  intro n hn
  have : n < 511 := by omega
  simp [storeNodes, hn, this]

theorem Stores.nodeAt {node : Vector Node 511} {ns : List Node} (h : Stores node ns) {n : NodeIdx}
    {x : Node} (hx : ns[n.toNat]? = some x) : nodeAt node n = x := by
  obtain ⟨hl, rfl⟩ := List.getElem?_eq_some_iff.1 hx
  simp [Machine.nodeAt, h _ hl]

theorem Stores.rep {node : Vector Node 511} {ns : List Node} (h : Stores node ns) {T : BTree} {n : NodeIdx}
    (hr : RepList ns T n.toNat) : Rep node T n := by
  induction T generalizing n with
  | leaf v => obtain ⟨f, hf⟩ := hr; exact ⟨f, h.nodeAt hf⟩
  | node l r ihl ihr =>
    obtain ⟨f, a, b, hf, hl, hr⟩ := hr
    exact ⟨f, a, b, h.nodeAt hf, ihl hl, ihr hr⟩

/-! ## GENCODES -/

/-- The codes of a tree: its paths, and the forced "0" for a single leaf (42_code_table.md R134). -/
def BTree.codes : BTree → List (Byte × Bits)
  | .leaf v => [(v, [false])]
  | .node l r => (BTree.node l r).paths

theorem BTree.mem_syms_codes {t : BTree} {v : Byte} : v ∈ t.syms ↔ ∃ p, (v, p) ∈ t.codes := by
  cases t with
  | leaf u => simp [BTree.syms, BTree.codes]
  | node l r => exact BTree.mem_syms

theorem BTree.code_length {t : BTree} {v : Byte} {p : Bits} (h : (v, p) ∈ t.codes) :
    0 < p.length ∧ p.length ≤ max 1 t.depth := by
  cases t with
  | leaf u => simp [BTree.codes] at h; simp [h]
  | node l r =>
    have := BTree.path_length h
    refine ⟨?_, by omega⟩
    simp only [BTree.codes, BTree.paths, List.mem_append, List.mem_map] at h
    rcases h with ⟨⟨u, q⟩, -, he⟩ | ⟨⟨u, q⟩, -, he⟩ <;> obtain ⟨-, rfl⟩ := Prod.mk.inj he <;> simp

theorem BTree.code_unique {t : BTree} (hn : t.syms.Nodup) {v : Byte} {p q : Bits}
    (hp : (v, p) ∈ t.codes) (hq : (v, q) ∈ t.codes) : p = q := by
  cases t with
  | leaf u => simp [BTree.codes] at hp hq; simp [hp, hq]
  | node l r => exact BTree.path_unique hn hp hq

/-- Assign writes each leaf's path below `s`, and no other entry. -/
theorem assign_spec {node : Vector Node 511} {T : BTree} {n : NodeIdx} (hr : Rep node T n)
    (hn : T.syms.Nodup) {fuel : Nat} (hf : T.depth < fuel) (s : Bits) (table : Vector Code 256) :
    (∀ v p, (v, p) ∈ T.paths → codeAt (assign node fuel n s table) v = Code.ofBits (s ++ p))
      ∧ ∀ v, v ∉ T.syms → codeAt (assign node fuel n s table) v = codeAt table v := by
  induction T generalizing n fuel s table with
  | leaf u =>
    obtain ⟨f, hx⟩ := hr
    obtain ⟨fuel, rfl⟩ : ∃ k, fuel = k + 1 := ⟨fuel - 1, by omega⟩
    simp only [assign, hx, codeAt_setCode, BTree.paths, BTree.syms, List.mem_singleton, Prod.mk.injEq]
    refine ⟨?_, fun v hv => if_neg hv⟩
    rintro v p ⟨rfl, rfl⟩
    simp
  | node l r ihl ihr =>
    obtain ⟨f, a, b, hx, hl, hr⟩ := hr
    obtain ⟨fuel, rfl⟩ : ∃ k, fuel = k + 1 := ⟨fuel - 1, by omega⟩
    simp only [BTree.depth] at hf
    simp only [BTree.syms, List.nodup_append] at hn
    obtain ⟨hnl, hnr, hd⟩ := hn
    obtain ⟨l1, l2⟩ := ihl hl hnl (fuel := fuel) (by omega) (s ++ [false]) table
    obtain ⟨r1, r2⟩ := ihr hr hnr (fuel := fuel) (by omega) (s ++ [true])
      (assign node fuel a (s ++ [false]) table)
    simp only [assign, hx, BTree.paths, BTree.syms, List.mem_append, List.mem_map, not_or]
    constructor
    · rintro v p (⟨⟨u, q⟩, hq, he⟩ | ⟨⟨u, q⟩, hq, he⟩) <;> obtain ⟨rfl, rfl⟩ := Prod.mk.inj he
      · have hv : u ∈ l.syms := BTree.mem_syms.2 ⟨q, hq⟩
        rw [r2 u fun h => hd u hv u h rfl, l1 u q hq]
        simp
      · rw [r1 u q hq]
        simp
    · rintro v ⟨hvl, hvr⟩
      rw [r2 v hvr, l2 v hvl]

/-- GENCODES' table of a represented tree: the codes of its symbols, every other entry absent
(42_code_table.md R132, R134). -/
theorem codeTable_spec {node : Vector Node 511} {T : BTree} {r : NodeIdx} (hr : Rep node T r)
    (hn : T.syms.Nodup) {m : Nat} (hm : T.depth < m) :
    (∀ v p, (v, p) ∈ T.codes → codeAt (codeTable node m (some r)) v = Code.ofBits p)
      ∧ ∀ v, v ∉ T.syms → codeAt (codeTable node m (some r)) v = Code.absent := by
  cases T with
  | leaf u =>
    obtain ⟨f, hx⟩ := hr
    simp only [codeTable, hx, codeAt_setCode, BTree.codes, BTree.syms, List.mem_singleton,
      Prod.mk.injEq, codeAt_absent]
    refine ⟨?_, fun v hv => if_neg hv⟩
    rintro v p ⟨rfl, rfl⟩
    rw [if_pos rfl]; rfl
  | node a b =>
    have hx : codeTable node m (some r) = assign node m r [] absentTable := by
      obtain ⟨f, x, y, hx, -, -⟩ := hr
      simp [codeTable, hx]
    rw [hx]
    obtain ⟨h1, h2⟩ := assign_spec hr hn hm [] absentTable
    refine ⟨fun v p hp => by simpa using h1 v p hp, fun v hv => by simpa using h2 v hv⟩

/-! ## The walk -/

theorem childOf_false {node : Vector Node 511} {n : NodeIdx} {f : Freq} {l r : NodeIdx}
    (h : nodeAt node n = .internal f l r) : childOf node n false = l := by simp [childOf, h]

theorem childOf_true {node : Vector Node 511} {n : NodeIdx} {f : Freq} {l r : NodeIdx}
    (h : nodeAt node n = .internal f l r) : childOf node n true = r := by simp [childOf, h]

/-- Following a path from the root of a represented tree reaches its leaf. -/
theorem follow_path {node : Vector Node 511} {T : BTree} {n : NodeIdx} (hr : Rep node T n) {v : Byte}
    {p : Bits} (hp : (v, p) ∈ T.paths) : ∃ f, nodeAt node (follow node n p) = .leaf v f := by
  induction T generalizing n p with
  | leaf u =>
    simp only [BTree.paths, List.mem_singleton, Prod.mk.injEq] at hp
    obtain ⟨rfl, rfl⟩ := hp
    exact hr
  | node l r ihl ihr =>
    obtain ⟨f, a, b, hx, hl, hr⟩ := hr
    simp only [BTree.paths, List.mem_append, List.mem_map] at hp
    rcases hp with ⟨⟨u, q⟩, hq, he⟩ | ⟨⟨u, q⟩, hq, he⟩ <;> obtain ⟨rfl, rfl⟩ := Prod.mk.inj he
    · simp only [follow, childOf_false hx]; exact ihl hl hq
    · simp only [follow, childOf_true hx]; exact ihr hr hq

/-- A proper part of a path ends at an internal node. -/
theorem follow_take {node : Vector Node 511} {T : BTree} {n : NodeIdx} (hr : Rep node T n) {v : Byte}
    {p : Bits} (hp : (v, p) ∈ T.paths) {k : Nat} (hk : k < p.length) :
    ∃ f a b, nodeAt node (follow node n (p.take k)) = .internal f a b := by
  induction T generalizing n p k with
  | leaf u =>
    simp only [BTree.paths, List.mem_singleton, Prod.mk.injEq] at hp
    obtain ⟨rfl, rfl⟩ := hp
    simp at hk
  | node l r ihl ihr =>
    obtain ⟨f, a, b, hx, hl, hr⟩ := hr
    cases k with
    | zero => exact ⟨f, a, b, hx⟩
    | succ k =>
      simp only [BTree.paths, List.mem_append, List.mem_map] at hp
      rcases hp with ⟨⟨u, q⟩, hq, he⟩ | ⟨⟨u, q⟩, hq, he⟩ <;> obtain ⟨rfl, rfl⟩ := Prod.mk.inj he
      · simp only [List.take_succ_cons, follow, childOf_false hx]
        exact ihl hl hq (by simpa using hk)
      · simp only [List.take_succ_cons, follow, childOf_true hx]
        exact ihr hr hq (by simpa using hk)

/-- The walk takes one code apart: at its last bit it emits the symbol and returns to the root, or
raises COUNT_MISMATCH when TOTAL symbols are out already. -/
theorem walkTree_path {node : Vector Node 511} {l r : BTree} {n : NodeIdx} (hr : Rep node (.node l r) n)
    {v : Byte} {p : Bits} (hp : (v, p) ∈ (BTree.node l r).paths) (root : NodeIdx) (total j e : Nat)
    (rest : Bits) :
    walkTree node root total n j e (p ++ rest) =
      if e = total then { out := [], error := some (walkError 5#8 v (j + p.length - 1)) }
      else (walkTree node root total root (j + p.length) (e + 1) rest).emit v := by
  obtain ⟨t, ht⟩ : ∃ t, t = BTree.node l r := ⟨_, rfl⟩
  induction t generalizing l r n p j with
  | leaf u => cases ht
  | node l' r' ihl ihr =>
    obtain ⟨rfl, rfl⟩ := BTree.node.inj ht
    obtain ⟨f, a, b, hx, hl, hr⟩ := hr
    simp only [BTree.paths, List.mem_append, List.mem_map] at hp
    have side : ∀ (t : BTree) (c : NodeIdx) (bit : Bool) (q : Bits), childOf node n bit = c →
        Rep node t c → (v, q) ∈ t.paths →
        (∀ {l r : BTree} {n : NodeIdx}, Rep node (l.node r) n → ∀ {p : Bits},
          (v, p) ∈ (l.node r).paths → ∀ (j : Nat), t = l.node r →
          walkTree node root total n j e (p ++ rest) =
            if e = total then { out := [], error := some (walkError 5#8 v (j + p.length - 1)) }
            else (walkTree node root total root (j + p.length) (e + 1) rest).emit v) →
        walkTree node root total n j e ((bit :: q) ++ rest) =
          if e = total then { out := [], error := some (walkError 5#8 v (j + (bit :: q).length - 1)) }
          else (walkTree node root total root (j + (bit :: q).length) (e + 1) rest).emit v := by
      intro t c bit q hc hrep hq ih
      simp only [List.cons_append, walkTree, hc]
      cases t with
      | leaf u =>
        obtain ⟨g, hg⟩ := hrep
        simp only [BTree.paths, List.mem_singleton, Prod.mk.injEq] at hq
        obtain ⟨rfl, rfl⟩ := hq
        simp [hg]
      | node x y =>
        have hrep' := hrep
        obtain ⟨g, c1, c2, hg, -, -⟩ := hrep'
        simp only [hg]
        rw [ih hrep hq (j + 1) rfl]
        have e1 : j + 1 + q.length = j + (bit :: q).length := by simp; omega
        rw [e1]
    rcases hp with ⟨⟨u, q⟩, hq, he⟩ | ⟨⟨u, q⟩, hq, he⟩ <;> obtain ⟨rfl, rfl⟩ := Prod.mk.inj he
    · exact side _ a false q (childOf_false hx) hl hq fun hr _ hp j ht => ihl hr hp j ht
    · exact side _ b true q (childOf_true hx) hr hq fun hr _ hp j ht => ihr hr hp j ht

/-- The walk of the concatenated codes of a sequence gives the sequence back, when it is TOTAL long
(43_bit_packer.md R152). -/
theorem walk_encode {node : Vector Node 511} {T : BTree} {root : NodeIdx} (hr : Rep node T root)
    (enc : Byte → Bits) (d : List Byte) (hd : ∀ v ∈ d, (v, enc v) ∈ T.codes) :
    walk node root d.length (d.flatMap enc) = { out := d, error := none } := by
  cases T with
  | leaf u =>
    obtain ⟨f, hx⟩ := hr
    simp only [walk, hx]
    have hd' : ∀ v ∈ d, v = u ∧ enc v = [false] := fun v hv => by simpa [BTree.codes] using hd v hv
    suffices h : ∀ (d : List Byte) (j e : Nat), (∀ v ∈ d, v = u ∧ enc v = [false]) →
        walkLeaf u (e + d.length) j e (d.flatMap enc) = { out := d, error := none } by
      simpa using h d 0 0 hd'
    intro d
    induction d with
    | nil => intro j e _; simp [walkLeaf]
    | cons v d ih =>
      intro j e h
      obtain ⟨rfl, hv⟩ := h v (by simp)
      have := ih (j + 1) (e + 1) fun x hx => h x (by simp [hx])
      have e1 : e + 1 + d.length = e + (d.length + 1) := by omega
      rw [e1] at this
      simp [hv, walkLeaf, this, WalkResult.emit]
  | node l r =>
    have hx : walk node root d.length (d.flatMap enc) =
        walkTree node root d.length root 0 0 (d.flatMap enc) := by
      obtain ⟨f, a, b, hx, -, -⟩ := hr
      simp [walk, hx]
    rw [hx]
    suffices h : ∀ (d : List Byte) (j e : Nat), (∀ v ∈ d, (v, enc v) ∈ (l.node r).paths) →
        walkTree node root (e + d.length) root j e (d.flatMap enc) = { out := d, error := none } by
      simpa using h d 0 0 hd
    intro d
    induction d with
    | nil => intro j e _; simp [walkTree]
    | cons v d ih =>
      intro j e h
      have := ih (j + (enc v).length) (e + 1) fun x hx => h x (by simp [hx])
      have e1 : e + 1 + d.length = e + (d.length + 1) := by omega
      rw [e1] at this
      rw [List.flatMap_cons, walkTree_path hr (h v (by simp)), List.length_cons, this]
      simp [WalkResult.emit]

/-! ## What a walk has read -/

/-- A place of the node store represents at most one tree. -/
theorem Rep.unique {node : Vector Node 511} {S T : BTree} {n : NodeIdx} (hs : Rep node S n)
    (ht : Rep node T n) : S = T := by
  induction S generalizing T n with
  | leaf u =>
    obtain ⟨f, hx⟩ := hs
    cases T with
    | leaf v => obtain ⟨g, hy⟩ := ht; rw [hx] at hy; cases hy; rfl
    | node l r => obtain ⟨g, a, b, hy, -⟩ := ht; rw [hx] at hy; cases hy
  | node l r ihl ihr =>
    obtain ⟨f, a, b, hx, hl, hr⟩ := hs
    cases T with
    | leaf v => obtain ⟨g, hy⟩ := ht; rw [hx] at hy; cases hy
    | node l' r' =>
      obtain ⟨g, a', b', hy, hl', hr'⟩ := ht
      rw [hx] at hy
      cases hy
      rw [ihl hl hl', ihr hr hr']

/-- Any bits start with a whole path of the tree, or are a proper part of one. -/
theorem BTree.split_path (t : BTree) (bs : Bits) :
    (∃ v p rest, (v, p) ∈ t.paths ∧ bs = p ++ rest)
      ∨ ∃ v more, more ≠ [] ∧ (v, bs ++ more) ∈ t.paths := by
  induction t generalizing bs with
  | leaf u => exact .inl ⟨u, [], bs, by simp [BTree.paths], rfl⟩
  | node l r ihl ihr =>
    cases bs with
    | nil =>
      obtain ⟨v, hv⟩ := List.exists_mem_of_length_pos (BTree.node l r).syms_pos
      obtain ⟨p, hp⟩ := BTree.mem_syms.1 hv
      exact .inr ⟨v, p, List.length_pos_iff.1 (BTree.code_length (t := .node l r) hp).1, hp⟩
    | cons b bs =>
      simp only [BTree.paths, List.mem_append, List.mem_map]
      cases b with
      | false =>
        rcases ihl bs with ⟨v, p, rest, hp, rfl⟩ | ⟨v, more, hm, hp⟩
        · exact .inl ⟨v, false :: p, rest, .inl ⟨(v, p), hp, rfl⟩, rfl⟩
        · exact .inr ⟨v, more, hm, .inl ⟨(v, bs ++ more), hp, rfl⟩⟩
      | true =>
        rcases ihr bs with ⟨v, p, rest, hp, rfl⟩ | ⟨v, more, hm, hp⟩
        · exact .inl ⟨v, true :: p, rest, .inr ⟨(v, p), hp, rfl⟩, rfl⟩
        · exact .inr ⟨v, more, hm, .inr ⟨(v, bs ++ more), hp, rfl⟩⟩

/-- A walk whose bits end inside a code emits nothing more and raises TRUNCATED_CODE. -/
theorem walkTree_truncated {node : Vector Node 511} {root : NodeIdx} {T : BTree} (hT : Rep node T root)
    (total : Nat) (bs : Bits) {l r : BTree} {pos : NodeIdx} (hr : Rep node (.node l r) pos)
    (hsize : (BTree.node l r).syms.length ≤ T.syms.length) {v : Byte} {more : Bits} (hm : more ≠ [])
    (hp : (v, bs ++ more) ∈ (BTree.node l r).paths) (hpos : bs = [] → pos ≠ root) (j e : Nat) :
    walkTree node root total pos j e bs =
      { out := [], error := some (walkError 4#8 0#8 (j + bs.length)) } := by
  induction bs generalizing l r pos j with
  | nil => rw [walkTree, if_pos (hpos rfl)]; rfl
  | cons b bs ih =>
    obtain ⟨f, a, c, hx, hl, hc⟩ := hr
    have lpos := l.syms_pos
    have rpos := r.syms_pos
    rw [BTree.syms, List.length_append] at hsize
    have side : ∀ t : BTree, Rep node t (childOf node pos b) → t.syms.length < T.syms.length →
        (v, bs ++ more) ∈ t.paths →
        walkTree node root total pos j e (b :: bs) =
          { out := [], error := some (walkError 4#8 0#8 (j + (b :: bs).length)) } := by
      intro t ht hlt hp
      cases t with
      | leaf u => simp [BTree.paths, hm] at hp
      | node x y =>
        have hne : childOf node pos b ≠ root := by
          intro h
          rw [h] at ht
          rw [ht.unique hT] at hlt
          omega
        obtain ⟨g, c1, c2, hg, -, -⟩ := id ht
        simp only [walkTree, hg]
        rw [ih ht (by omega) hp (fun _ => hne), List.length_cons]
        congr 3; omega
    simp only [BTree.paths, List.cons_append, List.mem_append, List.mem_map] at hp
    rcases hp with ⟨⟨u, q⟩, hq, he⟩ | ⟨⟨u, q⟩, hq, he⟩ <;>
      simp only [Prod.mk.injEq, List.cons.injEq] at he <;> obtain ⟨rfl, rfl, rfl⟩ := he
    · exact side l (by rw [childOf_false hx]; exact hl) (by omega) hq
    · exact side r (by rw [childOf_true hx]; exact hc) (by omega) hq

/-- What a walk with `j` bits and `e` symbols behind it has read of `bs`: the codes of the symbols it
emitted, and then nothing, a part of a code, a symbol too many, or a bit no code starts with
(43_bit_packer.md R148). -/
inductive WalkReads (T : BTree) (enc : Byte → Bits) (total j e : Nat) (bs : Bits) : WalkResult → Prop
  | done (out : List Byte) : (∀ v ∈ out, v ∈ T.syms) → bs = out.flatMap enc → e + out.length = total →
      WalkReads T enc total j e bs ⟨out, none⟩
  | truncated (out : List Byte) (rest : Bits) (v : Byte) (more : Bits) : (∀ v ∈ out, v ∈ T.syms) →
      bs = out.flatMap enc ++ rest → v ∈ T.syms → enc v = rest ++ more → rest ≠ [] → more ≠ [] →
      WalkReads T enc total j e bs ⟨out, some (walkError 4#8 0#8 (j + bs.length))⟩
  | tooFew (out : List Byte) : (∀ v ∈ out, v ∈ T.syms) → bs = out.flatMap enc → e + out.length ≠ total →
      WalkReads T enc total j e bs ⟨out, some (walkError 5#8 0#8 (j + bs.length))⟩
  | tooMany (out : List Byte) (v : Byte) (more : Bits) : (∀ v ∈ out, v ∈ T.syms) → v ∈ T.syms →
      bs = out.flatMap enc ++ (enc v ++ more) → e + out.length = total →
      WalkReads T enc total j e bs
        ⟨out, some (walkError 5#8 v (j + (out.flatMap enc).length + (enc v).length - 1))⟩
  | badBit (out : List Byte) (v : Byte) (more : Bits) : T = .leaf v → (∀ v ∈ out, v ∈ T.syms) →
      bs = out.flatMap enc ++ true :: more →
      WalkReads T enc total j e bs ⟨out, some (walkError 6#8 v (j + (out.flatMap enc).length))⟩

/-- One more symbol read in front. -/
theorem WalkReads.emit {T : BTree} {enc : Byte → Bits} {total j e p : Nat} {bs : Bits}
    {w : WalkResult} (h : WalkReads T enc total (j + p) (e + 1) bs w) {v : Byte} (hv : v ∈ T.syms)
    (hp : (enc v).length = p) : WalkReads T enc total j e (enc v ++ bs) (w.emit v) := by
  have mem : ∀ {out : List Byte}, (∀ u ∈ out, u ∈ T.syms) → ∀ u ∈ v :: out, u ∈ T.syms := by
    intro out ho u hu
    rcases List.mem_cons.1 hu with rfl | hu
    · exact hv
    · exact ho u hu
  have app : ∀ (out : List Byte) (rest : Bits),
      enc v ++ (out.flatMap enc ++ rest) = (v :: out).flatMap enc ++ rest := by simp
  subst hp
  cases h with
  | done out ho hb hl =>
    exact .done (v :: out) (mem ho) (by rw [hb]; simp) (by rw [List.length_cons]; omega)
  | truncated out rest u more ho hb hu hm h1 h2 =>
    have := WalkReads.truncated (T := T) (enc := enc) (total := total) (j := j) (e := e)
      (bs := enc v ++ bs) (v :: out) rest u more (mem ho) (by rw [hb, app]) hu hm h1 h2
    rwa [List.length_append, ← Nat.add_assoc] at this
  | tooFew out ho hb hl =>
    have := WalkReads.tooFew (T := T) (enc := enc) (total := total) (j := j) (e := e)
      (bs := enc v ++ bs) (v :: out) (mem ho) (by rw [hb]; simp) (by rw [List.length_cons]; omega)
    rwa [List.length_append, ← Nat.add_assoc] at this
  | tooMany out u more ho hu hb hl =>
    have := WalkReads.tooMany (T := T) (enc := enc) (total := total) (j := j) (e := e)
      (bs := enc v ++ bs) (v :: out) u more (mem ho) hu (by rw [hb, app]) (by rw [List.length_cons]; omega)
    rwa [List.flatMap_cons, List.length_append, ← Nat.add_assoc] at this
  | badBit out u more ht ho hb =>
    have := WalkReads.badBit (T := T) (enc := enc) (total := total) (j := j) (e := e)
      (bs := enc v ++ bs) (v :: out) u more ht (mem ho) (by rw [hb, app])
    rwa [List.flatMap_cons, List.length_append, ← Nat.add_assoc] at this

theorem walkLeaf_reads {enc : Byte → Bits} {u : Byte} (hu : enc u = [false]) (total : Nat) (bs : Bits)
    (j e : Nat) : WalkReads (.leaf u) enc total j e bs (walkLeaf u total j e bs) := by
  have hm : u ∈ (BTree.leaf u).syms := by simp [BTree.syms]
  induction bs generalizing j e with
  | nil =>
    simp only [walkLeaf]
    split
    · exact .done [] (by simp) rfl ‹_›
    · exact .tooFew [] (by simp) rfl ‹_›
  | cons b bs ih =>
    simp only [walkLeaf]
    cases b with
    | true => exact .badBit [] u bs rfl (by simp) rfl
    | false =>
      rw [if_neg (by simp)]
      split
      · have := WalkReads.tooMany (T := .leaf u) (enc := enc) (total := total) (j := j) (e := e)
          (bs := false :: bs) [] u bs (by simp) hm (by rw [hu]; rfl) ‹_›
        rwa [hu] at this
      · have := (ih (j + 1) (e + 1)).emit hm (by rw [hu]; rfl)
        rwa [hu] at this

theorem walkTree_reads {node : Vector Node 511} {root : NodeIdx} {l r : BTree}
    (hr : Rep node (.node l r) root) (hn : (BTree.node l r).syms.Nodup) {enc : Byte → Bits}
    (henc : ∀ v ∈ (BTree.node l r).syms, (v, enc v) ∈ (BTree.node l r).paths) (total : Nat)
    (bs : Bits) (j e : Nat) :
    WalkReads (.node l r) enc total j e bs (walkTree node root total root j e bs) := by
  obtain ⟨n, hlen⟩ : ∃ n, bs.length = n := ⟨_, rfl⟩
  induction n using Nat.strongRecOn generalizing bs j e with
  | ind n ih =>
    have code : ∀ {v p}, (v, p) ∈ (BTree.node l r).paths → v ∈ (BTree.node l r).syms ∧ p = enc v :=
      fun hp => ⟨BTree.mem_syms.2 ⟨_, hp⟩, BTree.path_unique hn hp (henc _ (BTree.mem_syms.2 ⟨_, hp⟩))⟩
    rcases (BTree.node l r).split_path bs with ⟨v, p, rest, hp, rfl⟩ | ⟨v, more, hm, hp⟩
    · obtain ⟨hv, rfl⟩ := code hp
      have hpos := (BTree.code_length (t := .node l r) hp).1
      rw [walkTree_path hr hp]
      split
      · have := WalkReads.tooMany (T := .node l r) (enc := enc) (total := total) (j := j) (e := e)
          (bs := enc v ++ rest) [] v rest (by simp) hv (by simp) ‹_›
        simpa using this
      · exact (ih rest.length (by rw [← hlen, List.length_append]; omega) rest _ _ rfl).emit hv rfl
    · by_cases hb : bs = []
      · subst hb
        rw [walkTree, if_neg (by simp)]
        split
        · exact .done [] (by simp) rfl ‹_›
        · exact .tooFew [] (by simp) rfl ‹_›
      · obtain ⟨hv, he⟩ := code hp
        rw [walkTree_truncated hr total bs hr (Nat.le_refl _) hm hp (fun h => absurd h hb)]
        exact .truncated [] bs v more (by simp) rfl hv he.symm hb hm

/-- What UNPACK's walk of a represented tree reads (43_bit_packer.md R148). -/
theorem walk_reads {node : Vector Node 511} {T : BTree} {root : NodeIdx} (hr : Rep node T root)
    (hn : T.syms.Nodup) {enc : Byte → Bits} (henc : ∀ v ∈ T.syms, (v, enc v) ∈ T.codes) (total : Nat)
    (bs : Bits) : WalkReads T enc total 0 0 bs (walk node root total bs) := by
  cases T with
  | leaf u =>
    obtain ⟨f, hx⟩ := hr
    simp only [walk, hx]
    exact walkLeaf_reads (by simpa [BTree.codes] using henc u (by simp [BTree.syms])) total bs 0 0
  | node l r =>
    obtain ⟨f, a, b, hx, -, -⟩ := id hr
    simp only [walk, hx]
    exact walkTree_reads hr hn henc total bs 0 0

end Sys2Proof.Machine
end

