-- ==== Sys2Proof/Laws/Counter.lean ====
section
/-! SUPPORT. The histogram of a byte sequence (40_frequency_counter.md R113, R114). -/

namespace Sys2Proof.Machine

theorem countBytes_toNat {bs : List Byte} (h : bs.length < 2 ^ 32) (v : Byte) :
    (histAt (countBytes bs) v).toNat = bs.count v := by
  have := List.count_le_length (a := v) (l := bs)
  rw [histAt_countBytes, BitVec.toNat_ofNat]
  omega

theorem countBytes_eq_zero {bs : List Byte} (h : bs.length < 2 ^ 32) (v : Byte) :
    histAt (countBytes bs) v = 0#32 ↔ v ∉ bs := by
  rw [← List.count_eq_zero, ← countBytes_toNat h, ← BitVec.toNat_inj]
  rfl

theorem nodup_allBytes : allBytes.Nodup :=
  allBytes_pairwise.imp fun {u v} h e => by subst e; exact absurd h (Nat.lt_irrefl _)

theorem sum_indicator (l : List Byte) (b : Byte) :
    (l.map fun v => if v = b then 1 else 0).sum = l.count b := by
  induction l with
  | nil => rfl
  | cons x l ih =>
    rw [List.map_cons, List.sum_cons, ih, List.count_cons, Nat.add_comm]
    congr 1
    by_cases h : x = b
    · rw [if_pos h, if_pos (beq_iff_eq.2 h)]
    · rw [if_neg h, if_neg fun e => h (beq_iff_eq.1 e)]

theorem sum_count (l : List Byte) (hn : l.Nodup) (hm : ∀ v, v ∈ l) (bs : List Byte) :
    (l.map fun v => bs.count v).sum = bs.length := by
  induction bs with
  | nil =>
    rw [show (fun v : Byte => List.count v []) = fun _ => 0 from funext fun _ => List.count_nil]
    simp
  | cons b bs ih =>
    have e : (fun v => (b :: bs).count v) = fun v => bs.count v + if v = b then 1 else 0 := by
      funext v
      rw [List.count_cons]
      congr 1
      by_cases h : v = b
      · rw [if_pos h, if_pos (beq_iff_eq.2 h.symm)]
      · rw [if_neg h, if_neg fun e => h (beq_iff_eq.1 e).symm]
    rw [e, List.sum_map_add, ih, sum_indicator, List.count_eq_one_of_mem hn (hm b), List.length_cons]

/-- Every byte of a sequence is counted once. -/
theorem sum_count_allBytes (bs : List Byte) : (allBytes.map fun v => bs.count v).sum = bs.length :=
  sum_count allBytes nodup_allBytes mem_allBytes bs

/-- The counters of a sequence sum to its length (40_frequency_counter.md R114). -/
theorem histSum_countBytes {bs : List Byte} (h : bs.length < 2 ^ 32) :
    histSum (countBytes bs) = bs.length := by
  refine Eq.trans ?_ (sum_count_allBytes bs)
  unfold histSum
  exact congrArg List.sum (List.map_congr_left fun v _ => countBytes_toNat h v)

/-- One kind of byte: every byte is that one. -/
theorem nonzeroCount_countBytes_eq_zero {bs : List Byte} (h : bs.length < 2 ^ 32) :
    (∀ v, histAt (countBytes bs) v = 0#32) ↔ bs = [] := by
  constructor
  · intro hz
    cases bs with
    | nil => rfl
    | cons b bs => exact absurd (by simp) ((countBytes_eq_zero h b).1 (hz b))
  · rintro rfl v
    exact (countBytes_eq_zero h v).2 (by simp)

end Sys2Proof.Machine
end

