-- ==== Sys2Proof/Laws/Decode.lean ====
section
/-! SUPPORT. The opcode map and the encoder (30_encoding.md R92, R93). -/

namespace Sys2Proof

/-- The opcodes 30_encoding.md R93 reserves. -/
abbrev ReservedOpcode (op : Nat) : Prop :=
  (0x02 ≤ op ∧ op ≤ 0x0F) ∨ (0x15 ≤ op ∧ op ≤ 0x1F) ∨ (0x22 ≤ op ∧ op ≤ 0x2F) ∨ 0x32 ≤ op

/-- An opcode is reserved and maps to nothing, or is not and maps to the command that has it. -/
theorem opcodeMap_cases (op : Byte) :
    (opcodeMap op = none ∧ ReservedOpcode op.toNat)
      ∨ ∃ i, opcodeMap op = some i ∧ i.opcode = op ∧ ¬ ReservedOpcode op.toNat := by
  have all : ∀ n : Fin 256,
      (opcodeMap (BitVec.ofFin n) = none ∧ ReservedOpcode n.val)
        ∨ ((opcodeMap (BitVec.ofFin n)).map Instr.opcode = some (BitVec.ofFin n)
          ∧ ¬ ReservedOpcode n.val) := by decide +kernel
  rcases all op.toFin with h | ⟨h, h'⟩
  · exact .inl h
  · obtain ⟨i, h1, h2⟩ := Option.map_eq_some_iff.1 h
    exact .inr ⟨i, h1, h2, h'⟩

@[simp] theorem opcodeMap_opcode (i : Instr) : opcodeMap i.opcode = some i := by cases i <;> rfl

theorem opcodeField_toNat (w : Word) : (opcodeField w).toNat = w.toNat % 2 ^ 8 := by
  simp [opcodeField]

theorem reservedField_eq_zero (w : Word) : reservedField w = 0#24 ↔ w.toNat < 2 ^ 8 := by
  unfold reservedField
  constructor <;> intro h
  · have := congrArg BitVec.toNat h
    simp [Nat.shiftRight_eq_div_pow] at this
    have := w.isLt
    omega
  · apply BitVec.eq_of_toNat_eq
    simp [Nat.shiftRight_eq_div_pow]
    omega

/-- A word is the encoding of `i` exactly when its opcode is that of `i` and RSVD is 0. -/
theorem eq_encode_iff (w : Word) (i : Instr) :
    w = encode i ↔ opcodeField w = i.opcode ∧ reservedField w = 0#24 := by
  constructor
  · rintro rfl; cases i <;> decide
  · rintro ⟨h1, h2⟩
    rw [reservedField_eq_zero] at h2
    have h1 := congrArg BitVec.toNat h1
    rw [opcodeField_toNat] at h1
    apply BitVec.eq_of_toNat_eq
    rw [encode, BitVec.toNat_append]
    simp only [BitVec.toNat_ofNat, Nat.zero_mod, Nat.zero_shiftLeft, Nat.zero_or]
    omega

end Sys2Proof
end

