-- ==== Sys2Proof/Laws/Exec.lean ====
section
/-! SUPPORT. What the meaning of each command can do, said once: `exec` is the completion step of a
body, and each body is one of a few named outcomes. -/

namespace Sys2Proof.Machine

/-- The body of each command. -/
def bodyOf : Instr → State → BodyResult
  | .nop => nopBody
  | .clear => clearBody
  | .count => countBody
  | .build => buildBody
  | .gencodes => gencodesBody
  | .pack => packBody
  | .serialize => serializeBody
  | .deserialize => deserializeBody
  | .unpack => unpackBody
  | .compress => compressBody
  | .decompress => decompressBody

/-- Every command answers a next state: its body followed by the completion step. -/
theorem exec_eq (i : Instr) (s : State) : exec i s = .next (complete i (bodyOf i s)) := by
  cases i <;> rfl

theorem exec_next {i : Instr} {s t : State} (h : exec i s = .next t) : t = complete i (bodyOf i s) := by
  rw [exec_eq] at h
  exact (Host.Outcome.next.inj h).symm

/-! ## The completion step -/

theorem complete_ok (i : Instr) (s : State) :
    complete i (.ok s) = { s with err := 0#4, busy := false, done := true } := rfl

theorem complete_raised (i : Instr) (r : Raised) (s : State) :
    complete i (.raised r s) =
      { s with
        err := r.err.code, errSub := r.sub, errSym := r.sym, errStage := r.stage, errArg := r.arg
        outLen := if clearsOutLenOnFailure i then 0#32 else s.outLen
        busy := false, done := true } := by
  cases i <;> rfl

theorem ErrCode.code_ne_zero (e : ErrCode) : e.code ≠ 0#4 := by cases e <;> decide

/-- A completion is a success exactly when its body ran to its end. -/
theorem complete_err_zero {i : Instr} {r : BodyResult} (h : (complete i r).err = 0#4) :
    ∃ s, r = .ok s := by
  cases r with
  | ok s => exact ⟨s, rfl⟩
  | raised e s => rw [complete_raised] at h; exact absurd h (ErrCode.code_ne_zero _)

theorem complete_err_ne_zero {i : Instr} {r : BodyResult} (h : (complete i r).err ≠ 0#4) :
    ∃ e s, r = .raised e s := by
  cases r with
  | ok s => exact absurd rfl h
  | raised e s => exact ⟨e, s, rfl⟩

theorem exec_ok {i : Instr} {s t : State} (h : exec i s = .next t) (he : t.err = 0#4) :
    ∃ b, bodyOf i s = .ok b ∧ t = { b with err := 0#4, busy := false, done := true } := by
  have e := exec_next h
  subst e
  obtain ⟨b, hb⟩ := complete_err_zero he
  exact ⟨b, hb, by rw [hb, complete_ok]⟩

/-- A command whose body runs to its end. -/
theorem exec_of_ok {i : Instr} {s b : State} (h : bodyOf i s = .ok b) :
    exec i s = .next { b with err := 0#4, busy := false, done := true } := by
  rw [exec_eq, h, complete_ok]

/-- A command whose body raises. -/
theorem exec_of_raised {i : Instr} {s b : State} {r : Raised} (h : bodyOf i s = .raised r b) :
    exec i s = .next
      { b with
        err := r.err.code, errSub := r.sub, errSym := r.sym, errStage := r.stage, errArg := r.arg
        outLen := if clearsOutLenOnFailure i then 0#32 else b.outLen
        busy := false, done := true } := by
  rw [exec_eq, h, complete_raised]

@[simp] theorem BodyResult.ok_andThen (s : State) (f : State → BodyResult) :
    (BodyResult.ok s).andThen f = f s := rfl

@[simp] theorem BodyResult.raised_andThen (e : Raised) (s : State) (f : State → BodyResult) :
    (BodyResult.raised e s).andThen f = .raised e s := rfl

theorem BodyResult.andThen_ok {r : BodyResult} {f : State → BodyResult} {t : State}
    (h : r.andThen f = .ok t) : ∃ s, r = .ok s ∧ f s = .ok t := by
  cases r with
  | ok s => exact ⟨s, rfl, h⟩
  | raised e s => cases h

theorem BodyResult.andThen_raised {r : BodyResult} {f : State → BodyResult} {e : Raised} {t : State}
    (h : r.andThen f = .raised e t) :
    r = .raised e t ∨ ∃ s, r = .ok s ∧ f s = .raised e t := by
  cases r with
  | ok s => exact .inr ⟨s, rfl, h⟩
  | raised e' s => exact .inl h

/-! ## Reads -/

theorem readInput_eq (s : State) : readInput s = (inputOf s, { s with draws := (readInput s).2.draws }) :=
  rfl

theorem readPayload_eq (s : State) :
    readPayload s = (payloadOf s, { s with draws := (readPayload s).2.draws }) := rfl

theorem inputOf_length (s : State) : (inputOf s).length = s.inLen.toNat := Memory.read_length _ _ _ _

theorem payloadOf_length (s : State) : (payloadOf s).length = s.plen.toNat := Memory.read_length _ _ _ _

theorem inputOf_of_holds {s : State} {d : List Byte} (h : Holds s.mem inBase d)
    (hl : d.length = s.inLen.toNat) : inputOf s = d := by
  have := Memory.read_of_holds h s.draws
  rw [hl] at this
  simp [inputOf, readInput, this]

theorem payloadOf_of_holds {s : State} {d : List Byte} (h : Holds s.pbuf 0 d)
    (hl : d.length = s.plen.toNat) : payloadOf s = d := by
  have := Memory.read_of_holds h s.draws
  rw [hl] at this
  simp [payloadOf, readPayload, this]

/-! ## The bodies -/

theorem countBody_over {s : State} (h : s.cfg.inCap < s.inLen.toNat) :
    countBody s = .raised (inLenOver 0x10#8 s) s := by simp [countBody, h, Instr.opcode]

theorem countBody_ok {s : State} (h : s.inLen.toNat ≤ s.cfg.inCap) :
    countBody s =
      .ok (invalidateTree
        { s with draws := (readInput s).2.draws, hist := countBytes (inputOf s) }) := by
  simp only [countBody, if_neg (show ¬ s.cfg.inCap < s.inLen.toNat by omega)]
  rfl

theorem countBody_cases {s t : State} (h : countBody s = .ok t) :
    s.inLen.toNat ≤ s.cfg.inCap
      ∧ t = invalidateTree
          { s with draws := (readInput s).2.draws, hist := countBytes (inputOf s) } := by
  by_cases hc : s.cfg.inCap < s.inLen.toNat
  · rw [countBody_over hc] at h; cases h
  · have hc' : s.inLen.toNat ≤ s.cfg.inCap := by omega
    rw [countBody_ok hc'] at h
    exact ⟨hc', (BodyResult.ok.inj h).symm⟩

theorem gencodesBody_invalid {s : State} (h : s.treeValid = false) :
    gencodesBody s = .raised (treeInvalid 0x12#8) s := by simp [gencodesBody, h, Instr.opcode]

theorem gencodesBody_reject {s : State} {sym : Byte} (h : s.treeValid = true)
    (hs : singleLeafSym s = some sym) (hd : s.latchedDegen = true) :
    gencodesBody s = .raised (singleSymbol sym s.total) (invalidateCodes s) := by
  simp [gencodesBody, h, hs, hd]

theorem gencodesBody_ok {s : State} (h : s.treeValid = true)
    (hs : singleLeafSym s = none ∨ s.latchedDegen = false) :
    gencodesBody s = .ok (setCodes (codeTable s.node s.nnodes.toNat s.root) s) := by
  unfold gencodesBody
  rw [if_neg (by simp [h])]
  cases hx : singleLeafSym s with
  | none => rfl
  | some sym => simp [hs.resolve_left (by simp [hx])]

theorem gencodesBody_cases {s t : State} (h : gencodesBody s = .ok t) :
    s.treeValid = true ∧ (singleLeafSym s = none ∨ s.latchedDegen = false)
      ∧ t = setCodes (codeTable s.node s.nnodes.toNat s.root) s := by
  cases hv : s.treeValid with
  | false => rw [gencodesBody_invalid hv] at h; cases h
  | true =>
    cases hs : singleLeafSym s with
    | none =>
      rw [gencodesBody_ok hv (.inl hs)] at h
      exact ⟨rfl, .inl rfl, (BodyResult.ok.inj h).symm⟩
    | some sym =>
      cases hd : s.latchedDegen with
      | true => rw [gencodesBody_reject hv hs hd] at h; cases h
      | false =>
        rw [gencodesBody_ok hv (.inr hd)] at h
        exact ⟨rfl, .inr rfl, (BodyResult.ok.inj h).symm⟩

/-- PACK after its checks: the loop over the input decides. -/
theorem packBody_run {s : State} (hc : s.codesValid = true) (hl : s.inLen.toNat ≤ s.cfg.inCap) :
    packBody s =
      match packLoop s.code s.cfg.pbufCap 0 [] (inputOf s) with
      | .bits bits =>
        .ok (setPayload (packBits bits) (BitVec.ofNat 3 (padCount bits.length)) (readInput s).2)
      | .absent b i => .raised (absentCode b i) (invalidatePayload (readInput s).2)
      | .over b i => .raised (packOver b i) (invalidatePayload (readInput s).2) := by
  unfold packBody
  rw [if_neg (by simp [hc]), if_neg (by omega)]
  rfl

theorem packBody_cases {s t : State} (h : packBody s = .ok t) :
    s.codesValid = true ∧ s.inLen.toNat ≤ s.cfg.inCap
      ∧ ∃ bits, packLoop s.code s.cfg.pbufCap 0 [] (inputOf s) = .bits bits
        ∧ t = setPayload (packBits bits) (BitVec.ofNat 3 (padCount bits.length)) (readInput s).2 := by
  by_cases hc : s.codesValid = true
  · by_cases hl : s.inLen.toNat ≤ s.cfg.inCap
    · rw [packBody_run hc hl] at h
      refine ⟨hc, hl, ?_⟩
      split at h
      · exact ⟨_, ‹_›, (BodyResult.ok.inj h).symm⟩
      · cases h
      · cases h
    · unfold packBody at h
      rw [if_neg (by simp [hc]), if_pos (by omega)] at h
      cases h
  · unfold packBody at h
    rw [if_pos (by simpa using hc)] at h
    cases h

/-- SERIALIZE after its checks. -/
theorem serializeBody_ok {s : State} (hv : s.payloadValid = true)
    (hl : 1025 + s.plen.toNat ≤ s.cfg.outCap) :
    serializeBody s =
      .ok { s with
            draws := (readPayload s).2.draws
            mem := s.mem.store outBase (containerBytes s.hist (payloadOf s) s.pad)
            outLen := BitVec.ofNat 32 (1025 + s.plen.toNat) } := by
  unfold serializeBody
  rw [if_neg (by simp [hv]), if_neg (by omega)]
  rfl

theorem serializeBody_cases {s t : State} (h : serializeBody s = .ok t) :
    s.payloadValid = true ∧ 1025 + s.plen.toNat ≤ s.cfg.outCap
      ∧ t = { s with
              draws := (readPayload s).2.draws
              mem := s.mem.store outBase (containerBytes s.hist (payloadOf s) s.pad)
              outLen := BitVec.ofNat 32 (1025 + s.plen.toNat) } := by
  by_cases hv : s.payloadValid = true
  · by_cases hl : 1025 + s.plen.toNat ≤ s.cfg.outCap
    · rw [serializeBody_ok hv hl] at h
      exact ⟨hv, hl, (BodyResult.ok.inj h).symm⟩
    · unfold serializeBody at h
      rw [if_neg (by simp [hv]), if_pos (by omega)] at h
      cases h
  · unfold serializeBody at h
    rw [if_pos (by simpa using hv)] at h
    cases h

/-- DESERIALIZE after its checks. -/
theorem deserializeBody_ok {s : State} (h1 : s.inLen.toNat ≤ s.cfg.inCap) (h2 : 1025 ≤ s.inLen.toNat)
    (h3 : (parsePad (inputOf s)).toNat ≤ 7)
    (h4 : (parsePad (inputOf s)).toNat ≤ 8 * (s.inLen.toNat - 1025))
    (h5 : s.inLen.toNat - 1025 ≤ s.cfg.pbufCap) :
    deserializeBody s =
      .ok (invalidateTree
        (setPayload (parsePayload (inputOf s)) ((parsePad (inputOf s)).setWidth 3)
          { s with draws := (readInput s).2.draws, hist := parseHist (inputOf s) })) := by
  unfold deserializeBody
  change (if _ then _ else if _ then _ else
    if 7 < (parsePad (inputOf s)).toNat then _
    else if 8 * (s.inLen.toNat - 1025) < (parsePad (inputOf s)).toNat then _ else _) = _
  rw [if_neg (by omega), if_neg (by omega), if_neg (by omega), if_neg (by omega), if_neg (by omega)]
  rfl

theorem deserializeBody_cases {s t : State} (h : deserializeBody s = .ok t) :
    s.inLen.toNat ≤ s.cfg.inCap ∧ 1025 ≤ s.inLen.toNat ∧ (parsePad (inputOf s)).toNat ≤ 7
      ∧ (parsePad (inputOf s)).toNat ≤ 8 * (s.inLen.toNat - 1025)
      ∧ s.inLen.toNat - 1025 ≤ s.cfg.pbufCap
      ∧ t = invalidateTree
          (setPayload (parsePayload (inputOf s)) ((parsePad (inputOf s)).setWidth 3)
            { s with draws := (readInput s).2.draws, hist := parseHist (inputOf s) }) := by
  have h' := h
  unfold deserializeBody at h
  change (if _ then _ else if _ then _ else
    if 7 < (parsePad (inputOf s)).toNat then _
    else if 8 * (s.inLen.toNat - 1025) < (parsePad (inputOf s)).toNat then _ else _) = _ at h
  split at h
  · cases h
  split at h
  · cases h
  split at h
  · cases h
  split at h
  · cases h
  split at h
  · cases h
  refine ⟨by omega, by omega, by omega, by omega, by omega, ?_⟩
  rw [deserializeBody_ok (by omega) (by omega) (by omega) (by omega) (by omega)] at h'
  exact (BodyResult.ok.inj h').symm

/-- UNPACK's walk, after its checks. -/
theorem unpackBody_walk {s : State} {r : NodeIdx} (h1 : s.treeValid = true)
    (h2 : s.payloadValid = true) (h3 : s.total.toNat ≤ s.cfg.outCap) (h4 : s.root = some r) :
    unpackBody s =
      let w := walk s.node r s.total.toNat (retainedOf s)
      let s' : State :=
        { s with draws := (readPayload s).2.draws, mem := s.mem.store outBase w.out }
      match w.error with
      | some e => .raised e s'
      | none => .ok { s' with outLen := BitVec.ofNat 32 w.out.length } := by
  unfold unpackBody
  rw [if_neg (by simp [h1]), if_neg (by simp [h2]), if_neg (by omega)]
  have hp : retainedBits (readPayload s).1 s.pad = retainedOf s := rfl
  split
  · rename_i hn; rw [h4] at hn; cases hn
  · rename_i r' hr
    obtain rfl : r = r' := Option.some.inj (h4.symm.trans hr)
    dsimp only
    rw [hp]
    cases (walk s.node r s.total.toNat (retainedOf s)).error <;> rfl

theorem unpackBody_none {s : State} (h1 : s.treeValid = true)
    (h2 : s.payloadValid = true) (h3 : s.total.toNat ≤ s.cfg.outCap) (h4 : s.root = none) :
    unpackBody s =
      if s.plen ≠ 0#32 then .raised (emptyTree s.plen) s else .ok { s with outLen := 0#32 } := by
  unfold unpackBody
  rw [if_neg (by simp [h1]), if_neg (by simp [h2]), if_neg (by omega)]
  simp only [h4]

/-- An UNPACK that runs to its end met the empty tree with an empty payload, or its walk raised
nothing. -/
theorem unpackBody_cases {s t : State} (h : unpackBody s = .ok t) :
    s.treeValid = true ∧ s.payloadValid = true ∧ s.total.toNat ≤ s.cfg.outCap
      ∧ ((s.root = none ∧ s.plen = 0#32 ∧ t = { s with outLen := 0#32 })
        ∨ ∃ r, s.root = some r
          ∧ (walk s.node r s.total.toNat (retainedOf s)).error = none
          ∧ t = { s with
                  draws := (readPayload s).2.draws
                  mem := s.mem.store outBase (walk s.node r s.total.toNat (retainedOf s)).out
                  outLen := BitVec.ofNat 32
                    (walk s.node r s.total.toNat (retainedOf s)).out.length }) := by
  by_cases h1 : s.treeValid = true
  swap
  · unfold unpackBody at h; rw [if_pos (by simpa using h1)] at h; cases h
  by_cases h2 : s.payloadValid = true
  swap
  · unfold unpackBody at h
    rw [if_neg (by simp [h1]), if_pos (by simpa using h2)] at h; cases h
  by_cases h3 : s.total.toNat ≤ s.cfg.outCap
  swap
  · unfold unpackBody at h
    rw [if_neg (by simp [h1]), if_neg (by simp [h2]), if_pos (by omega)] at h; cases h
  refine ⟨h1, h2, h3, ?_⟩
  rcases Option.eq_none_or_eq_some s.root with h4 | ⟨r, h4⟩
  · rw [unpackBody_none h1 h2 h3 h4] at h
    by_cases hp : s.plen = 0#32
    · rw [if_neg (by simp [hp])] at h
      exact .inl ⟨h4, hp, (BodyResult.ok.inj h).symm⟩
    · rw [if_pos hp] at h; cases h
  · rw [unpackBody_walk h1 h2 h3 h4] at h
    dsimp only at h
    split at h
    · cases h
    · exact .inr ⟨r, h4, ‹_›, (BodyResult.ok.inj h).symm⟩

/-! ## What no body writes -/

/-- The state in which a body ends. -/
def BodyResult.state : BodyResult → State
  | .ok s => s
  | .raised _ s => s

/-- The completion step writes the outcome, BUSY, DONE and perhaps OUT_LEN; a success leaves ERRINFO
and ERRARG alone. -/
theorem complete_state (i : Instr) (r : BodyResult) :
    ∃ e s1 s2 s3 a o,
      complete i r =
          { r.state with
            err := e, errSub := s1, errSym := s2, errStage := s3, errArg := a, outLen := o
            busy := false, done := true }
        ∧ (e = 0#4 → s1 = r.state.errSub ∧ s2 = r.state.errSym ∧ s3 = r.state.errStage
            ∧ a = r.state.errArg) := by
  cases r with
  | ok s => exact ⟨_, _, _, _, _, _, rfl, fun _ => ⟨rfl, rfl, rfl, rfl⟩⟩
  | raised e s =>
    exact ⟨_, _, _, _, _, _, complete_raised i e s, fun h => absurd h (ErrCode.code_ne_zero _)⟩

theorem complete_draws (i : Instr) (r : BodyResult) : (complete i r).draws = r.state.draws := by
  obtain ⟨_, _, _, _, _, _, h, -⟩ := complete_state i r
  rw [h]

/-- SERIALIZE of a written payload takes no draw. -/
theorem serializeBody_draws {s : State} (h : unwrittenIn s.pbuf 0 s.plen.toNat = 0) :
    (serializeBody s).state.draws = s.draws := by
  have hd := readPayload_drawn s
  rw [h] at hd
  unfold serializeBody
  split
  · rfl
  · split
    · rfl
    · exact hd

/-- UNPACK of a written payload takes no draw. -/
theorem unpackBody_draws {s : State} (h : unwrittenIn s.pbuf 0 s.plen.toNat = 0) :
    (unpackBody s).state.draws = s.draws := by
  have hd := readPayload_drawn s
  rw [h] at hd
  unfold unpackBody
  dsimp only
  repeat' split
  all_goals first | rfl | exact hd

/-- What no body writes: the host's registers, the port, and the completion state. -/
def Kept (s t : State) : Prop :=
  SameControl s t ∧ t.busy = s.busy ∧ t.done = s.done ∧ t.err = s.err ∧ t.errSub = s.errSub
    ∧ t.errSym = s.errSym ∧ t.errStage = s.errStage ∧ t.errArg = s.errArg

theorem Kept.refl (s : State) : Kept s s :=
  ⟨⟨rfl, rfl, rfl, rfl, rfl, rfl, rfl, rfl, rfl, rfl⟩, rfl, rfl, rfl, rfl, rfl, rfl, rfl⟩

theorem Kept.trans {s t u : State} (h : Kept s t) (k : Kept t u) : Kept s u := by
  obtain ⟨⟨h1, h2, h3, h4, h5, h6, h7, h8, h9, h10⟩, h11, h12, h13, h14, h15, h16, h17⟩ := h
  obtain ⟨⟨k1, k2, k3, k4, k5, k6, k7, k8, k9, k10⟩, k11, k12, k13, k14, k15, k16, k17⟩ := k
  exact ⟨⟨k1.trans h1, k2.trans h2, k3.trans h3, k4.trans h4, k5.trans h5, k6.trans h6,
    k7.trans h7, k8.trans h8, k9.trans h9, k10.trans h10⟩, k11.trans h11, k12.trans h12,
    k13.trans h13, k14.trans h14, k15.trans h15, k16.trans h16, k17.trans h17⟩

theorem countBody_kept (s : State) : Kept s (countBody s).state := by
  unfold countBody; split <;> exact Kept.refl s

theorem buildBody_kept (s : State) : Kept s (buildBody s).state := Kept.refl s

theorem gencodesBody_kept (s : State) : Kept s (gencodesBody s).state := by
  unfold gencodesBody
  repeat' split
  all_goals exact Kept.refl s

theorem packBody_kept (s : State) : Kept s (packBody s).state := by
  unfold packBody
  split
  · exact Kept.refl s
  split
  · exact Kept.refl s
  dsimp only
  split <;> exact Kept.refl s

theorem serializeBody_kept (s : State) : Kept s (serializeBody s).state := by
  unfold serializeBody
  repeat' split
  all_goals exact Kept.refl s

theorem deserializeBody_kept (s : State) : Kept s (deserializeBody s).state := by
  unfold deserializeBody
  dsimp only
  repeat' split
  all_goals exact Kept.refl s

theorem unpackBody_kept (s : State) : Kept s (unpackBody s).state := by
  unfold unpackBody
  dsimp only
  repeat' split
  all_goals exact Kept.refl s

theorem BodyResult.andThen_kept {s : State} {r : BodyResult} {f : State → BodyResult}
    (h : Kept s r.state) (hf : ∀ t, Kept t (f t).state) : Kept s (r.andThen f).state := by
  cases r with
  | ok t => exact h.trans (hf t)
  | raised e t => exact h

theorem bodyOf_kept (i : Instr) (s : State) : Kept s (bodyOf i s).state := by
  cases i with
  | nop => exact Kept.refl s
  | clear => exact Kept.refl s
  | count => exact countBody_kept s
  | build => exact buildBody_kept s
  | gencodes => exact gencodesBody_kept s
  | pack => exact packBody_kept s
  | serialize => exact serializeBody_kept s
  | deserialize => exact deserializeBody_kept s
  | unpack => exact unpackBody_kept s
  | compress =>
    refine BodyResult.andThen_kept (BodyResult.andThen_kept (BodyResult.andThen_kept
      (BodyResult.andThen_kept (countBody_kept s) buildBody_kept) gencodesBody_kept)
      packBody_kept) serializeBody_kept
  | decompress =>
    exact BodyResult.andThen_kept
      (BodyResult.andThen_kept (deserializeBody_kept s) buildBody_kept) unpackBody_kept

end Sys2Proof.Machine
end

