-- ==== Sys2Proof/Laws/Framer.lean ====
section
/-! SUPPORT. The byte layout of a container: where each part stands, and that parsing takes apart what
framing put together (30_encoding.md R99, R102, R103; 44_container_framer.md R158). -/

namespace Sys2Proof.Machine

theorem flatMap_leBytes_length (ws : List Word) : (ws.flatMap (leBytes 4)).length = 4 * ws.length := by
  induction ws with
  | nil => rfl
  | cons w ws ih => rw [List.flatMap_cons, List.length_append, ih, leBytes_length, List.length_cons]; omega

/-- Byte 4i + k of the words is byte k of word i. -/
theorem flatMap_leBytes_getElem? (ws : List Word) (i k : Nat) (hk : k < 4) :
    (ws.flatMap (leBytes 4))[4 * i + k]? = ws[i]?.map fun w => w.extractLsb' (8 * k) 8 := by
  induction ws generalizing i with
  | nil => simp
  | cons w ws ih =>
    rw [List.flatMap_cons]
    cases i with
    | zero =>
      rw [Nat.mul_zero, Nat.zero_add, List.getElem?_append_left (by simpa using hk),
        List.getElem?_eq_getElem (by simpa using hk), leBytes_getElem]
      rfl
    | succ i =>
      rw [List.getElem?_append_right (by simp; omega), leBytes_length,
        show 4 * (i + 1) + k - 4 = 4 * i + k by omega, ih, List.getElem?_cons_succ]

theorem histBytes_length (hist : Vector Word 256) :
    (hist.toList.flatMap (leBytes 4)).length = 1024 := by
  rw [flatMap_leBytes_length, Vector.length_toList]

theorem toList_getElem? (hist : Vector Word 256) (v : Byte) :
    hist.toList[v.toNat]? = some (histAt hist v) := by
  have := v.isLt
  rw [List.getElem?_eq_getElem (by simpa using this), Vector.getElem_toList]
  rfl

@[simp] theorem containerBytes_length (hist : Vector Word 256) (p : List Byte) (q : BitVec 3) :
    (containerBytes hist p q).length = 1025 + p.length := by
  unfold containerBytes
  rw [List.length_append, List.length_append, histBytes_length, List.length_singleton]
  omega

theorem containerBytes_hist (hist : Vector Word 256) (p : List Byte) (q : BitVec 3) (v : Byte) {k : Nat}
    (hk : k < 4) :
    (containerBytes hist p q)[4 * v.toNat + k]? = some ((histAt hist v).extractLsb' (8 * k) 8) := by
  have := v.isLt
  have hl := histBytes_length hist
  unfold containerBytes
  rw [List.append_assoc, List.getElem?_append_left (by omega), flatMap_leBytes_getElem? _ _ _ hk,
    toList_getElem?]
  rfl

theorem containerBytes_payload (hist : Vector Word 256) (p : List Byte) (q : BitVec 3) {i : Nat}
    (hi : i < p.length) : (containerBytes hist p q)[1024 + i]? = p[i]? := by
  have hl := histBytes_length hist
  unfold containerBytes
  rw [List.append_assoc, List.getElem?_append_right (by omega), hl,
    List.getElem?_append_left (by omega), Nat.add_sub_cancel_left]

theorem containerBytes_pad (hist : Vector Word 256) (p : List Byte) (q : BitVec 3) :
    (containerBytes hist p q)[1024 + p.length]? = some (q.setWidth 8) := by
  have hl := histBytes_length hist
  unfold containerBytes
  rw [List.getElem?_append_right (by rw [List.length_append]; omega), List.length_append, hl,
    Nat.sub_self]
  rfl

/-! ## Parsing -/

/-- Byte 4v + k of a container is byte k of H[v] (30_encoding.md R103). -/
theorem parseHist_byte {B : List Byte} (hB : 1024 ≤ B.length) (v : Byte) {k : Nat} (hk : k < 4) :
    B[4 * v.toNat + k]? = some ((histAt (parseHist B) v).extractLsb' (8 * k) 8) := by
  have := v.isLt
  have hlt : 4 * v.toNat + k < B.length := by omega
  have hget : ((B.drop (4 * v.toNat)).take 4)[k]? = some B[4 * v.toNat + k] := by
    rw [List.getElem?_take, if_pos hk, List.getElem?_drop, List.getElem?_eq_getElem hlt]
  rw [List.getElem?_eq_getElem hlt, parseHist, histAt_ofFn]
  congr 1
  exact (leWord_byte (by simp) hget).symm

theorem word_ext {x y : Word}
    (h : ∀ k, k < 4 → x.extractLsb' (8 * k) 8 = y.extractLsb' (8 * k) 8) : x = y := by
  apply BitVec.eq_of_getLsbD_eq
  intro i hi
  have := congrArg (fun b => b.getLsbD (i % 8)) (h (i / 8) (by omega))
  have e : 8 * (i / 8) + i % 8 = i := by omega
  have hm : i % 8 < 8 := by omega
  simpa [BitVec.getLsbD_extractLsb', hm, e] using this

theorem parseHist_containerBytes (hist : Vector Word 256) (p : List Byte) (q : BitVec 3) :
    parseHist (containerBytes hist p q) = hist := by
  refine hist_ext fun v => word_ext fun k hk => ?_
  have h1 := parseHist_byte (B := containerBytes hist p q) (by simp; omega) v hk
  rw [containerBytes_hist hist p q v hk] at h1
  exact (Option.some.inj h1).symm

@[simp] theorem parsePayload_length (B : List Byte) : (parsePayload B).length = B.length - 1025 := by
  unfold parsePayload
  rw [List.length_take, List.length_drop]
  omega

theorem parsePayload_getElem? (B : List Byte) {i : Nat} (hi : i < B.length - 1025) :
    (parsePayload B)[i]? = B[1024 + i]? := by
  unfold parsePayload
  rw [List.getElem?_take, if_pos hi, List.getElem?_drop]

theorem parsePayload_containerBytes (hist : Vector Word 256) (p : List Byte) (q : BitVec 3) :
    parsePayload (containerBytes hist p q) = p := by
  refine List.ext_getElem? fun i => ?_
  by_cases hi : i < p.length
  · rw [parsePayload_getElem? _ (by simpa using hi), containerBytes_payload hist p q hi]
  · rw [List.getElem?_eq_none (by simp; omega), List.getElem?_eq_none (by omega)]

theorem parsePad_containerBytes (hist : Vector Word 256) (p : List Byte) (q : BitVec 3) :
    parsePad (containerBytes hist p q) = q.setWidth 8 := by
  simp [parsePad, containerBytes]

theorem setWidth_pad (q : BitVec 3) : (q.setWidth 8).setWidth 3 = q ∧ (q.setWidth 8).toNat = q.toNat := by
  have := q.isLt
  refine ⟨?_, by simp; omega⟩
  apply BitVec.eq_of_toNat_eq
  simp

theorem parsePad_of_getLast? {B : List Byte} {p : Byte} (h : B.getLast? = some p) : parsePad B = p := by
  simp [parsePad, h]

end Sys2Proof.Machine
end

