-- ==== Sys2Proof/Laws/Heap.lean ====
section
/-! SUPPORT. The binary heap keeps its order: sifting repairs the one place where an entry moved; and
the path of the hole: an insertion makes its entry rise, an extraction makes the hole sink and the last
entry rise from there (41_tree_builder.md R123). -/

namespace Sys2Proof.Machine

/-- The frequency at a place of the heap, as a number. -/
def heapFreq (h : List QEntry) (i : Nat) : Nat := (heapAt h i).freq.toNat

theorem lt_eq_false (x y : QEntry) : x.lt y = false ↔ y.freq.toNat ≤ x.freq.toNat := by
  simp [QEntry.lt, BitVec.le_def]

theorem lt_eq_true (x y : QEntry) : x.lt y = true ↔ x.freq.toNat < y.freq.toNat := by
  simp [QEntry.lt, BitVec.lt_def]

theorem heapOrdered_iff (h : List QEntry) :
    HeapOrdered h ↔ ∀ i, 0 < i → i < h.length → heapFreq h ((i - 1) / 2) ≤ heapFreq h i := by
  simp only [HeapOrdered, lt_eq_false, heapFreq]

theorem heapFreq_set (h : List QEntry) {p : Nat} (hp : p < h.length) (x : QEntry) (i : Nat) :
    heapFreq (h.set p x) i = if i = p then x.freq.toNat else heapFreq h i := by
  unfold heapFreq heapAt
  by_cases hi : i = p
  · subst hi; simp [hp]
  · rw [if_neg hi, List.getElem?_set_ne (Ne.symm hi)]

/-- Ordered but for the place `pos`, where an entry is missing: every edge that does not touch `pos`
is in order, and so are the entries below `pos` against the entry above it. -/
structure Hole (h : List QEntry) (pos : Nat) : Prop where
  edge : ∀ i, 0 < i → i < h.length → i ≠ pos → (i - 1) / 2 ≠ pos →
    heapFreq h ((i - 1) / 2) ≤ heapFreq h i
  skip : 0 < pos → ∀ i, 0 < i → i < h.length → (i - 1) / 2 = pos →
    heapFreq h ((pos - 1) / 2) ≤ heapFreq h i

/-- SiftDown fills the hole with an entry that is at most every entry below it. -/
theorem siftDownLoop_ordered (new : QEntry) (fuel : Nat) (h : List QEntry) (pos : Nat)
    (hf : pos ≤ fuel) (hpos : pos < h.length) (hh : Hole h pos)
    (hn : ∀ i, 0 < i → i < h.length → (i - 1) / 2 = pos → new.freq.toNat ≤ heapFreq h i) :
    HeapOrdered (siftDownLoop new 0 fuel h pos) := by
  have stop : (∀ _ : 0 < pos, heapFreq h ((pos - 1) / 2) ≤ new.freq.toNat) →
      HeapOrdered (h.set pos new) := by
    intro hup
    rw [heapOrdered_iff]
    intro i h0 hi
    rw [List.length_set] at hi
    rw [heapFreq_set h hpos, heapFreq_set h hpos]
    by_cases h1 : i = pos
    · subst h1
      rw [if_neg (by omega), if_pos rfl]
      exact hup h0
    · rw [if_neg h1]
      by_cases h2 : (i - 1) / 2 = pos
      · rw [if_pos h2]; exact hn i h0 hi h2
      · rw [if_neg h2]; exact hh.edge i h0 hi h1 h2
  induction fuel generalizing h pos with
  | zero => exact stop fun h0 => by omega
  | succ fuel ih =>
    simp only [siftDownLoop]
    split
    · rename_i h0
      have hpar : (pos - 1) / 2 < h.length := by omega
      split
      · rename_i hlt
        rw [lt_eq_true] at hlt
        change new.freq.toNat < heapFreq h ((pos - 1) / 2) at hlt
        have e : ∀ i, heapFreq (h.set pos (heapAt h ((pos - 1) / 2))) i =
            if i = pos then heapFreq h ((pos - 1) / 2) else heapFreq h i := fun i =>
          heapFreq_set h hpos _ i
        have hole : Hole (h.set pos (heapAt h ((pos - 1) / 2))) ((pos - 1) / 2) := by
          constructor
          · intro i hi0 hi h1 h2
            rw [List.length_set] at hi
            rw [e, e]
            by_cases h3 : i = pos
            · subst h3; exact absurd rfl h2
            · rw [if_neg h3]
              by_cases h4 : (i - 1) / 2 = pos
              · rw [if_pos h4]; exact hh.skip h0 i hi0 hi h4
              · rw [if_neg h4]; exact hh.edge i hi0 hi h3 h4
          · intro hp0 i hi0 hi h1
            rw [List.length_set] at hi
            have hgp := hh.edge ((pos - 1) / 2) hp0 hpar (by omega) (by omega)
            rw [e, e, if_neg (by omega)]
            by_cases h3 : i = pos
            · rw [if_pos h3]; exact hgp
            · rw [if_neg h3]
              have := hh.edge i hi0 hi h3 (by omega)
              rw [h1] at this
              exact Nat.le_trans hgp this
        have below : ∀ i, 0 < i → i < (h.set pos (heapAt h ((pos - 1) / 2))).length →
            (i - 1) / 2 = (pos - 1) / 2 →
            new.freq.toNat ≤ heapFreq (h.set pos (heapAt h ((pos - 1) / 2))) i := by
          intro i hi0 hi h1
          rw [List.length_set] at hi
          rw [e]
          by_cases h3 : i = pos
          · rw [if_pos h3]; omega
          · rw [if_neg h3]
            have := hh.edge i hi0 hi h3 (by omega)
            rw [h1] at this
            omega
        have hlen : (pos - 1) / 2 < (h.set pos (heapAt h ((pos - 1) / 2))).length := by
          rw [List.length_set]; exact hpar
        refine ih _ _ (by omega) hlen hole below fun hup => ?_
        rw [heapOrdered_iff]
        intro i hi0 hi
        rw [List.length_set] at hi
        rw [heapFreq_set _ hlen, heapFreq_set _ hlen]
        by_cases h1 : i = (pos - 1) / 2
        · rw [if_neg (by omega), if_pos h1, h1]; exact hup (by omega)
        · rw [if_neg h1]
          by_cases h2 : (i - 1) / 2 = (pos - 1) / 2
          · rw [if_pos h2]; exact below i hi0 hi h2
          · rw [if_neg h2]; exact hole.edge i hi0 hi h1 h2
      · rename_i hlt
        refine stop fun _ => ?_
        have : new.lt (heapAt h ((pos - 1) / 2)) = false := by simpa using hlt
        exact (lt_eq_false _ _).1 this
    · exact stop fun h0 => by omega

/-- The hole moves to a place with nothing below it, always to the smaller entry below. -/
theorem siftUpLoop_hole (fuel : Nat) (h : List QEntry) (pos : Nat) (hf : h.length ≤ pos + fuel)
    (hpos : pos < h.length) (hh : Hole h pos) :
    Hole (siftUpLoop fuel h pos).1 (siftUpLoop fuel h pos).2
      ∧ ∀ i, 0 < i → i < h.length → (i - 1) / 2 ≠ (siftUpLoop fuel h pos).2 := by
  induction fuel generalizing h pos with
  | zero => omega
  | succ fuel ih =>
    simp only [siftUpLoop]
    split
    · rename_i hc
      generalize hcdef : (if 2 * pos + 1 + 1 < h.length &&
        !(heapAt h (2 * pos + 1)).lt (heapAt h (2 * pos + 1 + 1)) then 2 * pos + 1 + 1
        else 2 * pos + 1) = c
      have hcp : c = 2 * pos + 1 ∨ c = 2 * pos + 2 := by subst hcdef; split <;> omega
      have hcl : c < h.length := by
        subst hcdef
        split
        · rename_i hx
          rw [Bool.and_eq_true, decide_eq_true_eq] at hx
          exact hx.1
        · exact hc
      have hmin : ∀ i, 0 < i → i < h.length → (i - 1) / 2 = pos → heapFreq h c ≤ heapFreq h i := by
        intro i hi0 hi h1
        have hi' : i = 2 * pos + 1 ∨ i = 2 * pos + 2 := by omega
        subst hcdef
        split
        · rename_i hx
          rw [Bool.and_eq_true, decide_eq_true_eq, Bool.not_eq_true', lt_eq_false] at hx
          rcases hi' with rfl | rfl
          · exact hx.2
          · exact Nat.le_refl _
        · rename_i hx
          rcases hi' with rfl | rfl
          · exact Nat.le_refl _
          · rw [Bool.and_eq_true, decide_eq_true_eq, Bool.not_eq_true', lt_eq_false] at hx
            by_contra hgt
            exact hx ⟨hi, Nat.le_of_lt (Nat.lt_of_not_le hgt)⟩
      have e : ∀ i, heapFreq (h.set pos (heapAt h c)) i =
          if i = pos then heapFreq h c else heapFreq h i := fun i => heapFreq_set h hpos _ i
      have hole : Hole (h.set pos (heapAt h c)) c := by
        constructor
        · intro i hi0 hi h1 h2
          rw [List.length_set] at hi
          rw [e, e]
          by_cases h3 : i = pos
          · rw [if_neg (by omega), if_pos h3]
            subst h3
            exact hh.skip hi0 c (by omega) hcl (by omega)
          · rw [if_neg h3]
            by_cases h4 : (i - 1) / 2 = pos
            · rw [if_pos h4]; exact hmin i hi0 hi h4
            · rw [if_neg h4]; exact hh.edge i hi0 hi h3 h4
        · intro _ i hi0 hi h1
          rw [List.length_set] at hi
          rw [e, e, if_pos (by omega), if_neg (by omega)]
          have := hh.edge i hi0 hi (by omega) (by omega)
          rw [h1] at this
          exact this
      obtain ⟨g1, g2⟩ := ih (h.set pos (heapAt h c)) c (by rw [List.length_set]; omega)
        (by rw [List.length_set]; exact hcl) hole
      exact ⟨g1, fun i hi0 hi => g2 i hi0 (by rw [List.length_set]; exact hi)⟩
    · exact ⟨hh, fun i hi0 hi => by omega⟩

theorem heapInsert_ordered {h : List QEntry} (hh : HeapOrdered h) (e : QEntry) :
    HeapOrdered (heapInsert h e) := by
  rw [heapOrdered_iff] at hh
  have at_lt : ∀ i, i < h.length → heapFreq (h ++ [e]) i = heapFreq h i := by
    intro i hi; unfold heapFreq heapAt; rw [List.getElem?_append_left hi]
  unfold heapInsert siftDown
  refine siftDownLoop_ordered _ _ _ _ (Nat.le_refl _) (by simp) ⟨?_, ?_⟩ ?_
  · intro i hi0 hi h1 h2
    have hi : i < h.length := by simp at hi; omega
    rw [at_lt i hi, at_lt _ (by omega)]
    exact hh i hi0 hi
  · intro h0 i hi0 hi h1
    simp at hi; omega
  · intro i hi0 hi h1
    simp at hi; omega

theorem heapOrdered_nil : HeapOrdered [] := fun i _ hi => by simp at hi

/-- The root of an ordered heap has the least frequency. -/
theorem HeapOrdered.root_le {h : List QEntry} (hh : HeapOrdered h) {i : Nat} (hi : i < h.length) :
    heapFreq h 0 ≤ heapFreq h i := by
  rw [heapOrdered_iff] at hh
  induction i using Nat.strongRecOn with
  | ind i ih =>
    by_cases h0 : i = 0
    · subst h0; exact Nat.le_refl _
    · exact Nat.le_trans (ih ((i - 1) / 2) (by omega) (by omega)) (hh i (by omega) hi)

theorem heapExtractMin_ordered {h q : List QEntry} {e : QEntry} (hh : HeapOrdered h)
    (hx : heapExtractMin h = some (e, q)) :
    HeapOrdered q ∧ ∀ y ∈ h, e.freq.toNat ≤ y.freq.toNat := by
  have hroot : e = heapAt h 0 ∧ h ≠ [] ∧ (HeapOrdered q) := by
    unfold heapExtractMin at hx
    split at hx
    · cases hx
    · rename_i last hl
      have hne : h ≠ [] := by rintro rfl; simp at hl
      have hd : h = h.dropLast ++ [last] := by
        obtain ⟨hne, rfl⟩ := List.mem_getLast?_eq_getLast hl
        exact (List.dropLast_append_getLast hne).symm
      split at hx
      · rename_i hn
        cases hx
        refine ⟨?_, hne, heapOrdered_nil⟩
        rw [hd, hn]; rfl
      · rename_i top rest hn
        simp only [Option.some.injEq, Prod.mk.injEq] at hx
        obtain ⟨rfl, rfl⟩ := hx
        refine ⟨by rw [hd, hn]; rfl, hne, ?_⟩
        rw [hn] at hd
        have hole : Hole (last :: rest) 0 := by
          constructor
          · intro i hi0 hi h1 h2
            rw [heapOrdered_iff] at hh
            have e : ∀ j, 0 < j → j < (last :: rest).length →
                heapFreq h j = heapFreq (last :: rest) j := by
              intro j hj0 hj
              obtain ⟨j, rfl⟩ : ∃ k, j = k + 1 := ⟨j - 1, by omega⟩
              simp only [List.length_cons] at hj
              rw [hd]; unfold heapFreq heapAt
              simp only [List.cons_append, List.getElem?_cons_succ]
              rw [List.getElem?_append_left (by omega)]
            have hl : h.length = (last :: rest).length + 1 := by rw [hd]; simp
            rw [← e i hi0 hi, ← e _ (by omega) (by omega)]
            exact hh i hi0 (by omega)
          · intro h0; omega
        obtain ⟨g1, g2⟩ := siftUpLoop_hole (last :: rest).length (last :: rest) 0 (by omega)
          (by simp) hole
        obtain ⟨p1, p2, -⟩ := siftUpLoop_perm (last :: rest).length (last :: rest) 0 (by simp)
        unfold siftUp siftDown
        dsimp only
        generalize hr : siftUpLoop (last :: rest).length (last :: rest) 0 = r at g1 g2 p1 p2
        have hlen : r.2 < (r.1.set r.2 (heapAt (last :: rest) 0)).length := by
          rw [List.length_set, p1]; exact p2
        refine siftDownLoop_ordered _ _ _ _ (Nat.le_refl _) hlen ⟨?_, ?_⟩ ?_
        · intro i hi0 hi h1 h2
          rw [List.length_set] at hi
          rw [heapFreq_set _ (by omega), heapFreq_set _ (by omega), if_neg h1, if_neg h2]
          exact g1.edge i hi0 hi h1 h2
        · intro h0 i hi0 hi h1
          rw [List.length_set] at hi
          exact absurd h1 (g2 i hi0 (by omega))
        · intro i hi0 hi h1
          rw [List.length_set] at hi
          exact absurd h1 (g2 i hi0 (by omega))
  obtain ⟨rfl, hne, hq⟩ := hroot
  refine ⟨hq, fun y hy => ?_⟩
  obtain ⟨i, hi, rfl⟩ := List.getElem_of_mem hy
  have := hh.root_le hi
  unfold heapFreq at this
  rwa [heapAt_eq hi] at this

theorem queueInit_ordered (es : List QEntry) : HeapOrdered (queueInit .heap es) := by
  suffices h : ∀ (es q : List QEntry), HeapOrdered q → HeapOrdered (es.foldl (queueInsert .heap) q) from
    h es [] heapOrdered_nil
  intro es
  induction es with
  | nil => exact fun q hq => hq
  | cons e es ih => exact fun q hq => ih _ (heapInsert_ordered hq e)

/-! ## The path of the hole -/

theorem ancestor_parent (p i : Nat) : ancestor ((p - 1) / 2) i = ancestor p (i + 1) := by
  induction i with
  | zero => rfl
  | succ i ih => rw [ancestor, ih]; rfl

theorem ancestor_le (p i : Nat) : ancestor p i ≤ p := by
  induction i with
  | zero => exact Nat.le_refl _
  | succ i ih => rw [ancestor]; omega

theorem heapAt_set_ne (h : List QEntry) {p x : Nat} (e : QEntry) (hx : x ≠ p) :
    heapAt (h.set p e) x = heapAt h x := by
  unfold heapAt; rw [List.getElem?_set_ne (Ne.symm hx)]

theorem getElem?_heapAt {h : List QEntry} {i : Nat} (hi : i < h.length) : h[i]? = some (heapAt h i) := by
  rw [heapAt_eq hi, List.getElem?_eq_getElem hi]

/-- An entry that is not below its parent stays where it is. -/
theorem Rises.stay {new : QEntry} {h : List QEntry} {p : Nat} (hp : p < h.length)
    (hs : p = 0 ∨ ¬ new.freq < (heapAt h ((p - 1) / 2)).freq) : Rises new h p 0 (h.set p new) :=
  ⟨fun i hi => by omega, hs, List.length_set, List.getElem?_set_self hp, fun i hi => by omega,
    fun _ hx => List.getElem?_set_ne fun e => hx 0 (Nat.le_refl _) e.symm⟩

/-- What SiftDown's loop does from `start = 0`: the entry rises along the places above the hole. -/
theorem siftDownLoop_rises (new : QEntry) (fuel : Nat) (h : List QEntry) (p : Nat) (hf : p ≤ fuel)
    (hp : p < h.length) : ∃ j, Rises new h p j (siftDownLoop new 0 fuel h p) := by
  induction fuel generalizing h p with
  | zero => exact ⟨0, .stay hp (.inl (by omega))⟩
  | succ fuel ih =>
    simp only [siftDownLoop]
    split
    · rename_i h0
      have hq : (p - 1) / 2 < p := by omega
      split
      · rename_i hlt
        obtain ⟨j, hr⟩ := ih (h.set p (heapAt h ((p - 1) / 2))) ((p - 1) / 2) (by omega)
          (by rw [List.length_set]; omega)
        have low : ∀ i, ancestor p (i + 1) ≠ p := fun i => by
          have := ancestor_le ((p - 1) / 2) i
          rw [ancestor_parent] at this; omega
        have low' : ∀ i, p ≠ ancestor p (i + 1) := fun i => (low i).symm
        refine ⟨j + 1, ?_, ?_, ?_, ?_, ?_, ?_⟩
        · intro i hi
          cases i with
          | zero => exact ⟨h0, of_decide_eq_true hlt⟩
          | succ i =>
            have := hr.above i (by omega)
            rw [ancestor_parent, ancestor_parent, heapAt_set_ne _ _ (low _)] at this
            exact this
        · have := hr.stops
          rw [ancestor_parent, ancestor_parent, heapAt_set_ne _ _ (low _)] at this
          exact this
        · rw [hr.length, List.length_set]
        · rw [← ancestor_parent]; exact hr.placed
        · intro i hi
          cases i with
          | zero =>
            rw [ancestor, hr.others p (fun i _ => by rw [ancestor_parent]; exact low' i),
              List.getElem?_set_self hp, ancestor, ancestor, getElem?_heapAt (by omega)]
          | succ i =>
            have := hr.moved i (by omega)
            rw [ancestor_parent, ancestor_parent, List.getElem?_set_ne (low' _)] at this
            exact this
        · intro x hx
          rw [hr.others x fun i hi => by rw [ancestor_parent]; exact hx (i + 1) (by omega)]
          exact List.getElem?_set_ne (hx 0 (Nat.zero_le _)).symm
      · rename_i hlt
        exact ⟨0, .stay hp (.inr (by simpa [QEntry.lt] using hlt))⟩
    · exact ⟨0, .stay hp (.inl (by omega))⟩

theorem smallerChild_gt (h : List QEntry) (p : Nat) : p < smallerChild h p := by
  unfold smallerChild; split <;> omega

theorem smallerChild_lt {h : List QEntry} {p : Nat} (hp : 2 * p + 1 < h.length) :
    smallerChild h p < h.length := by
  unfold smallerChild; split <;> omega

theorem holePath_ge (h : List QEntry) (p i : Nat) : p ≤ holePath h p i := by
  induction i with
  | zero => exact Nat.le_refl _
  | succ i ih => have := smallerChild_gt h (holePath h p i); rw [holePath]; omega

theorem holePath_lt (h : List QEntry) (p : Nat) {i j : Nat} (hij : i < j) :
    holePath h p i < holePath h p j := by
  induction j with
  | zero => omega
  | succ j ih =>
    have := smallerChild_gt h (holePath h p j)
    rcases Nat.lt_succ_iff_lt_or_eq.1 hij with hlt | rfl
    · have := ih hlt; rw [holePath]; omega
    · exact this

theorem holePath_child (h : List QEntry) (p i : Nat) :
    holePath h (smallerChild h p) i = holePath h p (i + 1) := by
  induction i with
  | zero => rfl
  | succ i ih => rw [holePath, ih]; rfl

/-- A change at `p` does not bend the path below `p`. -/
theorem holePath_set (h : List QEntry) {p c : Nat} (e : QEntry) (hc : p < c) (i : Nat) :
    holePath (h.set p e) c i = holePath h c i := by
  induction i with
  | zero => rfl
  | succ i ih =>
    have := holePath_ge h c i
    rw [holePath, holePath, ih]
    unfold smallerChild
    rw [heapAt_set_ne _ _ (by omega), heapAt_set_ne _ _ (by omega), List.length_set]

theorem siftUp_child (h : List QEntry) (p : Nat) :
    (if 2 * p + 1 + 1 < h.length && !(heapAt h (2 * p + 1)).lt (heapAt h (2 * p + 1 + 1)) then
      2 * p + 1 + 1 else 2 * p + 1) = smallerChild h p := by
  unfold smallerChild QEntry.lt
  simp

theorem Sinks.place_lt {h h' : List QEntry} {p m : Nat} (hs : Sinks h p m h') (hp : p < h.length) :
    holePath h p m < h.length := by
  cases m with
  | zero => exact hp
  | succ m => exact smallerChild_lt (hs.inner m (by omega))

/-- What SiftUp's loop does: the hole moves to a leaf, always to the smaller child. -/
theorem siftUpLoop_sinks (fuel : Nat) (h : List QEntry) (p : Nat) (hf : h.length ≤ p + fuel)
    (hp : p < h.length) :
    ∃ m, Sinks h p m (siftUpLoop fuel h p).1 ∧ (siftUpLoop fuel h p).2 = holePath h p m := by
  induction fuel generalizing h p with
  | zero => omega
  | succ fuel ih =>
    simp only [siftUpLoop]
    rw [siftUp_child]
    split
    · rename_i hc
      have hgt := smallerChild_gt h p
      obtain ⟨m, hs, hm⟩ := ih (h.set p (heapAt h (smallerChild h p))) (smallerChild h p)
        (by rw [List.length_set]; omega) (by rw [List.length_set]; exact smallerChild_lt hc)
      have path : ∀ i, holePath (h.set p (heapAt h (smallerChild h p))) (smallerChild h p) i
          = holePath h p (i + 1) := fun i => by rw [holePath_set _ _ hgt, holePath_child]
      have ne : ∀ i, p ≠ holePath h p (i + 1) := fun i => by
        have := holePath_ge h (smallerChild h p) i
        rw [holePath_child] at this; omega
      refine ⟨m + 1, ⟨?_, ?_, ?_, ?_, ?_⟩, by rw [hm, path]⟩
      · intro i hi
        cases i with
        | zero => exact hc
        | succ i => have := hs.inner i (by omega); rwa [path, List.length_set] at this
      · have := hs.leaf; rwa [path, List.length_set] at this
      · rw [hs.length, List.length_set]
      · intro i hi
        cases i with
        | zero =>
          rw [holePath, hs.others p (fun i _ => by rw [path]; exact ne i), List.getElem?_set_self hp,
            ← getElem?_heapAt (smallerChild_lt hc)]
          rfl
        | succ i =>
          have := hs.moved i (by omega)
          rw [path, path, List.getElem?_set_ne (ne _)] at this
          exact this
      · intro x hx
        rw [hs.others x fun i hi => by rw [path]; exact hx (i + 1) (by omega)]
        exact List.getElem?_set_ne (hx 0 (Nat.zero_le _)).symm
    · exact ⟨0, ⟨fun i hi => by omega, by rw [holePath]; omega, rfl, fun i hi => by omega,
        fun x _ => rfl⟩, rfl⟩

/-- An insertion: the entry rises from the end. -/
theorem heapInsert_rises (h : List QEntry) (e : QEntry) :
    ∃ j, Rises e (h ++ [e]) h.length j (heapInsert h e) := by
  have := siftDownLoop_rises (heapAt (h ++ [e]) h.length) h.length (h ++ [e]) h.length
    (Nat.le_refl _) (by simp)
  unfold heapInsert siftDown
  rw [heapAt_eq (by simp), List.getElem_concat_length rfl] at this ⊢
  exact this

/-- An extraction gives out the root; the hole sinks to a leaf and the last entry rises from there. -/
theorem heapExtractMin_path {h h' : List QEntry} {e : QEntry} (hx : heapExtractMin h = some (e, h')) :
    (h = [e] ∧ h' = []) ∨ ∃ rest last, h = e :: (rest ++ [last]) ∧
      ∃ m j g, Sinks (last :: rest) 0 m g ∧ Rises last g (holePath (last :: rest) 0 m) j h' := by
  unfold heapExtractMin at hx
  split at hx
  · cases hx
  · rename_i last hl
    have hh : h = h.dropLast ++ [last] := by
      obtain ⟨hne, rfl⟩ := List.mem_getLast?_eq_getLast hl
      exact (List.dropLast_append_getLast hne).symm
    split at hx
    · rename_i hd
      cases hx
      exact .inl ⟨by rw [hh, hd]; rfl, rfl⟩
    · rename_i top rest hd
      simp only [Option.some.injEq, Prod.mk.injEq] at hx
      obtain ⟨rfl, rfl⟩ := hx
      refine .inr ⟨rest, last, by rw [hh, hd]; rfl, ?_⟩
      obtain ⟨m, hs, hm⟩ := siftUpLoop_sinks (last :: rest).length (last :: rest) 0 (by omega) (by simp)
      have hlt := hs.place_lt (by simp)
      unfold siftUp
      dsimp only
      rw [hm]
      have h0 : heapAt (last :: rest) 0 = last := rfl
      rw [h0]
      generalize (siftUpLoop (last :: rest).length (last :: rest) 0).1 = g at hs
      have hlt' : holePath (last :: rest) 0 m < (g.set (holePath (last :: rest) 0 m) last).length := by
        rw [List.length_set, hs.length]; exact hlt
      obtain ⟨j, hr⟩ := siftDownLoop_rises last _ _ _ (Nat.le_refl _) hlt'
      refine ⟨m, j, g.set (holePath (last :: rest) 0 m) last,
        ⟨hs.inner, hs.leaf, by rw [List.length_set, hs.length], ?_, ?_⟩, ?_⟩
      · intro i hi
        rw [List.getElem?_set_ne (holePath_lt _ _ hi).ne', hs.moved i hi]
      · intro x hx
        rw [List.getElem?_set_ne (hx m (Nat.le_refl _)).symm, hs.others x hx]
      · unfold siftDown
        rw [heapAt_eq hlt', List.getElem_set_self]
        exact hr

end Sys2Proof.Machine
end

