-- ==== Sys2Proof/Laws/Greedy.lean ====
section
/-! SUPPORT. Every merge takes the two entries that come first among those not yet merged
(41_tree_builder.md R122 to R124), and the merges are the queue's, one after another (R118). -/

namespace Sys2Proof.Machine

/-- What the queue keeps: the heap order under HEAP, nothing under FIFO. -/
def QueueOk : TiePolicy → List QEntry → Prop
  | .fifo, _ => True
  | .heap, q => HeapOrdered q

/-- The queue's order on entries; under FIFO it falls back on the index. -/
def EntryLe : TiePolicy → QEntry → QEntry → Prop
  | .fifo, x, y => x.freq.toNat < y.freq.toNat ∨ (x.freq.toNat = y.freq.toNat ∧ x.idx ≤ y.idx)
  | .heap, x, y => x.freq.toNat ≤ y.freq.toNat

theorem queueInsert_ok {tie : TiePolicy} {q : List QEntry} (h : QueueOk tie q) (e : QEntry) :
    QueueOk tie (queueInsert tie q e) := by
  cases tie
  · trivial
  · exact heapInsert_ordered h e

theorem queueInit_ok (tie : TiePolicy) (es : List QEntry) : QueueOk tie (queueInit tie es) := by
  cases tie
  · trivial
  · exact queueInit_ordered es

/-- An extraction gives out an entry that no entry precedes, and keeps the queue as it should be. -/
theorem queueExtractMin_least {tie : TiePolicy} {h q : List QEntry} {e : QEntry} (hh : QueueOk tie h)
    (hx : queueExtractMin tie h = some (e, q)) : QueueOk tie q ∧ ∀ y ∈ h, EntryLe tie e y := by
  cases tie with
  | heap => exact heapExtractMin_ordered hh hx
  | fifo =>
    refine ⟨trivial, ?_⟩
    cases h with
    | nil => cases hx
    | cons x h =>
      simp only [queueExtractMin, fifoExtractMin, Option.some.injEq, Prod.mk.injEq] at hx
      obtain ⟨rfl, -⟩ := hx
      intro y hy
      have := fifoLeast_le x h y hy
      rw [← Bool.not_eq_true, QEntry.before_iff] at this
      unfold EntryLe
      dsimp only
      omega

/-- The frequency of node `n` of a list of nodes. -/
def nodeFreq (ns : List Node) (n : Nat) : Nat := (((ns[n]?).map Node.freq).getD 0#40).toNat

/-- The queue's order on the nodes of a list. -/
def NodeLe : TiePolicy → List Node → Nat → Nat → Prop
  | .fifo, ns, m, n => nodeFreq ns m < nodeFreq ns n ∨ (nodeFreq ns m = nodeFreq ns n ∧ m < n)
  | .heap, ns, m, n => nodeFreq ns m ≤ nodeFreq ns n

/-- Every internal node has the two nodes that come first among those not yet merged below it. -/
def Greedy (tie : TiePolicy) (ns : List Node) : Prop :=
  ∀ n f l r, ns[n]? = some (.internal f l r) →
    NodeLe tie ns l.toNat r.toNat
      ∧ ∀ x, x < n → x ≠ l.toNat → x ≠ r.toNat → (∀ p, p < n → ¬ ChildList ns p x) →
          NodeLe tie ns r.toNat x

theorem nodeFreq_append {ns : List Node} {n : Nat} (h : n < ns.length) (ms : List Node) :
    nodeFreq (ns ++ ms) n = nodeFreq ns n := by
  unfold nodeFreq; rw [List.getElem?_append_left h]

theorem NodeLe.append {tie : TiePolicy} {ns : List Node} {m n : Nat} (h : NodeLe tie ns m n)
    (hm : m < ns.length) (hn : n < ns.length) (ms : List Node) : NodeLe tie (ns ++ ms) m n := by
  cases tie <;> simpa only [NodeLe, nodeFreq_append hm, nodeFreq_append hn] using h

theorem EntryLe.nodeLe {tie : TiePolicy} {ns : List Node} {x y : QEntry} (h : EntryLe tie x y)
    (hx : nodeFreq ns x.idx = x.freq.toNat) (hy : nodeFreq ns y.idx = y.freq.toNat)
    (hne : x.idx ≠ y.idx) : NodeLe tie ns x.idx y.idx := by
  cases tie <;> simp only [NodeLe, EntryLe, hx, hy] at h ⊢ <;> omega

theorem MergeInv.nodeFreq {ls ns : List Node} {ts : List (QEntry × BTree)} (h : MergeInv ls ns ts)
    {t : QEntry × BTree} (ht : t ∈ ts) : nodeFreq ns t.1.idx = t.1.freq.toNat := by
  rw [Machine.nodeFreq, (h.idx t ht).2.2]; rfl

/-- A merge of the two first entries keeps the property. -/
theorem Greedy.merge {tie : TiePolicy} {ls ns : List Node} {a b : QEntry × BTree}
    {ts : List (QEntry × BTree)} (hg : Greedy tie ns) (h : MergeInv ls ns (a :: b :: ts))
    (hk : ls.length ≤ 256) (hab : EntryLe tie a.1 b.1) (hb : ∀ t ∈ ts, EntryLe tie b.1 t.1) :
    Greedy tie
      (ns ++ [.internal (a.1.freq + b.1.freq) (BitVec.ofNat 9 a.1.idx)
        (BitVec.ofNat 9 b.1.idx)]) := by
  have hlen : ns.length < 511 := by
    have := h.count; simp only [List.length_cons] at this; omega
  have hia := (h.idx a (by simp)).1
  have hib := (h.idx b (by simp)).1
  have hnd := h.nodup
  simp only [List.map_cons, List.nodup_cons, List.mem_cons, List.mem_map, not_or] at hnd
  have child : ∀ p x, p < ns.length → ChildList ns p x → ChildList (ns ++
      [.internal (a.1.freq + b.1.freq) (BitVec.ofNat 9 a.1.idx) (BitVec.ofNat 9 b.1.idx)]) p x := by
    intro p x hp hc
    unfold ChildList at hc ⊢
    rwa [List.getElem?_append_left hp]
  intro n f l r hx
  by_cases hn : n < ns.length
  · rw [List.getElem?_append_left hn] at hx
    have hnl : ls.length ≤ n := by
      by_contra hlt
      obtain ⟨v, g, hv⟩ := h.areLeaves n (by omega)
      rw [hv] at hx; cases hx
    obtain ⟨f', l', r', hx', hl, hr, -⟩ := h.internals n hnl hn
    rw [hx'] at hx
    cases hx
    obtain ⟨h1, h2⟩ := hg n f l r hx'
    refine ⟨h1.append (by omega) (by omega) _, fun x hxn hxl hxr hp => ?_⟩
    exact (h2 x hxn hxl hxr fun p hpn hc => hp p hpn (child p x (by omega) hc)).append (by omega)
      (by omega) _
  · have hne : n = ns.length := by
      have := (List.getElem?_eq_some_iff.1 hx).1
      simp at this; omega
    subst hne
    simp only [List.getElem?_concat_length, Option.some.injEq, Node.internal.injEq] at hx
    obtain ⟨-, rfl, rfl⟩ := hx
    have ea : (BitVec.ofNat 9 a.1.idx).toNat = a.1.idx := by
      rw [BitVec.toNat_ofNat]; omega
    have eb : (BitVec.ofNat 9 b.1.idx).toNat = b.1.idx := by
      rw [BitVec.toNat_ofNat]; omega
    rw [ea, eb]
    have fa := h.nodeFreq (t := a) (by simp)
    have fb := h.nodeFreq (t := b) (by simp)
    refine ⟨(hab.nodeLe fa fb hnd.1.1).append hia hib _, fun x hxn hxa hxb hp => ?_⟩
    have hmem : ∃ t ∈ ts, t.1.idx = x := by
      by_contra hno
      obtain ⟨p, hpc, -⟩ := h.parent x hxn (by
        intro t ht e
        simp only [List.mem_cons] at ht
        rcases ht with rfl | rfl | ht
        · exact hxa e.symm
        · exact hxb e.symm
        · exact hno ⟨t, ht, e⟩)
      have hpl : p < ns.length := by
        obtain ⟨_, _, _, e, -⟩ := hpc
        exact (List.getElem?_eq_some_iff.1 e).1
      exact hp p hpl (child p x hpl hpc)
    obtain ⟨t, ht, rfl⟩ := hmem
    have ft := h.nodeFreq (t := t) (by simp [ht])
    exact ((hb t ht).nodeLe fb ft (Ne.symm hxb)).append hib hxn _

theorem mergeLoop_greedy (tie : TiePolicy) {ls : List Node} (hk : ls.length ≤ 256)
    (hS : (ls.map fun x => x.freq.toNat).sum < 2 ^ 40) (fuel : Nat) {ns : List Node} {q : List QEntry}
    {ts : List (QEntry × BTree)} (hq : q.Perm (ts.map Prod.fst)) (h : MergeInv ls ns ts)
    (hok : QueueOk tie q) (hg : Greedy tie ns) : Greedy tie (mergeLoop tie fuel ns q).1 := by
  induction fuel generalizing ns q ts with
  | zero => exact hg
  | succ fuel ih =>
    simp only [mergeLoop]
    cases hx : queueExtractMin tie q with
    | none => exact hg
    | some p =>
      obtain ⟨a, q1⟩ := p
      dsimp only
      cases hy : queueExtractMin tie q1 with
      | none => exact hg
      | some p =>
        obtain ⟨b, q2⟩ := p
        dsimp only
        obtain ⟨ta, ts1, rfl, hp1, hq1⟩ := perm_map_cons ((queueExtractMin_perm hx).trans hq)
        obtain ⟨tb, ts2, rfl, hp2, hq2⟩ := perm_map_cons ((queueExtractMin_perm hy).trans hq1)
        have h' := h.perm (hp1.trans (hp2.cons ta))
        obtain ⟨ok1, la⟩ := queueExtractMin_least hok hx
        obtain ⟨ok2, lb⟩ := queueExtractMin_least ok1 hy
        have sub1 := (queueExtractMin_perm hx).subset
        have sub2 := (queueExtractMin_perm hy).subset
        refine ih ?_ (h'.merge hk hS) (queueInsert_ok ok2 _) (hg.merge h' hk ?_ ?_)
        · exact (queueInsert_perm _ _ _).trans (hq2.cons _)
        · exact la _ (sub1 (List.mem_cons_of_mem _ (sub2 (by simp))))
        · intro t ht
          exact lb _ (sub2 (List.mem_cons_of_mem _ (hq2.symm.subset (List.mem_map.2 ⟨t, ht, rfl⟩))))

/-- The tree BUILD makes is greedy. -/
theorem buildTree_greedy (tie : TiePolicy) (hist : Vector Word 256) :
    Greedy tie (buildTree tie hist).nodes := by
  have hinit := MergeInv.init hist
  have hk : (leavesOf hist).length ≤ 256 := by rw [leavesOf_length]; exact nonzeroCount_le hist
  have hleaves : Greedy tie (leavesOf hist) := by
    intro n f l r hx
    have hn := (List.getElem?_eq_some_iff.1 hx).1
    obtain ⟨v, g, hv⟩ := hinit.areLeaves n hn
    rw [hv] at hx; cases hx
  match hls : leavesOf hist with
  | [] => simp only [buildTree, hls]; intro n f l r hx; simp at hx
  | [x] => simp only [buildTree, hls]; rw [hls] at hleaves; exact hleaves
  | x :: y :: zs =>
    simp only [buildTree, hls]
    have hS : ((leavesOf hist).map fun x => x.freq.toNat).sum < 2 ^ 40 := by
      rw [leavesOf_sum]; exact histSum_lt hist
    have := mergeLoop_greedy tie hk hS (leavesOf hist).length
      (q := queueInit tie (entriesFrom 0 (leavesOf hist)))
      (by rw [leafTrees_fst]; exact queueInit_perm tie _) hinit (queueInit_ok tie _) hleaves
    rw [hls] at this
    exact this

/-! ## The queues of the merge loop -/

theorem entriesFrom_eq (n : Nat) (ls : List Node) :
    entriesFrom n ls = (List.range ls.length).map fun i =>
      ⟨((ls[i]?).getD (.leaf 0#8 0#40)).freq, n + i⟩ := by
  induction ls generalizing n with
  | nil => rfl
  | cons x xs ih =>
    rw [entriesFrom, ih, List.length_cons, List.range_succ_eq_map, List.map_cons, List.map_map]
    congr 1
    refine List.map_congr_left fun i _ => ?_
    simp [Nat.add_comm 1 i, Nat.add_assoc]

/-- The queue entry of a node of a list. -/
def nodeEntry (ns : List Node) (n : Nat) : QEntry :=
  { freq := ((ns[n]?).getD (.leaf 0#8 0#40)).freq, idx := n }

theorem nodeEntry_prefix {ns ms : List Node} (h : ns <+: ms) {n : Nat} (hn : n < ns.length) :
    nodeEntry ms n = nodeEntry ns n := by
  obtain ⟨rs, rfl⟩ := h
  unfold nodeEntry; rw [List.getElem?_append_left hn]

theorem MergeInv.entry {ls ns : List Node} {ts : List (QEntry × BTree)} (h : MergeInv ls ns ts)
    {t : QEntry × BTree} (ht : t ∈ ts) : t.1 = nodeEntry ns t.1.idx := by
  obtain ⟨-, -, h3⟩ := h.idx t ht
  obtain ⟨x, hx, he⟩ := Option.map_eq_some_iff.1 h3
  unfold nodeEntry; rw [hx, Option.getD_some, he]

/-- The queues of the merge loop: `Q n` is the queue from which node `n` is made. -/
def QueueRun (tie : TiePolicy) (ns : List Node) (k : Nat) (Q : Nat → List QEntry) : Prop :=
  ∀ n f l r, k ≤ n → ns[n]? = some (.internal f l r) →
    ∃ q1 q2, queueExtractMin tie (Q n) = some (nodeEntry ns l.toNat, q1)
      ∧ queueExtractMin tie q1 = some (nodeEntry ns r.toNat, q2)
      ∧ Q (n + 1) = queueInsert tie q2 (nodeEntry ns n)

theorem QueueRun.stay (tie : TiePolicy) (ns : List Node) (Q : Nat → List QEntry) :
    QueueRun tie ns ns.length Q := fun n _ _ _ hn hx => by
  have := (List.getElem?_eq_some_iff.1 hx).1; omega

theorem mergeLoop_prefix (tie : TiePolicy) (fuel : Nat) (ns : List Node) (q : List QEntry) :
    ns <+: (mergeLoop tie fuel ns q).1 := by
  induction fuel generalizing ns q with
  | zero => exact List.prefix_refl _
  | succ fuel ih =>
    simp only [mergeLoop]
    split
    · exact List.prefix_refl _
    · split
      · exact List.prefix_refl _
      · exact (List.prefix_append _ _).trans (ih _ _)

/-- The merge loop runs its queue, and ends with the last one. -/
theorem mergeLoop_queues (tie : TiePolicy) {ls : List Node} (hk : ls.length ≤ 256)
    (hS : (ls.map fun x => x.freq.toNat).sum < 2 ^ 40) (fuel : Nat) {ns : List Node} {q : List QEntry}
    {ts : List (QEntry × BTree)} (hq : q.Perm (ts.map Prod.fst)) (h : MergeInv ls ns ts) :
    ∃ Q, Q ns.length = q ∧ QueueRun tie (mergeLoop tie fuel ns q).1 ns.length Q
      ∧ Q (mergeLoop tie fuel ns q).1.length = (mergeLoop tie fuel ns q).2 := by
  induction fuel generalizing ns q ts with
  | zero => exact ⟨fun _ => q, rfl, .stay _ _ _, rfl⟩
  | succ fuel ih =>
    simp only [mergeLoop]
    cases hx : queueExtractMin tie q with
    | none => exact ⟨fun _ => q, rfl, .stay _ _ _, rfl⟩
    | some p =>
      obtain ⟨a, q1⟩ := p
      dsimp only
      cases hy : queueExtractMin tie q1 with
      | none => exact ⟨fun _ => q, rfl, .stay _ _ _, rfl⟩
      | some p =>
        obtain ⟨b, q2⟩ := p
        dsimp only
        obtain ⟨ta, ts1, rfl, hp1, hq1⟩ := perm_map_cons ((queueExtractMin_perm hx).trans hq)
        obtain ⟨tb, ts2, rfl, hp2, hq2⟩ := perm_map_cons ((queueExtractMin_perm hy).trans hq1)
        have h' := h.perm (hp1.trans (hp2.cons ta))
        have hlen : ns.length < 511 := by
          have := h'.count; simp only [List.length_cons] at this; omega
        have hia := (h'.idx ta (by simp)).1
        have hib := (h'.idx tb (by simp)).1
        have ea := h'.entry (t := ta) (by simp)
        have eb := h'.entry (t := tb) (by simp)
        have la : (BitVec.ofNat 9 ta.1.idx).toNat = ta.1.idx := by rw [BitVec.toNat_ofNat]; omega
        have lb : (BitVec.ofNat 9 tb.1.idx).toNat = tb.1.idx := by rw [BitVec.toNat_ofNat]; omega
        obtain ⟨Q, e0, hQ, e1⟩ := ih ((queueInsert_perm _ _ _).trans (hq2.cons _)) (h'.merge hk hS)
        have hpre := mergeLoop_prefix tie fuel (ns ++ [.internal (ta.1.freq + tb.1.freq)
          (BitVec.ofNat 9 ta.1.idx) (BitVec.ofNat 9 tb.1.idx)])
          (queueInsert tie q2 ⟨ta.1.freq + tb.1.freq, ns.length⟩)
        generalize mergeLoop tie fuel (ns ++ [.internal (ta.1.freq + tb.1.freq)
          (BitVec.ofNat 9 ta.1.idx) (BitVec.ofNat 9 tb.1.idx)])
          (queueInsert tie q2 ⟨ta.1.freq + tb.1.freq, ns.length⟩) = R at *
        simp only [List.length_append, List.length_singleton] at e0 hQ
        have hpre' := (List.prefix_append ns _).trans hpre
        have hle := hpre.length_le
        simp only [List.length_append, List.length_singleton] at hle
        refine ⟨fun n => if n = ns.length then q else Q n, if_pos rfl, fun n f l r hn hxn => ?_, ?_⟩
        · beta_reduce
          by_cases hnn : n = ns.length
          · subst hnn
            have hnode : R.1[ns.length]? = some (.internal (ta.1.freq + tb.1.freq)
                (BitVec.ofNat 9 ta.1.idx) (BitVec.ofNat 9 tb.1.idx)) := by
              obtain ⟨rs, hrs⟩ := hpre
              rw [← hrs, List.append_assoc, List.getElem?_append_right (Nat.le_refl _)]
              simp
            have hent : nodeEntry R.1 ns.length = ⟨ta.1.freq + tb.1.freq, ns.length⟩ := by
              unfold nodeEntry; rw [hnode]; rfl
            rw [hnode] at hxn
            obtain ⟨rfl, rfl, rfl⟩ := Node.internal.inj (Option.some.inj hxn)
            refine ⟨q1, q2, ?_, ?_, ?_⟩
            · rw [if_pos rfl, la, nodeEntry_prefix hpre' hia, ← ea]; exact hx
            · rw [lb, nodeEntry_prefix hpre' hib, ← eb]; exact hy
            · rw [if_neg (by omega), e0, hent]
          · obtain ⟨q1', q2', g1, g2, g3⟩ := hQ n f l r (by omega) hxn
            exact ⟨q1', q2', by rw [if_neg hnn]; exact g1, g2, by rw [if_neg (by omega)]; exact g3⟩
        · exact (if_neg (by omega)).trans e1

theorem queueExtractMin_single (tie : TiePolicy) (e : QEntry) :
    queueExtractMin tie [e] = some (e, []) := by
  cases tie
  · simp [queueExtractMin, fifoExtractMin, fifoLeast]
  · rfl

theorem entriesFrom_zero {ls ns : List Node} (h : ls <+: ns) :
    entriesFrom 0 ls = (List.range ls.length).map (nodeEntry ns) := by
  rw [entriesFrom_eq]
  refine List.map_congr_left fun i hi => ?_
  rw [nodeEntry_prefix h (List.mem_range.1 hi), Nat.zero_add]; rfl

/-- The queues of BUILD: at first the leaves, then one merge after another, at last the root. -/
theorem buildTree_queues (tie : TiePolicy) (hist : Vector Word 256) :
    ∃ Q, Q (nonzeroCount hist) = queueInit tie ((List.range (nonzeroCount hist)).map
          (nodeEntry (buildTree tie hist).nodes))
      ∧ QueueRun tie (buildTree tie hist).nodes (nonzeroCount hist) Q
      ∧ ∀ r, (buildTree tie hist).root = some r →
        queueExtractMin tie (Q (buildTree tie hist).nodes.length)
          = some (nodeEntry (buildTree tie hist).nodes r, []) := by
  have hk : (leavesOf hist).length ≤ 256 := by rw [leavesOf_length]; exact nonzeroCount_le hist
  by_cases h0 : nonzeroCount hist = 0
  · rw [buildTree_empty tie hist h0, h0]
    exact ⟨fun _ => [], rfl, .stay _ _ _, fun r hr => by cases hr⟩
  obtain ⟨T, hT⟩ := buildTree_built tie hist h0
  obtain ⟨-, -, hroot⟩ := hT.inv.idx _ (List.mem_singleton.2 rfl)
  have hinit := MergeInv.init hist
  have hlen := leavesOf_length hist
  match hls : leavesOf hist with
  | [] => rw [hls] at hlen; exact absurd hlen.symm h0
  | [x] =>
    have hb : buildTree tie hist = { nodes := [x], leaves := 1, root := some 0 } := by
      simp [buildTree, hls]
    rw [hls] at hlen
    rw [hb, ← hlen]
    refine ⟨fun _ => [nodeEntry [x] 0], ?_, .stay _ _ _, fun r hr => ?_⟩
    · cases tie <;> rfl
    · cases hr; exact queueExtractMin_single tie _
  | x :: y :: zs =>
    have hb : buildTree tie hist =
        { nodes := (mergeLoop tie (leavesOf hist).length (leavesOf hist)
            (queueInit tie (entriesFrom 0 (leavesOf hist)))).1
          leaves := (leavesOf hist).length
          root := (queueExtractMin tie (mergeLoop tie (leavesOf hist).length (leavesOf hist)
            (queueInit tie (entriesFrom 0 (leavesOf hist)))).2).map fun e => e.1.idx } := by
      simp only [buildTree, hls]
    have hS : ((leavesOf hist).map fun x => x.freq.toNat).sum < 2 ^ 40 := by
      rw [leavesOf_sum]; exact histSum_lt hist
    have hq : (queueInit tie (entriesFrom 0 (leavesOf hist))).Perm
        ((leafTrees 0 (leavesOf hist)).map Prod.fst) := by
      rw [leafTrees_fst]; exact queueInit_perm tie _
    obtain ⟨t, ht, hend⟩ := mergeLoop_inv tie hk hS (leavesOf hist).length hq hinit
      (by rw [hls]; simp [leafTrees]) (by rw [leafTrees_length]; omega)
    obtain ⟨Q, e0, hQ, e1⟩ := mergeLoop_queues tie hk hS (leavesOf hist).length hq hinit
    have hpre := mergeLoop_prefix tie (leavesOf hist).length (leavesOf hist)
      (queueInit tie (entriesFrom 0 (leavesOf hist)))
    rw [entriesFrom_zero hpre] at e0
    generalize mergeLoop tie (leavesOf hist).length (leavesOf hist)
      (queueInit tie (entriesFrom 0 (leavesOf hist))) = R at *
    rw [hb, ← hlen]
    refine ⟨Q, e0, hQ, fun r hr => ?_⟩
    rw [e1, hend, queueExtractMin_single]
    rw [hend, queueExtractMin_single] at hr
    cases hr
    rw [← ht.entry (List.mem_singleton.2 rfl)]
end Sys2Proof.Machine
end

