-- ==== Sys2Proof/Laws/Packer.lean ====
section
/-! SUPPORT. PACK's loop and UNPACK's walk, each said once (43_bit_packer.md R139, R148). -/

namespace Sys2Proof.Machine

/-! ## PACK -/

theorem lt_ceilDiv8 (cap n : Nat) : cap < ceilDiv8 n ↔ 8 * cap < n := by
  unfold ceilDiv8; omega

theorem encodeWith_append (code : Vector Code 256) (xs ys : List Byte) :
    encodeWith code (xs ++ ys) = encodeWith code xs ++ encodeWith code ys := by
  simp [encodeWith]

@[simp] theorem encodeWith_cons (code : Vector Code 256) (b : Byte) (bs : List Byte) :
    encodeWith code (b :: bs) = (codeAt code b).bits ++ encodeWith code bs := by
  simp [encodeWith]

@[simp] theorem encodeWith_nil (code : Vector Code 256) : encodeWith code [] = [] := rfl

/-- The loop passes a part of the input whose bytes have codes and whose bits fit. -/
theorem packLoop_append {code : Vector Code 256} {cap : Nat} (xs ys : List Byte) (i : Nat) (s : Bits)
    (hc : ∀ b ∈ xs, HasCode code b) (hf : (s ++ encodeWith code xs).length ≤ 8 * cap) :
    packLoop code cap i s (xs ++ ys) =
      packLoop code cap (i + xs.length) (s ++ encodeWith code xs) ys := by
  induction xs generalizing i s with
  | nil => simp
  | cons b bs ih =>
    have hb : ¬ (codeAt code b).len = 0#8 := hc b (by simp)
    simp only [encodeWith_cons] at hf ⊢
    rw [← List.append_assoc] at hf ⊢
    have hl : ¬ cap < ceilDiv8 (s ++ (codeAt code b).bits).length := by
      rw [lt_ceilDiv8]
      rw [List.length_append] at hf
      omega
    simp only [List.cons_append, packLoop, if_neg hb, if_neg hl]
    rw [ih (i + 1) _ (fun c hc' => hc c (by simp [hc'])) hf]
    congr 1
    simp; omega

theorem packLoop_bits {code : Vector Code 256} {cap : Nat} {d : List Byte}
    (hc : ∀ b ∈ d, HasCode code b) (hf : (encodeWith code d).length ≤ 8 * cap) :
    packLoop code cap 0 [] d = .bits (encodeWith code d) := by
  have := packLoop_append (cap := cap) d [] 0 [] hc (by simpa using hf)
  simpa [packLoop] using this

/-- A loop that encodes every byte found each one present, and the bits fit. -/
theorem packLoop_eq_bits {code : Vector Code 256} {cap : Nat} {d : List Byte} {i : Nat} {s bits : Bits}
    (h : packLoop code cap i s d = .bits bits) (hs : s.length ≤ 8 * cap) :
    (∀ b ∈ d, HasCode code b) ∧ bits = s ++ encodeWith code d ∧ bits.length ≤ 8 * cap := by
  induction d generalizing i s with
  | nil => cases h; simpa using hs
  | cons b bs ih =>
    simp only [packLoop] at h
    split at h
    · cases h
    · split at h
      · cases h
      · rename_i hb hl
        rw [lt_ceilDiv8] at hl
        obtain ⟨h1, h2, h3⟩ := ih h (by omega)
        refine ⟨?_, by rw [h2]; simp, h3⟩
        intro c hm
        rcases List.mem_cons.1 hm with rfl | hm
        · exact hb
        · exact h1 c hm

/-- A loop that runs over stopped at the first byte at which the bits no longer fit. -/
theorem packLoop_eq_over {code : Vector Code 256} {cap : Nat} {d : List Byte} {i j : Nat} {s : Bits}
    {b : Byte} (h : packLoop code cap i s d = .over b j) (hs : s.length ≤ 8 * cap) :
    ∃ k, j = i + k ∧ d[k]? = some b ∧ (s ++ encodeWith code (d.take k)).length ≤ 8 * cap
      ∧ 8 * cap < (s ++ encodeWith code (d.take (k + 1))).length := by
  induction d generalizing i s with
  | nil => cases h
  | cons c d ih =>
    simp only [packLoop] at h
    split at h
    · cases h
    · split at h
      · rename_i ho
        cases h
        rw [lt_ceilDiv8] at ho
        exact ⟨0, rfl, rfl, by simpa using hs, by simpa using ho⟩
      · rename_i hl
        rw [lt_ceilDiv8] at hl
        obtain ⟨k, h1, h2, h3, h4⟩ := ih h (by omega)
        rw [List.append_assoc] at h3 h4
        exact ⟨k + 1, by omega, h2, h3, h4⟩

theorem split_at {d : List Byte} {i : Nat} {b : Byte} (h : d[i]? = some b) :
    d = d.take i ++ b :: d.drop (i + 1) ∧ d.take (i + 1) = d.take i ++ [b] ∧ (d.take i).length = i := by
  obtain ⟨hl, rfl⟩ := List.getElem?_eq_some_iff.1 h
  refine ⟨?_, ?_, by simp; omega⟩
  · rw [List.getElem_cons_drop, List.take_append_drop]
  · rw [List.take_concat_get' d i hl]

theorem packLoop_absent {code : Vector Code 256} {cap : Nat} {d : List Byte} {i : Nat} {b : Byte}
    (h : d[i]? = some b) (hc : ∀ c ∈ d.take i, HasCode code c)
    (hf : (encodeWith code (d.take i)).length ≤ 8 * cap) (hb : ¬ HasCode code b) :
    packLoop code cap 0 [] d = .absent b i := by
  obtain ⟨h1, -, h3⟩ := split_at h
  have hb' : (codeAt code b).len = 0#8 := by unfold HasCode at hb; simpa using hb
  rw [h1, packLoop_append (d.take i) _ 0 [] hc (by simpa using hf), h3]
  simp only [packLoop, if_pos hb', Nat.zero_add]

theorem packLoop_over {code : Vector Code 256} {cap : Nat} {d : List Byte} {i : Nat} {b : Byte}
    (h : d[i]? = some b) (hc : ∀ c ∈ d.take i, HasCode code c)
    (hf : (encodeWith code (d.take i)).length ≤ 8 * cap) (hb : HasCode code b)
    (ho : 8 * cap < (encodeWith code (d.take (i + 1))).length) :
    packLoop code cap 0 [] d = .over b i := by
  obtain ⟨h1, h2, h3⟩ := split_at h
  rw [h2, encodeWith_append] at ho
  simp only [encodeWith_cons, encodeWith_nil, List.append_nil] at ho
  rw [h1, packLoop_append (d.take i) _ 0 [] hc (by simpa using hf), h3]
  simp only [packLoop, List.nil_append]
  rw [if_neg hb, if_pos (by rw [lt_ceilDiv8]; exact ho), Nat.zero_add]

/-- A successful PACK: every byte has a code, the bits fit, and the state. -/
theorem packBody_ok {s : State} (hc : s.codesValid = true) (hl : s.inLen.toNat ≤ s.cfg.inCap)
    (hp : ∀ b ∈ inputOf s, HasCode s.code b)
    (hf : (encodeWith s.code (inputOf s)).length ≤ 8 * s.cfg.pbufCap) :
    packBody s = .ok (setPayload (packBits (encodeWith s.code (inputOf s)))
      (BitVec.ofNat 3 (padCount (encodeWith s.code (inputOf s)).length)) (readInput s).2) := by
  rw [packBody_run hc hl, packLoop_bits hp hf]

theorem packBody_ok_cases {s t : State} (h : packBody s = .ok t) :
    s.codesValid = true ∧ s.inLen.toNat ≤ s.cfg.inCap ∧ (∀ b ∈ inputOf s, HasCode s.code b)
      ∧ (encodeWith s.code (inputOf s)).length ≤ 8 * s.cfg.pbufCap
      ∧ t = setPayload (packBits (encodeWith s.code (inputOf s)))
        (BitVec.ofNat 3 (padCount (encodeWith s.code (inputOf s)).length)) (readInput s).2 := by
  obtain ⟨h1, h2, bits, h3, h4⟩ := packBody_cases h
  obtain ⟨g1, g2, g3⟩ := packLoop_eq_bits h3 (by simp)
  rw [List.nil_append] at g2
  subst g2
  exact ⟨h1, h2, g1, g3, h4⟩

/-! ## UNPACK -/

theorem WalkResult.emit_out (b : Byte) (r : WalkResult) : (r.emit b).out = b :: r.out := rfl

@[simp] theorem WalkResult.emit_error (b : Byte) (r : WalkResult) : (r.emit b).error = r.error := rfl

theorem walkLeaf_length (sym : Byte) (total j e : Nat) (bs : Bits) (he : e ≤ total) :
    e + (walkLeaf sym total j e bs).out.length ≤ total
      ∧ ((walkLeaf sym total j e bs).error = none →
        e + (walkLeaf sym total j e bs).out.length = total) := by
  induction bs generalizing j e with
  | nil => simp only [walkLeaf]; refine ⟨by simpa using he, ?_⟩; split <;> simp_all
  | cons b bs ih =>
    simp only [walkLeaf]
    split
    · exact ⟨by simpa using he, by simp⟩
    · split
      · exact ⟨by simpa using he, by simp⟩
      · obtain ⟨h1, h2⟩ := ih (j + 1) (e + 1) (by omega)
        rw [WalkResult.emit_out, WalkResult.emit_error, List.length_cons]
        exact ⟨by omega, fun h => by have := h2 h; omega⟩

theorem walkTree_length (node : Vector Node 511) (root : NodeIdx) (total : Nat) (pos : NodeIdx)
    (j e : Nat) (bs : Bits) (he : e ≤ total) :
    e + (walkTree node root total pos j e bs).out.length ≤ total
      ∧ ((walkTree node root total pos j e bs).error = none →
        e + (walkTree node root total pos j e bs).out.length = total) := by
  induction bs generalizing pos j e with
  | nil =>
    simp only [walkTree]
    refine ⟨by simpa using he, ?_⟩
    split
    · simp
    · split <;> simp_all
  | cons b bs ih =>
    simp only [walkTree]
    split
    · split
      · exact ⟨by simpa using he, by simp⟩
      · obtain ⟨h1, h2⟩ := ih root (j + 1) (e + 1) (by omega)
        rw [WalkResult.emit_out, WalkResult.emit_error, List.length_cons]
        exact ⟨by omega, fun h => by have := h2 h; omega⟩
    · exact ih _ _ _ he

/-- The walk emits at most TOTAL symbols, and exactly TOTAL when it raises nothing
(43_bit_packer.md R150, R151). -/
theorem walk_length (node : Vector Node 511) (root : NodeIdx) (total : Nat) (bs : Bits) :
    (walk node root total bs).out.length ≤ total
      ∧ ((walk node root total bs).error = none → (walk node root total bs).out.length = total) := by
  unfold walk
  split
  · have := walkLeaf_length ‹_› total 0 0 bs (by omega)
    simpa using this
  · have := walkTree_length node root total root 0 0 bs (by omega)
    simpa using this

end Sys2Proof.Machine
end

