-- ==== Sys2Proof/Laws/Tree.lean ====
section
/-! SUPPORT. The node store after BUILD, and what a coherent tree gives: a represented tree, the codes
GENCODES derives from it, and the walk that takes them apart. -/

namespace Sys2Proof.Machine

theorem buildTree_nodes_le (tie : TiePolicy) (hist : Vector Word 256) :
    (buildTree tie hist).nodes.length ≤ 511 := by
  by_cases h : nonzeroCount hist = 0
  · rw [buildTree_empty tie hist h]; simp
  · obtain ⟨T, hT⟩ := buildTree_built tie hist h
    have := hT.nodes_length
    have := nonzeroCount_le hist
    omega

theorem nonzeroCount_eq_zero {hist : Vector Word 256} :
    nonzeroCount hist = 0 ↔ ∀ v, histAt hist v = 0#32 := by
  unfold nonzeroCount
  rw [List.countP_eq_zero]
  exact ⟨fun h v => by simpa using h v (mem_allBytes v), fun h v _ => by simp [h v]⟩

/-- BUILD's tree in a state. -/
abbrev built (s : State) : State := setTree (buildTree s.cfg.tie s.hist) (invalidateCodes s)

theorem buildBody_eq (s : State) : buildBody s = .ok (built s) := rfl

theorem built_nnodes (s : State) :
    (built s).nnodes.toNat = (buildTree s.cfg.tie s.hist).nodes.length := by
  have := buildTree_nodes_le s.cfg.tie s.hist
  simp only [built, setTree_nnodes, BitVec.toNat_ofNat]
  omega

theorem built_nsym (s : State) : (built s).nsym.toNat = nonzeroCount s.hist := by
  have e : (buildTree s.cfg.tie s.hist).leaves = nonzeroCount s.hist := by
    by_cases h : nonzeroCount s.hist = 0
    · rw [buildTree_empty _ _ h, h]
    · obtain ⟨T, hT⟩ := buildTree_built s.cfg.tie s.hist h
      exact hT.leaves
  have := nonzeroCount_le s.hist
  simp only [built, setTree_nsym, BitVec.toNat_ofNat, e]
  omega

theorem built_stores (s : State) : Stores (built s).node (buildTree s.cfg.tie s.hist).nodes :=
  storeNodes_stores _ _ (buildTree_nodes_le _ _)

theorem Stores.nodeN {s : State} {ns : List Node} (h : Stores s.node ns) (hl : ns.length ≤ 511) {n : Nat}
    {x : Node} (hx : ns[n]? = some x) : nodeN s n = x := by
  obtain ⟨hn, -⟩ := List.getElem?_eq_some_iff.1 hx
  refine h.nodeAt ?_
  rw [BitVec.toNat_ofNat, Nat.mod_eq_of_lt (by omega)]
  exact hx

/-- BUILD leaves a coherent tree. -/
theorem built_coherent (s : State) : TreeCoherent (built s) :=
  fun _ => ⟨rfl, rfl, rfl, rfl, built_stores s⟩

/-! ## A coherent tree -/

/-- Coherence is about the configuration, the tree and HIST alone. -/
theorem TreeCoherent.of_same {s t : State} (h : TreeCoherent s) (hc : t.cfg = s.cfg)
    (ht : SameTree s t) (hh : t.hist = s.hist) : TreeCoherent t := by
  obtain ⟨h1, h2, h3, h4, h5, h6⟩ := ht
  unfold TreeCoherent at *
  rw [hc, hh, h1, h2, h3, h4, h5, h6]
  exact h

theorem TreeCoherent.setCodes {s : State} (h : TreeCoherent s) (table : Vector Code 256) :
    TreeCoherent (Machine.setCodes table s) := h.of_same rfl ⟨rfl, rfl, rfl, rfl, rfl, rfl⟩ rfl

theorem TreeCoherent.setPayload {s : State} (h : TreeCoherent s) (bs : List Byte) (p : BitVec 3) :
    TreeCoherent (Machine.setPayload bs p s) := h.of_same rfl ⟨rfl, rfl, rfl, rfl, rfl, rfl⟩ rfl

theorem TreeCoherent.invalidateCodes {s : State} (h : TreeCoherent s) :
    TreeCoherent (Machine.invalidateCodes s) := h.of_same rfl ⟨rfl, rfl, rfl, rfl, rfl, rfl⟩ rfl

theorem TreeCoherent.invalidatePayload {s : State} (h : TreeCoherent s) :
    TreeCoherent (Machine.invalidatePayload s) := h.of_same rfl ⟨rfl, rfl, rfl, rfl, rfl, rfl⟩ rfl

/-- The outcome and OUT_LEN are no part of a coherent tree. -/
theorem TreeCoherent.outcome {s : State} (h : TreeCoherent s) (e : BitVec 4) (x y z : Byte)
    (a o : Word) (m : Memory) (n : Nat) :
    TreeCoherent
      { s with
        err := e, errSub := x, errSym := y, errStage := z, errArg := a, outLen := o
        mem := m, draws := n, busy := false, done := true } :=
  h.of_same rfl ⟨rfl, rfl, rfl, rfl, rfl, rfl⟩ rfl

theorem TreeCoherent.stores {s : State} (h : TreeCoherent s) (hv : s.treeValid = true) :
    Stores s.node (buildTree s.cfg.tie s.hist).nodes := (h hv).2.2.2.2

theorem TreeCoherent.nnodes {s : State} (h : TreeCoherent s) (hv : s.treeValid = true) :
    s.nnodes.toNat = (buildTree s.cfg.tie s.hist).nodes.length := by
  have := buildTree_nodes_le s.cfg.tie s.hist
  rw [(h hv).2.1, BitVec.toNat_ofNat]
  omega

theorem TreeCoherent.root_none {s : State} (h : TreeCoherent s) (hv : s.treeValid = true)
    (hk : nonzeroCount s.hist = 0) : s.root = none ∧ s.total = 0#40 := by
  obtain ⟨-, -, h3, h4, -⟩ := h hv
  rw [buildTree_empty _ _ hk] at h3 h4
  exact ⟨h3, h4⟩

/-- What a nonempty built tree gives to a node store that holds it. -/
theorem Built.rep {hist : Vector Word 256} {t : HuffTree} {T : BTree} (h : Built hist t T)
    {node : Vector Node 511} (hs : Stores node t.nodes) :
    Rep node T (BitVec.ofNat 9 (2 * nonzeroCount hist - 2)) := by
  obtain ⟨h1, h2, -⟩ := h.inv.idx _ (List.mem_singleton.2 rfl)
  have := nonzeroCount_le hist
  refine hs.rep ?_
  rw [BitVec.toNat_ofNat, Nat.mod_eq_of_lt (by omega)]
  exact h2

theorem Built.depth_lt {hist : Vector Word 256} {t : HuffTree} {T : BTree} (h : Built hist t T) :
    T.depth < nonzeroCount hist ∧ T.depth < t.nodes.length := by
  have h1 := T.depth_lt
  have h2 := h.syms.length_eq
  have h3 := h.nodes_length
  rw [nonzeroSyms_length] at h2
  omega

/-- A coherent nonempty tree: the tree it represents, its symbols, and its registers. -/
theorem TreeCoherent.rep {s : State} (h : TreeCoherent s) (hv : s.treeValid = true)
    (hk : nonzeroCount s.hist ≠ 0) :
    ∃ T r, Built s.hist (buildTree s.cfg.tie s.hist) T ∧ s.root = some r ∧ Rep s.node T r
      ∧ s.total.toNat = histSum s.hist ∧ s.nsym.toNat = nonzeroCount s.hist
      ∧ T.depth < s.nnodes.toNat := by
  obtain ⟨T, hT⟩ := buildTree_built s.cfg.tie s.hist hk
  obtain ⟨h1, h2, h3, h4, h5⟩ := h hv
  refine ⟨T, _, hT, by rw [h3, hT.root]; rfl, hT.rep h5, by rw [h4, hT.total], ?_, ?_⟩
  · have := nonzeroCount_le s.hist
    rw [h1, hT.leaves, BitVec.toNat_ofNat]
    omega
  · rw [h.nnodes hv]; exact hT.depth_lt.2

theorem Built.nodup {hist : Vector Word 256} {t : HuffTree} {T : BTree} (h : Built hist t T) :
    T.syms.Nodup := h.syms.nodup_iff.2 (nonzeroSyms_nodup hist)

theorem Built.mem_syms {hist : Vector Word 256} {t : HuffTree} {T : BTree} (h : Built hist t T)
    {v : Byte} : v ∈ T.syms ↔ histAt hist v ≠ 0#32 := by
  rw [h.syms.mem_iff, mem_nonzeroSyms]

/-- The code table of a histogram: the codes of its tree. -/
theorem histCodes_spec {hist : Vector Word 256} {tie : TiePolicy} {T : BTree}
    (h : Built hist (buildTree tie hist) T) :
    (∀ v p, (v, p) ∈ T.codes → codeAt (histCodes tie hist) v = Code.ofBits p)
      ∧ ∀ v, histAt hist v = 0#32 → codeAt (histCodes tie hist) v = Code.absent := by
  have hr := h.rep (storeNodes_stores (Vector.replicate 511 (.leaf 0#8 0#40)) _
    (buildTree_nodes_le tie hist))
  obtain ⟨h1, h2⟩ := codeTable_spec hr h.nodup h.depth_lt.2
  unfold histCodes
  dsimp only
  rw [h.root]
  exact ⟨h1, fun v hv => h2 v fun hm => h.mem_syms.1 hm hv⟩

/-- GENCODES' table of a coherent tree depends on the histogram alone. -/
theorem TreeCoherent.codeTable {s : State} (h : TreeCoherent s) (hv : s.treeValid = true) :
    codeTable s.node s.nnodes.toNat s.root = histCodes s.cfg.tie s.hist := by
  by_cases hk : nonzeroCount s.hist = 0
  · unfold histCodes
    rw [(h.root_none hv hk).1, buildTree_empty _ _ hk]
    dsimp only [Machine.codeTable, Option.map_none]
  · obtain ⟨T, r, hT, hr, hrep, -, -, hd⟩ := h.rep hv hk
    obtain ⟨h1, h2⟩ := codeTable_spec hrep hT.nodup hd
    obtain ⟨g1, g2⟩ := histCodes_spec hT
    rw [hr]
    refine code_ext fun v => ?_
    by_cases hm : v ∈ T.syms
    · obtain ⟨p, hp⟩ := BTree.mem_syms_codes.1 hm
      rw [h1 v p hp, g1 v p hp]
    · rw [h2 v hm, g2 v]
      by_contra hne
      exact hm (hT.mem_syms.2 hne)

theorem Built.code_length {hist : Vector Word 256} {t : HuffTree} {T : BTree} (h : Built hist t T)
    {v : Byte} {p : Bits} (hp : (v, p) ∈ T.codes) : 0 < p.length ∧ p.length ≤ 255 := by
  have h1 := BTree.code_length hp
  have h2 := h.depth_lt.1
  have h3 := nonzeroCount_le hist
  omega

/-- A symbol of the tree has a code, and the code table gives its bits back. -/
theorem histCodes_bits {hist : Vector Word 256} {tie : TiePolicy} {T : BTree}
    (h : Built hist (buildTree tie hist) T) {v : Byte} {p : Bits} (hp : (v, p) ∈ T.codes) :
    (codeAt (histCodes tie hist) v).bits = p ∧ (codeAt (histCodes tie hist) v).len.toNat = p.length := by
  have hl := h.code_length hp
  rw [(histCodes_spec h).1 v p hp]
  refine ⟨Code.bits_ofBits p hl.2, ?_⟩
  simp only [Code.ofBits, BitVec.toNat_ofNat]
  omega

theorem histCodes_mem {hist : Vector Word 256} {tie : TiePolicy} {T : BTree}
    (h : Built hist (buildTree tie hist) T) {v : Byte} (hv : histAt hist v ≠ 0#32) :
    (v, (codeAt (histCodes tie hist) v).bits) ∈ T.codes := by
  obtain ⟨p, hp⟩ := BTree.mem_syms_codes.1 (h.mem_syms.2 hv)
  rw [(histCodes_bits h hp).1]
  exact hp

/-- An entry of the code table is present exactly where the counter is nonzero. -/
theorem hasCode_iff {hist : Vector Word 256} {tie : TiePolicy} {T : BTree}
    (h : Built hist (buildTree tie hist) T) (v : Byte) :
    HasCode (histCodes tie hist) v ↔ histAt hist v ≠ 0#32 := by
  unfold HasCode
  constructor
  · intro hc h0
    rw [(histCodes_spec h).2 v h0] at hc
    exact hc rfl
  · intro hv h0
    obtain ⟨p, hp⟩ := BTree.mem_syms_codes.1 (h.mem_syms.2 hv)
    have h1 := (histCodes_bits h hp).2
    have h2 := h.code_length hp
    rw [h0] at h1
    simp at h1
    omega

end Sys2Proof.Machine
end

