-- ==== Sys2Proof/Laws/Unpack.lean ====
section
/-! SUPPORT. UNPACK's walk over the tree of a histogram: it gives coded bytes back, or fails in one of
four ways (43_bit_packer.md R148, R152). -/

namespace Sys2Proof.Machine

/-- The walk of the concatenated codes of TOTAL symbols gives them back. -/
theorem TreeCoherent.walk_encodeWith {s : State} (h : TreeCoherent s) (hv : s.treeValid = true)
    (hk : nonzeroCount s.hist ≠ 0) {d : List Byte} (hl : d.length = histSum s.hist)
    (hd : ∀ b, b ∈ d → histAt s.hist b ≠ 0#32) :
    ∃ r, s.root = some r ∧ s.total.toNat = d.length
      ∧ walk s.node r s.total.toNat (encodeWith (histCodes s.cfg.tie s.hist) d)
        = { out := d, error := none } := by
  obtain ⟨T, r, hT, hr, hrep, ht, -, -⟩ := h.rep hv hk
  refine ⟨r, hr, by rw [ht, hl], ?_⟩
  rw [ht, ← hl]
  exact walk_encode hrep (fun b => (codeAt (histCodes s.cfg.tie s.hist) b).bits) d
    fun v hv => histCodes_mem hT (hd v hv)

/-- What the walk over a coherent tree has read. -/
theorem TreeCoherent.walk_reads {s : State} (h : TreeCoherent s) (hv : s.treeValid = true)
    (hk : nonzeroCount s.hist ≠ 0) {r : NodeIdx} (hr : s.root = some r) (bits : Bits) :
    ∃ T, Built s.hist (buildTree s.cfg.tie s.hist) T ∧ s.total.toNat = histSum s.hist
      ∧ WalkReads T (fun b => (codeAt (histCodes s.cfg.tie s.hist) b).bits) s.total.toNat 0 0 bits
          (walk s.node r s.total.toNat bits) := by
  obtain ⟨T, r', hT, hr', hrep, ht, -, -⟩ := h.rep hv hk
  obtain rfl : r = r' := Option.some.inj (hr.symm.trans hr')
  exact ⟨T, hT, ht, Machine.walk_reads hrep hT.nodup
    (fun v hv => histCodes_mem hT (hT.mem_syms.1 hv)) s.total.toNat bits⟩

/-- A walk that raises nothing has read exactly the codes of its output. -/
theorem TreeCoherent.walk_error_none {s : State} (h : TreeCoherent s) (hv : s.treeValid = true)
    (hk : nonzeroCount s.hist ≠ 0) {r : NodeIdx} (hr : s.root = some r) {bits : Bits}
    (he : (walk s.node r s.total.toNat bits).error = none) :
    let out := (walk s.node r s.total.toNat bits).out
    out.length = histSum s.hist ∧ (∀ b, b ∈ out → histAt s.hist b ≠ 0#32)
      ∧ bits = encodeWith (histCodes s.cfg.tie s.hist) out := by
  obtain ⟨T, hT, ht, hw⟩ := h.walk_reads hv hk hr bits
  generalize walk s.node r s.total.toNat bits = w at hw he
  cases hw with
  | done out ho hb hl => exact ⟨((Nat.zero_add _).symm.trans hl).trans ht, fun b hm => hT.mem_syms.1 (ho b hm), hb⟩
  | truncated => cases he
  | tooFew => cases he
  | tooMany => cases he
  | badBit => cases he

/-- A walk that raises says how the bits fail to be codes (43_bit_packer.md R148). -/
theorem TreeCoherent.walk_error_some {s : State} (h : TreeCoherent s) (hv : s.treeValid = true)
    (hk : nonzeroCount s.hist ≠ 0) {r : NodeIdx} (hr : s.root = some r) {bits : Bits} {e : Raised}
    (he : (walk s.node r s.total.toNat bits).error = some e) :
    ∃ n, e = walkError e.sub e.sym n
      ∧ WalkFails (histCodes s.cfg.tie s.hist) (histSum s.hist) bits
          (walk s.node r s.total.toNat bits).out e.sub e.sym n := by
  obtain ⟨T, hT, ht, hw⟩ := h.walk_reads hv hk hr bits
  have hlen := (walk_length s.node r s.total.toNat bits).1
  have hc : ∀ {v}, v ∈ T.syms → HasCode (histCodes s.cfg.tie s.hist) v :=
    fun hm => (hasCode_iff hT _).2 (hT.mem_syms.1 hm)
  have hcs : ∀ {out : List Byte}, (∀ v ∈ out, v ∈ T.syms) →
      ∀ b, b ∈ out → HasCode (histCodes s.cfg.tie s.hist) b := fun ho b hb => hc (ho b hb)
  rw [← ht]
  generalize walk s.node r s.total.toNat bits = w at hw he hlen
  cases hw with
  | done => cases he
  | truncated out rest v more ho hb hv hm h1 h2 =>
    cases he
    refine ⟨_, rfl, ?_⟩
    rw [Nat.zero_add]
    exact .truncated v rest more (hcs ho) hlen hb (hc hv) hm h1 h2
  | tooFew out ho hb hl =>
    cases he
    refine ⟨_, rfl, ?_⟩
    rw [Nat.zero_add]
    rw [Nat.zero_add] at hl
    exact .tooFew (hcs ho) hb (Nat.lt_of_le_of_ne hlen hl)
  | tooMany out v more ho hv hb hl =>
    cases he
    refine ⟨_, rfl, ?_⟩
    rw [Nat.zero_add]
    rw [Nat.zero_add] at hl
    exact .tooMany v more (hcs ho) hl (hc hv) (by rw [hb, List.append_assoc]; rfl)
  | badBit out v more hl ho hb =>
    cases he
    refine ⟨_, rfl, ?_⟩
    rw [Nat.zero_add]
    refine .badBit v more (fun b => ?_) (hcs ho) hlen hb
    rw [hasCode_iff hT, ← hT.mem_syms, hl]
    simp [BTree.syms]

/-- A nonempty coherent tree has a root. -/
theorem TreeCoherent.root_some {s : State} (h : TreeCoherent s) (hv : s.treeValid = true)
    (hk : nonzeroCount s.hist ≠ 0) : ∃ r, s.root = some r ∧ s.total.toNat = histSum s.hist := by
  obtain ⟨T, r, -, hr, -, ht, -, -⟩ := h.rep hv hk
  exact ⟨r, hr, ht⟩

theorem histSum_eq_zero {hist : Vector Word 256} (h : nonzeroCount hist = 0) : histSum hist = 0 := by
  rw [nonzeroCount_eq_zero] at h
  unfold histSum
  refine List.sum_eq_zero fun x hx => ?_
  obtain ⟨v, -, rfl⟩ := List.mem_map.1 hx
  rw [h v]; rfl

/-- TOTAL of a coherent tree is the sum of the counters. -/
theorem TreeCoherent.total {s : State} (h : TreeCoherent s) (hv : s.treeValid = true) :
    s.total.toNat = histSum s.hist := by
  by_cases hk : nonzeroCount s.hist = 0
  · rw [(h.root_none hv hk).2, histSum_eq_zero hk]; rfl
  · exact (h.root_some hv hk).choose_spec.2

end Sys2Proof.Machine
end

