-- ==== Sys2Proof/Laws/Pipeline.lean ====
section
/-! SUPPORT. The composite commands, said once in terms of the input bytes: what COMPRESS and
DECOMPRESS do after COUNT, DESERIALIZE and BUILD (45_pipeline_and_control.md R161, R162). -/

namespace Sys2Proof.Machine

/-! ## The walk depends on the built nodes alone -/

theorem childOf_congr {node node' : Vector Node 511} {m : Nat}
    (h : ∀ n : NodeIdx, n.toNat < m → nodeAt node' n = nodeAt node n)
    (hc : ∀ (n : NodeIdx) f l r, n.toNat < m → nodeAt node n = .internal f l r →
      l.toNat < m ∧ r.toNat < m) {pos : NodeIdx} (hp : pos.toNat < m) (b : Bool) :
    childOf node' pos b = childOf node pos b ∧ (childOf node pos b).toNat < m := by
  unfold childOf
  rw [h pos hp]
  cases hx : nodeAt node pos with
  | leaf v f => exact ⟨rfl, hp⟩
  | internal f l r =>
    obtain ⟨h1, h2⟩ := hc pos f l r hp hx
    cases b
    · exact ⟨rfl, h1⟩
    · exact ⟨rfl, h2⟩

theorem walkTree_congr {node node' : Vector Node 511} {m : Nat}
    (h : ∀ n : NodeIdx, n.toNat < m → nodeAt node' n = nodeAt node n)
    (hc : ∀ (n : NodeIdx) f l r, n.toNat < m → nodeAt node n = .internal f l r →
      l.toNat < m ∧ r.toNat < m) {root : NodeIdx} (hr : root.toNat < m) (total : Nat) (bits : Bits)
    {pos : NodeIdx} (hp : pos.toNat < m) (j e : Nat) :
    walkTree node' root total pos j e bits = walkTree node root total pos j e bits := by
  induction bits generalizing pos j e with
  | nil => rfl
  | cons b bs ih =>
    obtain ⟨h1, h2⟩ := childOf_congr h hc hp b
    simp only [walkTree, h1, h _ h2]
    split
    · rw [ih hr]
    · exact ih h2 _ _

theorem walk_congr {node node' : Vector Node 511} {m : Nat}
    (h : ∀ n : NodeIdx, n.toNat < m → nodeAt node' n = nodeAt node n)
    (hc : ∀ (n : NodeIdx) f l r, n.toNat < m → nodeAt node n = .internal f l r →
      l.toNat < m ∧ r.toNat < m) {root : NodeIdx} (hr : root.toNat < m) (total : Nat) (bits : Bits) :
    walk node' root total bits = walk node root total bits := by
  unfold walk
  rw [h root hr]
  split
  · rfl
  · exact walkTree_congr h hc hr total bits hr 0 0

/-- The children of a built node are built nodes. -/
theorem Built.closed {hist : Vector Word 256} {t : HuffTree} {T : BTree} (h : Built hist t T)
    {node : Vector Node 511} (hs : Stores node t.nodes) (n : NodeIdx) (f : Freq) (l r : NodeIdx)
    (hn : n.toNat < t.nodes.length) (hx : nodeAt node n = .internal f l r) :
    l.toNat < t.nodes.length ∧ r.toNat < t.nodes.length := by
  rw [hs.nodeAt (List.getElem?_eq_getElem hn)] at hx
  by_cases hl : (leavesOf hist).length ≤ n.toNat
  · obtain ⟨f', l', r', hx', a, b, -⟩ := h.inv.internals _ hl hn
    rw [List.getElem?_eq_getElem hn, hx] at hx'
    cases hx'
    omega
  · obtain ⟨v, g, hv⟩ := h.inv.areLeaves n.toNat (by omega)
    rw [List.getElem?_eq_getElem hn, hx] at hv
    cases hv

theorem Stores.nodeAt_eq {node node' : Vector Node 511} {ns : List Node} (h : Stores node ns)
    (h' : Stores node' ns) {n : NodeIdx} (hn : n.toNat < ns.length) :
    Machine.nodeAt node' n = Machine.nodeAt node n := by
  rw [h.nodeAt (List.getElem?_eq_getElem hn), h'.nodeAt (List.getElem?_eq_getElem hn)]

/-- Two coherent trees of one histogram: the same registers, the same nodes, the same walks. -/
theorem TreeCoherent.congr {s s' : State} (h : TreeCoherent s) (h' : TreeCoherent s')
    (hv : s.treeValid = true) (hv' : s'.treeValid = true) (hh : s'.hist = s.hist)
    (ht : s'.cfg.tie = s.cfg.tie) :
    s'.nsym = s.nsym ∧ s'.nnodes = s.nnodes ∧ s'.root = s.root ∧ s'.total = s.total
      ∧ (∀ n, n < s.nnodes.toNat → nodeN s' n = nodeN s n)
      ∧ ∀ r, s.root = some r → ∀ total bits,
          walk s'.node r total bits = walk s.node r total bits := by
  have hs := h.stores hv
  have hs' := h'.stores hv'
  obtain ⟨a1, a2, a3, a4, -⟩ := h hv
  obtain ⟨b1, b2, b3, b4, -⟩ := h' hv'
  rw [hh, ht] at hs' b1 b2 b3 b4
  have hlen := buildTree_nodes_le s.cfg.tie s.hist
  refine ⟨b1.trans a1.symm, b2.trans a2.symm, b3.trans a3.symm, b4.trans a4.symm, ?_, ?_⟩
  · intro n hn
    rw [h.nnodes hv] at hn
    refine Stores.nodeAt_eq hs hs' ?_
    rw [BitVec.toNat_ofNat, Nat.mod_eq_of_lt (by omega)]
    exact hn
  · intro r hr total bits
    by_cases hk : nonzeroCount s.hist = 0
    · rw [(h.root_none hv hk).1] at hr; cases hr
    · obtain ⟨T, hT⟩ := buildTree_built s.cfg.tie s.hist hk
      refine walk_congr (m := (buildTree s.cfg.tie s.hist).nodes.length)
        (fun n hn => Stores.nodeAt_eq hs hs' hn) (fun n f l r hn hx => hT.closed hs n f l r hn hx) ?_ total bits
      rw [a3, hT.root] at hr
      cases hr
      have := hT.nodes_length
      rw [BitVec.toNat_ofNat]
      omega

/-! ## The root of a tree of one symbol -/

theorem TreeCoherent.singleLeafSym {s : State} (h : TreeCoherent s) (hv : s.treeValid = true) :
    (nonzeroCount s.hist = 1 → ∃ v, singleLeafSym s = some v ∧ ∀ u, histAt s.hist u ≠ 0#32 → u = v)
      ∧ (nonzeroCount s.hist ≠ 1 → singleLeafSym s = none) := by
  by_cases hk : nonzeroCount s.hist = 0
  · refine ⟨fun h1 => by omega, fun _ => ?_⟩
    unfold Machine.singleLeafSym
    rw [(h.root_none hv hk).1]
  · obtain ⟨T, r, hT, hr, hrep, -, -, -⟩ := h.rep hv hk
    have hlen := hT.syms.length_eq
    rw [nonzeroSyms_length] at hlen
    cases T with
    | leaf v =>
      obtain ⟨f, hx⟩ := hrep
      simp only [BTree.syms, List.length_singleton] at hlen
      refine ⟨fun _ => ⟨v, by simp [Machine.singleLeafSym, hr, hx], fun u hu => ?_⟩, fun h1 => absurd hlen.symm h1⟩
      simpa [BTree.syms] using hT.mem_syms.2 hu
    | node a b =>
      obtain ⟨f, x, y, hx, -, -⟩ := hrep
      have h1 := a.syms_pos
      have h2 := b.syms_pos
      simp only [BTree.syms, List.length_append] at hlen
      exact ⟨fun h1 => by omega, fun _ => by simp [Machine.singleLeafSym, hr, hx]⟩

/-! ## PACK's loop over a sequence whose bytes all have codes -/

theorem packLoop_eq_absent {code : Vector Code 256} {cap : Nat} {d : List Byte} {i j : Nat} {s : Bits}
    {b : Byte} (h : packLoop code cap i s d = .absent b j) : b ∈ d ∧ ¬ HasCode code b := by
  induction d generalizing i s with
  | nil => cases h
  | cons c d ih =>
    simp only [packLoop] at h
    split at h
    · cases h; exact ⟨by simp, fun hc => hc ‹_›⟩
    · split at h
      · cases h
      · obtain ⟨h1, h2⟩ := ih h
        exact ⟨List.mem_cons_of_mem _ h1, h2⟩

theorem packLoop_present {code : Vector Code 256} {cap : Nat} {d : List Byte}
    (hc : ∀ b ∈ d, HasCode code b) :
    ((encodeWith code d).length ≤ 8 * cap
        ∧ packLoop code cap 0 [] d = .bits (encodeWith code d))
      ∨ (8 * cap < (encodeWith code d).length ∧ ∃ b i, packLoop code cap 0 [] d = .over b i) := by
  by_cases hf : (encodeWith code d).length ≤ 8 * cap
  · exact .inl ⟨hf, packLoop_bits hc hf⟩
  · refine .inr ⟨by omega, ?_⟩
    rcases hp : packLoop code cap 0 [] d with bits | ⟨b, i⟩ | ⟨b, i⟩
    · obtain ⟨-, h2, h3⟩ := packLoop_eq_bits hp (by simp)
      rw [List.nil_append] at h2
      rw [h2] at h3
      exact absurd h3 hf
    · exact absurd (hc b (packLoop_eq_absent hp).1) (packLoop_eq_absent hp).2
    · exact ⟨b, i, rfl⟩

/-- Every byte of a sequence has a code in the table of its own histogram. -/
theorem hasCode_countBytes {d : List Byte} (hl : d.length < 2 ^ 32) (tie : TiePolicy) :
    ∀ b ∈ d, HasCode (histCodes tie (countBytes d)) b := by
  intro b hb
  have hne : histAt (countBytes d) b ≠ 0#32 := fun h0 => (countBytes_eq_zero hl b).1 h0 hb
  have hk : nonzeroCount (countBytes d) ≠ 0 := fun h0 => hne (nonzeroCount_eq_zero.1 h0 b)
  obtain ⟨T, hT⟩ := buildTree_built tie (countBytes d) hk
  exact (hasCode_iff hT b).2 hne

/-! ## COMPRESS -/

/-- The state after COUNT of the written bytes `d`. -/
abbrev counted (s : State) (d : List Byte) : State := invalidateTree { s with hist := countBytes d }

/-- The state after COUNT, BUILD and GENCODES of the written bytes `d`. -/
abbrev coded (s : State) (d : List Byte) : State :=
  setCodes (histCodes s.cfg.tie (countBytes d)) (built (counted s d))

/-- The packed state of the written bytes `d`. -/
abbrev packed (s : State) (d : List Byte) : State :=
  setPayload (packedOf s.cfg.tie d)
    (BitVec.ofNat 3 (padCount (encodeWith (histCodes s.cfg.tie (countBytes d)) d).length)) (coded s d)

theorem counted_hist (s : State) (d : List Byte) : (counted s d).hist = countBytes d :=
  invalidateTree_hist _

theorem built_hist (s : State) : (built s).hist = s.hist := by
  simp only [setTree_hist, invalidateCodes_hist]

theorem packed_hist (s : State) (d : List Byte) : (packed s d).hist = countBytes d := by
  simp only [setPayload_hist, setCodes_hist, built_hist, counted_hist]

theorem packed_code (s : State) (d : List Byte) :
    (packed s d).code = histCodes s.cfg.tie (countBytes d) := by
  simp only [setPayload_code, setCodes_code]

theorem packed_pbuf (s : State) (d : List Byte) :
    (packed s d).pbuf = s.pbuf.store 0 (packedOf s.cfg.tie d) := by
  simp only [setPayload_pbuf]
  rfl

/-- What COUNT, BUILD and GENCODES leave. -/
theorem coded_leaves (s : State) (d : List Byte) :
    (coded s d).hist = countBytes d ∧ (coded s d).treeValid = true ∧ TreeCoherent (coded s d)
      ∧ SameControl s (coded s d) ∧ (coded s d).mem = s.mem ∧ (coded s d).draws = s.draws
      ∧ (coded s d).code = histCodes s.cfg.tie (countBytes d) ∧ (coded s d).codesValid = true :=
  ⟨by simp only [setCodes_hist, built_hist, counted_hist], rfl, (built_coherent _).setCodes _,
    ⟨rfl, rfl, rfl, rfl, rfl, rfl, rfl, rfl, rfl, rfl⟩, rfl, rfl, setCodes_code _ _, rfl⟩

/-- What COUNT, BUILD, GENCODES and PACK leave. -/
theorem packed_leaves (s : State) (d : List Byte) :
    (packed s d).hist = countBytes d ∧ (packed s d).treeValid = true ∧ TreeCoherent (packed s d)
      ∧ SameControl s (packed s d) ∧ (packed s d).mem = s.mem ∧ (packed s d).draws = s.draws
      ∧ (packed s d).code = histCodes s.cfg.tie (countBytes d) ∧ (packed s d).codesValid = true
      ∧ (packed s d).payloadValid = true
      ∧ Holds (packed s d).pbuf 0 (packedOf s.cfg.tie d)
      ∧ (packed s d).pad =
          BitVec.ofNat 3 (padCount (encodeWith (histCodes s.cfg.tie (countBytes d)) d).length) :=
  ⟨packed_hist s d, rfl, (coded_leaves s d).2.2.1.setPayload _ _,
    ⟨rfl, rfl, rfl, rfl, rfl, rfl, rfl, rfl, rfl, rfl⟩, rfl, rfl, packed_code s d, rfl, rfl,
    Memory.store_holds _ _ _, setPayload_pad _ _ _⟩

theorem readInput_of_holds {s : State} {d : List Byte} (h : Holds s.mem inBase d)
    (hl : d.length = s.inLen.toNat) : readInput s = (d, s) := by
  unfold readInput
  rw [← hl, Memory.read_of_holds h]

theorem readPayload_of_holds {s : State} {d : List Byte} (h : Holds s.pbuf 0 d)
    (hl : d.length = s.plen.toNat) : readPayload s = (d, s) := by
  unfold readPayload
  rw [← hl, Memory.read_of_holds h]

theorem countBody_written {s : State} {d : List Byte} (h : Holds s.mem inBase d)
    (hl : d.length = s.inLen.toNat) (hc : s.inLen.toNat ≤ s.cfg.inCap) :
    countBody s = .ok (counted s d) := by
  rw [countBody_ok hc, readInput_of_holds h hl, inputOf_of_holds h hl]

theorem compressBody_over {s : State} (h : s.cfg.inCap < s.inLen.toNat) :
    compressBody s = .raised (inLenOver 0x10#8 s) s := by
  rw [compressBody, countBody_over h]; rfl

/-- One symbol under REJECT: GENCODES raises, and the tree stays. -/
theorem compressBody_reject {s : State} {d : List Byte} (h : Holds s.mem inBase d)
    (hl : d.length = s.inLen.toNat) (hc : s.inLen.toNat ≤ s.cfg.inCap)
    (hk : nonzeroCount (countBytes d) = 1) (hd : s.latchedDegen = true) :
    ∃ v, v ∈ d ∧ singleLeafSym (built (counted s d)) = some v
      ∧ compressBody s = .raised (singleSymbol v (built (counted s d)).total)
          (invalidateCodes (built (counted s d))) := by
  have hcoh := built_coherent (counted s d)
  obtain ⟨v, hv, hu⟩ := (hcoh.singleLeafSym rfl).1 hk
  refine ⟨v, ?_, hv, ?_⟩
  · have hlt : d.length < 2 ^ 32 := by have := s.inLen.isLt; omega
    cases d with
    | nil =>
      have : nonzeroCount (countBytes []) = 0 :=
        nonzeroCount_eq_zero.2 ((nonzeroCount_countBytes_eq_zero (by simp)).2 rfl)
      omega
    | cons b d =>
      have := hu b fun h0 => (countBytes_eq_zero hlt b).1 h0 (by simp)
      rw [← this]; simp
  · rw [compressBody, countBody_written h hl hc, BodyResult.ok_andThen, buildBody_eq,
      BodyResult.ok_andThen, gencodesBody_reject rfl hv hd, BodyResult.raised_andThen,
      BodyResult.raised_andThen]

/-- Otherwise GENCODES succeeds, and PACK and SERIALIZE decide. -/
theorem compressBody_coded {s : State} {d : List Byte} (h : Holds s.mem inBase d)
    (hl : d.length = s.inLen.toNat) (hc : s.inLen.toNat ≤ s.cfg.inCap)
    (hk : s.latchedDegen = false ∨ nonzeroCount (countBytes d) ≠ 1) :
    compressBody s = (packBody (coded s d)).andThen serializeBody := by
  have hcoh := built_coherent (counted s d)
  rw [compressBody, countBody_written h hl hc, BodyResult.ok_andThen, buildBody_eq,
    BodyResult.ok_andThen, gencodesBody_ok rfl (hk.symm.imp (hcoh.singleLeafSym rfl).2 id),
    hcoh.codeTable rfl, BodyResult.ok_andThen]
  have h1 : (built (counted s d)).cfg.tie = s.cfg.tie := rfl
  have h2 : (built (counted s d)).hist = countBytes d := rfl
  rw [h1, h2]

theorem packedOf_length (tie : TiePolicy) (d : List Byte) :
    (packedOf tie d).length = ceilDiv8 (encodeWith (histCodes tie (countBytes d)) d).length := by
  rw [packedOf, packBits_length]

theorem packBody_coded {s : State} {d : List Byte} (h : Holds s.mem inBase d)
    (hl : d.length = s.inLen.toNat) (hc : s.inLen.toNat ≤ s.cfg.inCap)
    (hf : (packedOf s.cfg.tie d).length ≤ s.cfg.pbufCap) :
    packBody (coded s d) = .ok (packed s d) := by
  have hlt : d.length < 2 ^ 32 := by have := s.inLen.isLt; omega
  have hi : inputOf (coded s d) = d := inputOf_of_holds (s := coded s d) h hl
  have hcode : (coded s d).code = histCodes s.cfg.tie (countBytes d) := setCodes_code _ _
  rw [packedOf_length] at hf
  have h8 := ceilDiv8_eq (encodeWith (histCodes s.cfg.tie (countBytes d)) d).length
  rw [packBody_ok (s := coded s d) rfl hc (by rw [hi, hcode]; exact hasCode_countBytes hlt s.cfg.tie)
    (by rw [hi, hcode]; exact Nat.le_trans (by omega) (Nat.mul_le_mul_left 8 hf)), hi, hcode,
    readInput_of_holds (s := coded s d) h hl, packed, packedOf]

theorem packBody_coded_over {s : State} {d : List Byte} (h : Holds s.mem inBase d)
    (hl : d.length = s.inLen.toNat) (hc : s.inLen.toNat ≤ s.cfg.inCap)
    (hf : s.cfg.pbufCap < (packedOf s.cfg.tie d).length) :
    ∃ b i, packLoop (histCodes s.cfg.tie (countBytes d)) s.cfg.pbufCap 0 [] d = .over b i
      ∧ packBody (coded s d) = .raised (packOver b i) (invalidatePayload (coded s d)) := by
  have hlt : d.length < 2 ^ 32 := by have := s.inLen.isLt; omega
  have hi : inputOf (coded s d) = d := inputOf_of_holds (s := coded s d) h hl
  have hcode : (coded s d).code = histCodes s.cfg.tie (countBytes d) := setCodes_code _ _
  rw [packedOf_length, lt_ceilDiv8] at hf
  rcases packLoop_present (cap := s.cfg.pbufCap) (hasCode_countBytes hlt s.cfg.tie) with
    ⟨h1, -⟩ | ⟨-, b, i, hp⟩
  · omega
  · refine ⟨b, i, hp, ?_⟩
    rw [packBody_run (s := coded s d) rfl hc, hi, hcode,
      readInput_of_holds (s := coded s d) h hl]
    have hcap : (coded s d).cfg.pbufCap = s.cfg.pbufCap := rfl
    rw [hcap, hp]

/-- The result of SERIALIZE after PACK of `d`. -/
theorem serializeBody_packed {s : State} {d : List Byte} (hw : s.cfg.wf = true)
    (hf : (packedOf s.cfg.tie d).length ≤ s.cfg.pbufCap) :
    (packed s d).plen.toNat = (packedOf s.cfg.tie d).length
      ∧ (s.cfg.outCap < 1025 + (packedOf s.cfg.tie d).length →
          serializeBody (packed s d) =
            .raised (outOver (1025 + (packedOf s.cfg.tie d).length) 0x14#8)
              { packed s d with outLen := 0#32 })
      ∧ (1025 + (packedOf s.cfg.tie d).length ≤ s.cfg.outCap →
          serializeBody (packed s d) =
            .ok { packed s d with
                  mem := s.mem.store outBase (containerOf s.cfg.tie d)
                  outLen := BitVec.ofNat 32 (1025 + (packedOf s.cfg.tie d).length) }) := by
  have hcap : s.cfg.pbufCap ≤ 2 ^ 28 := by simp [Config.wf] at hw; omega
  have hpl : (packed s d).plen.toNat = (packedOf s.cfg.tie d).length := by
    change (BitVec.ofNat 32 (packedOf s.cfg.tie d).length).toNat = _
    rw [BitVec.toNat_ofNat]; omega
  have hh : Holds (packed s d).pbuf 0 (packedOf s.cfg.tie d) := Memory.store_holds _ _ _
  refine ⟨hpl, fun ho => ?_, fun ho => ?_⟩
  · unfold serializeBody
    rw [if_neg (by simp [packed]), hpl]
    exact if_pos ho
  · rw [serializeBody_ok (s := packed s d) rfl (by rw [hpl]; exact ho), hpl,
      payloadOf_of_holds hh hpl.symm, readPayload_of_holds (s := packed s d) hh hpl.symm]
    rfl

/-- A COMPRESS that runs to its end: every capacity sufficed, and the state. -/
theorem compressBody_cases {s t : State} {d : List Byte} (hw : s.cfg.wf = true)
    (h : Holds s.mem inBase d) (hl : d.length = s.inLen.toNat) (ht : compressBody s = .ok t) :
    s.inLen.toNat ≤ s.cfg.inCap ∧ (packedOf s.cfg.tie d).length ≤ s.cfg.pbufCap
      ∧ 1025 + (packedOf s.cfg.tie d).length ≤ s.cfg.outCap
      ∧ (s.latchedDegen = false ∨ nonzeroCount (countBytes d) ≠ 1)
      ∧ t = { packed s d with
              mem := s.mem.store outBase (containerOf s.cfg.tie d)
              outLen := BitVec.ofNat 32 (1025 + (packedOf s.cfg.tie d).length) } := by
  by_cases hc : s.inLen.toNat ≤ s.cfg.inCap
  swap
  · rw [compressBody_over (by omega)] at ht; cases ht
  by_cases hk : s.latchedDegen = false ∨ nonzeroCount (countBytes d) ≠ 1
  swap
  · obtain ⟨hd, h1⟩ := not_or.1 hk
    obtain ⟨v, -, -, hr⟩ := compressBody_reject h hl hc (by simpa using h1) (by simpa using hd)
    rw [hr] at ht; cases ht
  rw [compressBody_coded h hl hc hk] at ht
  by_cases hf : (packedOf s.cfg.tie d).length ≤ s.cfg.pbufCap
  swap
  · obtain ⟨x, i, -, hp⟩ := packBody_coded_over h hl hc (by omega)
    rw [hp] at ht; cases ht
  rw [packBody_coded h hl hc hf, BodyResult.ok_andThen] at ht
  obtain ⟨-, h1, h2⟩ := serializeBody_packed hw hf
  by_cases ho : 1025 + (packedOf s.cfg.tie d).length ≤ s.cfg.outCap
  · rw [h2 ho] at ht
    exact ⟨hc, hf, ho, hk, (BodyResult.ok.inj ht).symm⟩
  · rw [h1 (by omega)] at ht; cases ht

/-! ## DECOMPRESS -/

/-- The state after DESERIALIZE of the bytes `B`, `n` draws taken. -/
abbrev parsed (s : State) (B : List Byte) (n : Nat) : State :=
  invalidateTree
    (setPayload (parsePayload B) ((parsePad B).setWidth 3) { s with draws := n, hist := parseHist B })

theorem decompressBody_of_ok {s t : State} (h : deserializeBody s = .ok t) :
    decompressBody s = unpackBody (built t) := by
  rw [decompressBody, h]; rfl

theorem decompressBody_of_raised {s t : State} {r : Raised} (h : deserializeBody s = .raised r t) :
    decompressBody s = .raised r t := by
  rw [decompressBody, h]; rfl

/-- The payload UNPACK walks after DESERIALIZE and BUILD. -/
theorem retainedOf_parsed (s : State) (B : List Byte) (n : Nat) (hl : B.length < 2 ^ 32) :
    (parsed s B n).plen.toNat = B.length - 1025
      ∧ payloadOf (built (parsed s B n)) = parsePayload B
      ∧ retainedOf (built (parsed s B n))
        = retainedBits (parsePayload B) ((parsePad B).setWidth 3) := by
  have hpl : (parsed s B n).plen.toNat = (parsePayload B).length := by
    change (BitVec.ofNat 32 (parsePayload B).length).toNat = _
    rw [BitVec.toNat_ofNat, parsePayload_length]; omega
  have hp : payloadOf (built (parsed s B n)) = parsePayload B :=
    payloadOf_of_holds (s := built (parsed s B n)) (Memory.store_holds _ _ _) hpl.symm
  refine ⟨by rw [hpl, parsePayload_length], hp, ?_⟩
  unfold retainedOf
  rw [hp]
  rfl

/-- DESERIALIZE of the container of `d`. -/
theorem deserializeBody_container {s : State} {d : List Byte}
    (h : Holds s.mem inBase (containerOf s.cfg.tie d))
    (hl : s.inLen.toNat = (containerOf s.cfg.tie d).length) (hc : s.inLen.toNat ≤ s.cfg.inCap)
    (hf : (packedOf s.cfg.tie d).length ≤ s.cfg.pbufCap) :
    deserializeBody s = .ok (parsed s (containerOf s.cfg.tie d) s.draws) := by
  have hi : inputOf s = containerOf s.cfg.tie d := inputOf_of_holds h hl.symm
  have hlen : (containerOf s.cfg.tie d).length = 1025 + (packedOf s.cfg.tie d).length := by
    rw [containerOf, containerBytes_length]
  have hpad : (parsePad (inputOf s)).toNat =
      padCount (encodeWith (histCodes s.cfg.tie (countBytes d)) d).length := by
    have := padCount_lt (encodeWith (histCodes s.cfg.tie (countBytes d)) d).length
    rw [hi, containerOf, parsePad_containerBytes, (setWidth_pad _).2, BitVec.toNat_ofNat]
    omega
  have h8 := ceilDiv8_eq (encodeWith (histCodes s.cfg.tie (countBytes d)) d).length
  have h9 := padCount_lt (encodeWith (histCodes s.cfg.tie (countBytes d)) d).length
  have h10 := packedOf_length s.cfg.tie d
  rw [deserializeBody_ok hc (by omega) (by omega) (by omega) (by omega), hi,
    readInput_of_holds h hl.symm]

/-- DECOMPRESS of the container of `d` puts out `d` (45_pipeline_and_control.md R167). -/
theorem decompressBody_container {s : State} {d : List Byte} (hw : s.cfg.wf = true)
    (h : Holds s.mem inBase (containerOf s.cfg.tie d))
    (hl : s.inLen.toNat = (containerOf s.cfg.tie d).length) (hc : s.inLen.toNat ≤ s.cfg.inCap)
    (hf : (packedOf s.cfg.tie d).length ≤ s.cfg.pbufCap) (ho : d.length ≤ s.cfg.outCap) :
    ∃ m, Holds m outBase d ∧ SameOutside outBase d.length s.mem m
      ∧ decompressBody s =
          .ok { built (parsed s (containerOf s.cfg.tie d) s.draws) with
                mem := m, outLen := BitVec.ofNat 32 d.length } := by
  have hcap : s.cfg.outCap ≤ 2 ^ 30 := by simp [Config.wf] at hw; omega
  rw [decompressBody_of_ok (deserializeBody_container h hl hc hf)]
  have hlt : d.length < 2 ^ 32 := by omega
  have hil := s.inLen.isLt
  obtain ⟨r1, r2, r3⟩ := retainedOf_parsed s (containerOf s.cfg.tie d) s.draws (by omega)
  have hpay : parsePayload (containerOf s.cfg.tie d) = packedOf s.cfg.tie d :=
    parsePayload_containerBytes _ _ _
  have hhist : parseHist (containerOf s.cfg.tie d) = countBytes d := parseHist_containerBytes _ _ _
  have hpd : parsePad (containerOf s.cfg.tie d) = _ := parsePad_containerBytes _ _ _
  rw [hpay, hpd, (setWidth_pad _).1, packedOf, retained_packBits] at r3
  have hcoh := built_coherent (parsed s (containerOf s.cfg.tie d) s.draws)
  have hbh : (built (parsed s (containerOf s.cfg.tie d) s.draws)).hist = countBytes d := by
    rw [built_hist, ← hhist]; exact invalidateTree_hist _
  have hcfg : (built (parsed s (containerOf s.cfg.tie d) s.draws)).cfg = s.cfg := rfl
  have htot := hcoh.total rfl
  rw [hbh, histSum_countBytes hlt] at htot
  have hpv : (built (parsed s (containerOf s.cfg.tie d) s.draws)).payloadValid = true := rfl
  by_cases hk : nonzeroCount (countBytes d) = 0
  · have hd : d = [] := (nonzeroCount_countBytes_eq_zero hlt).1 (nonzeroCount_eq_zero.1 hk)
    subst hd
    refine ⟨s.mem, by intro k hk; simp at hk, fun _ _ => rfl, ?_⟩
    have hr := (hcoh.root_none rfl (by rw [hbh]; exact hk)).1
    have hp0 : (built (parsed s (containerOf s.cfg.tie []) s.draws)).plen = 0#32 := by
      apply BitVec.eq_of_toNat_eq
      refine r1.trans ?_
      rw [containerOf, containerBytes_length, packedOf_length]
      simp [ceilDiv8]
    rw [unpackBody_none rfl hpv (by rw [htot, hcfg]; exact ho) hr, if_neg (by rw [hp0]; simp)]
    rfl
  · obtain ⟨r, hr, -, hwalk⟩ := hcoh.walk_encodeWith rfl (d := d) (by rw [hbh]; exact hk)
      (by rw [hbh, histSum_countBytes hlt]) (by
        intro b hb h0
        rw [hbh] at h0
        exact (countBytes_eq_zero hlt b).1 h0 hb)
    rw [hbh, hcfg] at hwalk
    refine ⟨s.mem.store outBase d, Memory.store_holds _ _ _, Memory.store_sameOutside _ _ _, ?_⟩
    have hmem : (built (parsed s (containerOf s.cfg.tie d) s.draws)).mem = s.mem := rfl
    have hdr : (readPayload (built (parsed s (containerOf s.cfg.tie d) s.draws))).2.draws =
        (built (parsed s (containerOf s.cfg.tie d) s.draws)).draws := by
      have := readPayload_of_holds (s := built (parsed s (containerOf s.cfg.tie d) s.draws))
        (d := packedOf s.cfg.tie d) (by rw [← hpay]; exact Memory.store_holds _ _ _)
        (by rw [← hpay, parsePayload_length]; exact r1.symm)
      rw [this]
    rw [unpackBody_walk rfl hpv (by rw [htot, hcfg]; exact ho) hr, r3, hwalk, hdr]
    generalize built (parsed s (containerOf s.cfg.tie d) s.draws) = u at hmem
    rw [← hmem]

end Sys2Proof.Machine
end

