-- ==== Sys2Proof/Laws/Step.lean ====
section
/-! SUPPORT. Everything a step can do, said once; and when a run is over
(70_reset_and_hazards.md R211). -/

namespace Sys2Proof.Machine

/-- The core's turn: nothing while idle; else the completion step of the command LASTCMD encodes, or
of an illegal word. -/
theorem coreTurn_cases (s : State) :
    (s.busy = false ∧ coreTurn s = .next s)
      ∨ (s.busy = true ∧ ∃ i, decode s.lastCmd = .ok i
          ∧ coreTurn s = .next (complete i (bodyOf i s)))
      ∨ (s.busy = true ∧ ∃ e, decode s.lastCmd = .error e
          ∧ coreTurn s = .next (illegalCommand e s)) := by
  unfold coreTurn coreEnabled
  cases hb : s.busy with
  | false => exact .inl ⟨rfl, by simp⟩
  | true =>
    refine .inr ?_
    rw [if_pos rfl]
    unfold completeCommand fetchCommand
    cases hd : decode s.lastCmd with
    | ok i => exact .inl ⟨rfl, i, rfl, exec_eq i s⟩
    | error e => exact .inr ⟨rfl, e, rfl, rfl⟩

/-- A step: the core's turn, a transaction, or reset. -/
theorem step_cases {s t : State} (h : step s = .next t) :
    (∃ rest, coreTurn { s with inbox := rest } = .next t)
      ∨ (∃ x rest, t = busStep x { s with inbox := rest })
      ∨ ∃ rest, t = resetEvent { s with inbox := rest } := by
  unfold step at h
  split at h
  · rename_i hi
    refine .inl ⟨[], ?_⟩
    rw [← hi]; exact h
  · exact .inl ⟨_, h⟩
  · exact .inr (.inl ⟨_, _, (Host.Outcome.next.inj h).symm⟩)
  · exact .inr (.inr ⟨_, (Host.Outcome.next.inj h).symm⟩)

/-- A transaction leaves the configuration, the inbox and, but for a CMD write, BUSY alone. -/
theorem busStep_cfg (x : Transaction) (s : State) : (busStep x s).cfg = s.cfg := by
  unfold busStep
  rcases serve_cases x s with h | ⟨c, -, -, -, h⟩ | ⟨c, -, -, -, -, h⟩ | ⟨-, -, ⟨-, h⟩ | ⟨-, h⟩⟩ <;>
    rw [h]
  cases c <;> try rfl
  simp only [csrWrite, writeStatus]
  split <;> rfl

/-- A run is over exactly when BUSY = 0 and no transaction is pending. -/
theorem runOver_iff (s : State) :
    runOver s = true ↔ s.busy = false ∧ ∀ t, Event.bus t ∉ s.inbox := by
  have key : s.inbox.any isTransaction = false ↔ ∀ t, Event.bus t ∉ s.inbox := by
    rw [List.any_eq_false]
    refine ⟨fun h t ht => h _ ht rfl, fun h e he => ?_⟩
    cases e with
    | bus t => exact absurd he (h t)
    | core | reset => exact Bool.false_ne_true
  rw [runOver, Bool.and_eq_true, Bool.not_eq_true', Bool.not_eq_true', key, and_comm]

end Sys2Proof.Machine
end

