-- ==== Sys2Proof/Laws/Inv.lean ====
section
/-! SUPPORT. What every body does to memory, and that every body keeps the part of the invariant that
speaks of registers and buffers (10_state.md R29 to R31, R61; 20_memory.md R65, R66). -/

namespace Sys2Proof.Machine

/-! ## Memory -/

/-- A body leaves memory alone, or stores a result at OUT_BUF that fits. -/
def MemStep (s : State) (r : BodyResult) : Prop :=
  r.state.mem = s.mem
    ∨ ∃ bs : List Byte, r.state.mem = s.mem.store outBase bs ∧ bs.length ≤ s.cfg.outCap
      ∧ ∀ b, r = .ok b → b.outLen = BitVec.ofNat 32 bs.length

theorem countBody_mem (s : State) : (countBody s).state.mem = s.mem := by
  unfold countBody; split <;> rfl

theorem gencodesBody_mem (s : State) : (gencodesBody s).state.mem = s.mem := by
  unfold gencodesBody
  repeat' split
  all_goals rfl

theorem packBody_mem (s : State) : (packBody s).state.mem = s.mem := by
  unfold packBody
  split
  · rfl
  split
  · rfl
  dsimp only
  split <;> rfl

theorem deserializeBody_mem (s : State) : (deserializeBody s).state.mem = s.mem := by
  unfold deserializeBody
  dsimp only
  repeat' split
  all_goals rfl

theorem serializeBody_mem (s : State) : MemStep s (serializeBody s) := by
  unfold serializeBody
  split
  · exact .inl rfl
  split
  · exact .inl rfl
  · refine .inr ⟨containerBytes s.hist (payloadOf s) s.pad, rfl, ?_, ?_⟩
    · rw [containerBytes_length, payloadOf_length]; omega
    · intro b hb
      cases hb
      rw [containerBytes_length, payloadOf_length]

theorem unpackBody_mem (s : State) : MemStep s (unpackBody s) := by
  unfold unpackBody
  split
  · exact .inl rfl
  split
  · exact .inl rfl
  split
  · exact .inl rfl
  split
  · split <;> exact .inl rfl
  · rename_i h r hr
    have hw := (walk_length s.node r s.total.toNat (retainedBits (readPayload s).1 s.pad)).1
    dsimp only
    split
    · refine .inr ⟨_, rfl, by omega, ?_⟩
      intro b hb; cases hb
    · refine .inr ⟨_, rfl, by omega, ?_⟩
      intro b hb; cases hb; rfl

theorem BodyResult.andThen_mem {s : State} {r : BodyResult} {f : State → BodyResult}
    (h : r.state.mem = s.mem) (hc : r.state.cfg = s.cfg) (hf : ∀ t, MemStep t (f t)) :
    MemStep s (r.andThen f) := by
  cases r with
  | ok t =>
    change t.mem = s.mem at h
    change t.cfg = s.cfg at hc
    have := hf t
    unfold MemStep at this
    rw [h, hc] at this
    exact this
  | raised e t => exact .inl h

theorem BodyResult.andThen_sameMem {s : State} {r : BodyResult} {f : State → BodyResult}
    (h : r.state.mem = s.mem) (hf : ∀ t, (f t).state.mem = t.mem) : (r.andThen f).state.mem = s.mem := by
  cases r with
  | ok t => exact (hf t).trans h
  | raised e t => exact h

theorem bodyOf_mem (i : Instr) (s : State) : MemStep s (bodyOf i s) := by
  cases i with
  | nop => exact .inl rfl
  | clear => exact .inl rfl
  | count => exact .inl (countBody_mem s)
  | build => exact .inl rfl
  | gencodes => exact .inl (gencodesBody_mem s)
  | pack => exact .inl (packBody_mem s)
  | serialize => exact serializeBody_mem s
  | deserialize => exact .inl (deserializeBody_mem s)
  | unpack => exact unpackBody_mem s
  | compress =>
    refine BodyResult.andThen_mem (BodyResult.andThen_sameMem (BodyResult.andThen_sameMem
      (BodyResult.andThen_sameMem (countBody_mem s) fun _ => rfl) gencodesBody_mem) packBody_mem) ?_
      serializeBody_mem
    exact (BodyResult.andThen_kept (BodyResult.andThen_kept (BodyResult.andThen_kept
      (countBody_kept s) buildBody_kept) gencodesBody_kept) packBody_kept).1.1
  | decompress =>
    refine BodyResult.andThen_mem (BodyResult.andThen_sameMem (deserializeBody_mem s) fun _ => rfl) ?_
      unpackBody_mem
    exact (BodyResult.andThen_kept (deserializeBody_kept s) buildBody_kept).1.1

/-! ## The invariant of registers and buffers -/

/-- The part of `Inv` that does not speak of the completion state. -/
structure DataInv (s : State) : Prop where
  cfg : s.cfg.wf = true
  mem : s.mem.wf
  mapped : ∀ c, c ∈ s.mem → inBuffers s.cfg c.1 1 = true
  pbuf : s.pbuf.wf
  pbufFits : ∀ c, c ∈ s.pbuf → c.1 < s.cfg.pbufCap
  treeClear : s.treeValid = false →
    s.nnodes = 0#10 ∧ s.nsym = 0#9 ∧ s.root = none ∧ s.total = 0#40
  codesClear : s.codesValid = false → s.code = absentTable
  codesTree : s.codesValid = true → s.treeValid = true
  payloadClear : s.payloadValid = false → s.plen = 0#32 ∧ s.pad = 0#3
  payloadFits : s.payloadValid = true →
    s.pad.toNat ≤ 8 * s.plen.toNat ∧ s.plen.toNat ≤ s.cfg.pbufCap
  payloadWritten : s.payloadValid = true → Written s.pbuf 0 s.plen.toNat
  tree : TreeCoherent s
  codes : s.codesValid = true → s.code = codeTable s.node s.nnodes.toNat s.root
  outLen : s.outLen.toNat ≤ s.cfg.outCap

theorem Inv.data {s : State} (h : Inv s) : DataInv s where
  cfg := h.cfg
  mem := h.mem
  mapped := h.mapped
  pbuf := h.pbuf
  pbufFits := h.pbufFits
  treeClear := h.treeClear
  codesClear := h.codesClear
  codesTree := h.codesTree
  payloadClear := h.payloadClear
  payloadFits := h.payloadFits
  payloadWritten := h.payloadWritten
  tree := h.tree
  codes := h.codes
  outLen := h.outLen

theorem DataInv.caps {s : State} (h : DataInv s) :
    s.cfg.inCap ≤ 2 ^ 30 ∧ s.cfg.outCap ≤ 2 ^ 30 ∧ s.cfg.pbufCap ≤ 2 ^ 28 := by
  have := h.cfg
  simp [Config.wf] at this
  omega

/-- A count of draws, and the completion state, do not matter. -/
theorem DataInv.withDraws {s : State} (h : DataInv s) (n : Nat) : DataInv { s with draws := n } :=
  ⟨h.cfg, h.mem, h.mapped, h.pbuf, h.pbufFits, h.treeClear, h.codesClear, h.codesTree, h.payloadClear,
    h.payloadFits, h.payloadWritten, h.tree, h.codes, h.outLen⟩

theorem DataInv.withOutLen {s : State} (h : DataInv s) {l : Word} (hl : l.toNat ≤ s.cfg.outCap) :
    DataInv { s with outLen := l } :=
  ⟨h.cfg, h.mem, h.mapped, h.pbuf, h.pbufFits, h.treeClear, h.codesClear, h.codesTree, h.payloadClear,
    h.payloadFits, h.payloadWritten, h.tree, h.codes, hl⟩

theorem DataInv.invalidateTree {s : State} (h : DataInv s) (hist : Vector Word 256) :
    DataInv (invalidateTree { s with hist := hist }) :=
  ⟨h.cfg, h.mem, h.mapped, h.pbuf, h.pbufFits, fun _ => ⟨rfl, rfl, rfl, rfl⟩, fun _ => rfl,
    fun hc => (Bool.false_ne_true hc).elim, h.payloadClear, h.payloadFits, h.payloadWritten,
    fun hc => (Bool.false_ne_true hc).elim, fun hc => (Bool.false_ne_true hc).elim, h.outLen⟩

theorem DataInv.invalidateCodes {s : State} (h : DataInv s) : DataInv (invalidateCodes s) :=
  ⟨h.cfg, h.mem, h.mapped, h.pbuf, h.pbufFits, h.treeClear, fun _ => rfl,
    fun hc => (Bool.false_ne_true hc).elim, h.payloadClear, h.payloadFits, h.payloadWritten, h.tree,
    fun hc => (Bool.false_ne_true hc).elim, h.outLen⟩

theorem DataInv.invalidatePayload {s : State} (h : DataInv s) : DataInv (invalidatePayload s) :=
  ⟨h.cfg, h.mem, h.mapped, List.Pairwise.nil, fun _ hc => (List.not_mem_nil hc).elim, h.treeClear,
    h.codesClear, h.codesTree, fun _ => ⟨rfl, rfl⟩, fun hc => (Bool.false_ne_true hc).elim,
    fun hc => (Bool.false_ne_true hc).elim, h.tree, h.codes, h.outLen⟩

theorem DataInv.built {s : State} (h : DataInv s) : DataInv (built s) :=
  ⟨h.cfg, h.mem, h.mapped, h.pbuf, h.pbufFits, fun hc => (Bool.false_ne_true hc.symm).elim,
    fun _ => rfl, fun hc => (Bool.false_ne_true hc).elim, h.payloadClear, h.payloadFits,
    h.payloadWritten, built_coherent s, fun hc => (Bool.false_ne_true hc).elim, h.outLen⟩

theorem DataInv.setCodes {s : State} (h : DataInv s) (hv : s.treeValid = true) :
    DataInv (setCodes (codeTable s.node s.nnodes.toNat s.root) s) :=
  ⟨h.cfg, h.mem, h.mapped, h.pbuf, h.pbufFits, h.treeClear,
    fun hc => (Bool.false_ne_true hc.symm).elim, fun _ => hv, h.payloadClear, h.payloadFits,
    h.payloadWritten, h.tree, fun _ => rfl, h.outLen⟩

theorem DataInv.setPayload {s : State} (h : DataInv s) {bs : List Byte} {p : BitVec 3}
    (hl : bs.length ≤ s.cfg.pbufCap) (hp : p.toNat ≤ 8 * bs.length) : DataInv (setPayload bs p s) := by
  have := h.caps
  have e : (BitVec.ofNat 32 bs.length).toNat = bs.length := by rw [BitVec.toNat_ofNat]; omega
  refine ⟨h.cfg, h.mem, h.mapped, Memory.store_wf h.pbuf 0 bs, ?_, h.treeClear, h.codesClear,
    h.codesTree, fun hc => (Bool.false_ne_true hc.symm).elim, fun _ => ?_, fun _ => ?_, h.tree, h.codes,
    h.outLen⟩
  · intro c hc
    rcases Memory.mem_store hc with hc | hc
    · exact h.pbufFits c hc
    · exact Nat.lt_of_lt_of_le (by omega) hl
  · simp only [setPayload_pad, setPayload_plen, setPayload_cfg, e]
    exact ⟨hp, hl⟩
  · simp only [setPayload_pbuf, setPayload_plen, e]
    exact (Memory.store_holds s.pbuf 0 bs).written

theorem DataInv.writeOutput {s : State} (h : DataInv s) {bs : List Byte} (hl : bs.length ≤ s.cfg.outCap) :
    DataInv { s with mem := s.mem.store outBase bs } := by
  refine ⟨h.cfg, Memory.store_wf h.mem _ bs, ?_, h.pbuf, h.pbufFits, h.treeClear, h.codesClear,
    h.codesTree, h.payloadClear, h.payloadFits, h.payloadWritten, h.tree, h.codes, h.outLen⟩
  intro c hc
  rcases Memory.mem_store hc with hc | hc
  · exact h.mapped c hc
  · rw [inBuffers_iff]
    right
    unfold outBase at hc
    dsimp only
    omega

theorem countBody_inv {s : State} (h : DataInv s) : DataInv (countBody s).state := by
  unfold countBody
  split
  · exact h
  · exact (h.withDraws _).invalidateTree _

theorem gencodesBody_inv {s : State} (h : DataInv s) : DataInv (gencodesBody s).state := by
  unfold gencodesBody
  split
  · exact h
  · have hv : s.treeValid = true := by simpa using ‹¬ s.treeValid = false›
    split
    · split
      · exact h.invalidateCodes
      · exact h.setCodes hv
    · exact h.setCodes hv

theorem packBody_inv {s : State} (h : DataInv s) : DataInv (packBody s).state := by
  unfold packBody
  split
  · exact h
  split
  · exact h
  dsimp only
  have hr : DataInv (readInput s).2 := h.withDraws _
  split
  · rename_i bits hb
    obtain ⟨-, -, h3⟩ := packLoop_eq_bits hb (by simp)
    have h8 := ceilDiv8_eq bits.length
    have h9 := padCount_lt bits.length
    refine hr.setPayload ?_ ?_
    · rw [packBits_length]; change _ ≤ s.cfg.pbufCap; omega
    · rw [packBits_length, BitVec.toNat_ofNat]; omega
  · exact hr.invalidatePayload
  · exact hr.invalidatePayload

theorem serializeBody_inv {s : State} (h : DataInv s) : DataInv (serializeBody s).state := by
  have := h.caps
  unfold serializeBody
  split
  · exact h.withOutLen (by simp)
  split
  · exact h.withOutLen (by simp)
  · have hr : DataInv (readPayload s).2 := h.withDraws _
    have hl : (containerBytes s.hist (readPayload s).1 s.pad).length ≤ (readPayload s).2.cfg.outCap := by
      rw [containerBytes_length]
      change 1025 + (payloadOf s).length ≤ s.cfg.outCap
      rw [payloadOf_length]; omega
    refine (hr.writeOutput hl).withOutLen ?_
    change (BitVec.ofNat 32 (1025 + s.plen.toNat)).toNat ≤ s.cfg.outCap
    rw [BitVec.toNat_ofNat]; omega

theorem deserializeBody_inv {s : State} (h : DataInv s) : DataInv (deserializeBody s).state := by
  have hr : DataInv (readInput s).2 := h.withDraws _
  unfold deserializeBody
  dsimp only
  split
  · exact h
  split
  · exact h
  split
  · exact hr
  split
  · exact hr
  split
  · exact hr
  · have hl : (parsePayload (readInput s).1).length = s.inLen.toNat - 1025 := by
      rw [parsePayload_length, readInput_length]
    have h1 := (DataInv.setPayload (bs := parsePayload (readInput s).1)
      (p := (parsePad (readInput s).1).setWidth 3) hr
      (by rw [hl]; change _ ≤ s.cfg.pbufCap; omega) (by rw [hl, BitVec.toNat_setWidth]; omega))
    exact h1.invalidateTree _

theorem unpackBody_inv {s : State} (h : DataInv s) : DataInv (unpackBody s).state := by
  have := h.caps
  unfold unpackBody
  split
  · exact h
  split
  · exact h
  split
  · exact h
  split
  · split
    · exact h
    · exact h.withOutLen (by simp)
  · rename_i hcap r hr
    have hw := (walk_length s.node r s.total.toNat (retainedBits (readPayload s).1 s.pad)).1
    have hd : DataInv (readPayload s).2 := h.withDraws _
    have hm := hd.writeOutput
      (bs := (walk s.node r s.total.toNat (retainedBits (readPayload s).1 s.pad)).out)
      (by change _ ≤ s.cfg.outCap; omega)
    dsimp only
    split
    · exact hm
    · refine hm.withOutLen ?_
      change (BitVec.ofNat 32 _).toNat ≤ s.cfg.outCap
      rw [BitVec.toNat_ofNat]; omega

theorem BodyResult.andThen_inv {r : BodyResult} {f : State → BodyResult} (h : DataInv r.state)
    (hf : ∀ t, DataInv t → DataInv (f t).state) : DataInv (r.andThen f).state := by
  cases r with
  | ok t => exact hf t h
  | raised e t => exact h

/-- Every body keeps it, and so does every completion step. -/
theorem bodyOf_inv (i : Instr) {s : State} (h : DataInv s) : DataInv (bodyOf i s).state := by
  have hb : ∀ t, DataInv t → DataInv (buildBody t).state := fun t ht => ht.built
  cases i with
  | nop => exact h
  | clear =>
    exact ((h.invalidateTree (Vector.replicate 256 0#32)).invalidatePayload).withOutLen (by simp)
  | count => exact countBody_inv h
  | build => exact hb s h
  | gencodes => exact gencodesBody_inv h
  | pack => exact packBody_inv h
  | serialize => exact serializeBody_inv h
  | deserialize => exact deserializeBody_inv h
  | unpack => exact unpackBody_inv h
  | compress =>
    exact BodyResult.andThen_inv (BodyResult.andThen_inv (BodyResult.andThen_inv
      (BodyResult.andThen_inv (countBody_inv h) hb) fun _ => gencodesBody_inv)
      fun _ => packBody_inv) fun _ => serializeBody_inv
  | decompress =>
    exact BodyResult.andThen_inv (BodyResult.andThen_inv (deserializeBody_inv h) hb)
      fun _ => unpackBody_inv

/-- The completion step adds OUT_LEN = 0 at most. -/
theorem complete_inv (i : Instr) {s : State} (h : DataInv s) : DataInv (complete i (bodyOf i s)) := by
  have hb := bodyOf_inv i h
  cases hx : bodyOf i s with
  | ok b =>
    rw [hx] at hb
    rw [complete_ok]
    exact ⟨hb.cfg, hb.mem, hb.mapped, hb.pbuf, hb.pbufFits, hb.treeClear, hb.codesClear, hb.codesTree,
      hb.payloadClear, hb.payloadFits, hb.payloadWritten, hb.tree, hb.codes, hb.outLen⟩
  | raised e b =>
    rw [hx] at hb
    rw [complete_raised]
    refine ⟨hb.cfg, hb.mem, hb.mapped, hb.pbuf, hb.pbufFits, hb.treeClear, hb.codesClear, hb.codesTree,
      hb.payloadClear, hb.payloadFits, hb.payloadWritten, hb.tree, hb.codes, ?_⟩
    dsimp only
    split
    · simp
    · exact hb.outLen

/-- The two parts of the invariant. -/
theorem DataInv.inv {s : State} (h : DataInv s) (h1 : ¬ (s.busy = true ∧ s.done = true))
    (h2 : s.busy = true → s.err = 0#4) (h3 : s.err.toNat ≤ 7)
    (h4 : s.err = 0#4 →
      s.errSub = 0#8 ∧ s.errSym = 0#8 ∧ s.errStage = 0#8 ∧ s.errArg = 0#32) : Inv s :=
  ⟨h.cfg, h.mem, h.mapped, h.pbuf, h.pbufFits, h1, h2, h3, h4, h.treeClear, h.codesClear, h.codesTree,
    h.payloadClear, h.payloadFits, h.payloadWritten, h.tree, h.codes, h.outLen⟩

/-- A transaction keeps it. -/
theorem busStep_inv (x : Transaction) {s : State} (h : DataInv s) : DataInv (busStep x s) := by
  have hdone : ∀ {t : State} (a : Option Answer), DataInv t → DataInv { t with answer := a } :=
    fun a h => ⟨h.cfg, h.mem, h.mapped, h.pbuf, h.pbufFits, h.treeClear, h.codesClear, h.codesTree,
      h.payloadClear, h.payloadFits, h.payloadWritten, h.tree, h.codes, h.outLen⟩
  have keep : ∀ {t : State} (ie dg bs dn ld : Bool) (er : BitVec 4) (lc il ea : Word)
      (e1 e2 e3 ci : Byte) (ni : NodeIdx), DataInv t →
      DataInv { t with
        ie := ie, degen := dg, busy := bs, done := dn, latchedDegen := ld, err := er, lastCmd := lc
        inLen := il, errArg := ea, errSub := e1, errSym := e2, errStage := e3, codeIdx := ci
        nodeIdx := ni } :=
    fun _ _ _ _ _ _ _ _ _ _ _ _ _ _ h => ⟨h.cfg, h.mem, h.mapped, h.pbuf, h.pbufFits, h.treeClear,
      h.codesClear, h.codesTree, h.payloadClear, h.payloadFits, h.payloadWritten, h.tree, h.codes,
      h.outLen⟩
  unfold busStep
  refine hdone _ ?_
  rcases serve_cases x s with e | ⟨c, -, -, -, e⟩ | ⟨c, -, -, -, -, e⟩ | ⟨-, hin, ⟨-, e⟩ | ⟨-, e⟩⟩ <;> rw [e]
  · exact h
  · exact h
  · cases c <;> try exact h
    · exact keep _ _ _ _ _ _ _ _ _ _ _ _ _ _ h
    · simp only [csrWrite, writeStatus]
      split
      · exact keep _ _ _ _ _ _ _ _ _ _ _ _ _ _ h
      · exact h
    · exact keep _ _ _ _ _ _ _ _ _ _ _ _ _ _ h
    · exact keep _ _ _ _ _ _ _ _ _ _ _ _ _ _ h
    · exact keep _ _ _ _ _ _ _ _ _ _ _ _ _ _ h
    · exact keep _ _ _ _ _ _ _ _ _ _ _ _ _ _ h
    · exact h.invalidateTree _
  · exact h.withDraws _
  · refine ⟨h.cfg, Memory.store_wf h.mem _ _, ?_, h.pbuf, h.pbufFits, h.treeClear, h.codesClear,
      h.codesTree, h.payloadClear, h.payloadFits, h.payloadWritten, h.tree, h.codes, h.outLen⟩
    intro c hc
    rcases Memory.mem_store hc with hc | hc
    · exact h.mapped c hc
    · rw [leBytes_length] at hc
      rw [inBuffers_iff] at hin ⊢
      dsimp only at hin ⊢
      omega

theorem resetWith_inv {c : Config} (h : c.wf = true) : DataInv (State.resetWith c) :=
  ⟨h, List.Pairwise.nil, fun _ hc => (List.not_mem_nil hc).elim, List.Pairwise.nil,
    fun _ hc => (List.not_mem_nil hc).elim, fun _ => ⟨rfl, rfl, rfl, rfl⟩, fun _ => rfl,
    fun hc => (Bool.false_ne_true hc).elim, fun _ => ⟨rfl, rfl⟩,
    fun hc => (Bool.false_ne_true hc).elim, fun hc => (Bool.false_ne_true hc).elim,
    fun hc => (Bool.false_ne_true hc).elim, fun hc => (Bool.false_ne_true hc).elim, Nat.zero_le _⟩

end Sys2Proof.Machine
end

