-- ==== Sys2Proof/Laws/PerInstr.lean ====
section
/-! SUPPORT. Statements made for every instruction, one lemma per constructor. -/

namespace Sys2Proof.Laws.Encoding

/-- An instruction is well formed, its word has RSVD = 0 and an opcode of the map, and the decoder gives
it back (30_encoding.md R92, R93, R109). -/
def Statement (i : Instr) : Prop :=
  i.wf = true ∧ reservedField (encode i) = 0#24 ∧ opcodeMap (opcodeField (encode i)) = some i
    ∧ decode (encode i) = .ok i ∧ decodeTableWord 32 (encode i).toNat = some i

theorem nop : Statement .nop := ⟨rfl, rfl, rfl, rfl, rfl⟩
theorem clear : Statement .clear := ⟨rfl, rfl, rfl, rfl, rfl⟩
theorem count : Statement .count := ⟨rfl, rfl, rfl, rfl, rfl⟩
theorem build : Statement .build := ⟨rfl, rfl, rfl, rfl, rfl⟩
theorem gencodes : Statement .gencodes := ⟨rfl, rfl, rfl, rfl, rfl⟩
theorem pack : Statement .pack := ⟨rfl, rfl, rfl, rfl, rfl⟩
theorem serialize : Statement .serialize := ⟨rfl, rfl, rfl, rfl, rfl⟩
theorem deserialize : Statement .deserialize := ⟨rfl, rfl, rfl, rfl, rfl⟩
theorem unpack : Statement .unpack := ⟨rfl, rfl, rfl, rfl, rfl⟩
theorem compress : Statement .compress := ⟨rfl, rfl, rfl, rfl, rfl⟩
theorem decompress : Statement .decompress := ⟨rfl, rfl, rfl, rfl, rfl⟩

end Sys2Proof.Laws.Encoding
end

