-- ==== Sys2Proof/Tests/Slice0.lean ====
section
/-! SUPPORT. The model's own tests: well-formedness refuses what it should, every command's word
decodes, one or two single steps per command with results taken from 95_test_vectors.md, and a witness
for the hypotheses of each statement. -/

namespace Sys2Proof.Machine.Tests

set_option Elab.async false

/-! ## Well-formedness: one ill-formed term for each check -/

theorem test_wf_standard : Config.standard.wf = true := by decide
theorem test_wf_inCap_low : ({ Config.standard with inCap := 1024 } : Config).wf = false := by decide
theorem test_wf_inCap_high : ({ Config.standard with inCap := 2 ^ 30 + 1 } : Config).wf = false := by
  decide
theorem test_wf_outCap_low : ({ Config.standard with outCap := 1024 } : Config).wf = false := by decide
theorem test_wf_outCap_high : ({ Config.standard with outCap := 2 ^ 30 + 1 } : Config).wf = false := by
  decide
theorem test_wf_pbufCap_low : ({ Config.standard with pbufCap := 0 } : Config).wf = false := by decide
theorem test_wf_pbufCap_high : ({ Config.standard with pbufCap := 2 ^ 28 + 1 } : Config).wf = false := by
  decide
theorem test_wf_container_short : containerWf (List.replicate 1024 0#8) = false := by decide +kernel
theorem test_wf_container_pad_range : containerWf (List.replicate 1024 0#8 ++ [8#8]) = false := by
  decide +kernel
theorem test_wf_container_pad_exceeds : containerWf (List.replicate 1024 0#8 ++ [3#8]) = false := by
  decide +kernel
theorem test_wf_container_empty : containerWf (List.replicate 1025 0#8) = true := by decide +kernel

/-! ## Decoding: words written out from 30_encoding.md R90, R92, R109 (RSVD 24 bits, OPCODE 8 bits) -/

theorem test_decode_nop :
    decode 0b00000000000000000000000000000000#32 = .ok .nop := by decide
theorem test_decode_clear :
    decode 0b00000000000000000000000000000001#32 = .ok .clear := by decide
theorem test_decode_count :
    decode 0b00000000000000000000000000010000#32 = .ok .count := by decide
theorem test_decode_build :
    decode 0b00000000000000000000000000010001#32 = .ok .build := by decide
theorem test_decode_gencodes :
    decode 0b00000000000000000000000000010010#32 = .ok .gencodes := by decide
theorem test_decode_pack :
    decode 0b00000000000000000000000000010011#32 = .ok .pack := by decide
theorem test_decode_serialize :
    decode 0b00000000000000000000000000010100#32 = .ok .serialize := by decide
theorem test_decode_deserialize :
    decode 0b00000000000000000000000000100000#32 = .ok .deserialize := by decide
theorem test_decode_unpack :
    decode 0b00000000000000000000000000100001#32 = .ok .unpack := by decide
theorem test_decode_compress :
    decode 0b00000000000000000000000000110000#32 = .ok .compress := by decide
theorem test_decode_decompress :
    decode 0b00000000000000000000000000110001#32 = .ok .decompress := by decide
/-- E12a, E12f: a reserved opcode, with RSVD = 0 and with RSVD ≠ 0. -/
theorem test_decode_reserved_opcode :
    decode 0x00000015#32 = .error .reservedOpcode ∧ decode 0xFFFFFFFF#32 = .error .reservedOpcode := by
  decide
/-- E12c, E12d, E12e: a legal opcode with RSVD ≠ 0. -/
theorem test_decode_reserved_bits :
    decode 0x00000130#32 = .error .reservedBits ∧ decode 0x00000100#32 = .error .reservedBits
      ∧ decode 0x00003100#32 = .error .reservedBits := by decide
theorem test_table_word : decodeTableWord 32 0x31 = some .decompress ∧ decodeTableWord 8 0x31 = some .decompress
    ∧ decodeTableWord 32 0x131 = none ∧ decodeTableWord 33 0x31 = none := by decide

/-! ## The end of a run (70_reset_and_hazards.md R211) -/

/-- A pending transaction or BUSY = 1 keeps a run from being over; the idle core's turn and a later
reset do not. -/
theorem test_run_over :
    runOver { State.reset with inbox := [.core, .reset] } = true
      ∧ runOver { State.reset with inbox := [.core, pollStatus] } = false
      ∧ runOver { State.reset with inbox := [.core], busy := true } = false := by decide

/-! ## Small states -/

/-- The state a command leaves. -/
def run (i : Instr) (s : State) : State :=
  match exec i s with
  | .next t => t
  | .fault _ | .refused _ => s

/-- `d` loaded at IN_BUF and IN_LEN set, after reset, a command issued. -/
def demo (d : List Byte) : State :=
  { State.reset with
    mem := cellsFrom inBase d, inLen := BitVec.ofNat 32 d.length, busy := true }

/-- "abracadabra" (95_test_vectors.md S1). -/
def abra : List Byte :=
  [0x61#8, 0x62#8, 0x72#8, 0x61#8, 0x63#8, 0x61#8, 0x64#8, 0x61#8, 0x62#8, 0x72#8, 0x61#8]

/-- The tree of TB-1, written out from 95_test_vectors.md. -/
def abraTree : State :=
  { demo abra with
    node := ((((((((((demo abra).node.set 0 (.leaf 0x61#8 5#40)).set 1 (.leaf 0x62#8 2#40)).set 2
      (.leaf 0x63#8 1#40)).set 3 (.leaf 0x64#8 1#40)).set 4 (.leaf 0x72#8 2#40)).set 5
      (.internal 2#40 2#9 3#9)).set 6 (.internal 4#40 1#9 4#9)).set 7 (.internal 6#40 5#9 6#9)).set 8
      (.internal 11#40 0#9 7#9))
    nsym := 5#9, nnodes := 9#10, root := some 8#9, total := 11#40, treeValid := true }

/-- The codes of TB-1: a 0, c 100, d 101, b 110, r 111. -/
def abraCodes : State :=
  { abraTree with
    code := setCode (setCode (setCode (setCode (setCode absentTable 0x61#8 ⟨1#8, 0#256⟩) 0x62#8
      ⟨3#8, 6#256⟩) 0x63#8 ⟨3#8, 4#256⟩) 0x64#8 ⟨3#8, 5#256⟩) 0x72#8 ⟨3#8, 7#256⟩
    codesValid := true }

/-- The payload of TB-1: 6E 8A DC, one pad bit. -/
def abraPayload : State :=
  { abraCodes with
    pbuf := cellsFrom 0 [0x6E#8, 0x8A#8, 0xDC#8], plen := 3#32, pad := 1#3, payloadValid := true }

/-- The first `n` bytes of OUT_BUF. -/
def outBytes (n : Nat) (s : State) : List Byte := (s.mem.read outBase n 0).1

/-! The histogram of a few bytes, read without building the vector. -/

theorem leavesOf_counts (d : List Byte) : leavesOf (countBytes d) = allBytes.filterMap fun v =>
    if BitVec.ofNat 32 (d.count v) = 0#32 then none
    else some (.leaf v ((BitVec.ofNat 32 (d.count v)).setWidth 40)) := by
  simp only [leavesOf, histAt_countBytes]

theorem nonzeroCount_counts (d : List Byte) : nonzeroCount (countBytes d) =
    allBytes.countP fun v => BitVec.ofNat 32 (d.count v) != 0#32 := by
  simp only [nonzeroCount, histAt_countBytes]

theorem holds_cellsFrom (a : Nat) (bs : List Byte) : Holds (cellsFrom a bs) a bs := by
  intro k hk
  rw [Memory.get?_cellsFrom, if_pos (Nat.le_add_right _ _), Nat.add_sub_cancel_left,
    List.getElem?_eq_getElem hk]

/-! ## One step per command -/

/-- K1. -/
theorem test_nop : statusWord (run .nop (demo [])) = 0x00000002#32 := by decide +kernel
/-- K3. -/
theorem test_clear : statusWord (run .clear abraPayload) = 0x00000002#32
    ∧ (run .clear abraPayload).plen = 0#32 ∧ (run .clear abraPayload).root = none
    ∧ (run .clear abraPayload).inLen = 11#32 := by decide +kernel
/-- S1. -/
theorem test_count : ([0x61#8, 0x62#8, 0x63#8, 0x64#8, 0x72#8, 0x65#8].map
    (histAt (run .count (demo abra)).hist)) = [5#32, 2#32, 1#32, 1#32, 2#32, 0#32] := by decide +kernel
/-- E13c. -/
theorem test_count_over : errInfoWord (run .count { demo [] with inLen := 4097#32 }) = 0x00100001#32
    ∧ statusWord (run .count { demo [] with inLen := 4097#32 }) = 0x00000502#32 := by decide +kernel
/-- TB-6 under FIFO: a leaf before an internal node of equal frequency. -/
theorem test_build_fifo : (buildTree .fifo (countBytes
    [0x61#8, 0x62#8, 0x63#8, 0x61#8, 0x62#8, 0x63#8, 0x78#8])).nodes.drop 4 =
      [.internal 3#40 3#9 0#9, .internal 4#40 1#9 2#9, .internal 7#40 4#9 5#9] := by
  rw [buildTree, leavesOf_counts]
  decide +kernel
/-- TB-4, TB-5 and TB-6 under HEAP. -/
theorem test_build_heap :
    (buildTree .heap (countBytes
      [0x61#8, 0x62#8, 0x63#8, 0x64#8, 0x65#8, 0x66#8, 0x67#8, 0x68#8])).nodes.drop 8 =
        [.internal 2#40 0#9 2#9, .internal 2#40 6#9 5#9, .internal 2#40 7#9 1#9,
          .internal 2#40 4#9 3#9, .internal 4#40 8#9 10#9, .internal 4#40 9#9 11#9,
          .internal 8#40 12#9 13#9]
      ∧ (buildTree .heap (countBytes
        [0x61#8, 0x61#8, 0x62#8, 0x62#8, 0x63#8, 0x63#8, 0x64#8, 0x64#8])).nodes.drop 4 =
          [.internal 4#40 0#9 2#9, .internal 4#40 1#9 3#9, .internal 8#40 4#9 5#9]
      ∧ (buildTree .heap (countBytes
        [0x61#8, 0x62#8, 0x63#8, 0x61#8, 0x62#8, 0x63#8, 0x78#8])).nodes.drop 4 =
          [.internal 3#40 3#9 2#9, .internal 4#40 0#9 1#9, .internal 7#40 4#9 5#9] := by
  rw [buildTree, buildTree, buildTree, leavesOf_counts, leavesOf_counts, leavesOf_counts]
  decide +kernel
/-- TB-1. -/
theorem test_gencodes : ([0x61#8, 0x62#8, 0x63#8, 0x64#8, 0x72#8, 0x65#8].map
    (codeAt (run .gencodes abraTree).code)) =
      [⟨1#8, 0#256⟩, ⟨3#8, 6#256⟩, ⟨3#8, 4#256⟩, ⟨3#8, 5#256⟩, ⟨3#8, 7#256⟩, ⟨0#8, 0#256⟩] := by
  decide +kernel
/-- TB-1: PLEN, PAD and the payload. -/
theorem test_pack : (run .pack abraCodes).pbuf = [(0, 0x6E#8), (1, 0x8A#8), (2, 0xDC#8)]
    ∧ (run .pack abraCodes).pad = 1#3 ∧ (run .pack abraCodes).plen = 3#32 := by decide +kernel
/-- E10: ABSENT_CODE at offset 2. -/
theorem test_pack_absent : errInfoWord (run .pack { abraCodes with
      mem := cellsFrom inBase [0x61#8, 0x62#8, 0x7A#8], inLen := 3#32 }) = 0x00137A01#32
    ∧ (run .pack { abraCodes with
      mem := cellsFrom inBase [0x61#8, 0x62#8, 0x7A#8], inLen := 3#32 }).errArg = 2#32 := by
  decide +kernel
/-- TB-1: bytes 388 and 1024 to 1027 of the container. -/
theorem test_serialize :
    let t := run .serialize { abraPayload with hist := (demo []).hist.set 0x61 5#32 }
    t.outLen = 1028#32 ∧ t.mem.get? (outBase + 388) = some 5#8
      ∧ [1024, 1025, 1026, 1027].map (fun k => t.mem.get? (outBase + k)) =
        [some 0x6E#8, some 0x8A#8, some 0xDC#8, some 0x01#8] := by decide +kernel
/-- E3: pad 3 with an empty payload. -/
theorem test_deserialize_pad :
    let t := run .deserialize { demo [] with mem := [(inBase + 1024, 3#8)], inLen := 1025#32 }
    statusWord t = 0x00000102#32 ∧ errInfoWord t = 0x00200303#32 ∧ t.errArg = 0#32 := by
  decide +kernel
/-- The parts of a container: HIST[255] from its last four histogram bytes, payload and pad. -/
theorem test_deserialize :
    let t := run .deserialize { demo [] with
      mem := cellsFrom (inBase + 1020) [0x01#8, 0x02#8, 0x03#8, 0x04#8, 0xA5#8, 0x05#8]
      inLen := 1026#32 }
    histAt t.hist 0xFF#8 = 0x04030201#32 ∧ t.pbuf = [(0, 0xA5#8)] ∧ t.plen = 1#32 ∧ t.pad = 5#3
      ∧ statusWord t = 0x00000012#32 := by decide +kernel
/-- TB-1 decoded. -/
theorem test_unpack : outBytes 11 (run .unpack abraPayload) = abra
    ∧ (run .unpack abraPayload).outLen = 11#32 := by decide +kernel
/-- E6: the pad bit read as a twelfth 'a'. -/
theorem test_unpack_mismatch :
    let t := run .unpack { abraPayload with pad := 0#3 }
    errInfoWord t = 0x00216105#32 ∧ t.errArg = 23#32 ∧ outBytes 11 t = abra := by decide +kernel
abbrev ab : List Byte := [0x61#8, 0x62#8]
abbrev aaaa : List Byte := [0x61#8, 0x61#8, 0x61#8, 0x61#8]

theorem ab_built : buildTree .fifo (countBytes ab) =
    ⟨[.leaf 0x61#8 1#40, .leaf 0x62#8 1#40, .internal 2#40 0#9 1#9], 2, some 2⟩ := by
  rw [buildTree, leavesOf_counts]
  decide +kernel

theorem aaaa_built : buildTree .fifo (countBytes aaaa) = ⟨[.leaf 0x61#8 4#40], 1, some 0⟩ := by
  rw [buildTree, leavesOf_counts]
  decide +kernel

/-- TB-7: bits 01. -/
theorem ab_encoded : encodeWith (histCodes .fifo (countBytes ab)) ab = [false, true] := by
  rw [histCodes, ab_built]
  decide +kernel

/-- TB-2: bits 0000. -/
theorem aaaa_encoded : encodeWith (histCodes .fifo (countBytes aaaa)) aaaa =
    [false, false, false, false] := by
  rw [histCodes, aaaa_built]
  decide +kernel

theorem ab_packed : (packedOf .fifo ab).length = 1 := by rw [packedOf, ab_encoded]; rfl
theorem aaaa_packed : (packedOf .fifo aaaa).length = 1 := by rw [packedOf, aaaa_encoded]; rfl

theorem ab_container : (containerOf .fifo ab).length = 1026 := by
  rw [containerOf, containerBytes_length, ab_packed]

/-- COMPRESS "ab" succeeds, whatever else stands in the state. -/
theorem ab_compress (s : State) (hc : s.cfg = Config.standard) (hl : s.inLen = 2#32)
    (hd : s.latchedDegen = false) (h : Holds s.mem inBase ab) :
    ∃ t, exec .compress s = .next t ∧ t.err = 0#4 ∧ t.outLen = 1026#32
      ∧ Holds t.mem outBase (containerOf .fifo ab) := by
  have hl' : ab.length = s.inLen.toNat := by rw [hl]; rfl
  have hcap : s.inLen.toNat ≤ s.cfg.inCap := by rw [hl, hc]; decide
  have hp : (packedOf s.cfg.tie ab).length = 1 := by rw [hc]; exact ab_packed
  have e := compressBody_coded h hl' hcap (.inl hd)
  rw [packBody_coded h hl' hcap (by rw [hp, hc]; decide), BodyResult.ok_andThen,
    (serializeBody_packed (by rw [hc]; decide) (by rw [hp, hc]; decide)).2.2
      (by rw [hp, hc]; decide), hp] at e
  have ht : s.cfg.tie = .fifo := by rw [hc]; rfl
  rw [ht] at e
  exact ⟨_, exec_of_ok (i := .compress) e, rfl, rfl, Memory.store_holds _ _ _⟩

/-- TB-7: the counters of 'a' and 'b', the payload and the pad of the container of "ab". -/
theorem test_compress : ∃ t, exec .compress (demo ab) = .next t ∧ t.err = 0#4 ∧ t.outLen = 1026#32
    ∧ [388, 392, 1024, 1025].map (fun k => t.mem.get? (outBase + k)) =
      [some 1#8, some 1#8, some 0x40#8, some 0x06#8] := by
  obtain ⟨t, h1, h2, h3, h4⟩ := ab_compress (demo ab) rfl rfl rfl (holds_cellsFrom _ _)
  have hk : ∀ k, k < 1026 → t.mem.get? (outBase + k) = (containerOf .fifo ab)[k]? := fun k hk => by
    have hk' : k < (containerOf .fifo ab).length := by rw [ab_container]; exact hk
    rw [h4 k hk', List.getElem?_eq_getElem hk']
  refine ⟨t, h1, h2, h3, ?_⟩
  rw [List.map_cons, List.map_cons, List.map_cons, List.map_cons, List.map_nil, hk _ (by decide),
    hk _ (by decide), hk _ (by decide), hk _ (by decide), containerOf, packedOf, ab_encoded]
  decide +kernel

theorem aaaa_single : nonzeroCount (countBytes aaaa) = 1 := by
  rw [nonzeroCount_counts]
  decide +kernel

/-- P4: "aaaa" under REJECT. -/
theorem test_compress_reject : ∃ t, exec .compress { demo aaaa with latchedDegen := true } = .next t
    ∧ t.err = 3#4 ∧ t.errSub = 1#8 ∧ t.errSym = 0x61#8 ∧ t.errStage = 0x12#8 ∧ t.errArg = 4#32
    ∧ t.outLen = 0#32 := by
  obtain ⟨v, hv, -, h⟩ := compressBody_reject (s := { demo aaaa with latchedDegen := true })
    (holds_cellsFrom _ _) (by decide) (by decide) aaaa_single rfl
  have hv' : v = 0x61#8 := by simpa using hv
  subst hv'
  have ht : (built (counted { demo aaaa with latchedDegen := true } aaaa)).total = 4#40 := by
    rw [built, setTree_total]
    exact (congrArg HuffTree.total aaaa_built).trans rfl
  rw [ht] at h
  generalize invalidateCodes (built (counted { demo aaaa with latchedDegen := true } aaaa)) = b at h
  exact ⟨_, exec_of_raised (i := .compress) h, rfl, rfl, rfl, rfl, rfl, rfl⟩

/-- E1: 500 bytes. -/
theorem test_decompress_short :
    let t := run .decompress { demo [] with inLen := 500#32 }
    [statusWord t, errInfoWord t, t.errArg] = [0x00000102#32, 0x00200001#32, 500#32] := by
  decide +kernel

/-- The container of "aaaa" (TB-2): HIST[0x61] = 4 at byte 388, payload 00, pad 04. -/
def aaaaContainer : List Byte :=
  List.replicate 388 0#8 ++ [4#8] ++ List.replicate 636 0#8 ++ [4#8]

theorem aaaa_container : containerOf .fifo aaaa = aaaaContainer := by
  rw [containerOf, packedOf, aaaa_encoded]
  decide +kernel

/-- TB-2: DECOMPRESS of that container. -/
theorem test_decompress : ∃ t, exec .decompress (demo aaaaContainer) = .next t ∧ t.err = 0#4
    ∧ t.outLen = 4#32 ∧ Holds t.mem outBase aaaa := by
  have hl : (demo aaaaContainer).inLen = 1026#32 := by decide +kernel
  have hlen : aaaaContainer.length = 1026 := by decide +kernel
  have hm : Holds (demo aaaaContainer).mem inBase aaaaContainer := holds_cellsFrom _ _
  have hc : (demo aaaaContainer).cfg = Config.standard := rfl
  generalize demo aaaaContainer = s at hl hm hc
  have ht : s.cfg.tie = .fifo := by rw [hc]; rfl
  obtain ⟨m, h1, -, h3⟩ := decompressBody_container (s := s) (d := aaaa) (by rw [hc]; decide)
    (by rw [ht, aaaa_container]; exact hm) (by rw [ht, hl, aaaa_container, hlen]; rfl)
    (by rw [hl, hc]; decide) (by rw [ht, aaaa_packed, hc]; decide) (by rw [hc]; decide)
  exact ⟨_, exec_of_ok (i := .decompress) h3, rfl, rfl, h1⟩

/-! ## Witnesses: the hypotheses of each statement are met -/

theorem witness_DecodeSortsEveryWord :
    [0x02#32, 0x0F#32, 0x15#32, 0x1F#32, 0x22#32, 0x2F#32, 0x32#32, 0xFF#32].map decode
        = List.replicate 8 (.error .reservedOpcode)
      ∧ [0x100#32, 0x101#32, 0x110#32, 0x114#32, 0x120#32, 0x121#32, 0x130#32, 0xFFFFFF31#32].map decode
        = List.replicate 8 (.error .reservedBits)
      ∧ [0x00#32, 0x01#32, 0x10#32, 0x14#32, 0x20#32, 0x21#32, 0x30#32, 0x31#32].map decode
        = [.ok .nop, .ok .clear, .ok .count, .ok .serialize, .ok .deserialize, .ok .unpack, .ok .compress,
          .ok .decompress] := by decide

/-- A bus transaction, a core turn, then nothing; busy and idle. -/
theorem witness_StepRunsDecodedCommand :
    (∃ s : State, s.busy = true ∧ decode s.lastCmd = .ok .decompress ∧ s.inbox = [])
      ∧ (∃ s : State, s.busy = true ∧ decode s.lastCmd = .ok .nop ∧ s.inbox = [.core])
      ∧ (∃ (s : State) (t : Transaction), s.inbox = [.bus t])
      ∧ (∃ s : State, s.busy = false ∧ s.inbox = [.core])
      ∧ (∃ s : State, s.busy = false ∧ s.inbox = [])
      ∧ decode (BitVec.ofNat 32 (0x31 % 2 ^ 32)) = .ok .decompress :=
  ⟨⟨{ State.reset with busy := true, lastCmd := 0x31#32 }, by decide⟩,
    ⟨{ State.reset with busy := true, inbox := [.core] }, by decide⟩,
    ⟨{ State.reset with inbox := [.bus (readTxn .b4 0#32)] }, _, rfl⟩,
    ⟨{ State.reset with inbox := [.core] }, by decide⟩, ⟨State.reset, by decide⟩, by decide⟩

theorem witness_CompletionDecodesLastCmd :
    (∀ inbox ∈ [[], [.core]], ∃ s : State, s.inbox = inbox ∧ s.busy = true
        ∧ ∀ i : Instr, opcodeField s.lastCmd ≠ i.opcode)
      ∧ (∀ inbox ∈ [[], [.core]], ∃ s : State, s.inbox = inbox ∧ s.busy = true
          ∧ opcodeField s.lastCmd = Instr.compress.opcode ∧ reservedField s.lastCmd ≠ 0#24)
      ∧ ∃ s : State, s.busy = true ∧ opcodeField s.lastCmd = Instr.compress.opcode
          ∧ reservedField s.lastCmd = 0#24 :=
  ⟨fun inbox _ => ⟨{ State.reset with busy := true, lastCmd := 0xFFFFFFFF#32, inbox := inbox }, rfl,
      rfl, by intro i; change opcodeField 0xFFFFFFFF#32 ≠ _; cases i <;> decide⟩,
    fun inbox _ => ⟨{ State.reset with busy := true, lastCmd := 0x130#32, inbox := inbox }, rfl, rfl,
      by change opcodeField 0x130#32 = _ ∧ reservedField 0x130#32 ≠ _; decide⟩,
    ⟨{ State.reset with busy := true, lastCmd := 0x30#32 }, rfl, by decide⟩⟩

theorem witness_EveryCommandCompletes : ∃ t, exec .nop State.reset = .next t ∧ t.err = 0#4 :=
  ⟨_, rfl, rfl⟩

theorem witness_CountBuildsHistogram :
    (∃ s : State, s.cfg.inCap < s.inLen.toNat) ∧ ∃ s : State, s.inLen.toNat = s.cfg.inCap :=
  ⟨⟨{ State.reset with inLen := 4097#32 }, by decide⟩, ⟨{ State.reset with inLen := 4096#32 }, by decide⟩⟩

theorem witness_CountSumsToInLen :
    ∃ t, exec .count (demo abra) = .next t ∧ t.err = 0#4 :=
  ⟨_, exec_of_ok (i := .count) (b := counted (demo abra) abra)
    (countBody_written (s := demo abra) (holds_cellsFrom inBase abra) (by decide) (by decide)), rfl⟩

/-- A histogram of one entry, and of two: the first and the last byte value. -/
def oneHist : Vector Word 256 := (Vector.replicate 256 0#32).set 255 0xFFFFFFFF#32
def twoHist : Vector Word 256 := oneHist.set 0 1#32

theorem witness_BuildOfNoneOrOne :
    (∃ s : State, ∀ v, histAt s.hist v = 0#32)
      ∧ ∃ (s : State) (v : Byte), histAt s.hist v ≠ 0#32 ∧ ∀ u, u ≠ v → histAt s.hist u = 0#32 := by
  refine ⟨⟨State.reset, fun v => by simp [histAt, State.reset, State.resetWith]⟩,
    ⟨{ State.reset with hist := oneHist }, 255#8, by decide, fun u hu => ?_⟩⟩
  have h : u.toNat ≠ 255 := fun h => hu (BitVec.eq_of_toNat_eq h)
  simp [histAt, oneHist, h.symm]

theorem histAt_twoHist (v : Byte) :
    histAt twoHist v = if v = 0#8 then 1#32 else if v = 255#8 then 0xFFFFFFFF#32 else 0#32 := by
  have h0 : v = 0#8 ↔ 0 = v.toNat := by rw [← BitVec.toNat_inj]; exact eq_comm
  have h1 : v = 255#8 ↔ 255 = v.toNat := by rw [← BitVec.toNat_inj]; exact eq_comm
  simp only [histAt, twoHist, oneHist, Vector.getElem_set, Vector.getElem_replicate, h0, h1]

theorem two_count : nonzeroCount twoHist = 2 := by
  simp only [nonzeroCount, histAt_twoHist]
  decide +kernel

theorem two_leaves : leavesOf twoHist = [.leaf 0#8 1#40, .leaf 255#8 0xFFFFFFFF#40] := by
  simp only [leavesOf, histAt_twoHist]
  decide +kernel

theorem witness_BuildNumbersNodes : ∃ s : State, nonzeroCount s.hist ≠ 0
    ∧ (allBytes.filter fun u => histAt s.hist u != 0#32)[1]? = some 255#8 := by
  refine ⟨{ State.reset with hist := twoHist }, by rw [two_count]; decide, ?_⟩
  simp only [histAt_twoHist]
  decide +kernel

theorem witness_BuildMakesATree : ∃ s : State, nonzeroCount s.hist ≠ 0 :=
  ⟨{ State.reset with hist := twoHist }, by rw [two_count]; decide⟩

/-- The state after BUILD of a histogram. -/
def grown (hist : Vector Word 256) : State := built { State.reset with hist := hist }

theorem grown_run (hist : Vector Word 256) :
    exec .build { State.reset with hist := hist } =
      .next { grown hist with err := 0#4, busy := false, done := true } := rfl

theorem two_nodes : (buildTree .fifo twoHist).nodes =
    [.leaf 0#8 1#40, .leaf 255#8 0xFFFFFFFF#40, .internal 0x100000000#40 0#9 1#9] := by
  rw [buildTree, two_leaves]
  decide +kernel

/-- The clauses about a leaf and about an internal node are met. -/
theorem witness_BuildSumsFrequencies : ∃ (s t : State), exec .build s = .next t
    ∧ 2 < t.nnodes.toNat ∧ nodeN t 0 = .leaf 0#8 1#40
    ∧ nodeN t 2 = .internal 0x100000000#40 0#9 1#9 := by
  have hl : (buildTree .fifo twoHist).nodes.length = 3 := by rw [two_nodes]; rfl
  have hn := built_nnodes { State.reset with hist := twoHist }
  have hs := built_stores { State.reset with hist := twoHist }
  change (grown twoHist).nnodes.toNat = (buildTree .fifo twoHist).nodes.length at hn
  change Stores (grown twoHist).node (buildTree .fifo twoHist).nodes at hs
  rw [two_nodes] at hs
  refine ⟨_, _, grown_run twoHist, ?_, hs.nodeAt rfl, hs.nodeAt rfl⟩
  change 2 < (grown twoHist).nnodes.toNat
  omega

theorem witness_BuildDependsOnHistOnly : ∃ s s' t t' : State, s'.cfg.tie = s.cfg.tie ∧ s'.hist = s.hist
    ∧ s'.mem ≠ s.mem ∧ exec .build s = .next t ∧ exec .build s' = .next t' :=
  ⟨{ State.reset with hist := twoHist }, { demo abra with hist := twoHist }, _, _, rfl, rfl, by decide, rfl,
    rfl⟩

/-- Three leaves under FIFO: 'a' and 'b' merge first, and then 'c' comes before their node. -/
theorem abcc_nodes : (buildTree .fifo (countBytes [0x61#8, 0x62#8, 0x63#8, 0x63#8])).nodes =
    [.leaf 0x61#8 1#40, .leaf 0x62#8 1#40, .leaf 0x63#8 2#40, .internal 2#40 0#9 1#9,
      .internal 4#40 2#9 3#9] := by
  rw [buildTree, leavesOf_counts]
  decide +kernel

/-- A merge, with a node `x` = 2 that no internal node below it has for a child. -/
theorem build_root {s : State} (h : nonzeroCount s.hist ≠ 0) :
    ∃ t r, exec .build s = .next t ∧ t.root = some r := by
  obtain ⟨T, hT⟩ := buildTree_built s.cfg.tie s.hist h
  exact ⟨_, _, exec_eq _ _, congrArg (Option.map (BitVec.ofNat 9)) hT.root⟩

theorem witness_BuildMergesTheTwoLeast_root : ∃ (s t : State) (r : NodeIdx),
    exec .build s = .next t ∧ t.root = some r :=
  ⟨{ State.reset with hist := countBytes [0x61#8] }, build_root (by
    change nonzeroCount (countBytes [0x61#8]) ≠ 0
    rw [nonzeroCount_counts]
    decide +kernel)⟩

theorem witness_BuildMergesTheTwoLeast :
    ∃ (s t : State) (n x : Nat) (f : Freq) (l r : NodeIdx), exec .build s = .next t
      ∧ n < t.nnodes.toNat ∧ nodeN t n = .internal f l r ∧ x < n ∧ x ≠ l.toNat ∧ x ≠ r.toNat
      ∧ ∀ p, p < n → ¬ IsChild t p x := by
  have hn := built_nnodes
    { State.reset with hist := countBytes [0x61#8, 0x62#8, 0x63#8, 0x63#8] }
  have hs := built_stores
    { State.reset with hist := countBytes [0x61#8, 0x62#8, 0x63#8, 0x63#8] }
  have hrun := grown_run (countBytes [0x61#8, 0x62#8, 0x63#8, 0x63#8])
  change (grown (countBytes [0x61#8, 0x62#8, 0x63#8, 0x63#8])).nnodes.toNat
    = (buildTree .fifo (countBytes [0x61#8, 0x62#8, 0x63#8, 0x63#8])).nodes.length at hn
  change Stores (grown (countBytes [0x61#8, 0x62#8, 0x63#8, 0x63#8])).node
    (buildTree .fifo (countBytes [0x61#8, 0x62#8, 0x63#8, 0x63#8])).nodes at hs
  rw [abcc_nodes] at hs hn
  generalize grown (countBytes [0x61#8, 0x62#8, 0x63#8, 0x63#8]) = g at hrun hn hs
  refine ⟨_, _, 3, 2, _, _, _, hrun, by dsimp only; rw [hn]; decide, hs.nodeAt rfl, by decide,
    by decide, by decide, fun p hp => ?_⟩
  rintro ⟨f, l, r, hx, -⟩
  have h0 : nodeAt g.node 0#9 = .leaf 0x61#8 1#40 := hs.nodeAt rfl
  have h1 : nodeAt g.node 1#9 = .leaf 0x62#8 1#40 := hs.nodeAt rfl
  have h2 : nodeAt g.node 2#9 = .leaf 0x63#8 2#40 := hs.nodeAt rfl
  change nodeAt g.node (BitVec.ofNat 9 p) = _ at hx
  have : p = 0 ∨ p = 1 ∨ p = 2 := by omega
  rcases this with rfl | rfl | rfl
  · cases h0.symm.trans hx
  · cases h1.symm.trans hx
  · cases h2.symm.trans hx

theorem witness_QueuesGiveOutTheLeast :
    (∃ q e q', queueExtractMin .fifo q = some (e, q'))
      ∧ (∃ h e h', HeapOrdered h ∧ queueExtractMin .heap h = some (e, h'))
      ∧ smallerChild [⟨1#40, 3⟩, ⟨1#40, 1⟩, ⟨1#40, 2⟩] 0 = 2
      ∧ smallerChild [⟨1#40, 3⟩, ⟨1#40, 1⟩, ⟨2#40, 2⟩] 0 = 1
      ∧ smallerChild [⟨1#40, 3⟩, ⟨1#40, 1⟩] 0 = 1 :=
  ⟨⟨[⟨2#40, 0⟩, ⟨1#40, 1⟩], _, _, rfl⟩, ⟨[⟨1#40, 0⟩, ⟨2#40, 1⟩], _, _, by
    intro i h0 h1
    have : i = 1 := by simp at h1; omega
    subst this; decide, rfl⟩, by decide⟩

/-! ### GENCODES -/

/-- A one-leaf tree written out by hand: 'a' with frequency 4 (95_test_vectors.md TB-2). -/
def oneLeaf : State :=
  { State.reset with
    node := State.reset.node.set 0 (.leaf 0x61#8 4#40)
    nsym := 1#9, nnodes := 1#10, root := some 0#9, total := 4#40, treeValid := true }

theorem witness_GencodesOfASingleSymbol : ∃ (s : State) (r : NodeIdx) (sym : Byte) (f : Freq),
    s.treeValid = true ∧ s.root = some r ∧ nodeAt s.node r = .leaf sym f
      ∧ s.latchedDegen = false ∧ ({ s with latchedDegen := true } : State).latchedDegen = true :=
  ⟨oneLeaf, 0#9, 0x61#8, 4#40, by decide +kernel⟩

theorem witness_EmptyTreeAndEmptyInputCode :
    (∃ s : State, s.treeValid = true ∧ s.root = none ∧ s.inLen = 0#32)
      ∧ ∃ s : State, s.codesValid = true ∧ s.inLen = 0#32 :=
  ⟨⟨{ State.reset with treeValid := true }, by decide⟩, ⟨{ State.reset with codesValid := true }, by decide⟩⟩

theorem witness_GencodesIsPure :
    (∃ s : State, s.treeValid = false)
      ∧ ∃ s s' t t' : State, s.treeValid = true ∧ SameTree s s' ∧ s'.latchedDegen = s.latchedDegen
        ∧ s'.mem ≠ s.mem ∧ exec .gencodes s = .next t ∧ exec .gencodes s' = .next t' :=
  ⟨⟨State.reset, rfl⟩, ⟨oneLeaf, { oneLeaf with mem := [(inBase, 1#8)] }, _, _, rfl,
    ⟨rfl, rfl, rfl, rfl, rfl, rfl⟩, rfl, by decide, exec_eq _ _, exec_eq _ _⟩⟩

theorem witness_GencodesWritesPaths :
    ∃ s : State, s.treeValid = true ∧ TreeCoherent s ∧ 2 ≤ nonzeroCount s.hist
      ∧ histAt s.hist 0#8 ≠ 0#32 ∧ histAt s.hist 1#8 = 0#32 := by
  refine ⟨grown twoHist, rfl, built_coherent _, ?_, by decide +kernel, by decide +kernel⟩
  have : (grown twoHist).hist = twoHist := rfl
  rw [this, two_count]

theorem witness_CodesFormACompletePrefixCode :
    ∃ s : State, s.treeValid = true ∧ TreeCoherent s ∧ 2 ≤ nonzeroCount s.hist := by
  obtain ⟨s, h1, h2, h3, -⟩ := witness_GencodesWritesPaths
  exact ⟨s, h1, h2, h3⟩

/-! ### PACK -/

/-- 'a' has the code 0, and nothing else has one. -/
def aCode : Vector Code 256 := setCode absentTable 0x61#8 forcedCode

/-- `n` bytes 'a', then `d`, to pack with that code into one byte of PBUF. -/
def packDemo (n : Nat) (d : List Byte) : State :=
  { demo (List.replicate n 0x61#8 ++ d) with
    cfg := { Config.standard with pbufCap := 1 }, code := aCode, codesValid := true, treeValid := true }

theorem packDemo_input (n : Nat) (d : List Byte)
    (h : (List.replicate n 0x61#8 ++ d).length = (packDemo n d).inLen.toNat) :
    inputOf (packDemo n d) = List.replicate n 0x61#8 ++ d := inputOf_of_holds (holds_cellsFrom _ _) h

theorem witness_PackWritesTheStream : ∃ s : State, s.cfg.wf = true ∧ s.codesValid = true
    ∧ s.inLen.toNat ≤ s.cfg.inCap ∧ (∀ b, b ∈ inputOf s → HasCode s.code b)
    ∧ (encodeWith s.code (inputOf s)).length = 8 * s.cfg.pbufCap := by
  refine ⟨packDemo 8 [], by decide, rfl, by decide, ?_, ?_⟩ <;>
    rw [packDemo_input 8 [] (by decide)]
  · intro b hb
    have : b = 0x61#8 := by simpa using hb
    subst this
    unfold HasCode packDemo aCode
    decide +kernel
  · decide +kernel

/-- The clauses in turn: no valid codes; IN_LEN over IN_CAP; a byte without a code at offset 8; the
first bit that does not fit at offset 8. -/
theorem witness_PackFailsAtTheFirstError :
    (∃ s : State, s.codesValid = false)
      ∧ (∃ s : State, s.codesValid = true ∧ s.cfg.inCap < s.inLen.toNat)
      ∧ ∀ b ∈ [0x62#8, 0x61#8], ∃ (s : State) (i : Nat), s.codesValid = true
          ∧ s.inLen.toNat ≤ s.cfg.inCap ∧ (inputOf s)[i]? = some b
          ∧ (∀ c, c ∈ (inputOf s).take i → HasCode s.code c)
          ∧ (encodeWith s.code ((inputOf s).take i)).length ≤ 8 * s.cfg.pbufCap
          ∧ (b = 0x62#8 → ¬ HasCode s.code b)
          ∧ (b = 0x61#8 → HasCode s.code b
            ∧ 8 * s.cfg.pbufCap < (encodeWith s.code ((inputOf s).take (i + 1))).length) := by
  refine ⟨⟨State.reset, rfl⟩, ⟨{ State.reset with codesValid := true, inLen := 4097#32 }, by decide⟩, ?_⟩
  have hc : HasCode aCode 0x61#8 := by unfold HasCode aCode; decide +kernel
  have hn : ¬ HasCode aCode 0x62#8 := by unfold HasCode aCode; decide +kernel
  have hm : ∀ b c : Byte, c ∈ (List.replicate 8 0x61#8 ++ [b]).take 8 → HasCode aCode c := fun b c h => by
    have : c = 0x61#8 := by simpa [List.take] using h
    rw [this]; exact hc
  intro b hb
  fin_cases hb
  · refine ⟨packDemo 8 [0x62#8], 8, rfl, by decide, ?_⟩
    rw [packDemo_input 8 [0x62#8] (by decide)]
    exact ⟨rfl, hm _, by decide +kernel, fun _ => hn, fun h => absurd h (by decide)⟩
  · refine ⟨packDemo 8 [0x61#8], 8, rfl, by decide, ?_⟩
    rw [packDemo_input 8 [0x61#8] (by decide)]
    exact ⟨rfl, hm _, by decide +kernel, fun h => absurd h (by decide), fun _ => ⟨hc, by decide +kernel⟩⟩

/-! ### UNPACK -/

theorem witness_UnpackChecksInOrder :
    (∃ s : State, s.treeValid = false)
      ∧ (∃ s : State, s.treeValid = true ∧ s.payloadValid = false)
      ∧ ∃ s : State, s.treeValid = true ∧ s.payloadValid = true ∧ s.cfg.outCap < s.total.toNat :=
  ⟨⟨State.reset, rfl⟩, ⟨{ State.reset with treeValid := true }, by decide⟩,
    ⟨{ State.reset with treeValid := true, payloadValid := true, total := 4097#40 }, by decide⟩⟩

theorem witness_UnpackOfTheEmptyTree :
    ∃ s : State, s.treeValid = true ∧ s.payloadValid = true ∧ s.total.toNat ≤ s.cfg.outCap
      ∧ s.root = none ∧ s.plen = 0#32 ∧ ({ s with plen := 1#32 } : State).plen ≠ 0#32 :=
  ⟨{ State.reset with treeValid := true, payloadValid := true }, by decide⟩

/-- The tree of a sequence with a payload beside it. -/
def treeWith (d payload : List Byte) (pad : BitVec 3) : State :=
  { built (counted (demo []) d) with
    payloadValid := true, plen := BitVec.ofNat 32 payload.length, pad := pad
    pbuf := cellsFrom 0 payload }

/-- The walk of a payload over a tree written out. -/
def walkOf (T : HuffTree) (r : NodeIdx) (payload : List Byte) (pad : BitVec 3) : WalkResult :=
  walk (storeNodes (Vector.replicate 511 (.leaf 0#8 0#40)) T.nodes) r T.total.toNat
    (retainedBits payload pad)

/-- Some coherent tree with a payload on which UNPACK's walk fails with this SUBCODE, SYM and
ERRARG. -/
def WalkFailsSomewhere (sub sym : Byte) (arg : Word) : Prop :=
  ∃ (s t : State) (r : NodeIdx), exec .unpack s = .next t ∧ t.err ≠ 0#4 ∧ s.treeValid = true
    ∧ s.payloadValid = true ∧ s.total.toNat ≤ s.cfg.outCap ∧ s.root = some r ∧ TreeCoherent s
    ∧ nonzeroCount s.hist ≠ 0 ∧ t.errSub = sub ∧ t.errSym = sym ∧ t.errArg = arg

theorem walkFails_of {d : List Byte} (payload : List Byte) (pad : BitVec 3) {T : HuffTree} {r : Nat}
    {e : Raised} (hT : buildTree .fifo (countBytes d) = T) (hr : T.root = some r)
    (hc : T.total.toNat ≤ 4096) (hl : payload.length < 2 ^ 32)
    (hk : (allBytes.countP fun v => BitVec.ofNat 32 (d.count v) != 0#32) ≠ 0)
    (hw : (walkOf T (BitVec.ofNat 9 r) payload pad).error = some e) :
    WalkFailsSomewhere e.sub e.sym e.arg := by
  have hplen : payload.length = (BitVec.ofNat 32 payload.length).toNat := by
    rw [BitVec.toNat_ofNat]; omega
  unfold WalkFailsSomewhere
  obtain ⟨s, hs⟩ : ∃ s, s = treeWith d payload pad := ⟨_, rfl⟩
  have hch : (counted (demo []) d).hist = countBytes d := counted_hist _ _
  have hcc : (counted (demo []) d).cfg = Config.standard := rfl
  have hcn : (counted (demo []) d).node = Vector.replicate 511 (.leaf 0#8 0#40) := rfl
  unfold treeWith at hs
  generalize counted (demo []) d = c at hs hch hcc hcn
  have hB : buildTree c.cfg.tie c.hist = T := by rw [hch, hcc, ← hT]; rfl
  have hroot : s.root = some (BitVec.ofNat 9 r) := by
    rw [hs]; dsimp only; rw [setTree_root, hB, hr]; rfl
  have htot : s.total = T.total := by rw [hs]; dsimp only; rw [setTree_total, hB]
  have hnode : s.node = storeNodes (Vector.replicate 511 (.leaf 0#8 0#40)) T.nodes := by
    rw [hs]; dsimp only; rw [setTree_node, hB, ← hcn]; rfl
  have hhist : s.hist = countBytes d := by rw [hs]; dsimp only; rw [built_hist, hch]
  have hcoh' : TreeCoherent s := by rw [hs]; exact built_coherent c
  have hpay : payloadOf s = payload := by
    rw [hs]; exact payloadOf_of_holds (holds_cellsFrom 0 payload) hplen
  have htv : s.treeValid = true := by rw [hs]; rfl
  have hpv : s.payloadValid = true := by rw [hs]
  have hcap : s.cfg.outCap = 4096 := by rw [hs]; dsimp only; rw [setTree_cfg]; exact congrArg Config.outCap hcc
  have hpad : s.pad = pad := by rw [hs]
  clear hs hB
  have hb := unpackBody_walk htv hpv (by rw [htot, hcap]; exact hc) hroot
  have hret : retainedOf s = retainedBits payload pad := by rw [retainedOf, hpay, hpad]
  rw [hret, hnode, htot] at hb
  unfold walkOf at hw
  simp only [hw] at hb
  exact ⟨s, _, _, exec_of_raised (i := .unpack) hb, ErrCode.code_ne_zero _, htv, hpv,
    by rw [htot, hcap]; exact hc, hroot, hcoh', by rw [hhist, nonzeroCount_counts]; exact hk, rfl, rfl, rfl⟩

theorem abra_built : buildTree .fifo (countBytes abra) =
    ⟨[.leaf 0x61#8 5#40, .leaf 0x62#8 2#40, .leaf 0x63#8 1#40, .leaf 0x64#8 1#40, .leaf 0x72#8 2#40,
      .internal 2#40 2#9 3#9, .internal 4#40 1#9 4#9, .internal 6#40 5#9 6#9, .internal 11#40 0#9 7#9],
      5, some 8⟩ := by
  rw [buildTree, leavesOf_counts]
  decide +kernel

theorem abb_built : buildTree .fifo (countBytes [0x61#8, 0x62#8, 0x62#8]) =
    ⟨[.leaf 0x61#8 1#40, .leaf 0x62#8 2#40, .internal 3#40 0#9 1#9], 2, some 2⟩ := by
  rw [buildTree, leavesOf_counts]
  decide +kernel

/-- A failure before the walk, and one of each kind in it: E5b, E7, E6, E8, E9. -/
theorem witness_UnpackFailureKeepsEmittedSymbols :
    (∃ s t : State, exec .unpack s = .next t ∧ t.err ≠ 0#4 ∧ s.treeValid = false)
      ∧ WalkFailsSomewhere 4#8 0#8 20#32 ∧ WalkFailsSomewhere 5#8 0#8 2#32
      ∧ WalkFailsSomewhere 5#8 0x61#8 23#32 ∧ WalkFailsSomewhere 6#8 0x61#8 3#32
      ∧ WalkFailsSomewhere 5#8 0x61#8 4#32 :=
  ⟨⟨State.reset, _, rfl, by decide⟩,
    walkFails_of (e := walkError 4#8 0#8 20) [0x6E#8, 0x8A#8, 0xDC#8] 4#3 abra_built rfl (by decide)
      (by decide) (by decide +kernel) (by decide +kernel),
    walkFails_of (e := walkError 5#8 0#8 2) [0x40#8] 6#3 abb_built rfl (by decide) (by decide)
      (by decide +kernel) (by decide +kernel),
    walkFails_of (e := walkError 5#8 0x61#8 23) [0x6E#8, 0x8A#8, 0xDC#8] 0#3 abra_built rfl (by decide)
      (by decide) (by decide +kernel) (by decide +kernel),
    walkFails_of (e := walkError 6#8 0x61#8 3) [0x10#8] 4#3 aaaa_built rfl (by decide) (by decide)
      (by decide +kernel) (by decide +kernel),
    walkFails_of (e := walkError 5#8 0x61#8 4) [0x00#8] 3#3 aaaa_built rfl (by decide) (by decide)
      (by decide +kernel) (by decide +kernel)⟩

/-- Two payloads of TB-1 that differ in the one pad bit: DC and DD. -/
theorem witness_UnpackReadsRetainedBitsOnly : ∃ s s' t t' : State, s.cfg.wf = true ∧ s'.cfg = s.cfg
    ∧ SameTree s s' ∧ s'.mem = s.mem ∧ s'.payloadValid = s.payloadValid ∧ s'.plen = s.plen
    ∧ retainedOf s' = retainedOf s ∧ s'.pbuf ≠ s.pbuf ∧ exec .unpack s = .next t
    ∧ exec .unpack s' = .next t' ∧ t.err = 0#4 ∧ s.root ≠ none :=
  ⟨abraPayload, { abraPayload with pbuf := cellsFrom 0 [0x6E#8, 0x8A#8, 0xDD#8] }, _, _, by decide, rfl,
    ⟨rfl, rfl, rfl, rfl, rfl, rfl⟩, rfl, rfl, rfl, by decide +kernel, by decide, exec_eq _ _,
    exec_eq _ _, by decide +kernel, by decide⟩

/-- The tree of "ab" with its payload (TB-7): bits 01, six pad bits. -/
def abTree : State :=
  { built (counted (demo []) ab) with
    payloadValid := true, plen := 1#32, pad := 6#3, pbuf := [(0, 0x40#8)] }

theorem abTree_hist : abTree.hist = countBytes ab := by
  unfold abTree
  dsimp only
  rw [built_hist, counted_hist]

theorem abTree_facts : abTree.treeValid = true ∧ TreeCoherent abTree ∧ retainedOf abTree = [false, true] := by
  have h := built_coherent (counted (demo []) ab)
  unfold abTree
  generalize counted (demo []) ab = c at h
  exact ⟨rfl, h, rfl⟩

theorem ab_two : nonzeroCount (countBytes ab) = 2 := by
  rw [nonzeroCount_counts]
  decide +kernel

theorem witness_UnpackDecodesCodedPayloads : ∃ (s : State) (d : List Byte), s.cfg.wf = true
    ∧ s.treeValid = true ∧ s.payloadValid = true ∧ TreeCoherent s ∧ nonzeroCount s.hist ≠ 0
    ∧ d.length = histSum s.hist ∧ d.length ≤ s.cfg.outCap
    ∧ (∀ b, b ∈ d → histAt s.hist b ≠ 0#32)
    ∧ retainedOf s = encodeWith (histCodes s.cfg.tie s.hist) d := by
  obtain ⟨h1, h2, h3⟩ := abTree_facts
  refine ⟨abTree, ab, test_wf_standard, h1, rfl, h2, ?_, ?_, show 2 ≤ 4096 by decide, ?_, ?_⟩ <;>
    rw [abTree_hist]
  · rw [ab_two]; decide
  · rw [histSum_countBytes (by simp)]
  · exact fun b hb h => (countBytes_eq_zero (by simp) b).1 h hb
  · exact h3.trans ab_encoded.symm

theorem witness_UnpackSucceedsOnlyOnCodedPayloads : ∃ s t : State, s.cfg.wf = true ∧ TreeCoherent s
    ∧ nonzeroCount s.hist ≠ 0 ∧ exec .unpack s = .next t ∧ t.err = 0#4 := by
  obtain ⟨s, d, h1, h2, h3, h4, h5, h6, h7, h8, h9⟩ := witness_UnpackDecodesCodedPayloads
  obtain ⟨r, hr, ht, hw⟩ := h4.walk_encodeWith h2 h5 h6 h8
  have e := unpackBody_walk h2 h3 (by omega) hr
  rw [h9, hw] at e
  exact ⟨s, _, h1, h4, h5, exec_of_ok (i := .unpack) e, rfl⟩

/-! ### The whole chain on "ab" -/

theorem demo_inv (d : List Byte) (h : d.length ≤ 4096) : DataInv (demo d) := by
  have hr := resetWith_inv (c := Config.standard) (by decide)
  refine ⟨hr.cfg, cellsFrom_wf _ _, ?_, hr.pbuf, hr.pbufFits, hr.treeClear, hr.codesClear, hr.codesTree,
    hr.payloadClear, hr.payloadFits, hr.payloadWritten, hr.tree, hr.codes, hr.outLen⟩
  intro c hc
  have := mem_cellsFrom hc
  rw [inBuffers_iff]
  left
  have e : (demo d).cfg.inCap = 4096 := rfl
  unfold inBase at this
  rw [e]
  omega

/-- The state after COUNT, BUILD and GENCODES of "ab": a state in use, with the invariant. -/
theorem coded_inv : Inv (coded (demo ab) ab) := by
  have h1 := (demo_inv ab (by decide)).invalidateTree (countBytes ab)
  have h2 := h1.built.setCodes rfl
  rw [(built_coherent (counted (demo ab) ab)).codeTable rfl] at h2
  exact DataInv.inv h2 (fun h => Bool.false_ne_true h.2) (fun _ => rfl) (by decide)
    fun _ => ⟨rfl, rfl, rfl, rfl⟩

theorem ab_pack : packBody (coded (demo ab) ab) = .ok (packed (demo ab) ab) :=
  packBody_coded (holds_cellsFrom _ _) (by decide) (by decide)
    (le_of_eq_of_le ab_packed (by decide))

theorem packed_inv : Inv (packed (demo ab) ab) := by
  have h := bodyOf_inv .pack coded_inv.data
  change DataInv (packBody (coded (demo ab) ab)).state at h
  rw [ab_pack] at h
  exact DataInv.inv h (fun h => Bool.false_ne_true h.2) (fun _ => rfl) (by decide)
    fun _ => ⟨rfl, rfl, rfl, rfl⟩

theorem witness_UnpackInvertsPack : ∃ s t u : State, Inv s ∧ exec .pack s = .next t ∧ t.err = 0#4
    ∧ s.total.toNat = s.inLen.toNat ∧ s.total.toNat ≤ s.cfg.outCap ∧ u.cfg = t.cfg ∧ SameTree t u
    ∧ SamePayload t u := by
  have ht : (coded (demo ab) ab).total.toNat = 2 := by
    have h := (built_coherent (counted (demo ab) ab)).total rfl
    rw [built_hist, counted_hist, histSum_countBytes (by decide)] at h
    rw [setCodes_total]
    exact h
  have hl : (coded (demo ab) ab).inLen = 2#32 := rfl
  have hc : (coded (demo ab) ab).cfg = Config.standard := rfl
  have e := exec_of_ok (i := .pack) ab_pack
  have hi := coded_inv
  generalize coded (demo ab) ab = s at e hi ht hl hc
  generalize packed (demo ab) ab = p at e
  exact ⟨s, _, _, hi, e, rfl, by rw [ht, hl]; rfl, by rw [ht, hc]; decide, rfl,
    ⟨rfl, rfl, rfl, rfl, rfl, rfl⟩, ⟨rfl, rfl, rfl, rfl⟩⟩

/-! ### SERIALIZE and DESERIALIZE -/

theorem witness_SerializeWritesTheContainer : ∃ s : State, s.cfg.wf = true
    ∧ ({ s with payloadValid := false } : State).payloadValid = false ∧ s.payloadValid = true
    ∧ s.cfg.outCap < 1025 + ({ s with plen := 3072#32 } : State).plen.toNat
    ∧ 1025 + s.plen.toNat = s.cfg.outCap :=
  ⟨{ State.reset with payloadValid := true, plen := 3071#32 }, by decide⟩

theorem last_byte {s : State} {n : Nat} {p : Byte} (hl : s.inLen.toNat = n + 1)
    (h : s.mem.get? (inBase + n) = some p) : (inputOf s).getLast? = some p := by
  rw [List.getLast?_eq_getElem?, inputOf_length, hl, Nat.add_sub_cancel]
  refine (Memory.read_getElem? s.mem inBase s.inLen.toNat s.draws n (by omega)).trans ?_
  rw [h]; rfl

/-- The clauses in turn: lengths 4097 and 1024; last bytes 8; 3 with no payload byte; 1026 bytes of
payload for a PBUF of 1024 bytes; and 7 with one byte of payload. -/
theorem witness_DeserializeParsesTheContainer :
    (∃ s : State, s.cfg.inCap < s.inLen.toNat)
      ∧ (∃ s : State, s.inLen.toNat ≤ s.cfg.inCap ∧ s.inLen.toNat = 1024)
      ∧ (∃ (s : State) (p : Byte), s.inLen.toNat ≤ s.cfg.inCap ∧ s.inLen.toNat = 1025
          ∧ (inputOf s).getLast? = some p ∧ 7 < p.toNat)
      ∧ (∃ (s : State) (p : Byte), s.inLen.toNat ≤ s.cfg.inCap ∧ s.inLen.toNat = 1025
          ∧ (inputOf s).getLast? = some p ∧ p.toNat ≤ 7 ∧ 8 * (s.inLen.toNat - 1025) < p.toNat)
      ∧ (∃ (s : State) (p : Byte), s.inLen.toNat ≤ s.cfg.inCap ∧ 1025 ≤ s.inLen.toNat
          ∧ (inputOf s).getLast? = some p ∧ p.toNat ≤ 7 ∧ p.toNat ≤ 8 * (s.inLen.toNat - 1025)
          ∧ s.cfg.pbufCap < s.inLen.toNat - 1025)
      ∧ ∃ (s : State) (p : Byte), s.inLen.toNat ≤ s.cfg.inCap ∧ 1025 ≤ s.inLen.toNat
          ∧ (inputOf s).getLast? = some p ∧ p.toNat = 7 ∧ p.toNat ≤ 8 * (s.inLen.toNat - 1025)
          ∧ s.inLen.toNat - 1025 ≤ s.cfg.pbufCap :=
  ⟨⟨{ State.reset with inLen := 4097#32 }, by decide⟩, ⟨{ State.reset with inLen := 1024#32 }, by decide⟩,
    ⟨{ State.reset with inLen := 1025#32, mem := [(inBase + 1024, 8#8)] }, 8#8, by decide, by decide,
      last_byte (n := 1024) (by decide) (by decide), by decide⟩,
    ⟨{ State.reset with inLen := 1025#32, mem := [(inBase + 1024, 3#8)] }, 3#8, by decide, by decide,
      last_byte (n := 1024) (by decide) (by decide), by decide⟩,
    ⟨{ State.reset with inLen := 2051#32, mem := [(inBase + 2050, 0#8)] }, 0#8, by decide, by decide,
      last_byte (n := 2050) (by decide) (by decide), by decide⟩,
    ⟨{ State.reset with inLen := 1026#32, mem := [(inBase + 1025, 7#8)] }, 7#8, by decide, by decide,
      last_byte (n := 1025) (by decide) (by decide), by decide⟩⟩

theorem witness_ShortContainersAreRefused : ∃ s : State, s.cfg.wf = true ∧ s.inLen.toNat = 1024 :=
  ⟨{ State.reset with inLen := 1024#32 }, by decide⟩

/-- The container at OUT_BUF copied to IN_BUF. -/
theorem copy_of_store (m : Memory) (bs : List Byte) {k : Nat} (h : k < bs.length) :
    (cellsFrom inBase bs).get? (inBase + k) = (m.store outBase bs).get? (outBase + k) := by
  rw [holds_cellsFrom inBase bs k h, Memory.store_holds m outBase bs k h]

theorem packed_plen : (packed (demo ab) ab).plen.toNat = 1 := by
  have h := (serializeBody_packed (s := demo ab) (d := ab) (by decide)
    (le_of_eq_of_le ab_packed (by decide))).1
  exact h.trans ab_packed

theorem witness_FramingRoundTrip : ∃ s t u : State, Inv s ∧ exec .serialize s = .next t ∧ t.err = 0#4
    ∧ u.cfg = s.cfg ∧ u.inLen = t.outLen ∧ t.outLen.toNat ≤ u.cfg.inCap
    ∧ ∀ k, k < t.outLen.toNat → u.mem.get? (inBase + k) = t.mem.get? (outBase + k) := by
  have hp := packed_plen
  have hinv := packed_inv
  have hpv : (packed (demo ab) ab).payloadValid = true := rfl
  have hc : (packed (demo ab) ab).cfg = Config.standard := rfl
  generalize packed (demo ab) ab = P at hp hinv hpv hc
  have e := serializeBody_ok hpv (by rw [hp, hc]; decide)
  refine ⟨P, _, { State.reset with
    inLen := BitVec.ofNat 32 (1025 + P.plen.toNat)
    mem := cellsFrom inBase (containerBytes P.hist (payloadOf P) P.pad) }, hinv,
    exec_of_ok (i := .serialize) e, rfl, hc.symm, rfl, ?_, ?_⟩
  · dsimp only; rw [hp]; decide
  · intro k hk
    refine copy_of_store _ _ ?_
    dsimp only at hk
    rw [hp] at hk
    rw [containerBytes_length, payloadOf_length, hp]
    exact hk

/-! ### COMPRESS and DECOMPRESS -/

theorem witness_CompressWritesTheContainer : ∃ (s : State) (d : List Byte), s.cfg.wf = true
    ∧ Holds s.mem inBase d ∧ d.length = s.inLen.toNat ∧ s.inLen.toNat ≤ s.cfg.inCap
    ∧ (s.latchedDegen = false ∨ nonzeroCount (countBytes d) ≠ 1)
    ∧ (packedOf s.cfg.tie d).length ≤ s.cfg.pbufCap
    ∧ 1025 + (packedOf s.cfg.tie d).length ≤ s.cfg.outCap :=
  ⟨demo ab, ab, by decide, holds_cellsFrom _ _, by decide, by decide, .inl rfl,
    le_of_eq_of_le ab_packed (by decide), by rw [show (demo ab).cfg.tie = .fifo from rfl, ab_packed]; decide⟩

/-- Some COMPRESS of the written bytes `d` fails with this ERR, SUBCODE and STAGE. -/
def CompressFails (d : List Byte) (err : BitVec 4) (sub stage : Byte) : Prop :=
  ∃ s t : State, s.cfg.wf = true ∧ Holds s.mem inBase d ∧ d.length = s.inLen.toNat
    ∧ exec .compress s = .next t ∧ t.err = err ∧ t.errSub = sub ∧ t.errStage = stage

/-- Nine times 'a' (TB-2): nine bits. -/
abbrev nine : List Byte := List.replicate 9 0x61#8

theorem nine_packed : (packedOf .fifo nine).length = 2 := by
  have h : buildTree .fifo (countBytes nine) = ⟨[.leaf 0x61#8 9#40], 1, some 0⟩ := by
    rw [buildTree, leavesOf_counts]
    decide +kernel
  rw [packedOf_length, histCodes, h]
  decide +kernel

theorem compress_single : CompressFails [0x61#8] 3#4 1#8 0x12#8 := by
  have hk : nonzeroCount (countBytes [0x61#8]) = 1 := by
    rw [nonzeroCount_counts]
    decide +kernel
  obtain ⟨v, -, -, h⟩ := compressBody_reject (s := { demo [0x61#8] with latchedDegen := true })
    (holds_cellsFrom _ _) (by decide) (by decide) hk rfl
  exact ⟨_, _, by decide, holds_cellsFrom _ _, rfl, exec_of_raised (i := .compress) h, rfl, rfl, rfl⟩

theorem compress_pbufOver : CompressFails nine 5#4 2#8 0x13#8 := by
  have e := compressBody_coded (s := { demo nine with cfg := { Config.standard with pbufCap := 1 } })
    (holds_cellsFrom inBase nine) (by decide) (by decide) (.inl rfl)
  obtain ⟨b, i, -, h⟩ := packBody_coded_over
    (s := { demo nine with cfg := { Config.standard with pbufCap := 1 } })
    (holds_cellsFrom inBase nine) (by decide) (by decide)
    (Nat.lt_of_lt_of_eq (by decide) nine_packed.symm)
  rw [h, BodyResult.raised_andThen] at e
  exact ⟨_, _, by decide, holds_cellsFrom _ _, rfl, exec_of_raised (i := .compress) e, rfl, rfl, rfl⟩

theorem compress_outOver : CompressFails ab 5#4 3#8 0x14#8 := by
  have hw : ({ Config.standard with outCap := 1025 } : Config).wf = true := by decide
  have e := compressBody_coded (s := { demo ab with cfg := { Config.standard with outCap := 1025 } })
    (holds_cellsFrom inBase ab) (by decide) (by decide) (.inl rfl)
  rw [packBody_coded (s := { demo ab with cfg := { Config.standard with outCap := 1025 } })
    (holds_cellsFrom inBase ab) (by decide) (by decide)
    (le_of_eq_of_le ab_packed (by decide)), BodyResult.ok_andThen,
    (serializeBody_packed (s := { demo ab with cfg := { Config.standard with outCap := 1025 } })
      (d := ab) hw (le_of_eq_of_le ab_packed (by decide))).2.1
      (Nat.lt_of_lt_of_eq (by decide) (congrArg (1025 + ·) ab_packed.symm))] at e
  exact ⟨_, _, hw, holds_cellsFrom _ _, rfl, exec_of_raised (i := .compress) e, rfl, rfl, rfl⟩

/-- A container at IN_BUF that DESERIALIZE takes: DECOMPRESS comes to UNPACK with its parts. -/
theorem decompress_container (hist : Vector Word 256) (p : List Byte) (q : BitVec 3)
    (hp : p.length ≤ 1024) (hq : q.toNat ≤ 8 * p.length) :
    ∃ s u : State, s.cfg = Config.standard ∧ 1025 ≤ s.inLen.toNat
      ∧ Holds s.mem inBase (containerBytes hist p q)
      ∧ decompressBody s = unpackBody u ∧ u.hist = hist ∧ TreeCoherent u ∧ u.treeValid = true
      ∧ u.payloadValid = true ∧ u.cfg = Config.standard ∧ u.plen.toNat = p.length
      ∧ retainedOf u = retainedBits p q ∧ Stores u.node (buildTree .fifo hist).nodes
      ∧ u.root = (buildTree .fifo hist).root.map (BitVec.ofNat 9) := by
  obtain ⟨B, hB⟩ : ∃ B, B = containerBytes hist p q := ⟨_, rfl⟩
  have hlen : B.length = 1025 + p.length := by rw [hB, containerBytes_length]
  rw [← hB]
  obtain ⟨s, hc, hl, hm⟩ : ∃ s : State, s.cfg = Config.standard ∧ s.inLen.toNat = B.length
      ∧ Holds s.mem inBase B :=
    ⟨{ State.reset with inLen := BitVec.ofNat 32 B.length, mem := cellsFrom inBase B }, rfl,
      by dsimp only; rw [BitVec.toNat_ofNat]; omega, holds_cellsFrom _ _⟩
  have h1025 : 1025 ≤ s.inLen.toNat := by omega
  have hi := inputOf_of_holds hm hl.symm
  have hpad : parsePad B = q.setWidth 8 := by rw [hB, parsePad_containerBytes]
  have hq' := q.isLt
  have hic : s.cfg.inCap = 4096 := by rw [hc]; rfl
  have hpc : s.cfg.pbufCap = 1024 := by rw [hc]; rfl
  have hpt : (parsePad (inputOf s)).toNat = q.toNat := by rw [hi, hpad, (setWidth_pad q).2]
  have hd := deserializeBody_ok (s := s) (by omega) (by omega) (by omega) (by omega) (by omega)
  rw [hi] at hd
  obtain ⟨r1, -, r3⟩ := retainedOf_parsed s B (readInput s).2.draws (by omega)
  have hpay : parsePayload B = p := by rw [hB, parsePayload_containerBytes]
  have hh : parseHist B = hist := by rw [hB, parseHist_containerBytes]
  rw [hpay, hpad, (setWidth_pad q).1] at r3
  have hph : (parsed s B (readInput s).2.draws).hist = hist := hh
  have hpcfg : (parsed s B (readInput s).2.draws).cfg = Config.standard := hc
  have hn : B.length - 1025 = p.length := by rw [hlen, Nat.add_sub_cancel_left]
  have hplen : (parsed s B (readInput s).2.draws).plen.toNat = p.length := r1.trans hn
  have hpv : (parsed s B (readInput s).2.draws).payloadValid = true := rfl
  have he : decompressBody s = unpackBody (built (parsed s B (readInput s).2.draws)) :=
    decompressBody_of_ok hd
  generalize parsed s B (readInput s).2.draws = c at he r3 hph hpcfg hplen hpv
  have hcoh := built_coherent c
  refine ⟨s, built c, hc, h1025, hm, he, (built_hist c).trans hph, hcoh, rfl, hpv, hpcfg, hplen, r3, ?_,
    ?_⟩
  · have := hcoh.stores rfl
    rwa [built_hist, hph, show (built c).cfg = c.cfg from rfl, hpcfg] at this
  · rw [setTree_root, hph, hpcfg]; rfl

/-- Some DECOMPRESS fails with this ERR, SUBCODE and STAGE. -/
def DecompressFails (err : BitVec 4) (sub stage : Byte) : Prop :=
  ∃ s t : State, s.cfg.wf = true ∧ exec .decompress s = .next t ∧ t.err = err ∧ t.errSub = sub
    ∧ t.errStage = stage

theorem decompress_outOver : DecompressFails 5#4 3#8 0x21#8 := by
  obtain ⟨s, u, h1, h2, h3, h4, h5, h6, h7, h8, h9, -⟩ := decompress_container twoHist [] 0#3 (by decide)
    (by decide)
  have ht : u.total.toNat = histSum twoHist := by rw [← h5]; exact h6.total h7
  have hs : histSum twoHist = 0x100000000 := by
    simp only [histSum, histAt_twoHist]
    decide +kernel
  have hb : unpackBody u = .raised (outOver (min u.total.toNat 0xFFFFFFFF) 0x21#8) u := by
    rw [unpackBody, if_neg (by simp [h7]), if_neg (by simp [h8]), if_pos (by rw [ht, hs, h9]; decide)]
    rfl
  rw [hb] at h4
  exact ⟨s, _, by rw [h1]; decide, exec_of_raised (i := .decompress) h4, rfl, rfl, rfl⟩

/-- E4. -/
theorem decompress_emptyTree : DecompressFails 2#4 1#8 0x21#8 := by
  obtain ⟨s, u, h1, h2, h3, h4, h5, h6, h7, h8, h9, h10, -⟩ :=
    decompress_container (countBytes []) [0#8] 0#3 (by decide) (by decide)
  have hk : nonzeroCount (countBytes []) = 0 := by
    rw [nonzeroCount_counts]
    decide +kernel
  obtain ⟨hr, ht⟩ := h6.root_none h7 (by rw [h5]; exact hk)
  rw [unpackBody_none h7 h8 (by rw [ht, h9]; decide) hr, if_pos (by intro h; rw [h] at h10; cases h10)] at h4
  exact ⟨s, _, by rw [h1]; decide, exec_of_raised (i := .decompress) h4, rfl, rfl, rfl⟩

/-- E8: a 1 bit in the payload of a single-leaf tree. -/
theorem decompress_badBit : DecompressFails 1#4 6#8 0x21#8 := by
  obtain ⟨s, u, h1, h2, h3, h4, h5, h6, h7, h8, h9, h10, h11, h12, h13⟩ :=
    decompress_container (countBytes aaaa) [0x10#8] 4#3 (by decide) (by decide)
  rw [aaaa_built] at h12 h13
  have hx : nodeAt u.node 0#9 = .leaf 0x61#8 4#40 := h12.nodeAt rfl
  have ht : u.total.toNat = 4 := by
    rw [h6.total h7, h5, histSum_countBytes (by decide)]; rfl
  have hw : walk u.node 0#9 4 (retainedBits [0x10#8] 4#3)
      = { out := [0x61#8, 0x61#8, 0x61#8], error := some (walkError 6#8 0x61#8 3) } := by
    rw [walk, hx]; dsimp only; decide +kernel
  have hb := unpackBody_walk h7 h8 (by rw [ht, h9]; decide) (h13.trans rfl : u.root = some 0#9)
  rw [h11, ht] at hb
  simp only [hw] at hb
  rw [hb] at h4
  exact ⟨s, _, by rw [h1]; decide, exec_of_raised (i := .decompress) h4, rfl, rfl, rfl⟩

/-- COMPRESS in each of its four cases, and DECOMPRESS in each of its eight: E13b, E1, E2, E3, E17,
OUT_OVER, E4 and E8. -/
theorem witness_PipelinesFailInTheseCasesOnly :
    ((∃ s t : State, s.cfg.wf = true ∧ s.cfg.inCap < s.inLen.toNat ∧ exec .compress s = .next t
        ∧ t.err ≠ 0#4)
      ∧ CompressFails [0x61#8] 3#4 1#8 0x12#8 ∧ CompressFails nine 5#4 2#8 0x13#8
      ∧ CompressFails ab 5#4 3#8 0x14#8)
      ∧ DecompressFails 5#4 1#8 0x20#8 ∧ DecompressFails 1#4 1#8 0x20#8 ∧ DecompressFails 1#4 2#8 0x20#8
      ∧ DecompressFails 1#4 3#8 0x20#8 ∧ DecompressFails 5#4 2#8 0x20#8 ∧ DecompressFails 5#4 3#8 0x21#8
      ∧ DecompressFails 2#4 1#8 0x21#8 ∧ DecompressFails 1#4 6#8 0x21#8 :=
  ⟨⟨⟨{ State.reset with inLen := 4097#32 }, _, by decide, by decide,
      exec_of_raised (i := .compress) (compressBody_over (by decide)), by decide⟩,
    compress_single, compress_pbufOver, compress_outOver⟩,
    ⟨{ demo [] with inLen := 4097#32 }, _, by decide, exec_eq _ _, by decide +kernel⟩,
    ⟨{ demo [] with inLen := 500#32 }, _, by decide, exec_eq _ _, by decide +kernel⟩,
    ⟨{ demo [] with inLen := 1025#32, mem := [(inBase + 1024, 8#8)] }, _, by decide, exec_eq _ _,
      by decide +kernel⟩,
    ⟨{ demo [] with inLen := 1025#32, mem := [(inBase + 1024, 3#8)] }, _, by decide, exec_eq _ _,
      by decide +kernel⟩,
    ⟨{ demo [] with cfg := { Config.standard with pbufCap := 1 }, inLen := 1027#32
                    mem := [(inBase + 1026, 0#8)] }, _, by decide, exec_eq _ _, by decide +kernel⟩,
    decompress_outOver, decompress_emptyTree, decompress_badBit⟩

theorem witness_EmptyInputRoundTrip :
    (∃ s : State, s.cfg.wf = true ∧ s.inLen = 0#32)
      ∧ ∃ s : State, s.cfg.wf = true ∧ s.inLen = 1025#32
        ∧ ∀ k, k < 1025 → s.mem.get? (inBase + k) = some 0#8 := by
  refine ⟨⟨State.reset, by decide⟩, ⟨{ State.reset with
    inLen := 1025#32, mem := cellsFrom inBase (List.replicate 1025 0#8) }, by decide, rfl, fun k hk => ?_⟩⟩
  have := holds_cellsFrom inBase (List.replicate 1025 0#8) k (by rw [List.length_replicate]; exact hk)
  rw [List.getElem_replicate] at this
  exact this

theorem witness_SingleByteInput :
    (∃ (s : State) (b : Byte), s.latchedDegen = true ∧ 0 < s.inLen.toNat ∧ s.inLen.toNat ≤ s.cfg.inCap
        ∧ Holds s.mem inBase (List.replicate s.inLen.toNat b))
      ∧ (∃ s : State, s.cfg.wf = true ∧ s.latchedDegen = false ∧ s.inLen = 4#32
        ∧ Holds s.mem inBase [0x61#8, 0x61#8, 0x61#8, 0x61#8] ∧ 1026 ≤ s.cfg.outCap)
      ∧ ∀ t : State, ∃ u : State, u.cfg.wf = true ∧ u.inLen = 1026#32 ∧ 1026 ≤ u.cfg.inCap
        ∧ (t.cfg = Config.standard → u.cfg.tie = t.cfg.tie)
        ∧ (Written t.mem outBase 1026 → ∀ k, k < 1026 →
            u.mem.get? (inBase + k) = t.mem.get? (outBase + k)) := by
  refine ⟨⟨{ demo [0x61#8, 0x61#8, 0x61#8, 0x61#8] with latchedDegen := true }, 0x61#8, rfl, by decide,
    by decide, holds_cellsFrom _ _⟩, ⟨demo [0x61#8, 0x61#8, 0x61#8, 0x61#8], by decide, rfl, rfl,
    holds_cellsFrom _ _, by decide⟩, fun t => ?_⟩
  refine ⟨{ State.reset with
    inLen := 1026#32
    mem := cellsFrom inBase (t.mem.read outBase 1026 0).1 }, test_wf_standard, rfl,
    show 1026 ≤ 4096 by decide, fun h => by rw [h]; rfl, fun hw k hk => ?_⟩
  have h1 := (Memory.read_of_written hw 0).2
  have hl := Memory.read_length t.mem outBase 1026 0
  have h2 := holds_cellsFrom inBase (t.mem.read outBase 1026 0).1 k (by rw [hl]; exact hk)
  exact h2.trans (h1 k (by rw [hl]; exact hk)).symm

/-- A state that holds the container of "ab" at IN_BUF. -/
theorem ab_in : ∃ s : State, s.cfg = Config.standard ∧ s.inLen = 1026#32
    ∧ Holds s.mem inBase (containerOf .fifo ab) ∧ s.treeValid = false := by
  generalize containerOf .fifo ab = bs
  exact ⟨{ State.reset with inLen := 1026#32, mem := cellsFrom inBase bs }, rfl, rfl,
    holds_cellsFrom inBase bs, rfl⟩

/-- DECOMPRESS of it succeeds, whatever else stands in the state. -/
theorem ab_decompress (s : State) (hc : s.cfg = Config.standard) (hl : s.inLen = 1026#32)
    (h : Holds s.mem inBase (containerOf .fifo ab)) :
    ∃ t, exec .decompress s = .next t ∧ t.err = 0#4 := by
  have ht : s.cfg.tie = .fifo := by rw [hc]; rfl
  obtain ⟨m, -, -, h3⟩ := decompressBody_container (s := s) (d := ab) (by rw [hc]; decide)
    (by rw [ht]; exact h) (by rw [ht, hl, ab_container]; rfl) (by rw [hl, hc]; decide)
    (by rw [ht, ab_packed, hc]; decide) (by rw [hc]; decide)
  exact ⟨_, exec_of_ok (i := .decompress) h3, rfl⟩

/-- Two states that agree on the input alone, for COMPRESS and for DECOMPRESS. -/
theorem witness_PipelinesAreStateless :
    (∃ s s' t t' : State, s.cfg.wf = true ∧ s'.cfg = s.cfg ∧ s'.inLen = s.inLen
        ∧ s'.latchedDegen = s.latchedDegen ∧ Written s.mem inBase s.inLen.toNat
        ∧ (∀ k, k < s.inLen.toNat → s'.mem.get? (inBase + k) = s.mem.get? (inBase + k))
        ∧ s'.treeValid ≠ s.treeValid ∧ exec .compress s = .next t ∧ exec .compress s' = .next t'
        ∧ t.err = 0#4)
      ∧ ∃ s s' t t' : State, s.cfg.wf = true ∧ s'.cfg = s.cfg ∧ s'.inLen = s.inLen
        ∧ Written s.mem inBase s.inLen.toNat
        ∧ (∀ k, k < s.inLen.toNat → s'.mem.get? (inBase + k) = s.mem.get? (inBase + k))
        ∧ s'.treeValid ≠ s.treeValid ∧ exec .decompress s = .next t ∧ exec .decompress s' = .next t'
        ∧ t.err = 0#4 := by
  constructor
  · obtain ⟨t, h1, h2, -⟩ := ab_compress (demo ab) rfl rfl rfl (holds_cellsFrom _ _)
    exact ⟨demo ab, { demo ab with treeValid := true }, t, _, by decide, rfl, rfl, rfl,
      (holds_cellsFrom inBase ab).written, fun _ _ => rfl, by decide, h1, exec_eq _ _, h2⟩
  · obtain ⟨s, hc, hl, hm, hv⟩ := ab_in
    obtain ⟨t, h1, h2⟩ := ab_decompress s hc hl hm
    have hw := hm.written
    rw [ab_container] at hw
    exact ⟨s, { s with treeValid := true }, t, _, by rw [hc]; decide, rfl, rfl, by rw [hl]; exact hw,
      fun _ _ => rfl, by rw [hv]; exact Bool.noConfusion, h1, exec_eq _ _, h2⟩

theorem witness_DecompressDecodesContainers : ∃ (s : State) (d : List Byte), s.cfg.wf = true
    ∧ Holds s.mem inBase (containerOf s.cfg.tie d) ∧ s.inLen.toNat = (containerOf s.cfg.tie d).length
    ∧ s.inLen.toNat ≤ s.cfg.inCap ∧ (packedOf s.cfg.tie d).length ≤ s.cfg.pbufCap
    ∧ d.length ≤ s.cfg.outCap := by
  obtain ⟨s, hc, hl, hm, -⟩ := ab_in
  have ht : s.cfg.tie = .fifo := by rw [hc]; rfl
  refine ⟨s, ab, by rw [hc]; decide, ?_⟩
  rw [ht, ab_container, ab_packed, hl, hc]
  exact ⟨hm, by decide⟩

theorem witness_CompressDecompressRoundTrip : ∃ (s t u : State) (d : List Byte), s.cfg.wf = true
    ∧ Holds s.mem inBase d ∧ d.length = s.inLen.toNat ∧ exec .compress s = .next t ∧ t.err = 0#4
    ∧ u.cfg.wf = true ∧ u.cfg.tie = s.cfg.tie ∧ u.inLen = t.outLen ∧ u.inLen.toNat ≤ u.cfg.inCap
    ∧ u.inLen.toNat ≤ 1025 + u.cfg.pbufCap ∧ d.length ≤ u.cfg.outCap
    ∧ ∀ k, k < t.outLen.toNat → u.mem.get? (inBase + k) = t.mem.get? (outBase + k) := by
  obtain ⟨t, h1, h2, h3, h4⟩ := ab_compress (demo ab) rfl rfl rfl (holds_cellsFrom _ _)
  obtain ⟨u, hc, hl, hm, -⟩ := ab_in
  refine ⟨demo ab, t, u, ab, by decide, holds_cellsFrom _ _, rfl, h1, h2, by rw [hc]; decide,
    by rw [hc]; rfl, hl.trans h3.symm, by rw [hl, hc]; decide, by rw [hl, hc]; decide,
    by rw [hc]; decide, fun k hk => ?_⟩
  rw [h3] at hk
  have hk' : k < (containerOf .fifo ab).length := by rw [ab_container]; exact hk
  exact (hm k hk').trans (h4 k hk').symm

theorem witness_DecompressOutputLength :
    ∃ s t : State, s.cfg.wf = true ∧ exec .decompress s = .next t ∧ t.err = 0#4 := by
  obtain ⟨s, hc, hl, hm, -⟩ := ab_in
  obtain ⟨t, h1, h2⟩ := ab_decompress s hc hl hm
  exact ⟨s, t, by rw [hc]; decide, h1, h2⟩

theorem witness_CompositesEqualTheirComponents :
    (∃ s t : State, exec .compress (issue (encode .compress) s) = .next t ∧ t.err = 0#4)
      ∧ ∃ s t : State, exec .decompress (issue (encode .decompress) s) = .next t ∧ t.err = 0#4 := by
  obtain ⟨t, h1, h2, -⟩ := ab_compress (issue (encode .compress) (demo ab)) rfl rfl rfl
    (holds_cellsFrom _ _)
  obtain ⟨s, hc, hl, hm, -⟩ := ab_in
  obtain ⟨u, h3, h4⟩ := ab_decompress (issue (encode .decompress) s) hc hl hm
  exact ⟨⟨_, t, h1, h2⟩, ⟨s, u, h3, h4⟩⟩

/-! ### All commands, the invariant, the bus -/

theorem witness_CommandsWriteOnlyTheResult :
    ∃ s t : State, s.cfg.wf = true ∧ exec .compress s = .next t ∧ t.err = 0#4 := by
  obtain ⟨t, h1, h2, -⟩ := ab_compress (demo ab) rfl rfl rfl (holds_cellsFrom _ _)
  exact ⟨_, t, by decide, h1, h2⟩

/-- One failure of either kind. -/
theorem witness_FailureClearsOutLen :
    (∃ t, exec .unpack State.reset = .next t ∧ t.err ≠ 0#4)
      ∧ ∃ t, exec .pack State.reset = .next t ∧ t.err ≠ 0#4 :=
  ⟨⟨_, rfl, by decide⟩, ⟨_, rfl, by decide⟩⟩

/-- A failure without a symbol (E11a) and one with; PBUF_OVER of PACK with its byte, and of DESERIALIZE
with none (E17). -/
theorem witness_FailuresAreInTheTable :
    (∃ t, exec .gencodes State.reset = .next t ∧ t.err ≠ 0#4)
      ∧ (∃ s t : State, exec .pack s = .next t ∧ t.err ≠ 0#4 ∧ t.errSym ≠ 0#8)
      ∧ (∃ s t : State, exec .pack s = .next t ∧ t.err = 5#4 ∧ t.errSub = 2#8 ∧ t.errSym = 0x61#8)
      ∧ ∃ s t : State, exec .deserialize s = .next t ∧ t.err = 5#4 ∧ t.errSub = 2#8 ∧ t.errSym = 0#8 :=
  ⟨⟨_, rfl, by decide⟩, ⟨packDemo 0 [0x62#8], _, exec_eq _ _, by decide +kernel⟩,
    ⟨packDemo 8 [0x61#8], _, exec_eq _ _, by decide +kernel⟩,
    ⟨{ demo [] with cfg := { Config.standard with pbufCap := 1 }, inLen := 1027#32
                    mem := [(inBase + 1026, 0#8)] }, _, exec_eq _ _, by decide +kernel⟩⟩

/-- The largest and the smallest legal configurations. -/
theorem witness_InvHoldsAtReset :
    (∃ c : Config, c.wf = true ∧ c.inCap = 2 ^ 30 ∧ c.outCap = 2 ^ 30 ∧ c.pbufCap = 2 ^ 28)
      ∧ ∃ c : Config, c.wf = true ∧ c.inCap = 1025 ∧ c.outCap = 1025 ∧ c.pbufCap = 1 :=
  ⟨⟨⟨2 ^ 30, 2 ^ 30, 2 ^ 28, .fifo⟩, by decide⟩, ⟨⟨1025, 1025, 1, .heap⟩, by decide⟩⟩

/-- A state in use, after GENCODES of "ab", with a NOP in execution; and reset in that state. -/
theorem witness_StepKeepsInv :
    (∃ s t : State, Inv s ∧ s.busy = true ∧ step s = .next t)
      ∧ ∃ s t : State, Inv s ∧ s.inbox = [.reset] ∧ step s = .next t := by
  have h := coded_inv
  have hb : (coded (demo ab) ab).busy = true := rfl
  have hi : (coded (demo ab) ab).inbox = [] := rfl
  have hd : decode (coded (demo ab) ab).lastCmd = .ok .nop := rfl
  generalize coded (demo ab) ab = s at h hb hi hd
  refine ⟨⟨s, _, h, hb, (show step s = exec .nop s by
    simp only [step, hi, coreTurn, coreEnabled, hb, if_true, completeCommand, fetchCommand, hd]).trans
    (exec_eq _ _)⟩, ⟨{ s with inbox := [.reset] }, _,
    DataInv.inv (s := { s with inbox := [.reset] })
      ⟨h.cfg, h.mem, h.mapped, h.pbuf, h.pbufFits, h.treeClear, h.codesClear, h.codesTree,
        h.payloadClear, h.payloadFits, h.payloadWritten, h.tree, h.codes, h.outLen⟩
      h.busyDone h.busyClean h.errRange h.errClean, rfl, rfl⟩⟩

theorem witness_ResetValues : ∃ (s : State) (rest : List Event), s.inbox = .reset :: rest :=
  ⟨{ State.reset with inbox := [.reset] }, [], rfl⟩

theorem witness_InterruptFollowsIeAndDone :
    (∃ s t : State, s.busy = true ∧ coreTurn s = .next t) ∧ ∃ s : State, s.busy = false :=
  ⟨⟨demo [], _, rfl, rfl⟩, ⟨State.reset, rfl⟩⟩

theorem witness_CmdWriteIssues : ∃ s : State, s.busy = false := ⟨State.reset, rfl⟩

/-- BUSY = 1 and each kind of transaction: the four reads, the two writes, and one refused by its
size, its kind, its address. -/
theorem witness_BusyWindow :
    ((demo []).busy = true
      ∧ (busStep (readTxn .b4 0x000#32) (demo [])).answer = some { resp := .okay, rdata := 0x48554631#32 }
      ∧ (busStep (readTxn .b4 0x004#32) (demo [])).answer = some { resp := .okay, rdata := 0#32 }
      ∧ (busStep (readTxn .b4 0x008#32) (demo [])).answer = some { resp := .okay, rdata := 1#32 }
      ∧ (busStep (readTxn .b4 0x00C#32) (demo [])).answer = some { resp := .okay, rdata := 0#32 }
      ∧ (busStep (writeTxn .b4 0x004#32 1#32) (demo [])).answer = some { resp := .okay, rdata := 0#32 }
      ∧ (busStep (writeTxn .b4 0x008#32 1#32) (demo [])).answer = some { resp := .okay, rdata := 0#32 })
      ∧ ∀ t ∈ [readTxn .b1 0x008#32, writeTxn .b4 0x00C#32 0x30#32, readTxn .b4 0x010#32,
          readTxn .b1 0x40000000#32], (busStep t (demo [])).answer
          = some { resp := .error, rdata := 0#32 } := by
  decide +kernel

/-- Each clause at its boundary (BUS-1 to BUS-14), and the nearest accesses that are served. -/
theorem witness_BadTransactionsGetError :
    (∀ t ∈ [readTxn .b4 0x40000002#32, writeTxn .b2 0x40000001#32 0#32, readTxn .b1 0x008#32,
        readTxn .b4 0x03C#32, readTxn .b4 0x068#32, readTxn .b4 0x800#32, readTxn .b4 0xFFC#32,
        readTxn .b4 0x1000#32, readTxn .b4 0x3FFFFFFC#32, readTxn .b4 0x40001000#32,
        readTxn .b1 0x40001000#32, readTxn .b4 0x7FFFFFFC#32, readTxn .b4 0x80001000#32,
        readTxn .b4 0xBFFFFFFC#32, readTxn .b4 0xC0000000#32],
        (busStep t State.reset).answer = some { resp := .error, rdata := 0#32 })
      ∧ ∀ t ∈ [readTxn .b4 0x064#32, readTxn .b4 0x7FC#32, writeTxn .b4 0x40000FFC#32 0#32,
        writeTxn .b1 0x80000FFF#32 0#32],
        (busStep t State.reset).answer = some { resp := .okay, rdata := 0#32 } := by
  decide +kernel

theorem witness_ErrorsAndReadsChangeNothing :
    (busStep (readTxn .b4 0x1000#32) State.reset).answer = some { resp := .error, rdata := 0#32 }
      ∧ (busStep (writeTxn .b4 0x010#32 5#32) State.reset).answer = some { resp := .okay, rdata := 0#32 }
      ∧ (readTxn .b4 0x010#32).kind = .read
      ∧ (busStep (readTxn .b1 0x40000000#32) State.reset).answer.map Answer.resp = some .okay
      ∧ (busStep (readTxn .b1 0x40000000#32) State.reset).draws = 1
      ∧ (busStep (readTxn .b2 0x40000000#32)
          { State.reset with mem := [(inBase, 1#8), (inBase + 1, 2#8)] }).answer
        = some { resp := .okay, rdata := 0x0201#32 } := by decide +kernel

/-- The last aligned word of IN_BUF and the last byte of OUT_BUF; four bytes that stand in memory. -/
theorem witness_BufferAccessIsLittleEndian :
    (∃ (s : State) (t : Transaction), s.cfg.wf = true ∧ s.busy = false
        ∧ t.addr.toNat % t.size.bytes = 0 ∧ 0x40000000 ≤ t.addr.toNat
        ∧ t.addr.toNat + t.size.bytes = 0x40000000 + s.cfg.inCap ∧ t.kind = .write)
      ∧ (∃ (s : State) (t : Transaction), s.cfg.wf = true ∧ s.busy = false
        ∧ t.addr.toNat % t.size.bytes = 0 ∧ 0x80000000 ≤ t.addr.toNat
        ∧ t.addr.toNat + t.size.bytes = 0x80000000 + s.cfg.outCap ∧ t.kind = .write)
      ∧ ∃ (s : State) (bs : List Byte), s.cfg.wf = true ∧ s.busy = false
        ∧ Holds s.mem (readTxn .b4 0x40000000#32).addr.toNat bs
        ∧ bs.length = (readTxn .b4 0x40000000#32).size.bytes :=
  ⟨⟨State.reset, writeTxn .b4 0x40000FFC#32 0#32, by decide⟩,
    ⟨State.reset, writeTxn .b1 0x80000FFF#32 0#32, by decide⟩,
    ⟨{ State.reset with mem := cellsFrom inBase [1#8, 2#8, 3#8, 4#8] }, [1#8, 2#8, 3#8, 4#8], by decide,
      rfl, holds_cellsFrom _ _, rfl⟩⟩

theorem witness_RegisterWrites : ∃ s : State, s.busy = false := ⟨State.reset, rfl⟩

/-- The ends of the two register arrays, and the first unlisted offset after the codes. -/
theorem witness_RegisterMap : csrAt 0x064 = some (.codeW 7) ∧ csrAt 0x068 = none
    ∧ csrAt 0x400 = some (.hist 0#8) ∧ csrAt 0x7FC = some (.hist 255#8) := by decide

/-- Nothing selected; a leaf; an internal node; ROOT = NONE and ROOT = 8; CODE_IDX at its largest. -/
theorem witness_RegisterReads :
    (∃ s : State, s.busy = false ∧ s.root = none ∧ s.nnodes.toNat ≤ s.nodeIdx.toNat)
      ∧ (∃ s : State, s.busy = false ∧ s.root = some 8#9 ∧ s.nodeIdx.toNat < s.nnodes.toNat
        ∧ nodeAt s.node s.nodeIdx = .leaf 0x61#8 5#40)
      ∧ ∃ s : State, s.busy = false ∧ s.nodeIdx.toNat < s.nnodes.toNat ∧ s.codeIdx = 0xFF#8
        ∧ nodeAt s.node s.nodeIdx = .internal 11#40 0#9 7#9 :=
  ⟨⟨State.reset, by decide⟩, ⟨{ abraTree with busy := false }, by decide +kernel⟩,
    ⟨{ abraTree with busy := false, nodeIdx := 8#9, codeIdx := 0xFF#8 }, by decide +kernel⟩⟩

/-- A byte written and the next one not; a byte of PBUF. -/
theorem witness_CommandsReadWrittenBytes : ∃ s : State,
    (1025 ≤ s.inLen.toNat ∧ s.inLen.toNat ≤ s.cfg.inCap ∧ s.mem.get? (inBase + 0) = some 5#8
        ∧ s.mem.get? (inBase + 1) = none ∧ s.plen.toNat = 2 ∧ s.pbuf.get? 0 = some 7#8
        ∧ s.pbuf.get? 1 = none ∧ s.codesValid = true ∧ s.payloadValid = true
        ∧ 1025 + s.plen.toNat ≤ s.cfg.outCap ∧ s.treeValid = true ∧ s.total.toNat ≤ s.cfg.outCap
        ∧ s.root ≠ none)
      ∧ CompressFails [0x61#8] 3#4 1#8 0x12#8 ∧ CompressFails nine 5#4 2#8 0x13#8 :=
  ⟨{ State.reset with
      mem := [(inBase, 5#8)], inLen := 1025#32, pbuf := [(0, 7#8)], plen := 2#32, codesValid := true
      payloadValid := true, treeValid := true, root := some 0#9 },
    by decide, compress_single, compress_pbufOver⟩

/-! ## Running from reset -/

/-- The step after `withFetchWord` runs the word as the first instruction (log entry 7). -/
theorem test_first_step : ∀ i : Instr,
    step (State.reset.withFetchWord 32 (encode i).toNat) = exec i (issue (encode i) State.reset) := by
  intro i
  cases i <;> rfl

/-- P5, line by line on one inbox: an illegal word completes with ERR = 4. -/
theorem test_illegal_step :
    (match step (State.reset.withFetchWord 32 0x130) with
      | .next t => [statusWord t, errInfoWord t, t.errArg]
      | .fault _ | .refused _ => []) = [0x00000402#32, 0x00300002#32, 0x00000130#32] := by decide +kernel

end Sys2Proof.Machine.Tests
end

section
/-! PROOF. The invariant at reset and along every step, and the reset values (10_state.md R28 to R32,
R61, R63; 70_reset_and_hazards.md R197, R198). -/

namespace Sys2Proof.Machine

/-! ## The completion state -/

/-- The part of `Inv` that speaks of the completion state: BUSY, DONE and the outcome registers
(10_state.md R28, R32; 60_exceptions.md R174). `DataInv` is the rest. -/
def OutcomeInv (s : State) : Prop :=
  ¬ (s.busy = true ∧ s.done = true) ∧ (s.busy = true → s.err = 0#4) ∧ s.err.toNat ≤ 7
    ∧ (s.err = 0#4 → s.errSub = 0#8 ∧ s.errSym = 0#8 ∧ s.errStage = 0#8 ∧ s.errArg = 0#32)

theorem inv_iff (s : State) : Inv s ↔ DataInv s ∧ OutcomeInv s :=
  ⟨fun h => ⟨h.data, h.busyDone, h.busyClean, h.errRange, h.errClean⟩,
    fun ⟨hd, h1, h2, h3, h4⟩ => hd.inv h1 h2 h3 h4⟩

/-- The outcome registers are at their values since issue. -/
def OutcomeClear (s : State) : Prop :=
  s.errSub = 0#8 ∧ s.errSym = 0#8 ∧ s.errStage = 0#8 ∧ s.errArg = 0#32

/-- A command in execution has a clear outcome (20_memory.md R73). -/
theorem OutcomeInv.clear {s : State} (h : OutcomeInv s) (hb : s.busy = true) : OutcomeClear s := by
  obtain ⟨-, hclean, -, hzero⟩ := h
  exact hzero (hclean hb)

theorem ErrCode.code_le (e : ErrCode) : e.code.toNat ≤ 7 := by cases e <;> decide

/-- A recorded error is a complete outcome. -/
theorem outcomeInv_of_code {s : State} (e : ErrCode) (he : s.err = e.code) (hb : s.busy = false) :
    OutcomeInv s :=
  ⟨by simp [hb], by simp [hb], he ▸ e.code_le, fun h => absurd (he.symm.trans h) e.code_ne_zero⟩

/-- A recorded success is one when ERRINFO and ERRARG are clear. -/
theorem outcomeInv_of_success {s : State} (he : s.err = 0#4) (hc : OutcomeClear s)
    (hb : s.busy = false) : OutcomeInv s :=
  ⟨by simp [hb], by simp [hb], by simp [he], fun _ => hc⟩

/-! ## Each kind of step keeps the completion state -/

/-- A body writes no outcome register, so a success leaves them clear (60_exceptions.md R177). -/
theorem complete_outcomeInv (i : Instr) {s : State} (hc : OutcomeClear s) :
    OutcomeInv (complete i (bodyOf i s)) := by
  obtain ⟨-, -, -, -, hsub, hsym, hstage, harg⟩ := bodyOf_kept i s
  obtain ⟨c1, c2, c3, c4⟩ := hc
  cases hr : bodyOf i s with
  | ok b =>
    rw [hr] at hsub hsym hstage harg
    exact outcomeInv_of_success rfl ⟨hsub.trans c1, hsym.trans c2, hstage.trans c3, harg.trans c4⟩ rfl
  | raised e b =>
    rw [complete_raised]
    exact outcomeInv_of_code e.err rfl rfl

theorem illegalCommand_outcomeInv (why : DecodeError) (s : State) :
    OutcomeInv (illegalCommand why s) := outcomeInv_of_code .illegalCommand rfl rfl

theorem issue_outcomeInv (w : Word) (s : State) : OutcomeInv (issue w s) :=
  ⟨by simp, fun _ => rfl, by simp, fun _ => ⟨rfl, rfl, rfl, rfl⟩⟩

theorem writeStatus_outcomeInv (v : Word) {s : State} (h : OutcomeInv s) :
    OutcomeInv (writeStatus v s) := by
  obtain ⟨hbd, hbusy, hrange, hclean⟩ := h
  unfold writeStatus
  split
  · exact ⟨by simp, hbusy, hrange, hclean⟩
  · exact ⟨hbd, hbusy, hrange, hclean⟩

/-- Of the registers only STATUS and CMD touch the completion state. -/
theorem csrWrite_outcomeInv (v : Word) (c : Csr) {s : State} (h : OutcomeInv s) :
    OutcomeInv (csrWrite v s c) := by
  cases c
  case status => exact writeStatus_outcomeInv v h
  case cmd => exact issue_outcomeInv v s
  all_goals exact h

theorem busStep_outcomeInv (x : Transaction) {s : State} (h : OutcomeInv s) :
    OutcomeInv (busStep x s) := by
  change OutcomeInv (serve x s).2
  rcases serve_cases x s with e | ⟨c, -, -, -, e⟩ | ⟨c, -, -, -, -, e⟩ | ⟨-, -, ⟨-, e⟩ | ⟨-, e⟩⟩ <;> rw [e]
  · exact h
  · exact h
  · exact csrWrite_outcomeInv _ c h
  · exact h
  · exact h

theorem resetWith_outcomeInv (c : Config) : OutcomeInv (State.resetWith c) :=
  outcomeInv_of_success rfl ⟨rfl, rfl, rfl, rfl⟩ rfl

/-! ## The invariant -/

/-- The coming events do not matter. -/
theorem DataInv.withInbox {s : State} (h : DataInv s) (rest : List Event) :
    DataInv { s with inbox := rest } :=
  ⟨h.cfg, h.mem, h.mapped, h.pbuf, h.pbufFits, h.treeClear, h.codesClear, h.codesTree, h.payloadClear,
    h.payloadFits, h.payloadWritten, h.tree, h.codes, h.outLen⟩

theorem Inv.withInbox {s : State} (h : Inv s) (rest : List Event) : Inv { s with inbox := rest } := by
  obtain ⟨hd, ho⟩ := (inv_iff s).1 h
  exact (inv_iff _).2 ⟨hd.withInbox rest, ho⟩

/-- An illegal word writes the completion state alone (30_encoding.md R91). -/
theorem illegalCommand_inv (why : DecodeError) {s : State} (h : DataInv s) :
    DataInv (illegalCommand why s) :=
  ⟨h.cfg, h.mem, h.mapped, h.pbuf, h.pbufFits, h.treeClear, h.codesClear, h.codesTree, h.payloadClear,
    h.payloadFits, h.payloadWritten, h.tree, h.codes, h.outLen⟩

theorem coreTurn_keeps_inv {s t : State} (h : Inv s) (ht : coreTurn s = .next t) : Inv t := by
  obtain ⟨hd, ho⟩ := (inv_iff s).1 h
  rcases coreTurn_cases s with ⟨-, e⟩ | ⟨hb, i, -, e⟩ | ⟨hb, why, -, e⟩ <;>
    obtain rfl := Host.Outcome.next.inj (e.symm.trans ht)
  · exact h
  · exact (inv_iff _).2 ⟨complete_inv i hd, complete_outcomeInv i (ho.clear hb)⟩
  · exact (inv_iff _).2 ⟨illegalCommand_inv why hd, illegalCommand_outcomeInv why s⟩

theorem busStep_keeps_inv (x : Transaction) {s : State} (h : Inv s) : Inv (busStep x s) := by
  obtain ⟨hd, ho⟩ := (inv_iff s).1 h
  exact (inv_iff _).2 ⟨busStep_inv x hd, busStep_outcomeInv x ho⟩

theorem inv_resetWith {c : Config} (h : c.wf = true) : Inv (State.resetWith c) :=
  (inv_iff _).2 ⟨resetWith_inv h, resetWith_outcomeInv c⟩

/-- A reset keeps the configuration and starts anew from it (70_reset_and_hazards.md R197). -/
theorem resetEvent_inv {s : State} (h : s.cfg.wf = true) : Inv (resetEvent s) := by
  obtain ⟨hd, ho⟩ := (inv_iff _).1 (inv_resetWith h)
  exact (inv_iff _).2 ⟨(hd.withInbox s.inbox).withDraws s.draws, ho⟩

/-- Settles O49: a step is the core's turn, a transaction or reset, and each keeps the invariant. -/
theorem stepKeepsInv : Obligations.StepKeepsInv := by
  intro s t h ht
  rcases step_cases ht with ⟨rest, hturn⟩ | ⟨x, rest, rfl⟩ | ⟨rest, rfl⟩
  · exact coreTurn_keeps_inv (h.withInbox rest) hturn
  · exact busStep_keeps_inv x (h.withInbox rest)
  · exact resetEvent_inv h.cfg

/-- Settles O48, from the reset values of a legal configuration. -/
theorem invHoldsAtReset : Obligations.InvHoldsAtReset :=
  ⟨inv_resetWith (by decide), fun _ => inv_resetWith⟩

/-! ## The reset values -/

theorem resetWith_atReset (c : Config) : AtReset (State.resetWith c) := by
  have hhist : ∀ v, histAt (State.resetWith c).hist v = 0#32 := fun v => by
    simp [State.resetWith, histAt]
  have hcode : ∀ v, codeAt (State.resetWith c).code v = Code.absent := codeAt_absent
  exact ⟨rfl, rfl, rfl, rfl, rfl, rfl, rfl, rfl, rfl, rfl, rfl, rfl, rfl, rfl, rfl, rfl, rfl, rfl, hhist,
    ⟨rfl, rfl, rfl, rfl, rfl, rfl, hcode⟩, Memory.get?_nil, Memory.get?_nil⟩

theorem step_of_reset {s : State} {rest : List Event} (h : s.inbox = .reset :: rest) :
    step s = .next (resetEvent { s with inbox := rest }) := by simp [step, h]

/-- Settles O50: the reset event leaves the state after reset, but for the coming events and the count
of draws, which `AtReset` does not speak of. -/
theorem resetValues : Obligations.ResetValues :=
  ⟨resetWith_atReset Config.standard, fun s _ h =>
    ⟨_, step_of_reset h, resetWith_atReset s.cfg, rfl, rfl⟩⟩

end Sys2Proof.Machine
end

section
/-! PROOF. The register map and what the host writes and reads at each register (10_state.md R22 to
R26, R28, R38, R41 to R48, R51; 30_encoding.md R108). -/

namespace Sys2Proof.Machine

/-! ## The register map -/

/-- Settles O58: the map is inverse to the offsets, which are listed as 10_state.md R22 lists them. -/
theorem registerMap : Obligations.RegisterMap :=
  ⟨fun c => ⟨csrAt_offset c, c.offset_mod, c.offset_lt⟩, fun _ _ => csrAt_some, fun _ => rfl,
    fun _ => rfl, rfl⟩

/-! ## Writes -/

/-- The registers with read-only access ignore a write (10_state.md R23). -/
theorem csrWrite_readOnly (v : Word) (s : State) {c : Csr}
    (h : c ∈ [.id, .outLen, .plen, .pad, .errInfo, .errArg, .nsym, .root, .nnodes, .totalLo, .totalHi,
        .codeLen, .nodeInfo, .nodeFreqLo, .nodeFreqHi, .nodeLeft, .nodeRight]
      ∨ ∃ k, c = .codeW k) : csrWrite v s c = s := by
  rcases h with h | ⟨k, rfl⟩
  · simp only [List.mem_cons, List.not_mem_nil, or_false] at h
    rcases h with rfl | rfl | rfl | rfl | rfl | rfl | rfl | rfl | rfl | rfl | rfl | rfl | rfl | rfl | rfl
      | rfl | rfl <;> rfl
  · rfl

/-- DONE is cleared where bit 1 of the data is 1 (10_state.md R28). -/
theorem writeStatus_eq (v : Word) (s : State) :
    writeStatus v s = { s with done := s.done && !v.getLsbD 1 } := by
  unfold writeStatus
  cases v.getLsbD 1 <;> simp

theorem writeHist_treeCleared (b : Byte) (v : Word) (s : State) : TreeCleared (writeHist b v s) :=
  ⟨rfl, rfl, rfl, rfl, rfl, rfl, codeAt_absent⟩

/-- Settles O57: a served write is `csrWrite`, whose cases are the access classes. -/
theorem registerWrites : Obligations.RegisterWrites := by
  intro s v c hb t ok
  have ht : t = { csrWrite v s c with answer := ok } := busStep_write s c v (.inl hb)
  rw [ht]
  refine ⟨fun h => ?_, ?_, ?_, ?_, ?_, ?_, ?_⟩
  · rw [csrWrite_readOnly v s h]
  · rintro rfl; rfl
  · rintro rfl
    rw [csrWrite, writeStatus_eq]
  · rintro rfl; rfl
  · rintro rfl
    rw [csrWrite, BitVec.setWidth_eq_extractLsb' (by decide)]
  · rintro rfl
    rw [csrWrite, BitVec.setWidth_eq_extractLsb' (by decide)]
  · rintro b rfl
    exact ⟨fun u => histAt_set s.hist b u v, writeHist_treeCleared b v s,
      ⟨rfl, rfl, rfl, rfl, rfl, rfl, rfl, rfl, rfl, rfl⟩, rfl, ⟨rfl, rfl, rfl, rfl⟩,
      rfl, rfl, rfl, rfl, rfl, rfl, rfl, rfl, rfl, rfl, rfl⟩

/-! ## Reads: the words as numbers -/

/-- The high part of a concatenation counts in units of the low part's range. -/
theorem toNat_append_eq {m n : Nat} (x : BitVec m) (y : BitVec n) :
    (x ++ y).toNat = 2 ^ n * x.toNat + y.toNat := by
  rw [BitVec.toNat_append, Nat.shiftLeft_eq, Nat.mul_comm, Nat.two_pow_add_eq_or_of_lt y.isLt]

theorem ctrlWord_toNat (s : State) : (ctrlWord s).toNat = s.ie.toNat + 2 * s.degen.toNat := by
  unfold ctrlWord
  simp only [toNat_append_eq, BitVec.toNat_ofBool, BitVec.toNat_ofNat]
  omega

theorem statusWord_toNat (s : State) :
    (statusWord s).toNat = s.busy.toNat + 2 * s.done.toNat + 4 * s.treeValid.toNat
      + 8 * s.codesValid.toNat + 16 * s.payloadValid.toNat + 256 * s.err.toNat := by
  unfold statusWord
  simp only [toNat_append_eq, BitVec.toNat_ofBool, BitVec.toNat_ofNat]
  omega

theorem errInfoWord_toNat (s : State) :
    (errInfoWord s).toNat
      = s.errSub.toNat + 2 ^ 8 * s.errSym.toNat + 2 ^ 16 * s.errStage.toNat := by
  unfold errInfoWord
  simp only [toNat_append_eq, BitVec.toNat_ofNat]
  omega

/-- A frequency is read in two registers: its low 32 bits and its high 8 (10_state.md R42, R48). -/
theorem freq_toNat_halves (f : Freq) :
    (f.extractLsb' 0 32).toNat + 2 ^ 32 * ((f.extractLsb' 32 8).setWidth 32).toNat = f.toNat := by
  have := f.isLt
  simp only [BitVec.extractLsb'_toNat, BitVec.toNat_setWidth, Nat.shiftRight_eq_div_pow]
  omega

theorem nodeInfoWord_leaf_toNat (sym : Byte) (f : Freq) :
    (nodeInfoWord (some (.leaf sym f))).toNat = 2 ^ 31 + 2 ^ 8 * sym.toNat := by
  simp only [nodeInfoWord, toNat_append_eq, BitVec.toNat_ofNat]
  omega

theorem selectedNode_absent {s : State} (h : s.nnodes.toNat ≤ s.nodeIdx.toNat) :
    selectedNode s = none := if_neg (by omega)

theorem selectedNode_present {s : State} (h : s.nodeIdx.toNat < s.nnodes.toNat) :
    selectedNode s = some (nodeAt s.node s.nodeIdx) := if_pos h

/-! ## Reads: the view of the selected node (10_state.md R48) -/

theorem csrRead_node_absent {s : State} (h : s.nnodes.toNat ≤ s.nodeIdx.toNat) :
    csrRead s .nodeInfo = 0#32 ∧ csrRead s .nodeFreqLo = 0#32 ∧ csrRead s .nodeFreqHi = 0#32
      ∧ csrRead s .nodeLeft = 0xFFFFFFFF#32 ∧ csrRead s .nodeRight = 0xFFFFFFFF#32 := by
  simp only [csrRead, selectedNode_absent h]
  decide

theorem csrRead_node_leaf {s : State} {sym : Byte} {f : Freq} (h : s.nodeIdx.toNat < s.nnodes.toNat)
    (hn : nodeAt s.node s.nodeIdx = .leaf sym f) :
    (csrRead s .nodeInfo).toNat = 2 ^ 31 + 2 ^ 8 * sym.toNat
      ∧ (csrRead s .nodeFreqLo).toNat + 2 ^ 32 * (csrRead s .nodeFreqHi).toNat = f.toNat
      ∧ csrRead s .nodeLeft = 0xFFFFFFFF#32 ∧ csrRead s .nodeRight = 0xFFFFFFFF#32 := by
  simp only [csrRead, selectedNode_present h, hn]
  exact ⟨nodeInfoWord_leaf_toNat sym f, freq_toNat_halves f, rfl, rfl⟩

theorem csrRead_node_internal {s : State} {f : Freq} {l r : NodeIdx}
    (h : s.nodeIdx.toNat < s.nnodes.toNat) (hn : nodeAt s.node s.nodeIdx = .internal f l r) :
    (csrRead s .nodeInfo).toNat = 2 ^ 31 + 1
      ∧ (csrRead s .nodeFreqLo).toNat + 2 ^ 32 * (csrRead s .nodeFreqHi).toNat = f.toNat
      ∧ (csrRead s .nodeLeft).toNat = l.toNat ∧ (csrRead s .nodeRight).toNat = r.toNat := by
  simp only [csrRead, selectedNode_present h, hn]
  exact ⟨rfl, freq_toNat_halves f, BitVec.toNat_setWidth_of_le (by decide),
    BitVec.toNat_setWidth_of_le (by decide)⟩

/-- Settles O59: a served read gives `csrRead`, and each register's word is said by its bits. -/
theorem registerReads : Obligations.RegisterReads := by
  intro s hb
  have narrow : ∀ {n : Nat} (x : BitVec n), n ≤ 32 → (x.setWidth 32).toNat = x.toNat :=
    fun _ => BitVec.toNat_setWidth_of_le
  refine ⟨csrRead s, fun c => busStep_read s c 0#32 (.inl hb), rfl, ctrlWord_toNat s, statusWord_toNat s,
    rfl, rfl, rfl, rfl, narrow s.pad (by decide), errInfoWord_toNat s, rfl, narrow s.nsym (by decide),
    narrow s.nnodes (by decide), fun h => ?_, fun r h => ?_, freq_toNat_halves s.total,
    narrow s.codeIdx (by decide), narrow s.nodeIdx (by decide), narrow _ (by decide), fun _ => rfl,
    fun _ => rfl, csrRead_node_absent, fun _ _ => csrRead_node_leaf, fun _ _ _ => csrRead_node_internal⟩
  · rw [csrRead, h, nodeIdxWord, noneWord]
  · rw [csrRead, h]
    exact narrow r (by decide)

end Sys2Proof.Machine
end

section
/-! PROOF. BUILD's tree has the shape of 10_state.md R50: what `Built` says of the list of nodes, read
from a node store that holds them. -/

namespace Sys2Proof.Machine

section

variable {s : State} {t : HuffTree} {T : BTree}

theorem Built.nodes_le {hist : Vector Word 256} (h : Built hist t T) : t.nodes.length ≤ 511 := by
  have := h.nodes_length
  have := nonzeroCount_le hist
  omega

/-- The nodes begin with the leaves of the nonzero entries, in order (41_tree_builder.md R118). -/
theorem Built.leaf_getElem? {hist : Vector Word 256} (h : Built hist t T) {n : Nat}
    (hn : n < (nonzeroSyms hist).length) :
    t.nodes[n]? = some (leafFor hist (nonzeroSyms hist)[n]) := by
  have hl : n < (leavesOf hist).length := by rwa [leavesOf_eq, List.length_map]
  obtain ⟨rest, e⟩ := h.inv.leaves
  rw [← e, List.getElem?_append_left hl, leavesOf_eq, List.getElem?_map, List.getElem?_eq_getElem hn,
    Option.map_some]

/-- A node store that holds the nodes of the tree of the present histogram. -/
theorem Built.stored_node (h : Built s.hist t T) (hs : Stores s.node t.nodes) {n : Nat} {x : Node}
    (hx : t.nodes[n]? = some x) : nodeN s n = x := hs.nodeN h.nodes_le hx

theorem Built.stored_leaf (h : Built s.hist t T) (hs : Stores s.node t.nodes) {n : Nat}
    (hn : n < (nonzeroSyms s.hist).length) :
    nodeN s n = leafFor s.hist (nonzeroSyms s.hist)[n] := h.stored_node hs (h.leaf_getElem? hn)

/-- A child in the node store is a child in the list. -/
theorem Built.isChild_iff (h : Built s.hist t T) (hs : Stores s.node t.nodes) {p n : Nat}
    (hp : p < t.nodes.length) : IsChild s p n ↔ ChildList t.nodes p n := by
  have hx := List.getElem?_eq_getElem hp
  simp only [IsChild, ChildList, h.stored_node hs hx, hx, Option.some.injEq]

theorem ChildList.parent_lt {ns : List Node} {p n : Nat} (h : ChildList ns p n) : p < ns.length := by
  obtain ⟨f, l, r, hx, -⟩ := h
  exact (List.getElem?_eq_some_iff.1 hx).1

/-- R50's fourth point: every built node but the root has exactly one parent. -/
theorem Built.parent_unique (h : Built s.hist t T) (hs : Stores s.node t.nodes) {n : Nat}
    (hn : n + 1 < t.nodes.length) :
    ∃ p, (p < t.nodes.length ∧ IsChild s p n) ∧ ∀ p', p' < t.nodes.length → IsChild s p' n → p' = p := by
  have hlen := h.nodes_length
  obtain ⟨p, hp, huniq⟩ := h.inv.parent n (by omega) (by simp; omega)
  exact ⟨p, ⟨hp.parent_lt, (h.isChild_iff hs hp.parent_lt).2 hp⟩,
    fun p' hp' hc => huniq p' ((h.isChild_iff hs hp').1 hc)⟩

/-- R50's third point: an internal node joins two different nodes below it and adds their frequencies
up exactly. -/
theorem Built.stored_internal (h : Built s.hist t T) (hs : Stores s.node t.nodes) {n : Nat}
    (h1 : nonzeroCount s.hist ≤ n) (h2 : n < t.nodes.length) :
    ∃ f l r, nodeN s n = .internal f l r ∧ l.toNat < n ∧ r.toNat < n ∧ l ≠ r
      ∧ f.toNat = (nodeAt s.node l).freq.toNat + (nodeAt s.node r).freq.toNat := by
  obtain ⟨f, l, r, hx, hl, hr, hne, x, y, hxl, hyr, hsum⟩ :=
    h.inv.internals n (by rwa [leavesOf_length]) h2
  exact ⟨f, l, r, h.stored_node hs hx, hl, hr, hne, by rw [hs.nodeAt hxl, hs.nodeAt hyr, hsum]⟩

/-- R50's fifth point: the root is the last node, and TOTAL is its frequency. -/
theorem Built.root_last (h : Built s.hist t T) (hs : Stores s.node t.nodes) :
    (BitVec.ofNat 9 (2 * nonzeroCount s.hist - 2)).toNat + 1 = t.nodes.length
      ∧ (nodeAt s.node (BitVec.ofNat 9 (2 * nonzeroCount s.hist - 2))).freq = t.total := by
  obtain ⟨hlt, -, hfreq⟩ := h.inv.idx _ (List.mem_singleton.2 rfl)
  have hlen := h.nodes_length
  have hle := h.nodes_le
  have e : (BitVec.ofNat 9 (2 * nonzeroCount s.hist - 2)).toNat = 2 * nonzeroCount s.hist - 2 := by
    rw [BitVec.toNat_ofNat, Nat.mod_eq_of_lt (by omega)]
  obtain ⟨x, hx, hxf⟩ := Option.map_eq_some_iff.1 hfreq
  exact ⟨by omega, by rw [hs.nodeAt (by rw [e]; exact hx), hxf]⟩

/-- A valid tree that is coherent with a nonzero histogram has the shape of R50. -/
theorem TreeCoherent.shape (h : TreeCoherent s) (hv : s.treeValid = true)
    (hk : nonzeroCount s.hist ≠ 0) : TreeShape s := by
  obtain ⟨T, -, hT, -, -, -, hnsym, -⟩ := h.rep hv hk
  obtain ⟨-, -, hroot, htotal, hs⟩ := h hv
  have hnn := h.nnodes hv
  rw [← nonzeroSyms_length] at hnsym
  constructor
  case leaves =>
    intro n hn
    rw [hnsym] at hn
    exact ⟨_, hT.stored_leaf hs hn, mem_nonzeroSyms.1 (List.getElem_mem hn)⟩
  case ascending =>
    intro n n' v v' f f' hlt hn' hx hx'
    rw [hnsym] at hn'
    rw [hT.stored_leaf hs (by omega), leafFor, Node.leaf.injEq] at hx
    rw [hT.stored_leaf hs hn', leafFor, Node.leaf.injEq] at hx'
    obtain ⟨rfl, -⟩ := hx
    obtain ⟨rfl, -⟩ := hx'
    exact List.pairwise_iff_getElem.1 (nonzeroSyms_pairwise s.hist) n n' _ hn' hlt
  case internals =>
    intro n h1 h2
    rw [hnsym, nonzeroSyms_length] at h1
    exact hT.stored_internal hs h1 (hnn ▸ h2)
  case parents =>
    intro n hn
    rw [hnn] at hn ⊢
    exact hT.parent_unique hs hn
  case root =>
    rw [hnn, htotal, hroot, hT.root]
    exact ⟨_, rfl, hT.root_last hs⟩

end

/-- Settles O12: BUILD leaves a coherent tree, and the completion step leaves the tree alone. -/
theorem buildMakesATree : Obligations.BuildMakesATree := by
  intro s hk
  have hcoh : TreeCoherent { built s with err := 0#4, busy := false, done := true } :=
    (built_coherent s).of_same rfl ⟨rfl, rfl, rfl, rfl, rfl, rfl⟩ rfl
  exact ⟨_, exec_of_ok (buildBody_eq s), hcoh.shape rfl hk⟩

end Sys2Proof.Machine
end

section
/-! PROOF. Commands and memory: they write OUT_BUF alone, and only the result; which bytes they read,
and how many draws that takes (20_memory.md R65, R66, R78, R83). -/

namespace Sys2Proof.Machine

/-! ## What commands write -/

theorem caps_le_of_wf {c : Config} (h : c.wf = true) : c.inCap ≤ 2 ^ 30 ∧ c.outCap ≤ 2 ^ 30 := by
  simp only [Config.wf, Bool.and_eq_true, decide_eq_true_eq] at h
  omega

theorem complete_mem (i : Instr) (r : BodyResult) : (complete i r).mem = r.state.mem := by
  obtain ⟨_, _, _, _, _, _, h, -⟩ := complete_state i r
  rw [h]

/-- Settles O45: a body stores at OUT_BUF at most, and a success leaves the length of what it stored in
OUT_LEN. -/
theorem commandsWriteOnlyTheResult : Obligations.CommandsWriteOnlyTheResult := by
  intro i s hw
  refine ⟨_, exec_eq i s, ?_⟩
  rw [complete_mem]
  rcases bodyOf_mem i s with hsame | ⟨bs, hstore, hfits, hlen⟩
  · rw [hsame]
    exact ⟨fun _ _ => rfl, fun _ _ _ => rfl⟩
  · have hout := Memory.store_sameOutside s.mem outBase bs
    rw [hstore]
    refine ⟨fun x hx => hout x (by omega), fun he x hx => hout x (.inr ?_)⟩
    obtain ⟨b, hb⟩ := complete_err_zero he
    have hcap := caps_le_of_wf hw
    rw [hb, complete_ok, hlen b hb, BitVec.toNat_ofNat, Nat.mod_eq_of_lt (by omega)] at hx
    exact hx

/-! ## The draws of commands -/

section

variable {s : State}

theorem countBody_draws (h : s.inLen.toNat ≤ s.cfg.inCap) :
    (countBody s).state.draws = s.draws + unwrittenIn s.mem inBase s.inLen.toNat := by
  rw [countBody_ok h]
  exact readInput_drawn s

theorem packBody_draws (hc : s.codesValid = true) (h : s.inLen.toNat ≤ s.cfg.inCap) :
    (packBody s).state.draws = s.draws + unwrittenIn s.mem inBase s.inLen.toNat := by
  rw [packBody_run hc h]
  split <;> exact readInput_drawn s

theorem deserializeBody_draws (h : s.inLen.toNat ≤ s.cfg.inCap) (h' : 1025 ≤ s.inLen.toNat) :
    (deserializeBody s).state.draws = s.draws + unwrittenIn s.mem inBase s.inLen.toNat := by
  unfold deserializeBody
  dsimp only
  rw [if_neg (by omega), if_neg (by omega)]
  repeat' split
  all_goals exact readInput_drawn s

theorem serializeBody_drawn (hv : s.payloadValid = true) (h : 1025 + s.plen.toNat ≤ s.cfg.outCap) :
    (serializeBody s).state.draws = s.draws + unwrittenIn s.pbuf 0 s.plen.toNat := by
  rw [serializeBody_ok hv h]
  exact readPayload_drawn s

theorem unpackBody_drawn {r : NodeIdx} (ht : s.treeValid = true) (hp : s.payloadValid = true)
    (h : s.total.toNat ≤ s.cfg.outCap) (hr : s.root = some r) :
    (unpackBody s).state.draws = s.draws + unwrittenIn s.pbuf 0 s.plen.toNat := by
  rw [unpackBody_walk ht hp h hr]
  dsimp only
  split <;> exact readPayload_drawn s

/-- The payload that PACK and DESERIALIZE leave is written: reading it takes no draw. -/
theorem setPayload_unwrittenIn (bs : List Byte) (p : BitVec 3) (u : State) :
    unwrittenIn (setPayload bs p u).pbuf 0 (setPayload bs p u).plen.toNat = 0 :=
  Memory.store_unwrittenIn u.pbuf 0 (by
    rw [setPayload_plen, BitVec.toNat_ofNat]
    exact Nat.mod_le _ _)

theorem packBody_unwrittenIn {t : State} (h : packBody s = .ok t) :
    unwrittenIn t.pbuf 0 t.plen.toNat = 0 := by
  obtain ⟨-, -, bits, -, rfl⟩ := packBody_cases h
  exact setPayload_unwrittenIn _ _ _

theorem deserializeBody_unwrittenIn {t : State} (h : deserializeBody s = .ok t) :
    unwrittenIn t.pbuf 0 t.plen.toNat = 0 := by
  obtain ⟨-, -, -, -, -, rfl⟩ := deserializeBody_cases h
  exact setPayload_unwrittenIn (parsePayload (inputOf s)) ((parsePad (inputOf s)).setWidth 3) s

/-- DECOMPRESS reads its input in DESERIALIZE alone. -/
theorem decompressBody_draws (h : s.inLen.toNat ≤ s.cfg.inCap) (h' : 1025 ≤ s.inLen.toNat) :
    (decompressBody s).state.draws = s.draws + unwrittenIn s.mem inBase s.inLen.toNat := by
  have hd := deserializeBody_draws h h'
  cases hr : deserializeBody s with
  | raised e t =>
    rw [hr] at hd
    rwa [decompressBody_of_raised hr]
  | ok t =>
    rw [hr] at hd
    have hw := deserializeBody_unwrittenIn hr
    rw [decompressBody_of_ok hr]
    exact (unpackBody_draws (s := built t) hw).trans hd

theorem packBody_raised {e : Raised} {t : State} (h : packBody s = .raised e t) :
    e.err ≠ .degenerateSingleSymbol := by
  unfold packBody at h
  dsimp only at h
  repeat' split at h
  all_goals cases h <;> nofun

theorem serializeBody_raised {e : Raised} {t : State} (h : serializeBody s = .raised e t) :
    e.err ≠ .degenerateSingleSymbol := by
  unfold serializeBody at h
  dsimp only at h
  repeat' split at h
  all_goals cases h <;> nofun

/-- After GENCODES, COMPRESS reads its input again, and the payload it packs is written. -/
theorem packSerialize_draws (hc : s.codesValid = true) (h : s.inLen.toNat ≤ s.cfg.inCap) :
    ((packBody s).andThen serializeBody).state.draws
      = s.draws + unwrittenIn s.mem inBase s.inLen.toNat := by
  have hd := packBody_draws hc h
  cases hr : packBody s with
  | raised e t => rwa [hr] at hd
  | ok t =>
    rw [hr] at hd
    exact (serializeBody_draws (packBody_unwrittenIn hr)).trans hd

/-- PACK and SERIALIZE do not raise the error of GENCODES. -/
theorem packSerialize_raised {e : Raised} {t : State}
    (h : (packBody s).andThen serializeBody = .raised e t) : e.err ≠ .degenerateSingleSymbol := by
  rcases BodyResult.andThen_raised h with hp | ⟨u, -, hs⟩
  · exact packBody_raised hp
  · exact serializeBody_raised hs

/-- COMPRESS reads its input in COUNT and, unless GENCODES raises, again in PACK
(45_pipeline_and_control.md R161). -/
theorem compressBody_draws (h : s.inLen.toNat ≤ s.cfg.inCap) :
    (∃ sym total t, compressBody s = .raised (singleSymbol sym total) t
        ∧ t.draws = s.draws + unwrittenIn s.mem inBase s.inLen.toNat)
      ∨ ((compressBody s).state.draws = s.draws + 2 * unwrittenIn s.mem inBase s.inLen.toNat
        ∧ ∀ e t, compressBody s = .raised e t → e.err ≠ .degenerateSingleSymbol) := by
  obtain ⟨c, hc⟩ : ∃ c, countBody s = .ok c := ⟨_, countBody_ok h⟩
  have hd := countBody_draws h
  have hmem := countBody_mem s
  obtain ⟨⟨hcfg, -, -, -, -, hlen, -⟩, -⟩ := countBody_kept s
  simp only [hc, BodyResult.state] at hd hmem hcfg hlen
  have hbody : compressBody s
      = ((gencodesBody (built c)).andThen packBody).andThen serializeBody := by
    rw [compressBody, hc, BodyResult.ok_andThen, buildBody_eq, BodyResult.ok_andThen]
  rw [hbody]
  by_cases hk : singleLeafSym (built c) = none ∨ (built c).latchedDegen = false
  · right
    rw [gencodesBody_ok rfl hk, BodyResult.ok_andThen]
    refine ⟨(packSerialize_draws rfl ?_).trans ?_, fun e t => packSerialize_raised⟩
    · change c.inLen.toNat ≤ c.cfg.inCap
      rwa [hlen, hcfg]
    · change c.draws + unwrittenIn c.mem inBase c.inLen.toNat = _
      rw [hd, hmem, hlen]
      omega
  · left
    obtain ⟨hsome, hdegen⟩ := not_or.1 hk
    obtain ⟨sym, hsym⟩ := Option.ne_none_iff_exists'.1 hsome
    rw [gencodesBody_reject rfl hsym (by simpa using hdegen)]
    exact ⟨sym, _, _, rfl, hd⟩

end

theorem ErrCode.code_eq_three {e : ErrCode} : e.code = 3#4 → e = .degenerateSingleSymbol := by
  cases e <;> decide

/-- A completion with ERR = 3 is that of a body that raised DEGENERATE_SINGLE_SYMBOL. -/
theorem complete_err_three {i : Instr} {r : BodyResult} (h : (complete i r).err = 3#4) :
    ∃ e t, r = .raised e t ∧ e.err = .degenerateSingleSymbol := by
  cases r with
  | ok t => cases h
  | raised e t =>
    rw [complete_raised] at h
    exact ⟨e, t, rfl, ErrCode.code_eq_three h⟩

/-! ## The bytes and draws of commands -/

/-- A read returns a written byte as last written, any other as a draw of its own
(20_memory.md R78). -/
theorem Memory.read_byte (m : Memory) (a d : Nat) {n k : Nat} (hk : k < n) :
    (∀ b, m.get? (a + k) = some b → (m.read a n d).1[k]? = some b)
      ∧ (m.get? (a + k) = none →
          (m.read a n d).1[k]? = some (Config.unwrittenByte (d + unwrittenIn m a k))) := by
  rw [Memory.read_getElem? m a n d k hk]
  exact ⟨fun b h => by rw [h]; rfl, fun h => by rw [h]; rfl⟩

/-- A command takes the draws its body takes. -/
theorem exec_draws {i : Instr} {s : State} {n : Nat} (h : (bodyOf i s).state.draws = n) :
    ∃ t, exec i s = .next t ∧ t.draws = n := ⟨_, exec_eq i s, (complete_draws i _).trans h⟩

/-- Settles O60: the bytes are those of `Memory.read`, and the draws of a command are those of its
body. -/
theorem commandsReadWrittenBytes : Obligations.CommandsReadWrittenBytes := by
  intro s unwritten unwrittenPayload
  refine ⟨inputOf_length s, payloadOf_length s, fun k hk => Memory.read_byte s.mem inBase s.draws hk,
    fun k hk => ?_, fun hin => ⟨exec_draws (countBody_draws hin),
      fun hc => exec_draws (packBody_draws hc hin),
      fun hge => ⟨exec_draws (deserializeBody_draws hin hge), exec_draws (decompressBody_draws hin hge)⟩,
      ?_⟩, fun hp => ⟨fun hout => exec_draws (serializeBody_drawn hp hout), fun ht htotal hr => ?_⟩⟩
  · have := Memory.read_byte s.pbuf 0 s.draws hk
    rwa [Nat.zero_add] at this
  · refine ⟨_, exec_eq .compress s, ?_⟩
    rw [complete_draws]
    rcases compressBody_draws hin with ⟨sym, total, t, hbody, hd⟩ | ⟨hd, hne⟩
    · rw [bodyOf, hbody]
      exact ⟨fun _ => hd, fun h => absurd rfl h⟩
    · refine ⟨fun h => ?_, fun _ => hd⟩
      obtain ⟨e, t, hr, he⟩ := complete_err_three h
      exact absurd he (hne e t hr)
  · obtain ⟨r, hr⟩ := Option.ne_none_iff_exists'.1 hr
    exact exec_draws (unpackBody_drawn ht hp htotal hr)

end Sys2Proof.Machine
end

section
/-! PROOF. The host bus: the CMD write, the BUSY window, the address checks, what a refused transaction
and a read leave alone, and the byte order of the buffers (20_memory.md R67 to R75). -/

namespace Sys2Proof.Machine

/-! ## The CMD write -/

/-- Settles O52: an accepted CMD write is the served write of CMD, which is `issue`. -/
theorem cmdWriteIssues : Obligations.CmdWriteIssues := fun s w hb => busStep_write s .cmd w (.inl hb)

/-! ## The BUSY window -/

theorem addr_eq_of_csrAt {a : Word} {c : Csr} (h : csrAt a.toNat = some c) :
    a = BitVec.ofNat 32 c.offset := by
  rw [csrAt_some h, BitVec.ofNat_toNat, BitVec.setWidth_eq]

theorem busStep_of_serve {t : Transaction} {s s' : State} {a : Answer} (h : serve t s = (a, s')) :
    busStep t s = { s' with answer := some a } := by
  rw [busStep, h]

/-- While BUSY = 1 a transaction is refused unless it is one of the register accesses served then
(20_memory.md R72). -/
theorem serve_busy {t : Transaction} {s : State} (hb : s.busy = true) :
    serve t s = (errorAnswer, s)
      ∨ ∃ c, t.size = .b4 ∧ t.addr = BitVec.ofNat 32 c.offset ∧ servedWhileBusy t.kind c = true := by
  obtain ⟨k, a, n, v⟩ := t
  rcases serve_cases ⟨k, a, n, v⟩ s with h | ⟨c, hc, hn, hk, -⟩ | ⟨c, hc, hn, hk, h | h, -⟩ | ⟨h, -⟩
  · exact .inl h
  · obtain rfl : a = _ := addr_eq_of_csrAt hc
    obtain rfl : n = .b4 := hn
    by_cases hserved : servedWhileBusy k c = true
    · exact .inr ⟨c, rfl, rfl, hserved⟩
    · left
      rw [serve_csr, if_pos (by simp [hb, hserved])]
  · simp [hb] at h
  · exact .inr ⟨c, hn, addr_eq_of_csrAt hc, by rw [hk]; exact h⟩
  · simp [hb] at h

theorem servedWhileBusy_read {c : Csr} (h : servedWhileBusy .read c = true) :
    c = .id ∨ c = .ctrl ∨ c = .status ∨ c = .cmd := by
  cases c <;> simp [servedWhileBusy] at h ⊢

theorem servedWhileBusy_write {c : Csr} (h : servedWhileBusy .write c = true) :
    c = .ctrl ∨ c = .status := by
  cases c <;> simp [servedWhileBusy] at h ⊢

/-- Settles O53: the served reads and writes are those of `busStep_read` and `busStep_write`, and
`serve_busy` leaves no other. -/
theorem busyWindow : Obligations.BusyWindow := by
  intro s t hb
  obtain ⟨k, a, n, w⟩ := t
  dsimp only
  refine ⟨?_, ?_, ?_, fun h => ?_⟩
  · rintro rfl rfl (rfl | rfl | rfl | rfl)
    · exact ⟨_, busStep_read s .id w (.inr rfl), by simp [csrRead, idValue]⟩
    · exact ⟨_, busStep_read s .ctrl w (.inr rfl), by simp [csrRead, ctrlWord_toNat]⟩
    · exact ⟨_, busStep_read s .status w (.inr rfl), by simp [csrRead, statusWord_toNat, hb]⟩
    · exact ⟨_, busStep_read s .cmd w (.inr rfl), by simp [csrRead]⟩
  · rintro rfl rfl rfl
    exact busStep_write s .ctrl w (.inr rfl)
  · rintro rfl rfl rfl
    refine (busStep_write s .status w (.inr rfl)).trans ?_
    rw [csrWrite, writeStatus_eq]
    rfl
  · rcases serve_busy (t := ⟨k, a, n, w⟩) hb with he | ⟨c, hn, ha, hc⟩
    · exact busStep_of_serve he
    · refine absurd ⟨hn, ?_⟩ h
      cases k with
      | read =>
        refine .inl ⟨rfl, ?_⟩
        rcases servedWhileBusy_read hc with rfl | rfl | rfl | rfl
        · exact .inl ha
        · exact .inr (.inl ha)
        · exact .inr (.inr (.inl ha))
        · exact .inr (.inr (.inr ha))
      | write =>
        refine .inr ⟨rfl, ?_⟩
        rcases servedWhileBusy_write hc with rfl | rfl
        · exact .inl ha
        · exact .inr ha

/-! ## The address checks -/

theorem BusSize.bytes_bounds (n : BusSize) : 1 ≤ n.bytes ∧ n.bytes ≤ 4 := by cases n <;> decide

theorem serve_misaligned {t : Transaction} (s : State) (h : t.addr.toNat % t.size.bytes ≠ 0) :
    serve t s = (errorAnswer, s) := if_pos h

/-- A transaction that no register answers and that is in bounds of no buffer is refused
(20_memory.md R70, R71). -/
theorem serve_nowhere {t : Transaction} {s : State}
    (hreg : ∀ c : Csr, c.offset = t.addr.toNat → t.size ≠ .b4)
    (hbuf : inBuffers s.cfg t.addr.toNat t.size.bytes = false) : serve t s = (errorAnswer, s) := by
  rcases serve_cases t s with h | ⟨c, hc, hn, -⟩ | ⟨c, hc, hn, -⟩ | ⟨-, hin, -⟩
  · exact h
  · exact absurd hn (hreg c (csrAt_some hc))
  · exact absurd hn (hreg c (csrAt_some hc))
  · rw [hbuf] at hin
    cases hin

/-- Settles O54: every case but the first excludes both the registers and the buffers. -/
theorem badTransactionsGetError : Obligations.BadTransactionsGetError := by
  intro s t hw a hbad
  apply busStep_of_serve
  by_cases hal : a % t.size.bytes ≠ 0
  · exact serve_misaligned s hal
  · have hcap := caps_le_of_wf hw
    have hsize := t.size.bytes_bounds
    refine serve_nowhere (fun c hc hn => ?_) ?_
    · have hlt := c.offset_lt
      change c.offset = a at hc
      rcases hbad with h | ⟨-, h⟩ | ⟨-, h⟩ | h
      · exact hal h
      · exact h hn
      · exact h c hc
      · omega
    · rw [Bool.eq_false_iff, ne_eq, inBuffers_iff]
      change ¬ ((_ ≤ a ∧ a + _ ≤ _) ∨ (_ ≤ a ∧ a + _ ≤ _))
      omega

/-! ## Errors and reads -/

theorem inBuffers_ge {c : Config} {a n : Nat} (h : inBuffers c a n = true) : 0x40000000 ≤ a := by
  rw [inBuffers_iff] at h
  omega

/-- A buffer read returns its bytes lowest address first (20_memory.md R68), a byte nothing has written
as a draw numbered by the unwritten bytes before it (R78). -/
theorem leWord_read_byte (m : Memory) (a d : Nat) (n : BusSize) {k : Nat} (hk : k < n.bytes) :
    (leWord (m.read a n.bytes d).1).extractLsb' (8 * k) 8
      = (m.get? (a + k)).getD (Config.unwrittenByte (d + unwrittenIn m a k)) :=
  leWord_byte (by rw [Memory.read_length]; exact n.bytes_bounds.2) (Memory.read_getElem? m a _ d k hk)

/-- Settles O55, by the cases of what a transaction can do. -/
theorem errorsAndReadsChangeNothing : Obligations.ErrorsAndReadsChangeNothing := by
  intro s t
  rcases serve_cases t s with h | ⟨c, hc, -, hk, h⟩ | ⟨c, -, -, hk, -, h⟩
      | ⟨-, hin, ⟨hk, h⟩ | ⟨hk, h⟩⟩ <;> rw [busStep_of_serve h]
  · exact ⟨_, rfl, fun _ => ⟨rfl, rfl⟩, nofun, fun _ _ => rfl, nofun⟩
  · have hlow : t.addr.toNat < 0x1000 := by
      rw [← csrAt_some hc]
      exact Nat.lt_trans c.offset_lt (by decide)
    exact ⟨_, rfl, nofun, by simp [hk], fun _ _ => rfl, fun _ _ hge => absurd hge (by omega)⟩
  · exact ⟨_, rfl, nofun, fun _ _ => rfl, by simp [hk], by simp [hk]⟩
  · have hge := inBuffers_ge hin
    refine ⟨_, rfl, nofun, by simp [hk], fun _ hlow => absurd hlow (by omega), fun _ _ _ => ⟨?_, ?_⟩⟩
    · rw [Memory.read_draws]
    · exact fun k => leWord_read_byte s.mem _ s.draws t.size
  · exact ⟨_, rfl, nofun, fun _ _ => rfl, by simp [hk], by simp [hk]⟩

/-! ## Buffer accesses -/

/-- An aligned transaction in bounds of a buffer is served as one of a buffer. -/
theorem serve_inBuffers {t : Transaction} {s : State} (hal : t.addr.toNat % t.size.bytes = 0)
    (hin : inBuffers s.cfg t.addr.toNat t.size.bytes = true) : serve t s = serveBuffer t s := by
  have := inBuffers_ge hin
  unfold serve
  rw [if_neg (by simp [hal]), if_neg (by unfold csrSize; omega), if_pos hin]

theorem serveBuffer_write {t : Transaction} {s : State} (hb : s.busy = false) (hk : t.kind = .write) :
    serveBuffer t s =
      (okayAnswer 0#32, { s with mem := s.mem.store t.addr.toNat (leBytes t.size.bytes t.wdata) }) := by
  simp [serveBuffer, hb, hk]

/-- An idle buffer read of bytes that stand in memory takes no draw. -/
theorem serveBuffer_read {t : Transaction} {s : State} {bs : List Byte} (hb : s.busy = false)
    (hk : t.kind = .read) (h : Holds s.mem t.addr.toNat bs) (hl : bs.length = t.size.bytes) :
    serveBuffer t s = (okayAnswer (leWord bs), s) := by
  unfold serveBuffer
  rw [if_neg (by simp [hb]), hk, ← hl, Memory.read_of_holds h]

/-- Settles O56: a write is a store of the word's bytes, and a read gives the word of the bytes that
stand there. -/
theorem bufferAccessIsLittleEndian : Obligations.BufferAccessIsLittleEndian := by
  intro s t _ hb hal hin
  have hserve := serve_inBuffers hal ((inBuffers_iff s.cfg _ _).2 hin)
  refine ⟨fun hk => ?_, fun hk bs hbs hl => ?_⟩
  · have hstep := busStep_of_serve (hserve.trans (serveBuffer_write hb hk))
    have hholds := Memory.store_holds s.mem t.addr.toNat (leBytes t.size.bytes t.wdata)
    have hout := Memory.store_sameOutside s.mem t.addr.toNat (leBytes t.size.bytes t.wdata)
    refine ⟨_, hstep, fun k hkn => ?_, ?_⟩
    · rw [hholds k (by rwa [leBytes_length]), leBytes_getElem]
    · rwa [leBytes_length] at hout
  · exact ⟨_, busStep_of_serve (hserve.trans (serveBuffer_read hb hk hbs hl)),
      fun k b => leWord_byte (hl ▸ t.size.bytes_bounds.2), fun j hj => leWord_getLsbD (hl ▸ hj)⟩

end Sys2Proof.Machine
end

section
/-! PROOF. Decoding of a command word, and the step that runs the decoded command (30_encoding.md R90
to R93, R109; 20_memory.md R83; 60_exceptions.md R177). -/

namespace Sys2Proof

/-! ## Decoding -/

/-- A reserved opcode is one that no command has (30_encoding.md R93). -/
theorem reservedOpcode_iff (op : Byte) : ReservedOpcode op.toNat ↔ ∀ i : Instr, op ≠ i.opcode := by
  rcases opcodeMap_cases op with ⟨hmap, hres⟩ | ⟨i, -, hop, hnot⟩
  · refine iff_of_true hres fun i hi => ?_
    rw [hi, opcodeMap_opcode] at hmap
    cases hmap
  · exact iff_of_false hnot fun h => h i hop.symm

theorem decode_of_reservedOpcode {w : Word} (h : ∀ i : Instr, opcodeField w ≠ i.opcode) :
    decode w = .error .reservedOpcode := by
  rcases opcodeMap_cases (opcodeField w) with ⟨hmap, -⟩ | ⟨i, -, hop, -⟩
  · simp [decode, hmap]
  · exact absurd hop.symm (h i)

theorem decode_of_opcode {w : Word} {i : Instr} (h : opcodeField w = i.opcode) :
    decode w = if reservedField w = 0#24 then .ok i else .error .reservedBits := by
  simp [decode, h]

/-- A legal word is the encoding of the command it decodes to. -/
theorem decode_ok_iff (w : Word) (i : Instr) : decode w = .ok i ↔ w = encode i := by
  rw [eq_encode_iff]
  constructor
  · intro hd
    by_cases hop : ∃ j : Instr, opcodeField w = j.opcode
    · obtain ⟨j, hj⟩ := hop
      rw [decode_of_opcode hj] at hd
      split at hd
      next hres => cases hd; exact ⟨hj, hres⟩
      next => cases hd
    · rw [decode_of_reservedOpcode (not_exists.1 hop)] at hd
      cases hd
  · rintro ⟨hop, hres⟩
    rw [decode_of_opcode hop, if_pos hres]

@[simp] theorem decode_encode (i : Instr) : decode (encode i) = .ok i := (decode_ok_iff _ i).2 rfl

/-- Settles O2: a reserved opcode is one that no command has, and of the other words RSVD decides. -/
theorem decodeSortsEveryWord : Obligations.DecodeSortsEveryWord := by
  intro w op reserved
  have hreserved : reserved ↔ ∀ i : Instr, opcodeField w ≠ i.opcode := by
    rw [← reservedOpcode_iff, opcodeField_toNat]
  have hopcode : ¬ reserved → ∃ i : Instr, opcodeField w = i.opcode := fun h =>
    not_forall_not.1 (mt hreserved.2 h)
  refine ⟨fun h => decode_of_reservedOpcode (hreserved.1 h), fun h hw => ?_, fun h hw => ?_,
    decode_ok_iff w⟩
  · obtain ⟨i, hi⟩ := hopcode h
    rw [decode_of_opcode hi, if_neg (mt (reservedField_eq_zero w).1 hw.not_gt)]
  · obtain ⟨i, hi⟩ := hopcode h
    exact ⟨i, by rw [decode_of_opcode hi, if_pos ((reservedField_eq_zero w).2 hw)]⟩

/-- Settles O1: each legal word listed is the encoding of its command. -/
theorem commandWordsDecode : Obligations.CommandWordsDecode :=
  ⟨decode_encode .nop, decode_encode .clear, decode_encode .count, decode_encode .build,
    decode_encode .gencodes, decode_encode .pack, decode_encode .serialize,
    decode_encode .deserialize, decode_encode .unpack, decode_encode .compress,
    decode_encode .decompress, rfl, rfl, rfl, rfl, rfl⟩

end Sys2Proof

namespace Sys2Proof.Machine

/-! ## The next event -/

theorem step_of_nil {s : State} (h : s.inbox = []) : step s = coreTurn s := by
  simp [step, h]

theorem step_of_core {s : State} {rest : List Event} (h : s.inbox = .core :: rest) :
    step s = coreTurn { s with inbox := rest } := by
  simp [step, h]

theorem step_of_bus {s : State} {t : Transaction} {rest : List Event}
    (h : s.inbox = .bus t :: rest) :
    step s = .next (busStep t { s with inbox := rest }) := by
  simp [step, h]

/-! ## The core's turn -/

theorem coreTurn_of_idle {s : State} (h : s.busy = false) : coreTurn s = .next s :=
  if_neg (by simp [coreEnabled, h])

theorem coreTurn_of_busy {s : State} (h : s.busy = true) : coreTurn s = completeCommand s := if_pos h

theorem coreTurn_of_ok {s : State} {i : Instr} (hb : s.busy = true) (hd : decode s.lastCmd = .ok i) :
    coreTurn s = exec i s := by
  simp [coreTurn_of_busy hb, completeCommand, fetchCommand, hd]

theorem illegalCommand_eq_failedState (e : DecodeError) (s : State) :
    illegalCommand e s =
      failedState 4#4 (illegalSubcode e) 0#8 (opcodeField s.lastCmd) s.lastCmd s := rfl

/-- An illegal word changes nothing but the completion state. -/
theorem coreTurn_of_error {s : State} {e : DecodeError} (hb : s.busy = true)
    (hd : decode s.lastCmd = .error e) :
    coreTurn s =
      .next (failedState 4#4 (illegalSubcode e) 0#8 (opcodeField s.lastCmd) s.lastCmd s) := by
  simp [coreTurn_of_busy hb, completeCommand, fetchCommand, hd, illegalCommand_eq_failedState]

/-- Settles O3, by the cases of the next event and of the core's turn. -/
theorem stepRunsDecodedCommand : Obligations.StepRunsDecodedCommand := by
  refine ⟨fun s i hb hd => ⟨fun hi => ?_, fun rest hi => ?_⟩, fun s t rest => step_of_bus,
    fun s rest hb hi => ?_, fun s hb hi => ?_, fun s nbits w i hd => ?_⟩
  · rw [step_of_nil hi, coreTurn_of_ok hb hd]
  · rw [step_of_core hi]; exact coreTurn_of_ok hb hd
  · rw [step_of_core hi]; exact coreTurn_of_idle hb
  · rw [step_of_nil hi, coreTurn_of_idle hb]
  · rw [step_of_core (rest := s.inbox) rfl]
    exact coreTurn_of_ok (s := issue (BitVec.ofNat 32 (w % 2 ^ nbits)) s) rfl hd

/-- Settles O4: `decode` looks at the opcode first, and either illegal word ends as
`coreTurn_of_error` says. -/
theorem completionDecodesLastCmd : Obligations.CompletionDecodesLastCmd := by
  intro s hb illegal
  have hillegal (e : DecodeError) (hd : decode s.lastCmd = .error e) :
      coreTurn s = illegal (illegalSubcode e) s
        ∧ (s.inbox = [] → step s = illegal (illegalSubcode e) s)
        ∧ ∀ rest, s.inbox = .core :: rest →
            step s = illegal (illegalSubcode e) { s with inbox := rest } :=
    have hturn := coreTurn_of_error hb hd
    ⟨hturn, fun hi => (step_of_nil hi).trans hturn,
      fun rest hi => (step_of_core hi).trans (coreTurn_of_error hb hd)⟩
  refine ⟨fun hop => hillegal _ (decode_of_reservedOpcode hop), fun i hop hres => ?_,
    fun i hop hres => ?_⟩
  · exact hillegal .reservedBits (by rw [decode_of_opcode hop, if_neg hres])
  · exact coreTurn_of_ok hb (by rw [decode_of_opcode hop, if_pos hres])

end Sys2Proof.Machine
end

section
/-! PROOF. COUNT: the histogram it builds, what it leaves alone, and the sum of its counters
(40_frequency_counter.md R113, R114). -/

namespace Sys2Proof.Machine

/-- A body that runs to its end completes in success, and the host's registers stay as they were
(30_encoding.md R94; 60_exceptions.md R177). -/
theorem exec_completedOk {i : Instr} {s b : State} (h : bodyOf i s = .ok b) :
    exec i s = .next (complete i (.ok b)) ∧ CompletedOk s (complete i (.ok b))
      ∧ SameControl s (complete i (.ok b)) := by
  have hkept := bodyOf_kept i s
  rw [h] at hkept
  obtain ⟨hcontrol, -, -, -, hsub, hsym, hstage, harg⟩ := hkept
  exact ⟨by rw [exec_eq, h], ⟨rfl, hsub, hsym, hstage, harg, rfl, rfl⟩, hcontrol⟩

theorem invalidateTree_treeCleared (s : State) : TreeCleared (invalidateTree s) :=
  ⟨rfl, rfl, rfl, rfl, rfl, rfl, codeAt_absent⟩

/-- The completion step leaves the tree and the code table alone. -/
theorem TreeCleared.complete_ok {b : State} (h : TreeCleared b) (i : Instr) :
    TreeCleared (complete i (.ok b)) := h

/-- IN_LEN has 32 bits, so no counter of the input's bytes wraps. -/
theorem inputOf_length_lt (s : State) : (inputOf s).length < 2 ^ 32 := by
  rw [inputOf_length]
  exact s.inLen.isLt

theorem exec_count_over {s : State} (h : s.cfg.inCap < s.inLen.toNat) :
    exec .count s = .next (failedState 5#4 1#8 0#8 0x10#8 s.inLen s) :=
  exec_of_raised (i := .count) (countBody_over h)

/-- Settles O8, by the two outcomes of `countBody`: it raises in the unchanged state, or replaces the
histogram in a state that is otherwise changed by InvalidateTree alone. -/
theorem countBuildsHistogram : Obligations.CountBuildsHistogram := by
  refine fun s => ⟨exec_count_over, fun hin => ?_⟩
  obtain ⟨hexec, hok, hcontrol⟩ := exec_completedOk (i := .count) (countBody_ok hin)
  exact ⟨_, hexec, hok, countBytes_toNat (inputOf_length_lt s), (invalidateTree_treeCleared _).complete_ok .count,
    ⟨rfl, rfl, rfl, rfl⟩, hcontrol, rfl, rfl, rfl⟩

/-- Settles O9: a success leaves the histogram of the input, whose length is IN_LEN. -/
theorem countSumsToInLen : Obligations.CountSumsToInLen := by
  intro s t hexec herr
  obtain ⟨b, hbody, rfl⟩ := exec_ok hexec herr
  obtain ⟨-, rfl⟩ := countBody_cases hbody
  exact (histSum_countBytes (inputOf_length_lt s)).trans (inputOf_length s)

end Sys2Proof.Machine
end

section
/-! PROOF. The queue under both policies gives out the least entry, and under HEAP every entry's place
is the one 41_tree_builder.md R123 gives it. -/

namespace Sys2Proof.Machine

theorem queueExtractMin_nil (tie : TiePolicy) : queueExtractMin tie [] = none := by cases tie <;> rfl

theorem queueExtractMin_eq_none {tie : TiePolicy} {q : List QEntry} :
    queueExtractMin tie q = none ↔ q = [] := by
  refine ⟨fun hx => ?_, fun hq => hq ▸ queueExtractMin_nil tie⟩
  by_contra hq
  have := queueExtractMin_isSome tie hq
  rw [hx] at this
  cases this

theorem queueInit_concat (tie : TiePolicy) (es : List QEntry) (e : QEntry) :
    queueInit tie (es ++ [e]) = queueInsert tie (queueInit tie es) e := by
  simp [queueInit]

theorem EntryLe.fifo {x y : QEntry} (h : EntryLe .fifo x y) :
    x.freq < y.freq ∨ (x.freq = y.freq ∧ x.idx ≤ y.idx) := by
  simpa only [EntryLe, BitVec.lt_def, ← BitVec.toNat_inj] using h

/-- An extraction from two entries or more: the root leaves, the hole it leaves sinks, and the last entry
rises from where the hole came to rest (41_tree_builder.md R123). -/
theorem heapExtractMin_sinks_rises (top : QEntry) (rest : List QEntry) (last : QEntry) :
    ∃ h' m j g, heapExtractMin (top :: (rest ++ [last])) = some (top, h')
      ∧ Sinks (last :: rest) 0 m g ∧ Rises last g (holePath (last :: rest) 0 m) j h' := by
  obtain ⟨⟨e, h'⟩, hx⟩ :=
    Option.isSome_iff_exists.1 (heapExtractMin_isSome (List.cons_ne_nil top (rest ++ [last])))
  obtain ⟨hone, -⟩ | ⟨rest', last', heq, m, j, g, hsinks, hrises⟩ := heapExtractMin_path hx
  · simp at hone
  · obtain ⟨rfl, htail⟩ := List.cons.inj heq
    obtain ⟨rfl, hlast⟩ := List.append_inj' htail rfl
    cases hlast
    exact ⟨h', m, j, g, hx, hsinks, hrises⟩

/-- Settles O17: both queues keep their entries, FIFO gives out the first by frequency and index, and
HEAP keeps the heap order while an entry rises and a hole sinks. -/
theorem queuesGiveOutTheLeast : Obligations.QueuesGiveOutTheLeast := by
  refine ⟨queueInit_perm, queueInsert_perm, fun tie q => queueExtractMin_eq_none, fun q e q' hx => ?_,
    queueInit_ordered, fun h e hh => heapInsert_ordered hh e, fun h e h' hh hx => ?_, fun tie => rfl,
    queueInit_concat, heapInsert_rises, queueExtractMin_single .heap, heapExtractMin_sinks_rises⟩
  · obtain ⟨-, hleast⟩ := queueExtractMin_least (tie := .fifo) trivial hx
    exact ⟨(queueExtractMin_perm hx).symm, fun y hy => (hleast y hy).fifo⟩
  · obtain ⟨hordered, hleast⟩ := queueExtractMin_least (tie := .heap) hh hx
    exact ⟨hordered, (queueExtractMin_perm hx).symm, hleast⟩

end Sys2Proof.Machine
end

section
/-! PROOF. BUILD: the tree it stores is that of the histogram, node by node, and it writes nothing else
(41_tree_builder.md R118 to R130). -/

namespace Sys2Proof.Machine

/-! ## The state after BUILD -/

/-- The state BUILD leaves: the tree of the histogram, and the completion of a success. -/
def afterBuild (s : State) : State := { built s with err := 0#4, busy := false, done := true }

theorem exec_build (s : State) : exec .build s = .next (afterBuild s) := exec_of_ok (buildBody_eq s)

theorem afterBuild_hist (s : State) : (afterBuild s).hist = s.hist := rfl

theorem afterBuild_nsym (s : State) : (afterBuild s).nsym.toNat = nonzeroCount s.hist := built_nsym s

theorem afterBuild_nnodes (s : State) :
    (afterBuild s).nnodes.toNat = (buildTree s.cfg.tie s.hist).nodes.length := built_nnodes s

theorem afterBuild_stores (s : State) :
    Stores (afterBuild s).node (buildTree s.cfg.tie s.hist).nodes := built_stores s

theorem afterBuild_coherent (s : State) : TreeCoherent (afterBuild s) :=
  (built_coherent s).of_same rfl ⟨rfl, rfl, rfl, rfl, rfl, rfl⟩ rfl

theorem afterBuild_shape {s : State} (hk : nonzeroCount s.hist ≠ 0) : TreeShape (afterBuild s) :=
  (afterBuild_coherent s).shape rfl hk

/-- Node `n` of the store is node `n` of the tree's list. -/
theorem afterBuild_getElem? {s : State} {n : Nat} (hn : n < (afterBuild s).nnodes.toNat) :
    (buildTree s.cfg.tie s.hist).nodes[n]? = some (nodeN (afterBuild s) n) := by
  rw [afterBuild_nnodes] at hn
  have hx := List.getElem?_eq_getElem hn
  rw [hx, (afterBuild_stores s).nodeN (buildTree_nodes_le _ _) hx]

/-- A tree with a node has a leaf. -/
theorem nonzeroCount_ne_zero_of_lt {s : State} {n : Nat} (hn : n < (afterBuild s).nnodes.toNat) :
    nonzeroCount s.hist ≠ 0 := fun h => by
  rw [afterBuild_nnodes, buildTree_empty _ _ h] at hn
  exact Nat.not_lt_zero n hn

theorem afterBuild_shape_of_lt {s : State} {n : Nat} (hn : n < (afterBuild s).nnodes.toNat) :
    TreeShape (afterBuild s) := afterBuild_shape (nonzeroCount_ne_zero_of_lt hn)

theorem nonzeroCount_le_nnodes (s : State) : nonzeroCount s.hist ≤ (afterBuild s).nnodes.toNat := by
  by_cases hk : nonzeroCount s.hist = 0
  · omega
  · obtain ⟨T, hT⟩ := buildTree_built s.cfg.tie s.hist hk
    have := hT.nodes_length
    rw [afterBuild_nnodes]
    omega

/-! ## What a tree's shape says of a given node -/

theorem TreeShape.leaf_freq {s : State} (h : TreeShape s) {n : Nat} {v : Byte} {f : Freq}
    (hn : n < s.nnodes.toNat) (hx : nodeN s n = .leaf v f) :
    f = (histAt s.hist v).setWidth 40 ∧ histAt s.hist v ≠ 0#32 := by
  by_cases hleaf : n < s.nsym.toNat
  · obtain ⟨u, hu, hne⟩ := h.leaves n hleaf
    obtain ⟨rfl, rfl⟩ := Node.leaf.inj (hx.symm.trans hu)
    exact ⟨rfl, hne⟩
  · obtain ⟨f', l, r, hx', -⟩ := h.internals n (by omega) hn
    cases hx.symm.trans hx'

theorem TreeShape.of_internal {s : State} (h : TreeShape s) {n : Nat} {f : Freq} {l r : NodeIdx}
    (hn : n < s.nnodes.toNat) (hx : nodeN s n = .internal f l r) :
    s.nsym.toNat ≤ n ∧ l.toNat < n ∧ r.toNat < n
      ∧ f.toNat = (nodeAt s.node l).freq.toNat + (nodeAt s.node r).freq.toNat := by
  by_cases hleaf : n < s.nsym.toNat
  · obtain ⟨v, hv, -⟩ := h.leaves n hleaf
    cases hx.symm.trans hv
  · obtain ⟨f', l', r', hx', hl, hr, -, hsum⟩ := h.internals n (by omega) hn
    obtain ⟨rfl, rfl, rfl⟩ := Node.internal.inj (hx.symm.trans hx')
    exact ⟨by omega, hl, hr, hsum⟩

/-! ## One nonzero entry, or none -/

theorem nonzeroSyms_single {hist : Vector Word 256} {v : Byte} (hv : histAt hist v ≠ 0#32)
    (hone : ∀ u, u ≠ v → histAt hist u = 0#32) : nonzeroSyms hist = [v] := by
  refine List.perm_singleton.1
    ((List.perm_ext_iff_of_nodup (nonzeroSyms_nodup hist) (List.nodup_singleton v)).2 fun u => ?_)
  rw [mem_nonzeroSyms, List.mem_singleton]
  exact ⟨fun hu => by_contra fun hne => hu (hone u hne), fun hu => hu ▸ hv⟩

/-- With a single nonzero entry the tree is its leaf (41_tree_builder.md R120). -/
theorem buildTree_single (tie : TiePolicy) {hist : Vector Word 256} {v : Byte}
    (hv : histAt hist v ≠ 0#32) (hone : ∀ u, u ≠ v → histAt hist u = 0#32) :
    buildTree tie hist = { nodes := [leafFor hist v], leaves := 1, root := some 0 } := by
  have hleaves : leavesOf hist = [leafFor hist v] := by
    rw [leavesOf_eq, nonzeroSyms_single hv hone, List.map_singleton]
  simp only [buildTree, hleaves]

/-- The summary registers after BUILD, as the built tree gives them. -/
theorem afterBuild_summary {s : State} {t : HuffTree} (h : buildTree s.cfg.tie s.hist = t) :
    (afterBuild s).nsym = BitVec.ofNat 9 t.leaves
      ∧ (afterBuild s).nnodes = BitVec.ofNat 10 t.nodes.length
      ∧ (afterBuild s).root = t.root.map (BitVec.ofNat 9) ∧ (afterBuild s).total = t.total :=
  h ▸ ⟨rfl, rfl, rfl, rfl⟩

/-- Settles O10, from the two trees `buildTree_empty` and `buildTree_single`. -/
theorem buildOfNoneOrOne : Obligations.BuildOfNoneOrOne := by
  refine fun s => ⟨fun hzero => ?_, fun v hv hone => ?_⟩
  · obtain ⟨hnsym, hnnodes, hroot, htotal⟩ :=
      afterBuild_summary (buildTree_empty s.cfg.tie s.hist (nonzeroCount_eq_zero.2 hzero))
    exact ⟨_, exec_build s, rfl, hnsym, hnnodes, hroot, htotal, rfl⟩
  · have htree := buildTree_single s.cfg.tie hv hone
    obtain ⟨hnsym, hnnodes, hroot, htotal⟩ := afterBuild_summary htree
    have hleaf : nodeN (afterBuild s) 0 = leafFor s.hist v :=
      (htree ▸ afterBuild_stores s).nodeN (by simp) rfl
    exact ⟨_, exec_build s, rfl, hleaf, hroot, hnsym, hnnodes, htotal, rfl⟩

/-- Settles O11: the leaves are the list's first nodes, `internals` of the tree's shape gives the rest,
and the node count and the root come from `Built`. -/
theorem buildNumbersNodes : Obligations.BuildNumbersNodes := by
  intro s hk
  obtain ⟨T, hT⟩ := buildTree_built s.cfg.tie s.hist hk
  have hstores := afterBuild_stores s
  obtain ⟨hroot, -⟩ := Built.root_last (s := afterBuild s) hT hstores
  rw [afterBuild_hist] at hroot
  have hlen := hT.nodes_length
  have hnsym := afterBuild_nsym s
  have hnnodes := afterBuild_nnodes s
  refine ⟨_, BitVec.ofNat 9 (2 * nonzeroCount s.hist - 2), exec_build s, hnsym, by omega,
    congrArg (Option.map (BitVec.ofNat 9)) hT.root, ?_, fun n v hv => ?_, fun n h1 h2 => ?_⟩
  · omega
  · obtain ⟨hn, rfl⟩ := List.getElem?_eq_some_iff.1 hv
    exact ⟨_, Built.stored_leaf (s := afterBuild s) hT hstores hn⟩
  · obtain ⟨f, l, r, hx, -⟩ := (afterBuild_shape hk).internals n (by omega) h2
    exact ⟨f, l, r, hx⟩

/-! ## Frequencies -/

/-- Settles O13: the root's frequency is the histogram's sum, and the tree's shape gives each node's. -/
theorem buildSumsFrequencies : Obligations.BuildSumsFrequencies := by
  refine fun s => ⟨_, exec_build s, (afterBuild_coherent s).total rfl, fun n v f hn hx => ?_,
    fun n f l r hn hx => ?_⟩
  · obtain ⟨hf, hne⟩ := (afterBuild_shape_of_lt hn).leaf_freq hn hx
    rw [afterBuild_hist] at hf hne
    have hpos : (histAt s.hist v).toNat ≠ 0 := fun h => hne (BitVec.eq_of_toNat_eq h)
    have hexact : f.toNat = (histAt s.hist v).toNat := by
      rw [hf, BitVec.toNat_setWidth_of_le (by decide)]
    exact ⟨hexact, by omega⟩
  · obtain ⟨-, -, -, hsum⟩ := (afterBuild_shape_of_lt hn).of_internal hn hx
    exact hsum

/-! ## What BUILD reads and writes -/

/-- Settles O14: the built tree takes the policy and the histogram alone. -/
theorem buildDependsOnHistOnly : Obligations.BuildDependsOnHistOnly := by
  intro s s' t t' htie hhist ht ht'
  cases (exec_build s).symm.trans ht
  cases (exec_build s').symm.trans ht'
  have htree : buildTree s'.cfg.tie s'.hist = buildTree s.cfg.tie s.hist := by rw [htie, hhist]
  obtain ⟨hnsym, hnnodes, hroot, htotal⟩ := afterBuild_summary htree
  refine ⟨hnsym, hnnodes, hroot, htotal, fun n hn => ?_⟩
  exact (htree ▸ afterBuild_stores s').nodeN (buildTree_nodes_le _ _) (afterBuild_getElem? hn)

theorem storeNodes_getElem?_of_le (old : Vector Node 511) {ns : List Node} {n : Nat} (h : ns.length ≤ n) :
    (storeNodes old ns)[n]? = old[n]? := by
  by_cases hn : n < 511
  · simp [storeNodes, hn, h]
  · simp [hn]

/-- Settles O15: the body always runs to its end, and the node store keeps its entries from NNODES on. -/
theorem buildWritesOnlyTheTree : Obligations.BuildWritesOnlyTheTree := by
  intro s
  obtain ⟨hexec, hok, hcontrol⟩ := exec_completedOk (i := .build) (buildBody_eq s)
  refine ⟨_, hexec, hok, rfl, rfl, codeAt_absent, fun n hn => ?_, rfl, ⟨rfl, rfl, rfl, rfl⟩, hcontrol, rfl,
    rfl, rfl⟩
  exact storeNodes_getElem?_of_le s.node ((afterBuild_nnodes s).symm.trans_le hn)

/-! ## The merges -/

theorem nodeEntry_buildTree {s : State} {n : Nat} (hn : n < (afterBuild s).nnodes.toNat) :
    nodeEntry (buildTree s.cfg.tie s.hist).nodes n = entryOf (afterBuild s) n := by
  rw [nodeEntry, afterBuild_getElem? hn, Option.getD_some, entryOf]

theorem nodeFreq_buildTree {s : State} {n : Nat} (hn : n < (afterBuild s).nnodes.toNat) :
    nodeFreq (buildTree s.cfg.tie s.hist).nodes n = (nodeN (afterBuild s) n).freq.toNat := by
  rw [nodeFreq, afterBuild_getElem? hn, Option.map_some, Option.getD_some]

/-- The queue's order on the tree's list is its order on the node store. -/
theorem NodeLe.precedes {tie : TiePolicy} {s : State} {m n : Nat}
    (h : NodeLe tie (buildTree s.cfg.tie s.hist).nodes m n) (hm : m < (afterBuild s).nnodes.toNat)
    (hn : n < (afterBuild s).nnodes.toNat) : Precedes tie (afterBuild s) m n := by
  cases tie <;>
    simpa only [NodeLe, Precedes, nodeFreq_buildTree hm, nodeFreq_buildTree hn, BitVec.lt_def,
      BitVec.le_def, ← BitVec.toNat_inj] using h

theorem ChildList.isChild {s : State} {p n : Nat} (h : ChildList (buildTree s.cfg.tie s.hist).nodes p n) :
    IsChild (afterBuild s) p n := by
  obtain ⟨f, l, r, hx, hc⟩ := h
  exact ⟨f, l, r, (afterBuild_stores s).nodeN (buildTree_nodes_le _ _) hx, hc⟩

/-- R124: an internal node's children are the first two of the nodes not yet merged, in order. -/
theorem afterBuild_merges_least {s : State} {n : Nat} {f : Freq} {l r : NodeIdx}
    (hn : n < (afterBuild s).nnodes.toNat) (hx : nodeN (afterBuild s) n = .internal f l r) :
    Precedes s.cfg.tie (afterBuild s) l.toNat r.toNat
      ∧ ∀ x, x < n → x ≠ l.toNat → x ≠ r.toNat → (∀ p, p < n → ¬ IsChild (afterBuild s) p x) →
          Precedes s.cfg.tie (afterBuild s) r.toNat x := by
  obtain ⟨-, hl, hr, -⟩ := (afterBuild_shape_of_lt hn).of_internal hn hx
  obtain ⟨hlr, hrest⟩ :=
    buildTree_greedy s.cfg.tie s.hist n f l r (hx ▸ afterBuild_getElem? hn)
  exact ⟨hlr.precedes (hl.trans hn) (hr.trans hn), fun x hxn hxl hxr hfree =>
    (hrest x hxn hxl hxr fun p hp hc => hfree p hp hc.isChild).precedes (hr.trans hn) (hxn.trans hn)⟩

/-- ROOT is the number of the last node of the tree's list. -/
theorem buildTree_root_of_afterBuild {s : State} {r : NodeIdx} (h : (afterBuild s).root = some r) :
    (buildTree s.cfg.tie s.hist).root = some r.toNat ∧ r.toNat < (afterBuild s).nnodes.toNat := by
  have hk : nonzeroCount s.hist ≠ 0 := fun hk => by
    obtain ⟨-, -, hnone, -⟩ := afterBuild_summary (buildTree_empty s.cfg.tie s.hist hk)
    cases hnone.symm.trans h
  obtain ⟨T, hT⟩ := buildTree_built s.cfg.tie s.hist hk
  obtain ⟨hlast, -⟩ := Built.root_last (s := afterBuild s) hT (afterBuild_stores s)
  have hlen := hT.nodes_length
  obtain rfl : BitVec.ofNat 9 (2 * nonzeroCount s.hist - 2) = r :=
    Option.some.inj ((congrArg (Option.map (BitVec.ofNat 9)) hT.root).symm.trans h)
  rw [afterBuild_hist] at hlast
  rw [hT.root, afterBuild_nnodes]
  exact ⟨congrArg some (by omega), by omega⟩

/-- Settles O16: the list of nodes is greedy and its merges are the queue's, and the node store holds
that list. -/
theorem buildMergesTheTwoLeast : Obligations.BuildMergesTheTwoLeast := by
  intro s
  obtain ⟨Q, hstart, hmerges, hend⟩ := buildTree_queues s.cfg.tie s.hist
  have hnsym := afterBuild_nsym s
  refine ⟨_, exec_build s, fun n f l r => afterBuild_merges_least, Q, ?_, fun n f l r hn hx => ?_,
    fun r hr => ?_⟩
  · rw [hnsym, hstart]
    refine congrArg (queueInit s.cfg.tie) (List.map_congr_left fun i hi => ?_)
    exact nodeEntry_buildTree ((List.mem_range.1 hi).trans_le (nonzeroCount_le_nnodes s))
  · obtain ⟨hk, hl, hr, -⟩ := (afterBuild_shape_of_lt hn).of_internal hn hx
    rw [hnsym] at hk
    rw [← nodeEntry_buildTree hn, ← nodeEntry_buildTree (hl.trans hn), ← nodeEntry_buildTree (hr.trans hn)]
    exact hmerges n f l r hk (hx ▸ afterBuild_getElem? hn)
  · obtain ⟨hroot, hlt⟩ := buildTree_root_of_afterBuild hr
    rw [afterBuild_nnodes, ← nodeEntry_buildTree hlt]
    exact hend r.toNat hroot

end Sys2Proof.Machine
end

section
/-! PROOF. GENCODES: how it ends and what it writes, the codes of a tree of no, one or more symbols, and
that the codes of two symbols or more are complete and none starts another (42_code_table.md R132 to R137). -/

namespace Sys2Proof.Machine

/-! ## How GENCODES ends -/

/-- GENCODES without a valid tree, of a single symbol under REJECT, and with a table to write
(42_code_table.md R132). -/
theorem gencodesBody_outcome (s : State) :
    gencodesBody s = .raised (treeInvalid 0x12#8) s
      ∨ (∃ sym, gencodesBody s = .raised (singleSymbol sym s.total) (invalidateCodes s))
      ∨ gencodesBody s = .ok (setCodes (codeTable s.node s.nnodes.toNat s.root) s) := by
  cases hv : s.treeValid with
  | false => exact .inl (gencodesBody_invalid hv)
  | true =>
    cases hs : singleLeafSym s with
    | none => exact .inr (.inr (gencodesBody_ok hv (.inl hs)))
    | some sym =>
      cases hd : s.latchedDegen with
      | false => exact .inr (.inr (gencodesBody_ok hv (.inr hd)))
      | true => exact .inr (.inl ⟨sym, gencodesBody_reject hv hs hd⟩)

/-- The state GENCODES leaves. -/
def afterGencodes (s : State) : State := complete .gencodes (gencodesBody s)

theorem exec_gencodes (s : State) : exec .gencodes s = .next (afterGencodes s) := rfl

theorem afterGencodes_eq {s : State} {b : BodyResult} (h : gencodesBody s = b) :
    afterGencodes s = complete .gencodes b := congrArg (complete .gencodes) h

/-- Of two states, all but the code table and the completion state is the same. -/
def SameButCodes (s t : State) : Prop :=
  SameControl s t ∧ SameTree s t ∧ SamePayload s t ∧ t.hist = s.hist ∧ t.mem = s.mem
    ∧ t.outLen = s.outLen ∧ t.draws = s.draws

/-- GENCODES writes the code table and the completion state alone (42_code_table.md R137). -/
theorem afterGencodes_sameButCodes (s : State) : SameButCodes s (afterGencodes s) := by
  obtain h | ⟨sym, h⟩ | h := gencodesBody_outcome s <;> rw [afterGencodes_eq h] <;>
    exact ⟨⟨rfl, rfl, rfl, rfl, rfl, rfl, rfl, rfl, rfl, rfl⟩, ⟨rfl, rfl, rfl, rfl, rfl, rfl⟩,
      ⟨rfl, rfl, rfl, rfl⟩, rfl, rfl, rfl, rfl⟩

/-! ## GENCODES is a function of the tree and LATCHED_DEGEN -/

theorem afterGencodes_of_invalid {s : State} (h : s.treeValid = false) :
    afterGencodes s = failedState 6#4 1#8 0#8 0x12#8 0#32 s := by
  rw [afterGencodes_eq (gencodesBody_invalid h)]
  rfl

theorem singleLeafSym_congr {s s' : State} (h : SameTree s s') : singleLeafSym s' = singleLeafSym s := by
  obtain ⟨hnode, -, -, hroot, -⟩ := h
  simp only [singleLeafSym, hnode, hroot]

/-- Equal trees and equal LATCHED_DEGEN give equal code tables (42_code_table.md R137). -/
theorem afterGencodes_sameCodes {s s' : State} (hv : s.treeValid = true) (ht : SameTree s s')
    (hd : s'.latchedDegen = s.latchedDegen) : SameCodes (afterGencodes s) (afterGencodes s') := by
  have hsym := singleLeafSym_congr ht
  obtain ⟨hnode, -, hnnodes, hroot, -, hvalid⟩ := ht
  have hv' := hvalid.trans hv
  by_cases hok : singleLeafSym s = none ∨ s.latchedDegen = false
  · have hok' : singleLeafSym s' = none ∨ s'.latchedDegen = false := by rwa [hsym, hd]
    rw [afterGencodes_eq (gencodesBody_ok hv hok), afterGencodes_eq (gencodesBody_ok hv' hok'),
      hnode, hnnodes, hroot]
    exact ⟨rfl, rfl⟩
  · obtain ⟨hsome, hreject⟩ := not_or.1 hok
    obtain ⟨sym, hs⟩ := Option.ne_none_iff_exists'.1 hsome
    have hreject := eq_true_of_ne_false hreject
    rw [afterGencodes_eq (gencodesBody_reject hv hs hreject),
      afterGencodes_eq (gencodesBody_reject hv' (hsym.trans hs) (hd.trans hreject))]
    exact ⟨rfl, rfl⟩

/-- GENCODES again writes the same table: the first run changes neither the tree nor LATCHED_DEGEN. -/
theorem afterGencodes_again (s : State) :
    SameCodes (afterGencodes s) (afterGencodes (afterGencodes s)) := by
  obtain ⟨hcontrol, htree, -⟩ := afterGencodes_sameButCodes s
  cases hv : s.treeValid with
  | true =>
    obtain ⟨-, -, -, -, hd, -⟩ := hcontrol
    exact afterGencodes_sameCodes hv htree hd
  | false =>
    obtain ⟨-, -, -, -, -, hvalid⟩ := htree
    rw [afterGencodes_of_invalid (hvalid.trans hv)]
    exact ⟨rfl, rfl⟩

/-- Settles O20, from the frame of GENCODES and that equal trees give equal tables. -/
theorem gencodesIsPure : Obligations.GencodesIsPure := by
  refine ⟨fun s hv => ?_, fun s => ?_, fun s s' t t' hv ht hd hexec hexec' => ?_⟩
  · rw [exec_gencodes, afterGencodes_of_invalid hv]
  · obtain ⟨hcontrol, htree, hpayload, hhist, hmem, hout, hdraws⟩ := afterGencodes_sameButCodes s
    exact ⟨_, exec_gencodes s, hcontrol, htree, hpayload, hhist, hmem, hout, hdraws, _, exec_gencodes _,
      afterGencodes_again s⟩
  · cases (exec_gencodes s).symm.trans hexec
    cases (exec_gencodes s').symm.trans hexec'
    exact afterGencodes_sameCodes hv ht hd

/-! ## A tree of one symbol, and the empty tree -/

theorem singleLeafSym_of_leaf {s : State} {r : NodeIdx} {sym : Byte} {f : Freq} (hr : s.root = some r)
    (hx : nodeAt s.node r = .leaf sym f) : singleLeafSym s = some sym := by
  simp only [singleLeafSym, hr, hx]

theorem codeTable_of_leaf {node : Vector Node 511} {r : NodeIdx} {sym : Byte} {f : Freq}
    (hx : nodeAt node r = .leaf sym f) (m : Nat) :
    codeTable node m (some r) = setCode absentTable sym forcedCode := by
  simp only [codeTable, hx]

/-- Settles O18: the two ends of GENCODES over a root that is a leaf. -/
theorem gencodesOfASingleSymbol : Obligations.GencodesOfASingleSymbol := by
  intro s r sym f hv hr hx
  have hframe := afterGencodes_sameButCodes s
  refine ⟨fun hforce => ?_, fun hreject => ?_⟩
  · have hbody := gencodesBody_ok hv (.inr hforce)
    rw [hr, codeTable_of_leaf hx] at hbody
    rw [afterGencodes_eq hbody] at hframe
    obtain ⟨hexec, hok, -⟩ := exec_completedOk (i := .gencodes) hbody
    refine ⟨_, hexec, hok, rfl, ?_, fun v hne => ?_, hframe⟩
    · exact (codeAt_setCode ..).trans (if_pos rfl)
    · exact (codeAt_setCode ..).trans ((if_neg hne).trans (codeAt_absent v))
  · have hbody := gencodesBody_reject hv (singleLeafSym_of_leaf hr hx) hreject
    rw [afterGencodes_eq hbody] at hframe
    rw [exec_gencodes, afterGencodes_eq hbody]
    exact ⟨_, rfl, ⟨rfl, rfl, rfl, rfl, rfl, rfl, rfl⟩, rfl, codeAt_absent, hframe⟩

/-- PACK of an empty input: no bits, whatever the code table (43_bit_packer.md R143). -/
theorem packBody_empty {s : State} (hc : s.codesValid = true) (hin : s.inLen = 0#32) :
    packBody s = .ok (setPayload [] 0#3 (readInput s).2) := by
  have hinput : inputOf s = [] := List.eq_nil_of_length_eq_zero (by rw [inputOf_length, hin]; rfl)
  rw [packBody_run hc (by simp [hin]), hinput]
  rfl

/-- Settles O19: no root means no single symbol and the empty table, and PACK's loop over no bytes ends at
once. -/
theorem emptyTreeAndEmptyInputCode : Obligations.EmptyTreeAndEmptyInputCode := by
  refine ⟨fun s hv hr => ?_, fun s hc hin => ?_⟩
  · have hbody := gencodesBody_ok hv (.inl (by simp only [singleLeafSym, hr]))
    rw [hr] at hbody
    obtain ⟨hexec, hok, -⟩ := exec_completedOk (i := .gencodes) hbody
    refine ⟨_, hexec, hok, rfl, codeAt_absent, fun hin => ?_⟩
    exact ⟨_, exec_of_ok (i := .pack) (packBody_empty rfl hin), rfl⟩
  · obtain ⟨hexec, hok, -⟩ := exec_completedOk (i := .pack) (packBody_empty hc hin)
    exact ⟨_, hexec, hok, rfl, rfl, rfl⟩

/-! ## A tree of two symbols or more -/

/-- GENCODES of a coherent tree of two symbols or more succeeds with the codes of its histogram. -/
theorem gencodesBody_of_coherent {s : State} (h : TreeCoherent s) (hv : s.treeValid = true)
    (hk : 2 ≤ nonzeroCount s.hist) :
    gencodesBody s = .ok (setCodes (histCodes s.cfg.tie s.hist) s) := by
  obtain ⟨-, hnone⟩ := h.singleLeafSym hv
  rw [gencodesBody_ok hv (.inl (hnone (by omega))), h.codeTable hv]

/-- The value of a code has no bits beyond its length (30_encoding.md R106). -/
theorem Code.ofBits_val_lt (p : Bits) (h : p.length ≤ 255) :
    (Code.ofBits p).val.toNat < 2 ^ (Code.ofBits p).len.toNat := by
  have hlen : (Code.ofBits p).len.toNat = p.length := by
    rw [← Code.bits_length, Code.bits_ofBits p h]
  rw [hlen]
  exact (Nat.mod_le ..).trans_lt (bitsNat_lt p)

/-- Of two starts of a bit string the longer starts with the shorter. -/
theorem map_range_prefix (bit : Nat → Bool) {m n : Nat} (h : m ≤ n) :
    (List.range m).map bit <+: (List.range n).map bit :=
  (List.prefix_iff_eq_take.2 (by simp [List.take_range, h])).map bit

section

variable {hist : Vector Word 256} {tie : TiePolicy} {T : BTree}

/-- With two symbols or more no code is forced: the codes are the paths. -/
theorem Built.codes_eq_paths {t : HuffTree} (h : Built hist t T) (hk : 2 ≤ nonzeroCount hist) :
    T.codes = T.paths := by
  cases T with
  | leaf v =>
    have hone := h.syms.length_eq
    rw [nonzeroSyms_length, BTree.syms, List.length_singleton] at hone
    omega
  | node l r => rfl

/-- A present entry holds the path of its symbol. -/
theorem histCodes_path (h : Built hist (buildTree tie hist) T) (hk : 2 ≤ nonzeroCount hist) {v : Byte}
    (hv : histAt hist v ≠ 0#32) : (v, (codeAt (histCodes tie hist) v).bits) ∈ T.paths :=
  h.codes_eq_paths hk ▸ histCodes_mem h hv

/-- A code has a bit at least, fewer than there are symbols, and a value that fits its length. -/
theorem histCodes_bounds (h : Built hist (buildTree tie hist) T) {v : Byte}
    (hv : histAt hist v ≠ 0#32) (hk : 2 ≤ nonzeroCount hist) :
    1 ≤ (codeAt (histCodes tie hist) v).len.toNat
      ∧ (codeAt (histCodes tie hist) v).len.toNat < nonzeroCount hist
      ∧ (codeAt (histCodes tie hist) v).val.toNat < 2 ^ (codeAt (histCodes tie hist) v).len.toNat := by
  obtain ⟨p, hp⟩ := BTree.mem_syms_codes.1 (h.mem_syms.2 hv)
  obtain ⟨-, hlen⟩ := histCodes_bits h hp
  obtain ⟨hpos, hle⟩ := h.code_length hp
  have hdepth := (BTree.path_length (h.codes_eq_paths hk ▸ hp)).trans_lt h.depth_lt.1
  refine ⟨hlen ▸ hpos, hlen ▸ hdepth, ?_⟩
  rw [(histCodes_spec h).1 v p hp]
  exact Code.ofBits_val_lt p hle

/-- No code starts with another (42_code_table.md R133). -/
theorem histCodes_prefix_free (h : Built hist (buildTree tie hist) T) (hk : 2 ≤ nonzeroCount hist)
    {u v : Byte} (hu : HasCode (histCodes tie hist) u) (hv : HasCode (histCodes tie hist) v)
    (hp : (codeAt (histCodes tie hist) u).bits <+: (codeAt (histCodes tie hist) v).bits) : u = v :=
  (BTree.paths_prefix (histCodes_path h hk ((hasCode_iff h u).1 hu))
    (histCodes_path h hk ((hasCode_iff h v).1 hv)) hp).1

/-- The present entries are those of the nonzero counters. -/
theorem filter_histCodes (h : Built hist (buildTree tie hist) T) :
    (allBytes.filter fun v => (codeAt (histCodes tie hist) v).len != 0#8) = nonzeroSyms hist := by
  refine List.filter_congr fun v _ => ?_
  rw [Bool.eq_iff_iff, bne_iff_ne, bne_iff_ne]
  exact hasCode_iff h v

/-- Kraft's equality (42_code_table.md R133): the sum over the present entries is the tree's over its
paths. -/
theorem histCodes_kraft (h : Built hist (buildTree tie hist) T) (hk : 2 ≤ nonzeroCount hist) :
    ((allBytes.filter fun v => (codeAt (histCodes tie hist) v).len != 0#8).map
      fun v => 2 ^ (255 - (codeAt (histCodes tie hist) v).len.toNat)).sum = 2 ^ 255 := by
  have hdepth := h.depth_lt.1.trans_le (nonzeroCount_le hist)
  rw [filter_histCodes h, ← (h.syms.map _).sum_eq, ← T.paths_syms, List.map_map,
    ← T.kraft 255 (by omega)]
  refine congrArg List.sum (List.map_congr_left fun x hx => ?_)
  rw [Function.comp_apply, (histCodes_bits h (h.codes_eq_paths hk ▸ hx)).2]

/-- Every infinite bit string starts with a code (42_code_table.md R133). -/
theorem histCodes_start (h : Built hist (buildTree tie hist) T) (hk : 2 ≤ nonzeroCount hist)
    (bit : Nat → Bool) :
    ∃ v, HasCode (histCodes tie hist) v ∧ (codeAt (histCodes tie hist) v).bits
      = (List.range (codeAt (histCodes tie hist) v).len.toNat).map bit := by
  obtain ⟨v, p, hp, hbit⟩ := T.exists_path bit
  obtain ⟨hbits, hlen⟩ := histCodes_bits h (h.codes_eq_paths hk ▸ hp)
  refine ⟨v, (hasCode_iff h v).2 (h.mem_syms.1 (BTree.mem_syms.2 ⟨p, hp⟩)), ?_⟩
  rw [hbits, hlen]
  exact hbit

/-- Only one code starts a given bit string: the longer of two would start with the shorter. -/
theorem histCodes_start_unique (h : Built hist (buildTree tie hist) T) (hk : 2 ≤ nonzeroCount hist)
    {bit : Nat → Bool} {u v : Byte} (hu : HasCode (histCodes tie hist) u)
    (hv : HasCode (histCodes tie hist) v)
    (hbu : (codeAt (histCodes tie hist) u).bits
      = (List.range (codeAt (histCodes tie hist) u).len.toNat).map bit)
    (hbv : (codeAt (histCodes tie hist) v).bits
      = (List.range (codeAt (histCodes tie hist) v).len.toNat).map bit) : u = v := by
  rcases Nat.le_total (codeAt (histCodes tie hist) u).len.toNat (codeAt (histCodes tie hist) v).len.toNat
    with hle | hle
  · exact histCodes_prefix_free h hk hu hv (by rw [hbu, hbv]; exact map_range_prefix bit hle)
  · exact (histCodes_prefix_free h hk hv hu (by rw [hbu, hbv]; exact map_range_prefix bit hle)).symm

end

/-- Settles O21: GENCODES writes the codes of the histogram's tree, which are the paths that the node store
follows. -/
theorem gencodesWritesPaths : Obligations.GencodesWritesPaths := by
  intro s hv h hk
  obtain ⟨T, r, hT, hr, hrep, -, hnsym, -⟩ := h.rep hv (by omega)
  obtain ⟨hexec, hok, -⟩ := exec_completedOk (i := .gencodes) (gencodesBody_of_coherent h hv hk)
  refine ⟨_, r, hexec, hok, rfl, hr, (histCodes_spec hT).2, fun v hne => ?_⟩
  obtain ⟨hpos, hlt, hval⟩ := histCodes_bounds hT hne hk
  have hpath := histCodes_path hT hk hne
  refine ⟨hpos, hnsym ▸ hlt, hval, follow_path hrep hpath, fun k hlen => ?_⟩
  exact follow_take hrep hpath ((Code.bits_length _).symm ▸ hlen)

/-- Settles O22: that no code starts with another, Kraft's equality and the start of a bit string, each from
the paths of the histogram's tree. -/
theorem codesFormACompletePrefixCode : Obligations.CodesFormACompletePrefixCode := by
  intro s hv h hk
  obtain ⟨T, r, hT, -⟩ := h.rep hv (by omega)
  refine ⟨_, exec_of_ok (i := .gencodes) (gencodesBody_of_coherent h hv hk), rfl, fun v hc => ?_,
    fun u v hu hv' hne hp => hne (histCodes_prefix_free hT hk hu hv' hp), histCodes_kraft hT hk,
    fun bit => ?_⟩
  · exact (histCodes_bounds hT ((hasCode_iff hT v).1 hc) hk).1
  · obtain ⟨v, hc, hbit⟩ := histCodes_start hT hk bit
    exact ⟨v, ⟨hc, hbit⟩, fun u hu hbu => histCodes_start_unique hT hk hu hc hbu hbit⟩

end Sys2Proof.Machine
end

section
/-! PROOF. PACK: the stream of codes and pad bits it writes, and the first error at which it stops
(43_bit_packer.md R139 to R142). -/

namespace Sys2Proof.Machine

/-! ## A packed payload in PBUF -/

theorem pbufCap_le_of_wf {c : Config} (h : c.wf = true) : c.pbufCap ≤ 2 ^ 28 := by
  simp only [Config.wf, Bool.and_eq_true, decide_eq_true_eq] at h
  omega

/-- PAD has room for every pad count. -/
theorem padCount_ofNat_toNat (n : Nat) : (BitVec.ofNat 3 (padCount n)).toNat = padCount n := by
  rw [BitVec.toNat_ofNat, Nat.mod_eq_of_lt (padCount_lt n)]

/-- PLEN has room for every payload that fits PBUF. -/
theorem packBits_ofNat_toNat {bits : Bits} {cap : Nat} (hf : bits.length ≤ 8 * cap)
    (hcap : cap ≤ 2 ^ 28) :
    (BitVec.ofNat 32 (packBits bits).length).toNat = (packBits bits).length := by
  have hlen := ceilDiv8_eq bits.length
  have hpad := padCount_lt bits.length
  rw [packBits_length, BitVec.toNat_ofNat, Nat.mod_eq_of_lt (by omega)]

/-- Bit `j` of a payload in PBUF is bit 7 − (j mod 8) of byte j div 8 (43_bit_packer.md R140). -/
theorem Holds.payload_bit {m : Memory} {bs : List Byte} (h : Holds m 0 bs) {j : Nat} {bit : Bool}
    (hj : (unpackBytes bs)[j]? = some bit) :
    ∃ b, m.get? (j / 8) = some b ∧ b.getLsbD (7 - j % 8) = bit := by
  obtain ⟨hlt, rfl⟩ := List.getElem?_eq_some_iff.1 hj
  have hbyte : j / 8 < bs.length := by rw [unpackBytes_length] at hlt; omega
  exact ⟨bs[j / 8], by simpa using h (j / 8) hbyte, (unpackBytes_getElem bs j hlt).symm⟩

/-- The stream stands first in its packed payload. -/
theorem packBits_stream_bit {bits : Bits} {j : Nat} {bit : Bool} (hj : bits[j]? = some bit) :
    (unpackBytes (packBits bits))[j]? = some bit := by
  obtain ⟨hlt, -⟩ := List.getElem?_eq_some_iff.1 hj
  rw [unpack_packBits, List.getElem?_append_left hlt, hj]

/-- After the stream stand 0 bits, to the end of the last byte. -/
theorem packBits_pad_bit {bits : Bits} {j : Nat} (hge : bits.length ≤ j)
    (hlt : j < 8 * (packBits bits).length) : (unpackBytes (packBits bits))[j]? = some false := by
  have hlen := ceilDiv8_eq bits.length
  rw [packBits_length] at hlt
  rw [unpack_packBits, List.getElem?_append_right hge, List.getElem?_replicate_of_lt (by omega)]

/-- A successful PACK: every input byte has a code, and the payload is the packed codes of the input. -/
theorem exec_pack_ok_cases {s t : State} (h : exec .pack s = .next t) (he : t.err = 0#4) :
    s.codesValid = true ∧ (∀ b ∈ inputOf s, HasCode s.code b)
      ∧ (encodeWith s.code (inputOf s)).length ≤ 8 * s.cfg.pbufCap ∧ t.cfg = s.cfg ∧ SameTree s t
      ∧ t.pbuf = s.pbuf.store 0 (packBits (encodeWith s.code (inputOf s)))
      ∧ t.plen = BitVec.ofNat 32 (packBits (encodeWith s.code (inputOf s))).length
      ∧ t.pad = BitVec.ofNat 3 (padCount (encodeWith s.code (inputOf s)).length)
      ∧ t.payloadValid = true := by
  obtain ⟨b, hbody, rfl⟩ := exec_ok h he
  obtain ⟨hcodes, -, hcode, hroom, rfl⟩ := packBody_ok_cases hbody
  exact ⟨hcodes, hcode, hroom, rfl, ⟨rfl, rfl, rfl, rfl, rfl, rfl⟩, rfl, rfl, rfl, rfl⟩

/-- Settles O23: PACK stores the packed codes of the input, whose bits are the codes and the 0 pad
bits. -/
theorem packWritesTheStream : Obligations.PackWritesTheStream := by
  intro s hw hc hin hp hf
  obtain ⟨hexec, hok, hcontrol⟩ := exec_completedOk (i := .pack) (packBody_ok hc hin hp hf)
  generalize encodeWith s.code (inputOf s) = bits at hexec hok hcontrol hf ⊢
  have hheld := Memory.store_holds s.pbuf 0 (packBits bits)
  have hplen := packBits_ofNat_toNat hf (pbufCap_le_of_wf hw)
  have hpad := padCount_ofNat_toNat bits.length
  refine ⟨_, hexec, hok, rfl, hpad, ?_, ?_, fun j bit hj => ?_, fun j hge hlt => ?_, hcontrol,
    ⟨rfl, rfl, rfl, rfl, rfl, rfl⟩, ⟨rfl, rfl⟩, rfl, rfl, rfl⟩
  · change (BitVec.ofNat 32 (packBits bits).length).toNat * 8
      = bits.length + (BitVec.ofNat 3 (padCount bits.length)).toNat
    rw [hplen, hpad, packBits_length, Nat.mul_comm, ceilDiv8_eq]
  · change BitVec.ofNat 3 (padCount bits.length) = 0#3 ↔ _
    rw [← padCount_zero_iff, ← BitVec.toNat_inj, hpad]
    rfl
  · exact hheld.payload_bit (packBits_stream_bit hj)
  · exact hheld.payload_bit (packBits_pad_bit hge (lt_of_lt_of_eq hlt (congrArg (8 * ·) hplen)))

/-! ## The failures of PACK -/

theorem packBody_codesInvalid {s : State} (h : s.codesValid = false) :
    packBody s = .raised codesInvalid s := by rw [packBody, if_pos h]

theorem packBody_inLenOver {s : State} (hc : s.codesValid = true) (h : s.cfg.inCap < s.inLen.toNat) :
    packBody s = .raised (inLenOver 0x13#8 s) s := by
  rw [packBody, if_neg (by simp [hc]), if_pos h]
  rfl

/-- An error in PACK's loop invalidates the payload, and nothing else is written
(43_bit_packer.md R142). -/
theorem exec_pack_of_loop_error {s : State} {e : Raised}
    (h : packBody s = .raised e (invalidatePayload (readInput s).2)) :
    ∃ t, exec .pack s = .next t ∧ CompletedWith e.err.code e.sub e.sym e.stage e.arg t
      ∧ PayloadCleared t ∧ SameControl s t ∧ SameTree s t ∧ SameCodes s t ∧ t.hist = s.hist
      ∧ t.mem = s.mem ∧ t.outLen = s.outLen :=
  ⟨_, exec_of_raised (i := .pack) h, ⟨rfl, rfl, rfl, rfl, rfl, rfl, rfl⟩, ⟨rfl, rfl, rfl⟩,
    ⟨rfl, rfl, rfl, rfl, rfl, rfl, rfl, rfl, rfl, rfl⟩, ⟨rfl, rfl, rfl, rfl, rfl, rfl⟩, ⟨rfl, rfl⟩, rfl,
    rfl, rfl⟩

/-- Settles O24: the two checks raise in the unchanged state, and the loop stops at the first byte
without a code or without room. -/
theorem packFailsAtTheFirstError : Obligations.PackFailsAtTheFirstError := by
  refine fun s => ⟨fun hc => exec_of_raised (i := .pack) (packBody_codesInvalid hc),
    fun hc hin => exec_of_raised (i := .pack) (packBody_inLenOver hc hin),
    fun i b hc hin hb hpre hfit => ⟨fun habsent => ?_, fun hcode hover => ?_⟩⟩
  · refine exec_pack_of_loop_error (e := absentCode b i) ?_
    rw [packBody_run hc hin, packLoop_absent hb hpre hfit habsent]
  · refine exec_pack_of_loop_error (e := packOver b i) ?_
    rw [packBody_run hc hin, packLoop_over hb hpre hfit hcode hover]

end Sys2Proof.Machine
end

section
/-! PROOF. UNPACK: its checks, the empty tree, what a failed walk leaves and says, and that it decodes
exactly the payloads of codes, those of PACK among them (43_bit_packer.md R146 to R152). -/

namespace Sys2Proof.Machine

/-! ## The checks before the walk, and the empty tree -/

section Checks

variable {s : State}

theorem unpackBody_treeInvalid (ht : s.treeValid = false) :
    unpackBody s = .raised (treeInvalid 0x21#8) s := by
  rw [unpackBody, if_pos ht]
  rfl

theorem unpackBody_payloadInvalid (ht : s.treeValid = true) (hp : s.payloadValid = false) :
    unpackBody s = .raised (payloadInvalid 0x21#8) s := by
  rw [unpackBody, if_neg (by simp [ht]), if_pos hp]
  rfl

theorem unpackBody_outOver (ht : s.treeValid = true) (hp : s.payloadValid = true)
    (h : s.cfg.outCap < s.total.toNat) :
    unpackBody s = .raised (outOver (min s.total.toNat 0xFFFFFFFF) 0x21#8) s := by
  rw [unpackBody, if_neg (by simp [ht]), if_neg (by simp [hp]), if_pos h]
  rfl

end Checks

/-- UNPACK's checks in their order: the first that fails, or that all hold and the tree is empty or has a
root to walk from (43_bit_packer.md R146, R149). -/
theorem unpack_checks (s : State) :
    s.treeValid = false
      ∨ (s.treeValid = true ∧ s.payloadValid = false)
      ∨ (s.treeValid = true ∧ s.payloadValid = true ∧ s.cfg.outCap < s.total.toNat)
      ∨ (s.treeValid = true ∧ s.payloadValid = true ∧ s.total.toNat ≤ s.cfg.outCap
          ∧ (s.root = none ∨ ∃ r, s.root = some r)) := by
  cases s.treeValid with
  | false => exact .inl rfl
  | true =>
    cases s.payloadValid with
    | false => exact .inr (.inl ⟨rfl, rfl⟩)
    | true =>
      rcases Nat.lt_or_ge s.cfg.outCap s.total.toNat with h | h
      · exact .inr (.inr (.inl ⟨rfl, rfl, h⟩))
      · exact .inr (.inr (.inr ⟨rfl, rfl, h, Option.eq_none_or_eq_some _⟩))

/-- Settles O25: each check raises in the unchanged state, and a failed UNPACK clears OUT_LEN. -/
theorem unpackChecksInOrder : Obligations.UnpackChecksInOrder := fun _ =>
  ⟨fun ht => exec_of_raised (i := .unpack) (unpackBody_treeInvalid ht),
    fun ht hp => exec_of_raised (i := .unpack) (unpackBody_payloadInvalid ht hp),
    fun ht hp h => exec_of_raised (i := .unpack) (unpackBody_outOver ht hp h)⟩

/-- Settles O26: with no root PLEN alone decides. -/
theorem unpackOfTheEmptyTree : Obligations.UnpackOfTheEmptyTree := by
  intro s ht hp hfits hr
  have hbody := unpackBody_none ht hp hfits hr
  refine ⟨fun hempty => ?_, fun hne => ?_⟩
  · rw [if_neg (not_not_intro hempty)] at hbody
    exact exec_of_ok (i := .unpack) hbody
  · rw [if_pos hne] at hbody
    exact exec_of_raised (i := .unpack) hbody

/-! ## How UNPACK's walk ends -/

section Walk

variable {s : State} {r : NodeIdx}

/-- The state in which a walk that emitted `out` leaves UNPACK. -/
def afterWalk (s : State) (out : List Byte) : State :=
  { s with draws := (readPayload s).2.draws, mem := s.mem.store outBase out }

theorem unpackBody_walk_error (ht : s.treeValid = true) (hp : s.payloadValid = true)
    (hfits : s.total.toNat ≤ s.cfg.outCap) (hr : s.root = some r) {e : Raised}
    (he : (walk s.node r s.total.toNat (retainedOf s)).error = some e) :
    unpackBody s = .raised e (afterWalk s (walk s.node r s.total.toNat (retainedOf s)).out) := by
  rw [unpackBody_walk ht hp hfits hr]
  simp only [he, afterWalk]

theorem unpackBody_walk_done (ht : s.treeValid = true) (hp : s.payloadValid = true)
    (hfits : s.total.toNat ≤ s.cfg.outCap) (hr : s.root = some r)
    (he : (walk s.node r s.total.toNat (retainedOf s)).error = none) :
    unpackBody s =
      .ok { afterWalk s (walk s.node r s.total.toNat (retainedOf s)).out with
            outLen := BitVec.ofNat 32 (walk s.node r s.total.toNat (retainedOf s)).out.length } := by
  rw [unpackBody_walk ht hp hfits hr]
  simp only [he, afterWalk]

/-- An UNPACK that raises failed before the walk and changed nothing, or its walk raised. -/
theorem unpackBody_raised_cases {e : Raised} {t : State} (h : unpackBody s = .raised e t) :
    (t = s ∧ (s.treeValid = false ∨ s.payloadValid = false ∨ s.cfg.outCap < s.total.toNat
        ∨ s.root = none))
      ∨ ∃ r, s.treeValid = true ∧ s.payloadValid = true ∧ s.total.toNat ≤ s.cfg.outCap
          ∧ s.root = some r ∧ (walk s.node r s.total.toNat (retainedOf s)).error = some e
          ∧ t = afterWalk s (walk s.node r s.total.toNat (retainedOf s)).out := by
  obtain ht | ⟨ht, hp⟩ | ⟨ht, hp, hover⟩ | ⟨ht, hp, hfits, hr | ⟨r, hr⟩⟩ := unpack_checks s
  · cases (unpackBody_treeInvalid ht).symm.trans h
    exact .inl ⟨rfl, .inl ht⟩
  · cases (unpackBody_payloadInvalid ht hp).symm.trans h
    exact .inl ⟨rfl, .inr (.inl hp)⟩
  · cases (unpackBody_outOver ht hp hover).symm.trans h
    exact .inl ⟨rfl, .inr (.inr (.inl hover))⟩
  · have hbody := (unpackBody_none ht hp hfits hr).symm.trans h
    split at hbody
    · cases hbody
      exact .inl ⟨rfl, .inr (.inr (.inr hr))⟩
    · cases hbody
  · cases he : (walk s.node r s.total.toNat (retainedOf s)).error with
    | none => cases (unpackBody_walk_done ht hp hfits hr he).symm.trans h
    | some e' =>
      cases (unpackBody_walk_error ht hp hfits hr he).symm.trans h
      exact .inr ⟨r, ht, hp, hfits, hr, he, rfl⟩

end Walk

/-! ## A failed UNPACK -/

/-- A failed UNPACK is the completion of a body that raised. -/
theorem exec_unpack_failed {s t : State} (h : exec .unpack s = .next t) (he : t.err ≠ 0#4) :
    ∃ e b, unpackBody s = .raised e b ∧ t = complete .unpack (.raised e b) := by
  have ht := exec_next h
  subst ht
  obtain ⟨e, b, hb⟩ := complete_err_ne_zero he
  exact ⟨e, b, hb, congrArg (complete .unpack) hb⟩

/-- Settles O27: a failed UNPACK stopped before the walk, with memory as it was, or in a walk whose
error `TreeCoherent.walk_error_some` explains. -/
theorem unpackFailureKeepsEmittedSymbols : Obligations.UnpackFailureKeepsEmittedSymbols := by
  intro s t hexec herr
  obtain ⟨e, b, hbody, rfl⟩ := exec_unpack_failed hexec herr
  obtain ⟨rfl, hcheck⟩ | ⟨r, ht, hp, hfits, hr, he, rfl⟩ := unpackBody_raised_cases hbody <;>
    refine ⟨rfl, ⟨rfl, rfl, rfl, rfl, rfl, rfl, rfl, rfl, rfl, rfl⟩, ⟨rfl, rfl, rfl, rfl, rfl, rfl⟩,
      ⟨rfl, rfl⟩, ⟨rfl, rfl, rfl, rfl⟩, rfl, fun hstop => ?_, fun r' ht' hp' hfits' hr' => ?_⟩
  · rfl
  · simp [ht', hp', hr', Nat.not_lt.2 hfits'] at hcheck
  · simp [ht, hp, hr, Nat.not_lt.2 hfits] at hstop
  · cases hr.symm.trans hr'
    refine ⟨(walk_length ..).1, Memory.store_holds _ _ _, Memory.store_sameOutside _ _ _,
      fun hcoh hk => ?_⟩
    obtain ⟨n, hraised, hfails⟩ := hcoh.walk_error_some ht hk hr he
    rw [hraised]
    exact ⟨rfl, rfl, n, rfl, hfails⟩

/-! ## UNPACK reads the retained bits alone -/

/-- What UNPACK reads is the same in two states: the capacity, the tree, whether there is a payload, its
length and retained bits; and so is the memory it writes to. -/
def SameUnpackInput (s s' : State) : Prop :=
  s'.cfg = s.cfg ∧ SameTree s s' ∧ s'.mem = s.mem ∧ s'.payloadValid = s.payloadValid
    ∧ s'.plen = s.plen ∧ retainedOf s' = retainedOf s

/-- From equal inputs UNPACK raises the same error or ends with the same OUT_LEN, over equal memory
(43_bit_packer.md R151). -/
theorem SameUnpackInput.same_end {s s' : State} (h : SameUnpackInput s s') :
    (∃ e b b', unpackBody s = .raised e b ∧ unpackBody s' = .raised e b' ∧ b'.mem = b.mem)
      ∨ ∃ b b', unpackBody s = .ok b ∧ unpackBody s' = .ok b' ∧ b'.mem = b.mem
          ∧ b'.outLen = b.outLen := by
  obtain ⟨hcfg, ⟨hnode, -, -, hroot, htotal, htree⟩, hmem, hvalid, hplen, hret⟩ := h
  obtain ht | ⟨ht, hp⟩ | ⟨ht, hp, hover⟩ | ⟨ht, hp, hfits, hr⟩ := unpack_checks s
  · exact .inl ⟨_, _, _, unpackBody_treeInvalid ht, unpackBody_treeInvalid (htree.trans ht), hmem⟩
  · exact .inl ⟨_, _, _, unpackBody_payloadInvalid ht hp,
      unpackBody_payloadInvalid (htree.trans ht) (hvalid.trans hp), hmem⟩
  · have hbody' := unpackBody_outOver (htree.trans ht) (hvalid.trans hp) (by rwa [hcfg, htotal])
    rw [htotal] at hbody'
    exact .inl ⟨_, _, _, unpackBody_outOver ht hp hover, hbody', hmem⟩
  · have ht' := htree.trans ht
    have hp' := hvalid.trans hp
    have hfits' : s'.total.toNat ≤ s'.cfg.outCap := by rwa [hcfg, htotal]
    obtain hr | ⟨r, hr⟩ := hr
    · have hbody := unpackBody_none ht hp hfits hr
      have hbody' := unpackBody_none ht' hp' hfits' (hroot.trans hr)
      rw [hplen] at hbody'
      by_cases hempty : s.plen = 0#32
      · rw [if_neg (not_not_intro hempty)] at hbody hbody'
        exact .inr ⟨_, _, hbody, hbody', hmem, rfl⟩
      · rw [if_pos hempty] at hbody hbody'
        exact .inl ⟨_, _, _, hbody, hbody', hmem⟩
    · have hr' := hroot.trans hr
      have hwalk : walk s'.node r s'.total.toNat (retainedOf s')
          = walk s.node r s.total.toNat (retainedOf s) := by rw [hnode, htotal, hret]
      have hstore (out : List Byte) : (afterWalk s' out).mem = (afterWalk s out).mem :=
        congrArg (Memory.store · outBase out) hmem
      cases he : (walk s.node r s.total.toNat (retainedOf s)).error with
      | none =>
        have hbody' := unpackBody_walk_done ht' hp' hfits' hr' (by rw [hwalk, he])
        rw [hwalk] at hbody'
        exact .inr ⟨_, _, unpackBody_walk_done ht hp hfits hr he, hbody', hstore _, rfl⟩
      | some e =>
        have hbody' := unpackBody_walk_error ht' hp' hfits' hr' (by rw [hwalk, he])
        rw [hwalk] at hbody'
        exact .inl ⟨_, _, _, unpackBody_walk_error ht hp hfits hr he, hbody', hstore _⟩

/-- OUT_LEN has room for every length up to OUT_CAP. -/
theorem outLen_ofNat_toNat {c : Config} (hw : c.wf = true) {n : Nat} (h : n ≤ c.outCap) :
    (BitVec.ofNat 32 n).toNat = n := by
  obtain ⟨-, hcap⟩ := caps_le_of_wf hw
  rw [BitVec.toNat_ofNat, Nat.mod_eq_of_lt (by omega)]

/-- A successful UNPACK met the empty tree, or has walked without an error. -/
theorem exec_unpack_ok_cases {s t : State} (h : exec .unpack s = .next t) (he : t.err = 0#4) :
    s.treeValid = true ∧ s.total.toNat ≤ s.cfg.outCap
      ∧ (s.root = none
        ∨ ∃ r, s.root = some r ∧ (walk s.node r s.total.toNat (retainedOf s)).error = none
          ∧ t.mem = s.mem.store outBase (walk s.node r s.total.toNat (retainedOf s)).out
          ∧ t.outLen = BitVec.ofNat 32 (walk s.node r s.total.toNat (retainedOf s)).out.length) := by
  obtain ⟨b, hbody, rfl⟩ := exec_ok h he
  obtain ⟨ht, -, hfits, ⟨hr, -⟩ | ⟨r, hr, hw, rfl⟩⟩ := unpackBody_cases hbody
  · exact ⟨ht, hfits, .inl hr⟩
  · exact ⟨ht, hfits, .inr ⟨r, hr, hw, rfl, rfl⟩⟩

/-- Settles O28: equal retained bits give equal ends, and a walk without an error emits TOTAL
symbols. -/
theorem unpackReadsRetainedBitsOnly : Obligations.UnpackReadsRetainedBitsOnly := by
  intro s s' t t' hw hcfg htree hmem hvalid hplen hret hexec hexec'
  have hcount (he : t.err = 0#4) (hroot : s.root ≠ none) : t.outLen.toNat = s.total.toNat := by
    obtain ⟨-, hfits, hr | ⟨r, -, hwalk, -, hout⟩⟩ := exec_unpack_ok_cases hexec he
    · exact absurd hr hroot
    · rw [hout, (walk_length ..).2 hwalk, outLen_ofNat_toNat hw hfits]
  cases exec_next hexec
  cases exec_next hexec'
  obtain ⟨e, b, b', hb, hb', hm⟩ | ⟨b, b', hb, hb', hm, hl⟩ :=
    SameUnpackInput.same_end ⟨hcfg, htree, hmem, hvalid, hplen, hret⟩ <;>
    simp only [bodyOf, hb, hb'] at hcount ⊢
  · exact ⟨rfl, rfl, hm, fun _ => ⟨rfl, rfl, rfl, rfl⟩, hcount⟩
  · exact ⟨rfl, hl, hm, fun h => absurd rfl h, hcount⟩

/-! ## UNPACK decodes payloads of codes, and only those -/

/-- UNPACK in `u` of the codes of TOTAL symbols of its tree, which is the coherent tree of `s`, runs to
its end with those symbols. -/
theorem unpackBody_of_codes {s u : State} {d : List Byte} (hcoh : TreeCoherent s)
    (ht : s.treeValid = true) (hk : nonzeroCount s.hist ≠ 0) (htree : SameTree s u)
    (hp : u.payloadValid = true) (hlen : d.length = histSum s.hist) (hfits : d.length ≤ u.cfg.outCap)
    (hd : ∀ b, b ∈ d → histAt s.hist b ≠ 0#32)
    (hret : retainedOf u = encodeWith (histCodes s.cfg.tie s.hist) d) :
    unpackBody u = .ok { afterWalk u d with outLen := BitVec.ofNat 32 d.length } := by
  obtain ⟨hnode, -, -, hroot, htotal, hvalid⟩ := htree
  obtain ⟨r, hr, hcount, hwalk⟩ := hcoh.walk_encodeWith ht hk hlen hd
  rw [← hret, ← hnode, ← htotal] at hwalk
  rw [← htotal] at hcount
  rw [unpackBody_walk_done (hvalid.trans ht) hp (hcount.trans_le hfits) (hroot.trans hr) (by rw [hwalk]),
    hwalk]

/-- Settles O29: the walk takes the codes apart. -/
theorem unpackDecodesCodedPayloads : Obligations.UnpackDecodesCodedPayloads := by
  intro s d hw ht hp hcoh hk hlen hfits hd hret
  have htree : SameTree s s := ⟨rfl, rfl, rfl, rfl, rfl, rfl⟩
  obtain ⟨hexec, hok, hcontrol⟩ := exec_completedOk (i := .unpack)
    (unpackBody_of_codes hcoh ht hk htree hp hlen hfits hd hret)
  exact ⟨_, hexec, hok, outLen_ofNat_toNat hw hfits, Memory.store_holds _ _ _,
    Memory.store_sameOutside _ _ _, hcontrol, htree, ⟨rfl, rfl⟩, ⟨rfl, rfl, rfl, rfl⟩, rfl⟩

/-- Settles O30: the output is what the walk emitted, and a walk without an error has read exactly its
codes. -/
theorem unpackSucceedsOnlyOnCodedPayloads : Obligations.UnpackSucceedsOnlyOnCodedPayloads := by
  intro s t hw hcoh hk hexec herr
  obtain ⟨ht, hfits, hr | ⟨r, hr, hwalk, hmem, hout⟩⟩ := exec_unpack_ok_cases hexec herr
  · obtain ⟨r, hr', -⟩ := hcoh.root_some ht hk
    cases hr.symm.trans hr'
  · obtain ⟨hlen, hsyms, hbits⟩ := hcoh.walk_error_none ht hk hr hwalk
    have hshort := (walk_length s.node r s.total.toNat (retainedOf s)).1
    rw [hmem, hout]
    exact ⟨_, outLen_ofNat_toNat hw (hshort.trans hfits), hlen, Memory.store_holds _ _ _,
      Memory.store_sameOutside _ _ _, hsyms, hbits⟩

/-! ## UNPACK inverts PACK -/

/-- A state whose payload is packed bits, as PACK leaves it, retains those bits. -/
theorem retainedOf_packed {u : State} {m : Memory} {bits : Bits} {cap : Nat}
    (hf : bits.length ≤ 8 * cap) (hcap : cap ≤ 2 ^ 28) (hpbuf : u.pbuf = m.store 0 (packBits bits))
    (hplen : u.plen = BitVec.ofNat 32 (packBits bits).length)
    (hpad : u.pad = BitVec.ofNat 3 (padCount bits.length)) : retainedOf u = bits := by
  have hheld : Holds u.pbuf 0 (packBits bits) := hpbuf ▸ Memory.store_holds m 0 (packBits bits)
  have hlen : (packBits bits).length = u.plen.toNat := by rw [hplen, packBits_ofNat_toNat hf hcap]
  rw [retainedOf, payloadOf_of_holds hheld hlen, hpad, retained_packBits]

theorem SameTree.trans {s t u : State} (h : SameTree s t) (k : SameTree t u) : SameTree s u := by
  obtain ⟨h1, h2, h3, h4, h5, h6⟩ := h
  obtain ⟨k1, k2, k3, k4, k5, k6⟩ := k
  exact ⟨k1.trans h1, k2.trans h2, k3.trans h3, k4.trans h4, k5.trans h5, k6.trans h6⟩

/-- UNPACK of an empty payload in `u`, whose tree is that of `s` and empty. -/
theorem unpackBody_of_empty {s u : State} (hr : s.root = none) (ht : s.treeValid = true)
    (htree : SameTree s u) (hp : u.payloadValid = true) (hfits : s.total.toNat ≤ u.cfg.outCap)
    (hplen : u.plen = 0#32) : unpackBody u = .ok { u with outLen := 0#32 } := by
  obtain ⟨-, -, -, hroot, htotal, hvalid⟩ := htree
  rw [unpackBody_none (hvalid.trans ht) hp (by rwa [htotal]) (hroot.trans hr),
    if_neg (not_not_intro hplen)]

/-- Settles O31: a successful PACK leaves the codes of its input in the present tree as the retained
bits, and the walk takes them apart; with the empty tree, TOTAL = IN_LEN leaves an input of no bytes. -/
theorem unpackInvertsPack : Obligations.UnpackInvertsPack := by
  intro s t u hinv hexec herr htotal hfits hcfg htree ⟨hpbuf, hplen, hpad, hvalid⟩
  obtain ⟨hcodes, hcode, hroom, htcfg, httree, htpbuf, htplen, htpad, htvalid⟩ :=
    exec_pack_ok_cases hexec herr
  have ht := hinv.codesTree hcodes
  have hp := hvalid.trans htvalid
  have hsame := httree.trans htree
  have hcap : s.total.toNat ≤ u.cfg.outCap := by rwa [hcfg, htcfg]
  have hlen : (inputOf s).length = s.total.toNat := (inputOf_length s).trans htotal.symm
  by_cases hk : nonzeroCount s.hist = 0
  · obtain ⟨hnone, hzero⟩ := hinv.tree.root_none ht hk
    have hin : inputOf s = [] := List.eq_nil_of_length_eq_zero (by rw [hlen, hzero]; rfl)
    have hempty : u.plen = 0#32 := by rw [hplen, htplen, hin, encodeWith_nil]; rfl
    refine ⟨_, exec_of_ok (i := .unpack) (unpackBody_of_empty hnone ht hsame hp hcap hempty), rfl, ?_, ?_⟩
    · exact BitVec.eq_of_toNat_eq (by rw [← htotal, hzero]; rfl)
    · rw [hin]
      exact fun k hk => absurd hk (Nat.not_lt_zero k)
  · obtain ⟨T, hT⟩ := buildTree_built s.cfg.tie s.hist hk
    have hret := retainedOf_packed hroom (pbufCap_le_of_wf hinv.cfg) (hpbuf.trans htpbuf)
      (hplen.trans htplen) (hpad.trans htpad)
    rw [hinv.codes hcodes, hinv.tree.codeTable ht] at hcode hret
    have hbody := unpackBody_of_codes hinv.tree ht hk hsame hp (hlen.trans (hinv.tree.total ht))
      (hlen.trans_le hcap) (fun b hb => (hasCode_iff hT b).1 (hcode b hb)) hret
    refine ⟨_, exec_of_ok (i := .unpack) hbody, rfl, ?_, Memory.store_holds _ _ _⟩
    exact (congrArg (BitVec.ofNat 32) (inputOf_length s)).trans (BitVec.ofNat_toNat ..)

end Sys2Proof.Machine
end

section
/-! PROOF. The container framer: the container SERIALIZE writes, the checks of DESERIALIZE and the parts
it reads, and that the one undoes the other (44_container_framer.md R153 to R158). -/

namespace Sys2Proof.Machine

/-! ## SERIALIZE -/

section

variable {s : State}

theorem serializeBody_payloadInvalid (h : s.payloadValid = false) :
    serializeBody s = .raised (payloadInvalid 0x14#8) { s with outLen := 0#32 } := by
  rw [serializeBody, if_pos h]
  rfl

theorem serializeBody_outOver (hv : s.payloadValid = true) (h : s.cfg.outCap < 1025 + s.plen.toNat) :
    serializeBody s =
      .raised (outOver (1025 + s.plen.toNat) 0x14#8) { s with outLen := 0#32 } := by
  rw [serializeBody, if_neg (by simp [hv]), if_pos h]
  rfl

end

/-- The container SERIALIZE frames has the length it announces. -/
theorem containerBytes_payloadOf_length (s : State) :
    (containerBytes s.hist (payloadOf s) s.pad).length = 1025 + s.plen.toNat := by
  rw [containerBytes_length, payloadOf_length]

theorem Holds.get?_eq_some {m : Memory} {a k : Nat} {bs : List Byte} {b : Byte} (h : Holds m a bs)
    (hk : bs[k]? = some b) : m.get? (a + k) = some b := by
  obtain ⟨hlt, rfl⟩ := List.getElem?_eq_some_iff.1 hk
  exact h k hlt

/-- Bytes held in memory, read one by one. -/
theorem Holds.get?_eq_getElem? {m : Memory} {a k : Nat} {bs : List Byte} (h : Holds m a bs)
    (hk : k < bs.length) : m.get? (a + k) = bs[k]? :=
  (h k hk).trans (List.getElem?_eq_getElem hk).symm

/-- Where the parts of a container stand in memory (30_encoding.md R99, R102). -/
theorem Holds.container_parts {m : Memory} {a : Nat} {hist : Vector Word 256} {p : List Byte}
    {q : BitVec 3} (h : Holds m a (containerBytes hist p q)) :
    (∀ (v : Byte) k, k < 4 → m.get? (a + 4 * v.toNat + k)
        = some ((histAt hist v).extractLsb' (8 * k) 8))
      ∧ (∀ i, i < p.length → m.get? (a + 1024 + i) = p[i]?)
      ∧ m.get? (a + 1024 + p.length) = some (q.setWidth 8) := by
  simp only [Nat.add_assoc]
  refine ⟨fun v k hk => h.get?_eq_some (containerBytes_hist hist p q v hk), fun i hi => ?_,
    h.get?_eq_some (containerBytes_pad hist p q)⟩
  rw [h.get?_eq_getElem? (by rw [containerBytes_length]; omega), containerBytes_payload hist p q hi]

/-- Settles O32: each check raises with OUT_LEN cleared alone, and a success stores the container, whose
parts stand where `Holds.container_parts` says. -/
theorem serializeWritesTheContainer : Obligations.SerializeWritesTheContainer := by
  refine fun s hw => ⟨fun hv => exec_of_raised (i := .serialize) (serializeBody_payloadInvalid hv),
    fun hv h => exec_of_raised (i := .serialize) (serializeBody_outOver hv h), fun hv hfits => ?_⟩
  obtain ⟨hexec, hok, hcontrol⟩ := exec_completedOk (i := .serialize) (serializeBody_ok hv hfits)
  have hlen := payloadOf_length s
  obtain ⟨hhist, hpayload, hpad⟩ :=
    (Memory.store_holds s.mem outBase (containerBytes s.hist (payloadOf s) s.pad)).container_parts
  have hframe := Memory.store_sameOutside s.mem outBase (containerBytes s.hist (payloadOf s) s.pad)
  rw [containerBytes_payloadOf_length] at hframe
  rw [hlen] at hpayload hpad
  exact ⟨_, hexec, hok, outLen_ofNat_toNat hw hfits, hhist, hpayload, hpad, hframe, hcontrol,
    ⟨rfl, rfl, rfl, rfl, rfl, rfl⟩, ⟨rfl, rfl⟩, ⟨rfl, rfl, rfl, rfl⟩, rfl⟩

/-! ## The checks of DESERIALIZE -/

section

variable {s : State}

theorem deserializeBody_inLenOver (h : s.cfg.inCap < s.inLen.toNat) :
    deserializeBody s = .raised (inLenOver 0x20#8 s) s := if_pos h

theorem deserializeBody_short (h : s.inLen.toNat ≤ s.cfg.inCap) (hshort : s.inLen.toNat < 1025) :
    deserializeBody s = .raised (framingError 1#8 0#8 s.inLen.toNat) s :=
  (if_neg (Nat.not_lt.2 h)).trans (if_pos hshort)

/-- DESERIALIZE once the container is read: the checks of its pad byte and of its payload's length. -/
theorem deserializeBody_read (h : s.inLen.toNat ≤ s.cfg.inCap) (hlong : 1025 ≤ s.inLen.toNat) :
    deserializeBody s =
      if 7 < (parsePad (inputOf s)).toNat then
        .raised (framingError 2#8 (parsePad (inputOf s)) (s.inLen.toNat - 1)) (readInput s).2
      else if 8 * (s.inLen.toNat - 1025) < (parsePad (inputOf s)).toNat then
        .raised (framingError 3#8 (parsePad (inputOf s)) (s.inLen.toNat - 1025)) (readInput s).2
      else if s.cfg.pbufCap < s.inLen.toNat - 1025 then
        .raised (framingOver (s.inLen.toNat - 1025)) (readInput s).2
      else .ok (parsed s (inputOf s) (readInput s).2.draws) :=
  (if_neg (Nat.not_lt.2 h)).trans (if_neg (Nat.not_lt.2 hlong))

theorem exec_deserialize_short (h : s.inLen.toNat ≤ s.cfg.inCap) (hshort : s.inLen.toNat < 1025) :
    exec .deserialize s = .next (failedState 1#4 1#8 0#8 0x20#8 s.inLen s) := by
  have hexec := exec_of_raised (i := .deserialize) (deserializeBody_short h hshort)
  rwa [framingError, BitVec.ofNat_toNat, BitVec.setWidth_eq] at hexec

/-- A position in the container, counted from its end, as a word. -/
theorem ofNat_inLen_sub {n : Nat} (hn : n ≤ 1025) (h : 1025 ≤ s.inLen.toNat) :
    BitVec.ofNat 32 (s.inLen.toNat - n) = s.inLen - BitVec.ofNat 32 n := by
  rw [← BitVec.ofNat_sub_ofNat_of_le _ _ (by omega) (hn.trans h), BitVec.ofNat_toNat, BitVec.setWidth_eq]

/-- A check that fails once the container is read changes nothing but the completion state and the count
of draws. -/
theorem exec_deserialize_refused {e : Raised} (h : deserializeBody s = .raised e (readInput s).2) :
    exec .deserialize s = .next
      { failedState e.err.code e.sub e.sym e.stage e.arg s with
        draws := s.draws + unwrittenIn s.mem inBase s.inLen.toNat } := by
  rw [exec_of_raised (i := .deserialize) h, ← readInput_drawn]
  rfl

end

/-! ## The parts DESERIALIZE reads -/

/-- The parts of a container that DESERIALIZE leaves in the registers and in PBUF (30_encoding.md
R103). -/
theorem parsed_parts (s : State) {B : List Byte} (n : Nat) (hlt : B.length < 2 ^ 32)
    (hlong : 1025 ≤ B.length) (hpad : (parsePad B).toNat ≤ 7) :
    (∀ (v : Byte) k, k < 4 →
        B[4 * v.toNat + k]? = some ((histAt (parsed s B n).hist v).extractLsb' (8 * k) 8))
      ∧ (parsed s B n).plen.toNat = B.length - 1025
      ∧ (∀ i, i < B.length - 1025 → (parsed s B n).pbuf.get? i = B[1024 + i]?)
      ∧ (parsed s B n).pad.toNat = (parsePad B).toNat := by
  have hheld : Holds (parsed s B n).pbuf 0 (parsePayload B) := Memory.store_holds s.pbuf 0 _
  refine ⟨fun v k hk => parseHist_byte (by omega) v hk, (retainedOf_parsed s B n hlt).1,
    fun i hi => ?_, ?_⟩
  · rw [← parsePayload_getElem? B hi, ← hheld.get?_eq_getElem? (by rwa [parsePayload_length]),
      Nat.zero_add]
  · change ((parsePad B).setWidth 3).toNat = _
    rw [BitVec.toNat_setWidth, Nat.mod_eq_of_lt (by omega)]

/-- Settles O33: the first two checks raise in the unchanged state, the other three once the container is
read, and a success leaves the parts that `parsed_parts` names. -/
theorem deserializeParsesTheContainer : Obligations.DeserializeParsesTheContainer := by
  refine fun s => ⟨fun h => exec_of_raised (i := .deserialize) (deserializeBody_inLenOver h),
    exec_deserialize_short, fun p hin hlong hp => ?_⟩
  obtain rfl := parsePad_of_getLast? hp
  have hread := deserializeBody_read hin hlong
  refine ⟨fun hrange => ?_, fun hrange hexceeds => ?_, fun hrange hexceeds hover => ?_,
    fun hrange hexceeds hfits => ?_⟩
  · rw [if_pos hrange] at hread
    rw [exec_deserialize_refused hread, framingError, ofNat_inLen_sub (by omega) hlong]
    rfl
  · rw [if_neg (Nat.not_lt.2 hrange), if_pos hexceeds] at hread
    rw [exec_deserialize_refused hread, framingError, ofNat_inLen_sub le_rfl hlong]
    rfl
  · rw [if_neg (Nat.not_lt.2 hrange), if_neg (Nat.not_lt.2 hexceeds), if_pos hover] at hread
    rw [exec_deserialize_refused hread, framingOver, ofNat_inLen_sub le_rfl hlong]
    rfl
  · obtain ⟨hexec, hok, hcontrol⟩ := exec_completedOk (i := .deserialize)
      (deserializeBody_ok hin hlong hrange hexceeds hfits)
    obtain ⟨hhist, hplen, hpbuf, hpad⟩ := parsed_parts s (readInput s).2.draws (inputOf_length_lt s)
      (hlong.trans_eq (inputOf_length s).symm) hrange
    rw [← hplen] at hpbuf
    rw [inputOf_length] at hplen
    exact ⟨_, hexec, hok, hhist, hplen, hpbuf, hpad, rfl,
      (invalidateTree_treeCleared _).complete_ok .deserialize, hcontrol, rfl, rfl, rfl,
      readInput_drawn s⟩

/-- Settles O34: IN_CAP is at least 1025, so of the first two checks the second fails, before the container
is read, and DECOMPRESS stops with it. -/
theorem shortContainersAreRefused : Obligations.ShortContainersAreRefused := by
  intro s hw hshort
  have hin : s.inLen.toNat ≤ s.cfg.inCap := by
    simp only [Config.wf, Bool.and_eq_true, decide_eq_true_eq] at hw
    omega
  have hbody := decompressBody_of_raised (deserializeBody_short hin hshort)
  have hexec := exec_of_raised (i := .decompress) hbody
  rw [framingError, BitVec.ofNat_toNat, BitVec.setWidth_eq] at hexec
  exact ⟨exec_deserialize_short hin hshort, hexec⟩

/-! ## The round trip -/

/-- A successful SERIALIZE: there was a payload, and its container stands in OUT_BUF. -/
theorem exec_serialize_ok_cases {s t : State} (hw : s.cfg.wf = true) (h : exec .serialize s = .next t)
    (he : t.err = 0#4) :
    s.payloadValid = true ∧ t.outLen.toNat = 1025 + s.plen.toNat
      ∧ Holds t.mem outBase (containerBytes s.hist (payloadOf s) s.pad) := by
  obtain ⟨b, hbody, rfl⟩ := exec_ok h he
  obtain ⟨hv, hfits, rfl⟩ := serializeBody_cases hbody
  exact ⟨hv, outLen_ofNat_toNat hw hfits, Memory.store_holds _ _ _⟩

/-- DESERIALIZE of the container of a histogram, a payload and a pad count that fit: their framing is
undone. -/
theorem deserializeBody_containerBytes {u : State} {hist : Vector Word 256} {p : List Byte}
    {q : BitVec 3} (hB : inputOf u = containerBytes hist p q) (hin : u.inLen.toNat ≤ u.cfg.inCap)
    (hpad : q.toNat ≤ 8 * p.length) (hfits : p.length ≤ u.cfg.pbufCap) :
    deserializeBody u =
      .ok (invalidateTree (setPayload p q { u with draws := (readInput u).2.draws, hist := hist })) := by
  have hlen : u.inLen.toNat = 1025 + p.length := by
    rw [← inputOf_length, hB, containerBytes_length]
  have hq : (parsePad (inputOf u)).toNat = q.toNat := by
    rw [hB, parsePad_containerBytes, (setWidth_pad q).2]
  have hrange := q.isLt
  rw [deserializeBody_ok hin (by omega) (by omega) (by omega) (by omega), hB,
    parsePayload_containerBytes, parsePad_containerBytes, parseHist_containerBytes, (setWidth_pad q).1]

/-- Settles O35: the copy makes the container DESERIALIZE's input, and the invariant gives the bounds its
checks ask for. -/
theorem framingRoundTrip : Obligations.FramingRoundTrip := by
  intro s t u hinv hexec herr hcfg hlen hcap hcopy
  obtain ⟨hv, hout, hheld⟩ := exec_serialize_ok_cases hinv.cfg hexec herr
  obtain ⟨hpad, hfits⟩ := hinv.payloadFits hv
  have hBlen := containerBytes_payloadOf_length s
  have hinput : inputOf u = containerBytes s.hist (payloadOf s) s.pad := by
    refine inputOf_of_holds (fun k hk => ?_) (by rw [hBlen, hlen, hout])
    rw [hcopy k (by omega), hheld k hk]
  have hplen := payloadOf_length s
  have hbody := deserializeBody_containerBytes hinput (by rwa [hlen]) (by rwa [hplen])
    (by rwa [hplen, hcfg])
  refine ⟨_, exec_of_ok (i := .deserialize) hbody, rfl, rfl, ?_, rfl, fun i hi => ?_⟩
  · change BitVec.ofNat 32 (payloadOf s).length = s.plen
    rw [hplen, BitVec.ofNat_toNat, BitVec.setWidth_eq]
  · have hpbuf : Holds s.pbuf 0 (payloadOf s) :=
      (Memory.read_of_written (hinv.payloadWritten hv) s.draws).2
    have hnew : Holds (u.pbuf.store 0 (payloadOf s)) 0 (payloadOf s) := Memory.store_holds _ _ _
    have hk : i < (payloadOf s).length := by rwa [hplen]
    have := (hnew i hk).trans (hpbuf i hk).symm
    rwa [Nat.zero_add] at this

end Sys2Proof.Machine
end

section
/-! PROOF. NOP and CLEAR (45_pipeline_and_control.md R163, R164). -/

namespace Sys2Proof.Machine

/-- Settles O6: the body of NOP ends in the state it starts in. -/
theorem nopOnlyCompletes : Obligations.NopOnlyCompletes := fun s =>
  ⟨_, exec_of_ok (i := .nop) (b := s) rfl, rfl, Bool.and_true s.ie⟩

theorem histAt_zero (v : Byte) : histAt (Vector.replicate 256 0#32) v = 0#32 := by
  rw [histAt, Vector.getElem_replicate]

/-- The state in which the body of CLEAR ends. -/
def cleared (s : State) : State :=
  { invalidatePayload (invalidateTree { s with hist := Vector.replicate 256 0#32 }) with
    outLen := 0#32 }

/-- Settles O7: the body of CLEAR writes zero counters and OUT_LEN and runs the two invalidations. -/
theorem clearResetsDatapath : Obligations.ClearResetsDatapath := by
  intro s
  obtain ⟨hexec, hok, hcontrol⟩ := exec_completedOk (i := .clear) (s := s) (b := cleared s) rfl
  have htree : TreeCleared (cleared s) :=
    invalidateTree_treeCleared { s with hist := Vector.replicate 256 0#32 }
  exact ⟨_, hexec, hok, histAt_zero, htree.complete_ok .clear, ⟨rfl, rfl, rfl⟩, rfl, hcontrol, rfl,
    rfl⟩

end Sys2Proof.Machine
end

section
/-! PROOF. COMPRESS of a written input: its container when the capacities suffice, and its failures
(45_pipeline_and_control.md R161, R166). -/

namespace Sys2Proof.Machine

/-! ## A result in OUT_BUF -/

/-- The state `b` with the bytes `bs` put out. -/
def withResult (bs : List Byte) (b : State) : State :=
  { b with mem := b.mem.store outBase bs, outLen := BitVec.ofNat 32 bs.length }

theorem withResult_mem (bs : List Byte) (b : State) :
    Holds (withResult bs b).mem outBase bs ∧ SameOutside outBase bs.length b.mem (withResult bs b).mem :=
  ⟨Memory.store_holds _ _ _, Memory.store_sameOutside _ _ _⟩

/-! ## The inputs of one byte value -/

section

variable {s : State} {d : List Byte}

/-- A sequence as long as IN_LEN says has fewer bytes than a counter can count. -/
theorem length_lt_of_eq_inLen (hl : d.length = s.inLen.toNat) : d.length < 2 ^ 32 :=
  hl.trans_lt s.inLen.isLt

/-- A sequence whose histogram has one nonzero entry repeats one byte. -/
theorem eq_of_nonzeroCount_one (hl : d.length < 2 ^ 32) (hk : nonzeroCount (countBytes d) = 1)
    {u v : Byte} (hu : u ∈ d) (hv : v ∈ d) : u = v := by
  rw [← nonzeroSyms_length] at hk
  obtain ⟨x, hx⟩ := List.length_eq_one_iff.1 hk
  have hmem (w : Byte) (hw : w ∈ d) : w = x := by
    have : w ∈ nonzeroSyms (countBytes d) :=
      mem_nonzeroSyms.2 fun h0 => (countBytes_eq_zero hl w).1 h0 hw
    simpa [hx] using this
  rw [hmem u hu, hmem v hv]

theorem mem_of_nonzeroCount_one (hk : nonzeroCount (countBytes d) = 1) : ∃ b, b ∈ d := by
  refine List.exists_mem_of_ne_nil d fun hnil => ?_
  subst hnil
  rw [nonzeroCount_eq_zero.2 ((nonzeroCount_countBytes_eq_zero (by simp)).2 rfl)] at hk
  cases hk

/-- TOTAL after BUILD of the counters of the input is IN_LEN. -/
theorem built_counted_total (hl : d.length = s.inLen.toNat) :
    (built (counted s d)).total.setWidth 32 = s.inLen := by
  have htotal := (built_coherent (counted s d)).total rfl
  rw [built_hist, counted_hist, histSum_countBytes (length_lt_of_eq_inLen hl), hl] at htotal
  apply BitVec.eq_of_toNat_eq
  rw [BitVec.toNat_setWidth, htotal, Nat.mod_eq_of_lt s.inLen.isLt]

end

/-! ## How COMPRESS ends -/

/-- What GENCODES raises of a single symbol under REJECT, TOTAL being IN_LEN (45_pipeline_and_control.md
R169). -/
def rejected (b : Byte) (n : Word) : Raised :=
  { err := .degenerateSingleSymbol, sub := 1#8, sym := b, arg := n, stage := 0x12#8 }

/-- The state after COUNT and BUILD of the written bytes `d`, the code table absent: GENCODES raises in
it. -/
abbrev uncoded (s : State) (d : List Byte) : State := invalidateCodes (built (counted s d))

/-- What COUNT, BUILD and a GENCODES that raises leave. -/
theorem uncoded_leaves (s : State) (d : List Byte) :
    (uncoded s d).hist = countBytes d ∧ (uncoded s d).treeValid = true ∧ TreeCoherent (uncoded s d)
      ∧ SameControl s (uncoded s d) ∧ (uncoded s d).mem = s.mem ∧ (uncoded s d).draws = s.draws
      ∧ (uncoded s d).code = absentTable ∧ (uncoded s d).codesValid = false
      ∧ SamePayload s (uncoded s d) :=
  ⟨rfl, rfl, (built_coherent (counted s d)).invalidateCodes,
    ⟨rfl, rfl, rfl, rfl, rfl, rfl, rfl, rfl, rfl, rfl⟩, rfl, rfl, rfl, rfl, ⟨rfl, rfl, rfl, rfl⟩⟩

theorem containerOf_length (tie : TiePolicy) (d : List Byte) :
    (containerOf tie d).length = 1025 + (packedOf tie d).length := containerBytes_length ..

section

variable {s : State} {d : List Byte} (h : Holds s.mem inBase d) (hl : d.length = s.inLen.toNat)
  (hc : s.inLen.toNat ≤ s.cfg.inCap)
include h hl hc

/-- One symbol under REJECT, with what GENCODES raises. -/
theorem compressBody_rejected (hk : nonzeroCount (countBytes d) = 1) (hd : s.latchedDegen = true)
    {b : Byte} (hb : b ∈ d) : compressBody s = .raised (rejected b s.inLen) (uncoded s d) := by
  obtain ⟨v, hv, -, hbody⟩ := compressBody_reject h hl hc hk hd
  rw [hbody, singleSymbol, built_counted_total hl,
    eq_of_nonzeroCount_one (length_lt_of_eq_inLen hl) hk hv hb]
  rfl

variable (hk : s.latchedDegen = false ∨ nonzeroCount (countBytes d) ≠ 1)
include hk

/-- The codes of the input do not fit PBUF: PACK raises at the byte that its loop names. -/
theorem compressBody_pbufOver (hf : s.cfg.pbufCap < (packedOf s.cfg.tie d).length) :
    ∃ b i, packLoop (histCodes s.cfg.tie (countBytes d)) s.cfg.pbufCap 0 [] d = .over b i
      ∧ compressBody s = .raised (packOver b i) (invalidatePayload (coded s d)) := by
  obtain ⟨b, i, hloop, hpack⟩ := packBody_coded_over h hl hc hf
  exact ⟨b, i, hloop, by rw [compressBody_coded h hl hc hk, hpack, BodyResult.raised_andThen]⟩

variable (hw : s.cfg.wf = true) (hf : (packedOf s.cfg.tie d).length ≤ s.cfg.pbufCap)
include hw hf

/-- The container does not fit OUT_BUF: SERIALIZE raises. -/
theorem compressBody_outOver (ho : s.cfg.outCap < 1025 + (packedOf s.cfg.tie d).length) :
    compressBody s = .raised (outOver (1025 + (packedOf s.cfg.tie d).length) 0x14#8)
      { packed s d with outLen := 0#32 } := by
  obtain ⟨-, hserialize, -⟩ := serializeBody_packed hw hf
  rw [compressBody_coded h hl hc hk, packBody_coded h hl hc hf, BodyResult.ok_andThen, hserialize ho]

theorem compressBody_fits (ho : 1025 + (packedOf s.cfg.tie d).length ≤ s.cfg.outCap) :
    compressBody s = .ok (withResult (containerOf s.cfg.tie d) (packed s d)) := by
  obtain ⟨-, -, hserialize⟩ := serializeBody_packed hw hf
  obtain ⟨-, -, -, -, hmem, -⟩ := packed_leaves s d
  rw [compressBody_coded h hl hc hk, packBody_coded h hl hc hf, BodyResult.ok_andThen, hserialize ho,
    ← containerOf_length, withResult, hmem]

end

/-- COMPRESS's checks after COUNT of the bytes `d`, in their order: the first that fails, or that all hold
(45_pipeline_and_control.md R161). -/
theorem compress_checks (s : State) (d : List Byte) :
    (nonzeroCount (countBytes d) = 1 ∧ s.latchedDegen = true)
      ∨ (s.latchedDegen = false ∨ nonzeroCount (countBytes d) ≠ 1)
        ∧ (s.cfg.pbufCap < (packedOf s.cfg.tie d).length
          ∨ (packedOf s.cfg.tie d).length ≤ s.cfg.pbufCap
            ∧ (s.cfg.outCap < 1025 + (packedOf s.cfg.tie d).length
              ∨ 1025 + (packedOf s.cfg.tie d).length ≤ s.cfg.outCap)) := by
  by_cases hk : nonzeroCount (countBytes d) = 1 ∧ s.latchedDegen = true
  · exact .inl hk
  · refine .inr ⟨by rwa [not_and_or, Bool.not_eq_true, or_comm] at hk, ?_⟩
    exact (Nat.lt_or_ge ..).imp_right fun hf => ⟨hf, Nat.lt_or_ge ..⟩

/-! ## COMPRESS succeeds -/

/-- Settles O36: COMPRESS puts out the container and leaves the registers that `packed_leaves` names. -/
theorem compressWritesTheContainer : Obligations.CompressWritesTheContainer := by
  intro s d hw h hl hc hk hf ho
  obtain ⟨hexec, hok, hcontrol⟩ :=
    exec_completedOk (i := .compress) (compressBody_fits h hl hc hk hw hf ho)
  obtain ⟨hhist, htree, -, -, hmem, -, hcode, hcodes, hpayload, -⟩ := packed_leaves s d
  obtain ⟨hheld, hframe⟩ := withResult_mem (containerOf s.cfg.tie d) (packed s d)
  have hsum : histSum (packed s d).hist = s.inLen.toNat := by
    rw [hhist, histSum_countBytes (length_lt_of_eq_inLen hl), hl]
  have hout := outLen_ofNat_toNat hw ho
  rw [← containerOf_length] at hout ⊢
  rw [← hout, hmem] at hframe
  generalize packed s d = b, containerOf s.cfg.tie d = B at *
  exact ⟨_, hexec, hok, hout, hheld, hframe, hhist, hsum, hcode, htree, hcodes, hpayload, hcontrol⟩

/-! ## COMPRESS fails -/

/-- A body that raises completes with the error it raised (60_exceptions.md R177). -/
theorem completedWith_raised (i : Instr) (e : Raised) (b : State) :
    CompletedWith e.err.code e.sub e.sym e.stage e.arg (complete i (.raised e b)) := by
  rw [complete_raised]
  exact ⟨rfl, rfl, rfl, rfl, rfl, rfl, rfl⟩

/-- The completion step of a failure leaves the tree alone. -/
theorem TreeCoherent.failed {b : State} (h : TreeCoherent b) (e : Raised) (i : Instr) :
    TreeCoherent (complete i (.raised e b)) := by
  rw [complete_raised]
  exact h.outcome _ _ _ _ _ _ _ _

theorem TreeCoherent.withOutLen {b : State} (h : TreeCoherent b) (n : Word) :
    TreeCoherent { b with outLen := n } := h.of_same rfl ⟨rfl, rfl, rfl, rfl, rfl, rfl⟩ rfl

/-- How a COMPRESS of the written bytes `d` issued in `s`, with the codes `codes`, shows in `t` that
GENCODES, PACK or SERIALIZE raised. -/
def CompressFailed (codes : Vector Code 256) (d : List Byte) (s t : State) : Prop :=
  (nonzeroCount (countBytes d) = 1 ∧ s.latchedDegen = true ∧ t.codesValid = false
      ∧ (∀ v, codeAt t.code v = Code.absent) ∧ SamePayload s t
      ∧ ∃ b, b ∈ d ∧ CompletedWith 3#4 1#8 b 0x12#8 s.inLen t)
    ∨ ((s.latchedDegen = false ∨ nonzeroCount (countBytes d) ≠ 1) ∧ t.code = codes ∧ t.codesValid = true
      ∧ ((PayloadCleared t
          ∧ ∃ i b, d[i]? = some b ∧ (encodeWith codes (d.take i)).length ≤ 8 * s.cfg.pbufCap
            ∧ 8 * s.cfg.pbufCap < (encodeWith codes (d.take (i + 1))).length
            ∧ CompletedWith 5#4 2#8 b 0x13#8 (BitVec.ofNat 32 i) t)
        ∨ ((packedOf s.cfg.tie d).length ≤ s.cfg.pbufCap
          ∧ s.cfg.outCap < 1025 + (packedOf s.cfg.tie d).length
          ∧ t.payloadValid = true ∧ t.plen.toNat = (packedOf s.cfg.tie d).length
          ∧ t.pad = BitVec.ofNat 3 (padCount (encodeWith codes d).length)
          ∧ Holds t.pbuf 0 (packedOf s.cfg.tie d)
          ∧ CompletedWith 5#4 3#8 0#8 0x14#8
              (BitVec.ofNat 32 (1025 + (packedOf s.cfg.tie d).length)) t)))

/-- A COMPRESS that fails after COUNT leaves the tree of its input and clears OUT_LEN. -/
theorem compress_written_failures {s t : State} {d : List Byte} (hw : s.cfg.wf = true)
    (h : Holds s.mem inBase d) (hl : d.length = s.inLen.toNat) (hc : s.inLen.toNat ≤ s.cfg.inCap)
    (hexec : exec .compress s = .next t) (herr : t.err ≠ 0#4) :
    t.outLen = 0#32 ∧ t.hist = countBytes d ∧ t.treeValid = true ∧ TreeCoherent t ∧ SameControl s t
      ∧ t.mem = s.mem ∧ t.draws = s.draws
      ∧ CompressFailed (histCodes s.cfg.tie (countBytes d)) d s t := by
  have ht := exec_next hexec
  rw [bodyOf] at ht
  obtain ⟨hk, hd⟩ | ⟨hk, hf | ⟨hf, ho | ho⟩⟩ := compress_checks s d
  · obtain ⟨b, hb⟩ := mem_of_nonzeroCount_one hk
    obtain ⟨hhist, htree, hcoh, hcontrol, hmem, hdraws, hcode, hcodes, hpayload⟩ := uncoded_leaves s d
    rw [compressBody_rejected h hl hc hk hd hb] at ht
    subst ht
    generalize uncoded s d = c at *
    exact ⟨rfl, hhist, htree, hcoh.failed _ _, hcontrol, hmem, hdraws, .inl ⟨hk, hd, hcodes,
      fun v => (congrArg (codeAt · v) hcode).trans (codeAt_absent v), hpayload, b, hb,
      completedWith_raised .compress (rejected b s.inLen) c⟩⟩
  · obtain ⟨b, i, hloop, hbody⟩ := compressBody_pbufOver h hl hc hk hf
    obtain ⟨hhist, htree, hcoh, hcontrol, hmem, hdraws, hcode, hcodes⟩ := coded_leaves s d
    obtain ⟨k, rfl, hb, hfits, hover⟩ := packLoop_eq_over hloop (Nat.zero_le _)
    rw [hbody, Nat.zero_add] at ht
    subst ht
    generalize coded s d = c at *
    exact ⟨rfl, hhist, htree, hcoh.invalidatePayload.failed _ _, hcontrol, hmem, hdraws,
      .inr ⟨hk, hcode, hcodes, .inl ⟨⟨rfl, rfl, rfl⟩, k, b, hb, hfits, hover,
        completedWith_raised .compress (packOver b k) _⟩⟩⟩
  · obtain ⟨hhist, htree, hcoh, hcontrol, hmem, hdraws, hcode, hcodes, hpayload, hheld, hpad⟩ :=
      packed_leaves s d
    obtain ⟨hplen, -⟩ := serializeBody_packed (d := d) hw hf
    rw [compressBody_outOver h hl hc hk hw hf ho] at ht
    subst ht
    generalize packed s d = c at *
    exact ⟨rfl, hhist, htree, (hcoh.withOutLen _).failed _ _, hcontrol, hmem, hdraws,
      .inr ⟨hk, hcode, hcodes, .inr ⟨hf, ho, hpayload, hplen, hpad, hheld,
        completedWith_raised .compress (outOver _ 0x14#8) _⟩⟩⟩
  · rw [compressBody_fits h hl hc hk hw hf ho] at ht
    exact absurd (congrArg State.err ht) herr

end Sys2Proof.Machine
end

section
/-! PROOF. DECOMPRESS: the containers it decodes, its failures, and the length of what it puts out
(45_pipeline_and_control.md R162, R170). -/

namespace Sys2Proof.Machine

/-! ## The state after DESERIALIZE and BUILD -/

section

variable (s : State) {B : List Byte} (n : Nat)

/-- The state after DESERIALIZE of the bytes `B` and BUILD, `n` draws taken. -/
abbrev rebuilt (s : State) (B : List Byte) (n : Nat) : State := built (parsed s B n)

/-- What DESERIALIZE and BUILD leave. -/
theorem rebuilt_leaves (B : List Byte) :
    (rebuilt s B n).hist = parseHist B ∧ (rebuilt s B n).treeValid = true ∧ TreeCoherent (rebuilt s B n)
      ∧ SameControl s (rebuilt s B n) ∧ (rebuilt s B n).mem = s.mem ∧ (rebuilt s B n).draws = n
      ∧ (rebuilt s B n).code = absentTable ∧ (rebuilt s B n).codesValid = false
      ∧ (rebuilt s B n).payloadValid = true :=
  ⟨rfl, rfl, built_coherent _, ⟨rfl, rfl, rfl, rfl, rfl, rfl, rfl, rfl, rfl, rfl⟩, rfl, rfl, rfl, rfl,
    rfl⟩

/-- The payload DESERIALIZE leaves. -/
theorem rebuilt_payload (hlt : B.length < 2 ^ 32) :
    (rebuilt s B n).plen.toNat = B.length - 1025
      ∧ Holds (rebuilt s B n).pbuf 0 (parsePayload B)
      ∧ (rebuilt s B n).pad = (parsePad B).setWidth 3 :=
  ⟨(retainedOf_parsed s B n hlt).1, Memory.store_holds _ _ _, rfl⟩

/-- The last byte of a container is its pad byte. -/
theorem getElem?_parsePad {N : Nat} (h : B.length = 1025 + N) : B[1024 + N]? = some (parsePad B) := by
  have hlast : B.getLast? = B[1024 + N]? := by
    rw [List.getLast?_eq_getElem?, h, show 1025 + N - 1 = 1024 + N by omega]
  rw [List.getElem?_eq_getElem (by omega)] at hlast ⊢
  rw [parsePad_of_getLast? hlast]

theorem setWidth_setWidth_pad {p : Byte} (h : p.toNat ≤ 7) : (p.setWidth 3).setWidth 8 = p := by
  apply BitVec.eq_of_toNat_eq
  rw [(setWidth_pad _).2, BitVec.toNat_setWidth, Nat.mod_eq_of_lt (by omega)]

/-- The parts of the container stand in the registers and in PBUF (30_encoding.md R103). -/
theorem rebuilt_holdsContainer (hlt : B.length < 2 ^ 32) (hlong : 1025 ≤ B.length)
    (hpad : (parsePad B).toNat ≤ 7) : HoldsContainer B (rebuilt s B n) := by
  obtain ⟨hhist, hplen, hpbuf, -⟩ := parsed_parts s n hlt hlong hpad
  rw [← hplen] at hpbuf
  have hlen : B.length = 1025 + (parsed s B n).plen.toNat := by omega
  have hp : ((parsed s B n).pad.setWidth 8 : Byte) = parsePad B := setWidth_setWidth_pad hpad
  exact ⟨hhist, hlen.symm, hpbuf, (getElem?_parsePad hlen).trans (congrArg some hp).symm⟩

end

/-! ## DECOMPRESS decodes containers -/

/-- Settles O41: the body ends with the sequence put out, over the registers that DESERIALIZE and BUILD
left. -/
theorem decompressDecodesContainers : Obligations.DecompressDecodesContainers := by
  intro s d hw h hl hc hf ho
  obtain ⟨m, hheld, hframe, hbody⟩ := decompressBody_container hw h hl hc hf ho
  obtain ⟨hexec, hok, hcontrol⟩ := exec_completedOk (i := .decompress) hbody
  exact ⟨_, hexec, hok, outLen_ofNat_toNat hw ho, hheld, hframe, rfl, rfl, rfl, hcontrol⟩

/-! ## The output length -/

/-- A DECOMPRESS that runs to its end: DESERIALIZE took the container, and UNPACK ran to its end. -/
theorem decompressBody_cases {s t : State} (h : decompressBody s = .ok t) :
    1025 ≤ s.inLen.toNat ∧ (parsePad (inputOf s)).toNat ≤ 7
      ∧ ∃ n, unpackBody (rebuilt s (inputOf s) n) = .ok t := by
  rw [decompressBody] at h
  obtain ⟨u, hbuild, hunpack⟩ := BodyResult.andThen_ok h
  obtain ⟨c, hparse, hbuilt⟩ := BodyResult.andThen_ok hbuild
  obtain ⟨-, hlong, hpad, -, -, rfl⟩ := deserializeBody_cases hparse
  obtain rfl := BodyResult.ok.inj hbuilt
  exact ⟨hlong, hpad, _, hunpack⟩

/-- A successful UNPACK of a coherent tree puts out TOTAL symbols and leaves the tree and HIST alone. -/
theorem unpackBody_outLen {u t : State} (hw : u.cfg.wf = true) (hcoh : TreeCoherent u)
    (h : unpackBody u = .ok t) :
    t.outLen.toNat = histSum u.hist ∧ u.total.toNat = histSum u.hist ∧ t.hist = u.hist
      ∧ t.total = u.total := by
  obtain ⟨ht, -, hfits, ⟨hr, -, rfl⟩ | ⟨r, hr, hwalk, rfl⟩⟩ := unpackBody_cases h
  · have htotal := hcoh.total ht
    by_cases hk : nonzeroCount u.hist = 0
    · exact ⟨(histSum_eq_zero hk).symm, htotal, rfl, rfl⟩
    · obtain ⟨r, hr', -⟩ := hcoh.root_some ht hk
      cases hr.symm.trans hr'
  · have htotal := hcoh.total ht
    obtain ⟨hshort, hfull⟩ := walk_length u.node r u.total.toNat (retainedOf u)
    have hout := outLen_ofNat_toNat hw (hshort.trans hfits)
    exact ⟨hout.trans ((hfull hwalk).trans htotal), htotal, rfl, rfl⟩

/-- Settles O43: UNPACK puts out TOTAL symbols, TOTAL is the sum of HIST, and HIST holds the container's
counters. -/
theorem decompressOutputLength : Obligations.DecompressOutputLength := by
  intro s t hw hexec herr
  obtain ⟨b, hbody, rfl⟩ := exec_ok hexec herr
  obtain ⟨hlong, hpad, n, hunpack⟩ := decompressBody_cases hbody
  have hBlen := inputOf_length s
  obtain ⟨hbytes, -⟩ := rebuilt_holdsContainer s n (inputOf_length_lt s) (by omega) hpad
  obtain ⟨-, -, hcoh, hcontrol, -⟩ := rebuilt_leaves s n (inputOf s)
  obtain ⟨hcfg, -⟩ := hcontrol
  generalize rebuilt s (inputOf s) n = u at *
  obtain ⟨hout, htotal, hhist, hsame⟩ := unpackBody_outLen (hcfg ▸ hw) hcoh hunpack
  rw [← hhist] at hout htotal hbytes
  rw [← hsame] at htotal
  exact ⟨hout, hout.trans htotal.symm, hbytes⟩

/-! ## The failures of UNPACK over a coherent tree -/

theorem histSum_pos {hist : Vector Word 256} (h : nonzeroCount hist ≠ 0) : 0 < histSum hist := by
  refine Nat.pos_of_ne_zero fun h0 => h (nonzeroCount_eq_zero.2 fun v => ?_)
  rw [histSum, List.sum_eq_zero_iff] at h0
  exact BitVec.eq_of_toNat_eq (h0 _ (List.mem_map.2 ⟨v, mem_allBytes v, rfl⟩))

section

variable {u : State}

/-- UNPACK over a coherent tree and a payload raises OUT_OVER, EMPTY_TREE or the error of its walk
(43_bit_packer.md R146 to R149). -/
theorem unpackBody_raised_of_coherent (hcoh : TreeCoherent u) (ht : u.treeValid = true)
    (hp : u.payloadValid = true) {e : Raised} {b : State} (h : unpackBody u = .raised e b) :
    (u.cfg.outCap < histSum u.hist ∧ e = outOver (min (histSum u.hist) 0xFFFFFFFF) 0x21#8 ∧ b = u)
      ∨ (histSum u.hist = 0 ∧ u.plen ≠ 0#32 ∧ e = emptyTree u.plen ∧ b = u)
      ∨ (0 < histSum u.hist ∧ histSum u.hist ≤ u.cfg.outCap
        ∧ ∃ d j, e = walkError e.sub e.sym j
          ∧ WalkFails (histCodes u.cfg.tie u.hist) (histSum u.hist) (retainedOf u) d e.sub e.sym j
          ∧ b = afterWalk u d) := by
  have htotal := hcoh.total ht
  by_cases hover : u.cfg.outCap < histSum u.hist
  · rw [← htotal] at hover ⊢
    cases (unpackBody_outOver ht hp hover).symm.trans h
    exact .inl ⟨hover, rfl, rfl⟩
  have hfits := Nat.not_lt.1 hover
  have hfits' : u.total.toNat ≤ u.cfg.outCap := htotal.trans_le hfits
  by_cases hk : nonzeroCount u.hist = 0
  · have hbody := (unpackBody_none ht hp hfits' (hcoh.root_none ht hk).1).symm.trans h
    by_cases hempty : u.plen = 0#32
    · rw [if_neg (not_not_intro hempty)] at hbody
      cases hbody
    · rw [if_pos hempty] at hbody
      cases hbody
      exact .inr (.inl ⟨histSum_eq_zero hk, hempty, rfl, rfl⟩)
  · obtain ⟨r, hr, -⟩ := hcoh.root_some ht hk
    cases he : (walk u.node r u.total.toNat (retainedOf u)).error with
    | none => cases (unpackBody_walk_done ht hp hfits' hr he).symm.trans h
    | some e' =>
      obtain ⟨j, hj, hwalk⟩ := hcoh.walk_error_some ht hk hr he
      cases (unpackBody_walk_error ht hp hfits' hr he).symm.trans h
      exact .inr (.inr ⟨histSum_pos hk, hfits, _, j, hj, hwalk, rfl⟩)

/-- A failed UNPACK writes memory and the count of draws alone (43_bit_packer.md R150). -/
theorem unpackBody_raised_keeps {e : Raised} {b : State} (h : unpackBody u = .raised e b) :
    SameControl u b ∧ SameTree u b ∧ SameCodes u b ∧ SamePayload u b ∧ b.hist = u.hist := by
  obtain ⟨rfl, -⟩ | ⟨r, -, -, -, -, -, rfl⟩ := unpackBody_raised_cases h <;>
    exact ⟨⟨rfl, rfl, rfl, rfl, rfl, rfl, rfl, rfl, rfl, rfl⟩, ⟨rfl, rfl, rfl, rfl, rfl, rfl⟩,
      ⟨rfl, rfl⟩, ⟨rfl, rfl, rfl, rfl⟩, rfl⟩

/-- The retained bits of a written payload do not depend on the draws taken. -/
theorem retainedOf_congr {t : State} (hw : Written u.pbuf 0 u.plen.toNat) (hpbuf : t.pbuf = u.pbuf)
    (hplen : t.plen = u.plen) (hpad : t.pad = u.pad) : retainedOf t = retainedOf u := by
  have hheld : Holds u.pbuf 0 (payloadOf u) := (Memory.read_of_written hw u.draws).2
  have hpayload : payloadOf t = payloadOf u :=
    payloadOf_of_holds (hpbuf ▸ hheld) (by rw [payloadOf_length, hplen])
  rw [retainedOf, retainedOf, hpayload, hpad]

end

/-! ## The failures of DECOMPRESS -/

section

variable {s : State}

/-- DECOMPRESS fails where DESERIALIZE does; it clears OUT_LEN and counts the draws. -/
theorem exec_decompress_refused {e : Raised} {n : Nat}
    (h : deserializeBody s = .raised e { s with draws := n }) :
    exec .decompress s = .next
      { failedState e.err.code e.sub e.sym e.stage e.arg s with outLen := 0#32, draws := n } :=
  exec_of_raised (i := .decompress) (decompressBody_of_raised h)

/-- DESERIALIZE once the container is read, its payload of `n` bytes: the three checks, and the state. -/
theorem deserializeBody_read_cases (h : s.inLen.toNat ≤ s.cfg.inCap) {n : Nat}
    (hn : s.inLen.toNat = 1025 + n) :
    let p := parsePad (inputOf s)
    (7 < p.toNat ∧ deserializeBody s = .raised (framingError 2#8 p (1024 + n)) (readInput s).2)
      ∨ (p.toNat ≤ 7 ∧ 8 * n < p.toNat
        ∧ deserializeBody s = .raised (framingError 3#8 p n) (readInput s).2)
      ∨ (p.toNat ≤ 7 ∧ p.toNat ≤ 8 * n ∧ s.cfg.pbufCap < n
        ∧ deserializeBody s = .raised (framingOver n) (readInput s).2)
      ∨ (p.toNat ≤ 7 ∧ p.toNat ≤ 8 * n ∧ n ≤ s.cfg.pbufCap
        ∧ deserializeBody s = .ok (parsed s (inputOf s) (readInput s).2.draws)) := by
  have hread := deserializeBody_read h (by omega)
  rw [show s.inLen.toNat - 1 = 1024 + n by omega, show s.inLen.toNat - 1025 = n by omega] at hread
  generalize parsePad (inputOf s) = p at *
  by_cases hrange : 7 < p.toNat
  · exact .inl ⟨hrange, hread.trans (if_pos hrange)⟩
  rw [if_neg hrange] at hread
  by_cases hexceeds : 8 * n < p.toNat
  · exact .inr (.inl ⟨Nat.not_lt.1 hrange, hexceeds, hread.trans (if_pos hexceeds)⟩)
  rw [if_neg hexceeds] at hread
  by_cases hover : s.cfg.pbufCap < n
  · exact .inr (.inr (.inl ⟨Nat.not_lt.1 hrange, Nat.not_lt.1 hexceeds, hover,
      hread.trans (if_pos hover)⟩))
  · exact .inr (.inr (.inr ⟨Nat.not_lt.1 hrange, Nat.not_lt.1 hexceeds, Nat.not_lt.1 hover,
      hread.trans (if_neg hover)⟩))

/-- How a DECOMPRESS issued in `s`, of a payload of `n` bytes, shows in `t` that UNPACK raised. -/
def UnpackFailed (s t : State) (n : Nat) : Prop :=
  (s.cfg.outCap < histSum t.hist
      ∧ CompletedWith 5#4 3#8 0#8 0x21#8 (BitVec.ofNat 32 (min (histSum t.hist) 0xFFFFFFFF)) t
      ∧ t.mem = s.mem)
    ∨ (histSum t.hist = 0 ∧ 0 < n ∧ CompletedWith 2#4 1#8 0#8 0x21#8 (BitVec.ofNat 32 n) t
      ∧ t.mem = s.mem)
    ∨ (0 < histSum t.hist ∧ histSum t.hist ≤ s.cfg.outCap
      ∧ ∃ d sub sym j,
          WalkFails (histCodes s.cfg.tie t.hist) (histSum t.hist) (retainedOf t) d sub sym j
          ∧ CompletedWith 1#4 sub sym 0x21#8 (BitVec.ofNat 32 j) t
          ∧ Holds t.mem outBase d ∧ SameOutside outBase d.length s.mem t.mem)

/-- UNPACK over the coherent tree and the written payload of `u` raises: the outcome, and the memory. -/
theorem unpackFailed_of_raised {u b : State} {e : Raised} (hcoh : TreeCoherent u)
    (ht : u.treeValid = true) (hp : u.payloadValid = true) (hw : Written u.pbuf 0 u.plen.toNat)
    (hcfg : u.cfg = s.cfg) (hmem : u.mem = s.mem) (h : unpackBody u = .raised e b) :
    UnpackFailed s (complete .decompress (.raised e b)) u.plen.toNat := by
  rw [UnpackFailed, ← hcfg, ← hmem]
  obtain ⟨hover, rfl, rfl⟩ | ⟨hzero, hplen, rfl, rfl⟩ | ⟨hpos, hfits, d, j, he, hwalk, rfl⟩ :=
    unpackBody_raised_of_coherent hcoh ht hp h
  · exact .inl ⟨hover, completedWith_raised .decompress (outOver _ 0x21#8) b, rfl⟩
  · have hpos : 0 < b.plen.toNat := Nat.pos_of_ne_zero fun h0 => hplen (BitVec.eq_of_toNat_eq h0)
    refine .inr (.inl ⟨hzero, hpos, ?_, rfl⟩)
    rw [BitVec.ofNat_toNat, BitVec.setWidth_eq]
    exact completedWith_raised .decompress (emptyTree b.plen) b
  · have hret : retainedOf (complete .decompress (.raised e (afterWalk u d))) = retainedOf u :=
      retainedOf_congr hw rfl rfl rfl
    rw [← hret] at hwalk
    rw [he] at hwalk ⊢
    exact .inr (.inr ⟨hpos, hfits, d, e.sub, e.sym, j, hwalk,
      completedWith_raised .decompress (walkError e.sub e.sym j) _,
      Memory.store_holds _ _ _, Memory.store_sameOutside _ _ _⟩)

theorem HoldsContainer.of_same {B : List Byte} {u t : State} (h : HoldsContainer B u)
    (hp : SamePayload u t) (hh : t.hist = u.hist) : HoldsContainer B t := by
  obtain ⟨hpbuf, hplen, hpad, -⟩ := hp
  rwa [HoldsContainer, hh, hplen, hpbuf, hpad]

/-- DECOMPRESS once DESERIALIZE has taken the container: UNPACK decides, from the container's parts and the
coherent tree of its counters. -/
theorem decompressBody_parsed {n k : Nat} (hn : s.inLen.toNat = 1025 + n)
    (hpad : (parsePad (inputOf s)).toNat ≤ 7)
    (hparse : deserializeBody s = .ok (parsed s (inputOf s) k)) :
    ∃ u, decompressBody s = unpackBody u ∧ HoldsContainer (inputOf s) u ∧ u.treeValid = true
      ∧ u.payloadValid = true ∧ TreeCoherent u ∧ SameControl s u ∧ u.mem = s.mem ∧ u.code = absentTable
      ∧ u.codesValid = false ∧ u.plen.toNat = n ∧ Written u.pbuf 0 u.plen.toNat := by
  have hBlen := inputOf_length s
  have hlt := inputOf_length_lt s
  obtain ⟨hplen, hpbuf, -⟩ := rebuilt_payload s k hlt
  obtain ⟨-, htree, hcoh, hcontrol, hmem, -, hcode, hcodes, hpayload⟩ := rebuilt_leaves s k (inputOf s)
  have hwritten := hpbuf.written
  rw [parsePayload_length, ← hplen] at hwritten
  exact ⟨rebuilt s (inputOf s) k, decompressBody_of_ok hparse,
    rebuilt_holdsContainer s k hlt (by omega) hpad, htree, hpayload, hcoh, hcontrol, hmem,
    hcode, hcodes, by omega, hwritten⟩

/-- A DECOMPRESS that fails in UNPACK leaves what DESERIALIZE and BUILD left, and in OUT_BUF the symbols
emitted (60_exceptions.md R180). -/
theorem decompress_unpack_failures {t : State} {n k : Nat} (hn : s.inLen.toNat = 1025 + n)
    (hpad : (parsePad (inputOf s)).toNat ≤ 7)
    (hparse : deserializeBody s = .ok (parsed s (inputOf s) k))
    (hexec : exec .decompress s = .next t) (herr : t.err ≠ 0#4) :
    t.outLen = 0#32 ∧ HoldsContainer (inputOf s) t ∧ t.payloadValid = true
      ∧ t.treeValid = true ∧ TreeCoherent t ∧ t.codesValid = false
      ∧ (∀ v, codeAt t.code v = Code.absent) ∧ SameControl s t ∧ UnpackFailed s t n := by
  obtain ⟨u, hbody, hholds, htree, hpayload, hcoh, hcontrol, hmem, hcode, hcodes, rfl, hwritten⟩ :=
    decompressBody_parsed hn hpad hparse
  obtain rfl := exec_next hexec
  rw [bodyOf, hbody] at herr ⊢
  obtain ⟨e, b, hraised⟩ := complete_err_ne_zero herr
  rw [hraised]
  have hfailed := unpackFailed_of_raised hcoh htree hpayload hwritten hcontrol.1 hmem hraised
  obtain ⟨hsame, -⟩ := bodyOf_kept .decompress s
  rw [bodyOf, hbody, hraised] at hsame
  obtain ⟨⟨kcfg, -⟩, ktree, ⟨kcode, kcodes⟩, kpayload, khist⟩ := unpackBody_raised_keeps hraised
  have hholds' := hholds.of_same kpayload khist
  have hcoh' := (hcoh.of_same kcfg ktree khist).failed e .decompress
  obtain ⟨-, -, -, -, -, ktree⟩ := ktree
  obtain ⟨-, -, -, kpayload⟩ := kpayload
  exact ⟨rfl, hholds', kpayload.trans hpayload, ktree.trans htree, hcoh', kcodes.trans hcodes,
    fun v => (congrArg (codeAt · v) (kcode.trans hcode)).trans (codeAt_absent v), hsame, hfailed⟩

end

/-- Settles O37: COUNT raises in the unchanged state, and `compress_written_failures` names the other failures
of COMPRESS; DESERIALIZE's five change no register but the outcome and OUT_LEN, and
`decompress_unpack_failures` names those of UNPACK. -/
theorem pipelinesFailInTheseCasesOnly : Obligations.PipelinesFailInTheseCasesOnly := by
  refine ⟨fun s t d hw hin hexec herr => ?_, fun s t hw hexec herr => ?_⟩
  · obtain hover | hc := Nat.lt_or_ge s.cfg.inCap s.inLen.toNat
    · cases (exec_of_raised (i := .compress) (compressBody_over hover)).symm.trans hexec
      exact .inl ⟨hover, rfl⟩
    · obtain ⟨h, hl⟩ := hin hc
      exact .inr ⟨hc, compress_written_failures hw h hl hc hexec herr⟩
  intro drawn framing
  obtain hover | hc := Nat.lt_or_ge s.cfg.inCap s.inLen.toNat
  · refine .inl ⟨hover, ?_⟩
    cases (exec_decompress_refused (n := s.draws) (deserializeBody_inLenOver hover)).symm.trans hexec
    simp only [framing, BitVec.ofNat_toNat, BitVec.setWidth_eq]
    rfl
  obtain hshort | hlong := Nat.lt_or_ge s.inLen.toNat 1025
  · cases (exec_decompress_refused (n := s.draws) (deserializeBody_short hc hshort)).symm.trans hexec
    exact .inr (.inl ⟨hshort, rfl⟩)
  obtain ⟨n, hn⟩ := Nat.exists_eq_add_of_le hlong
  have hd : (readInput s).2 = { s with draws := drawn } := by rw [readInput_eq, readInput_drawn]
  have hcases := deserializeBody_read_cases hc hn
  rw [hd] at hcases
  refine .inr (.inr ⟨_, n, hc, hn, getElem?_parsePad ((inputOf_length s).trans hn), ?_⟩)
  obtain ⟨hrange, hbody⟩ | ⟨hrange, hexceeds, hbody⟩ | ⟨hrange, hexceeds, hover, hbody⟩ |
    ⟨hrange, hexceeds, hfits, hbody⟩ := hcases
  · cases (exec_decompress_refused hbody).symm.trans hexec
    exact .inl ⟨hrange, rfl⟩
  · cases (exec_decompress_refused hbody).symm.trans hexec
    exact .inr (.inl ⟨hrange, hexceeds, rfl⟩)
  · cases (exec_decompress_refused hbody).symm.trans hexec
    exact .inr (.inr (.inl ⟨hrange, hexceeds, hover, rfl⟩))
  · obtain ⟨hout, hholds, hpayload, htree, hcoh, hcodes, hcode, hcontrol, hfailed⟩ :=
      decompress_unpack_failures hn hrange hbody hexec herr
    have hdraws : t.draws = drawn := by
      rw [exec_next hexec, complete_draws]
      exact decompressBody_draws hc hlong
    exact .inr (.inr (.inr ⟨hrange, hexceeds, hfits, hout, hholds, hpayload, htree, hcoh, hcodes, hcode,
      hcontrol, hdraws, hfailed⟩))

end Sys2Proof.Machine
end

section
/-! PROOF. The round trip through COMPRESS and DECOMPRESS, and its two corner cases, the empty input and
the input of one byte value (45_pipeline_and_control.md R167 to R169). -/

namespace Sys2Proof.Machine

/-! ## The round trip -/

theorem Holds.copy {m m' : Memory} {a a' : Nat} {bs : List Byte} (h : Holds m a bs)
    (hcopy : ∀ k, k < bs.length → m'.get? (a' + k) = m.get? (a + k)) : Holds m' a' bs :=
  fun k hk => (hcopy k hk).trans (h k hk)

/-- A successful COMPRESS has put out the container of its input. -/
theorem exec_compress_ok_cases {s t : State} {d : List Byte} (hw : s.cfg.wf = true)
    (h : Holds s.mem inBase d) (hl : d.length = s.inLen.toNat) (hexec : exec .compress s = .next t)
    (herr : t.err = 0#4) :
    t.outLen.toNat = (containerOf s.cfg.tie d).length ∧ Holds t.mem outBase (containerOf s.cfg.tie d) := by
  obtain ⟨b, hbody, rfl⟩ := exec_ok hexec herr
  obtain ⟨-, -, ho, -, rfl⟩ := compressBody_cases hw h hl hbody
  rw [containerOf_length]
  exact ⟨outLen_ofNat_toNat hw ho, Memory.store_holds _ _ _⟩

/-- Settles O42: the copy makes the container DECOMPRESS's input, and DECOMPRESS decodes containers. -/
theorem compressDecompressRoundTrip : Obligations.CompressDecompressRoundTrip := by
  intro s t u d hw h hl hexec herr huw htie hin hcap hpcap ho hcopy
  obtain ⟨hout, hheld⟩ := exec_compress_ok_cases hw h hl hexec herr
  rw [hout] at hcopy
  have hinput : Holds u.mem inBase (containerOf u.cfg.tie d) := htie ▸ hheld.copy hcopy
  have hlen : u.inLen.toNat = (containerOf u.cfg.tie d).length := by rw [hin, hout, htie]
  have hfits : (packedOf u.cfg.tie d).length ≤ u.cfg.pbufCap := by
    rw [hlen, containerOf_length] at hpcap
    exact Nat.add_le_add_iff_left.1 hpcap
  obtain ⟨v, hv, hok, hvout, hvheld, -⟩ := decompressDecodesContainers u d huw hinput hlen hcap hfits ho
  exact ⟨v, hv, hok, hvout, hvheld⟩

/-! ## The empty input -/

theorem packedOf_nil (tie : TiePolicy) : packedOf tie [] = [] := by
  rw [packedOf, encodeWith_nil]
  rfl

/-- The container of the empty sequence: zero counters, no payload, pad byte 0. -/
theorem containerOf_nil (tie : TiePolicy) : containerOf tie [] = List.replicate 1025 0#8 := by
  refine List.eq_replicate_iff.2
    ⟨by rw [containerOf_length, packedOf_nil, List.length_nil], fun b hb => ?_⟩
  have hhist (w : Word) (hw : w ∈ (countBytes []).toList) : w = 0#32 := by
    obtain ⟨v, hv, rfl⟩ := List.mem_iff_getElem.1 hw
    simp [countBytes]
  rw [containerOf, containerBytes, packedOf_nil, List.append_nil, List.mem_append, List.mem_singleton] at hb
  obtain hb | rfl := hb
  · obtain ⟨w, hw, hb⟩ := List.mem_flatMap.1 hb
    rw [hhist w hw] at hb
    obtain ⟨k, -, rfl⟩ := List.mem_map.1 hb
    exact BitVec.extractLsb'_zero
  · rw [encodeWith_nil]
    rfl

theorem holds_replicate {m : Memory} {a n : Nat} {b : Byte} :
    Holds m a (List.replicate n b) ↔ ∀ k, k < n → m.get? (a + k) = some b := by
  simp only [Holds, List.length_replicate, List.getElem_replicate]

theorem holds_nil (m : Memory) (a : Nat) : Holds m a [] := fun _ hk => absurd hk (Nat.not_lt_zero _)

theorem caps_ge_of_wf {c : Config} (h : c.wf = true) :
    1025 ≤ c.inCap ∧ 1025 ≤ c.outCap ∧ 1 ≤ c.pbufCap := by
  simp only [Config.wf, Bool.and_eq_true, decide_eq_true_eq] at h
  omega

/-- Settles O38: COMPRESS writes, and DECOMPRESS takes, the container of the empty sequence. -/
theorem emptyInputRoundTrip : Obligations.EmptyInputRoundTrip := by
  refine ⟨fun s hw hin => ?_, fun s hw hin hzero => ?_⟩ <;>
    obtain ⟨hincap, houtcap, -⟩ := caps_ge_of_wf hw
  · have hk : nonzeroCount (countBytes []) ≠ 1 := by
      rw [nonzeroCount_eq_zero.2 ((nonzeroCount_countBytes_eq_zero (by simp)).2 rfl)]
      exact Nat.zero_ne_one
    obtain ⟨t, hexec, hok, hout, hheld, -⟩ := compressWritesTheContainer s [] hw (holds_nil _ _)
      (by rw [hin]; rfl) (by rw [hin]; exact Nat.zero_le _) (.inr hk)
      (by rw [packedOf_nil]; exact Nat.zero_le _) (by rw [packedOf_nil]; exact houtcap)
    rw [packedOf_nil] at hout
    rw [containerOf_nil] at hheld
    exact ⟨t, hexec, hok, BitVec.eq_of_toNat_eq hout, holds_replicate.1 hheld⟩
  · have hheld : Holds s.mem inBase (containerOf s.cfg.tie []) := by
      rw [containerOf_nil]
      exact holds_replicate.2 hzero
    obtain ⟨t, hexec, hok, hout, -⟩ := decompressDecodesContainers s [] hw hheld
      (by rw [containerOf_nil, hin, List.length_replicate]; rfl) (by rw [hin]; exact hincap)
      (by rw [packedOf_nil]; exact Nat.zero_le _) (Nat.zero_le _)
    exact ⟨t, hexec, hok, BitVec.eq_of_toNat_eq hout⟩

/-! ## One byte value -/

/-- The code table of a histogram with one nonzero entry: the forced code alone (42_code_table.md R134). -/
theorem histCodes_single (tie : TiePolicy) {hist : Vector Word 256} {v : Byte} (hv : histAt hist v ≠ 0#32)
    (hone : ∀ u, u ≠ v → histAt hist u = 0#32) :
    histCodes tie hist = setCode absentTable v forcedCode := by
  have hx := (storeNodes_stores (Vector.replicate 511 (.leaf 0#8 0#40)) [leafFor hist v] (by simp)).nodeAt
    (n := 0#9) rfl
  rw [histCodes, buildTree_single tie hv hone]
  exact codeTable_of_leaf hx 1

section

variable {n : Nat} (hlt : n < 2 ^ 32) (b : Byte)
include hlt

/-- The counters of a sequence that repeats one byte. -/
theorem histAt_replicate :
    (histAt (countBytes (List.replicate n b)) b).toNat = n
      ∧ ∀ u, u ≠ b → histAt (countBytes (List.replicate n b)) u = 0#32 := by
  have hlen : (List.replicate n b).length < 2 ^ 32 := by rwa [List.length_replicate]
  refine ⟨by rw [countBytes_toNat hlen, List.count_replicate_self], fun u hu => ?_⟩
  exact (countBytes_eq_zero hlen u).2 fun hm => hu (List.eq_of_mem_replicate hm)

theorem histAt_replicate_ne_zero (hn : 0 < n) : histAt (countBytes (List.replicate n b)) b ≠ 0#32 := by
  intro h0
  obtain ⟨hcount, -⟩ := histAt_replicate hlt b
  rw [h0] at hcount
  exact absurd hcount hn.ne

theorem nonzeroCount_replicate (hn : 0 < n) : nonzeroCount (countBytes (List.replicate n b)) = 1 := by
  obtain ⟨-, hone⟩ := histAt_replicate hlt b
  rw [← nonzeroSyms_length, nonzeroSyms_single (histAt_replicate_ne_zero hlt b hn) hone,
    List.length_singleton]

/-- Each byte takes one 0 bit. -/
theorem encodeWith_replicate (tie : TiePolicy) (hn : 0 < n) :
    encodeWith (histCodes tie (countBytes (List.replicate n b))) (List.replicate n b)
      = List.replicate n false := by
  obtain ⟨-, hone⟩ := histAt_replicate hlt b
  rw [histCodes_single tie (histAt_replicate_ne_zero hlt b hn) hone]
  have hcode : (codeAt (setCode absentTable b forcedCode) b).bits = [false] := by
    rw [codeAt_setCode, if_pos rfl]
    rfl
  clear hone hlt hn
  induction n with
  | zero => rfl
  | succ n ih => rw [List.replicate_succ, encodeWith_cons, ih, hcode]; rfl

end

/-- The container of "aaaa": payload 00 and pad byte 04 (45_pipeline_and_control.md R169). -/
theorem containerOf_aaaa (tie : TiePolicy) :
    packedOf tie (List.replicate 4 0x61#8) = [0x00#8]
      ∧ (containerOf tie (List.replicate 4 0x61#8))[1024]? = some 0x00#8
      ∧ (containerOf tie (List.replicate 4 0x61#8))[1025]? = some 0x04#8 := by
  have hbits := encodeWith_replicate (by decide : 4 < 2 ^ 32) 0x61#8 tie (by decide)
  have hpacked : packedOf tie (List.replicate 4 0x61#8) = [0x00#8] := by rw [packedOf, hbits]; rfl
  rw [containerOf, hpacked, hbits]
  exact ⟨rfl, containerBytes_payload _ _ _ (i := 0) (by decide), containerBytes_pad _ [0x00#8] _⟩

/-- Settles O39: under REJECT GENCODES raises; under FORCE each byte takes one bit, and the round trip gives
them back. -/
theorem singleByteInput : Obligations.SingleByteInput := by
  refine ⟨fun s b hreject hpos hc h => ?_, fun s hw hforce hin h ho => ?_⟩
  · have hbody := compressBody_rejected h List.length_replicate hc
      (nonzeroCount_replicate s.inLen.isLt b hpos) hreject (List.mem_replicate.2 ⟨hpos.ne', rfl⟩)
    obtain ⟨-, htree, -, hcontrol, hmem, -, -, hcodes, hpayload⟩ :=
      uncoded_leaves s (List.replicate s.inLen.toNat b)
    refine ⟨_, exec_of_raised (i := .compress) hbody, ?_⟩
    generalize uncoded s (List.replicate s.inLen.toNat b) = c at *
    exact ⟨completedWith_raised .compress (rejected b s.inLen) c, rfl, htree, hcodes, hmem, hcontrol,
      hpayload⟩
  · obtain ⟨hpacked, hpayload, hpad⟩ := containerOf_aaaa s.cfg.tie
    obtain ⟨hincap, -, hpcap⟩ := caps_ge_of_wf hw
    have hl : (List.replicate 4 0x61#8).length = s.inLen.toNat := by rw [hin]; rfl
    obtain ⟨t, hexec, ⟨herr, -⟩, hout, hheld, -, hhist, -⟩ :=
      compressWritesTheContainer s (List.replicate 4 0x61#8) hw h hl
        (by rw [← hl, List.length_replicate]; omega) (.inl hforce) (by rw [hpacked]; exact hpcap)
        (by rw [hpacked]; exact ho)
    rw [hpacked] at hout
    obtain ⟨hcount, -⟩ := histAt_replicate (by decide : 4 < 2 ^ 32) 0x61#8
    refine ⟨t, hexec, herr, BitVec.eq_of_toNat_eq hout, BitVec.eq_of_toNat_eq (by rw [hhist, hcount]; rfl),
      hheld.get?_eq_some hpayload, hheld.get?_eq_some hpad, fun u huw htie huin hucap hcopy => ?_⟩
    obtain ⟨-, houtcap, hupcap⟩ := caps_ge_of_wf huw
    obtain ⟨v, hv, ⟨hverr, -⟩, hvout, hvheld⟩ :=
      compressDecompressRoundTrip s t u (List.replicate 4 0x61#8) hw h hl hexec herr huw htie
        (BitVec.eq_of_toNat_eq (by rw [huin, hout]; rfl)) (by rw [huin]; exact hucap)
        (by rw [huin]; exact Nat.add_le_add_left hupcap 1025) (by rw [List.length_replicate]; omega)
        (by rw [hout]; exact hcopy)
    exact ⟨v, hv, hverr, BitVec.eq_of_toNat_eq hvout, hvheld⟩

end Sys2Proof.Machine
end

section
/-! PROOF. COMPRESS and DECOMPRESS are stateless: from equal inputs they end alike, whatever else stands in
the state (45_pipeline_and_control.md R165). -/

namespace Sys2Proof.Machine

/-! ## Registers that are a function of the input -/

/-- HIST is `hist`, the tree is the one BUILD makes of it, and the code table is `code`. -/
structure Registers (tie : TiePolicy) (hist : Vector Word 256) (code : Vector Code 256) (codesValid : Bool)
    (t : State) : Prop where
  tie : t.cfg.tie = tie
  hist : t.hist = hist
  treeValid : t.treeValid = true
  coherent : TreeCoherent t
  code : t.code = code
  codesValid : t.codesValid = codesValid

/-- The packed payload is the bytes `bs` with `pad` pad bits. -/
structure Payload (bs : List Byte) (pad : BitVec 3) (t : State) : Prop where
  plen : t.plen.toNat = bs.length
  pad : t.pad = pad
  payloadValid : t.payloadValid = true
  held : Holds t.pbuf 0 bs

/-- HIST, the tree and the code table agree; of the node store, the nodes of the tree. -/
def SameRegisters (t t' : State) : Prop :=
  t'.hist = t.hist ∧ t'.nsym = t.nsym ∧ t'.nnodes = t.nnodes ∧ t'.root = t.root ∧ t'.total = t.total
    ∧ t'.treeValid = t.treeValid ∧ t'.code = t.code ∧ t'.codesValid = t.codesValid
    ∧ ∀ n, n < t.nnodes.toNat → nodeN t' n = nodeN t n

/-- The packed payloads agree. -/
def SamePacked (t t' : State) : Prop :=
  t'.plen = t.plen ∧ t'.pad = t.pad ∧ t'.payloadValid = t.payloadValid
    ∧ ∀ k, k < t.plen.toNat → t'.pbuf.get? k = t.pbuf.get? k

/-- OUT_LEN and OUT_BUF[0..OUT_LEN−1] agree. -/
def SameResult (t t' : State) : Prop :=
  t'.outLen = t.outLen
    ∧ ∀ k, k < t.outLen.toNat → t'.mem.get? (outBase + k) = t.mem.get? (outBase + k)

section

variable {t t' : State} {tie : TiePolicy} {hist : Vector Word 256} {code : Vector Code 256} {v : Bool}
  {bs : List Byte} {pad : BitVec 3}

theorem Registers.of_same (h : Registers tie hist code v t) (hcfg : t'.cfg = t.cfg)
    (htree : SameTree t t') (hcodes : SameCodes t t') (hhist : t'.hist = t.hist) :
    Registers tie hist code v t' := by
  have hcoh := h.coherent.of_same hcfg htree hhist
  obtain ⟨-, -, -, -, -, hvalid⟩ := htree
  obtain ⟨hcode, hcodes⟩ := hcodes
  exact ⟨(congrArg Config.tie hcfg).trans h.tie, hhist.trans h.hist, hvalid.trans h.treeValid, hcoh,
    hcode.trans h.code, hcodes.trans h.codesValid⟩

theorem Registers.invalidatePayload (h : Registers tie hist code v t) :
    Registers tie hist code v (Machine.invalidatePayload t) :=
  h.of_same rfl ⟨rfl, rfl, rfl, rfl, rfl, rfl⟩ ⟨rfl, rfl⟩ rfl

/-- A result is no part of the registers. -/
theorem Registers.withOutput (h : Registers tie hist code v t) (m : Memory) (l : Word) (n : Nat) :
    Registers tie hist code v { t with mem := m, outLen := l, draws := n } :=
  h.of_same rfl ⟨rfl, rfl, rfl, rfl, rfl, rfl⟩ ⟨rfl, rfl⟩ rfl

theorem Registers.same (h : Registers tie hist code v t) (h' : Registers tie hist code v t') :
    SameRegisters t t' := by
  obtain ⟨hnsym, hnnodes, hroot, htotal, hnodes, -⟩ := h.coherent.congr h'.coherent h.treeValid
    h'.treeValid (h'.hist.trans h.hist.symm) (h'.tie.trans h.tie.symm)
  exact ⟨h'.hist.trans h.hist.symm, hnsym, hnnodes, hroot, htotal, h'.treeValid.trans h.treeValid.symm,
    h'.code.trans h.code.symm, h'.codesValid.trans h.codesValid.symm, hnodes⟩

theorem Payload.of_same (h : Payload bs pad t) (hp : SamePayload t t') :
    Payload bs pad t' := by
  obtain ⟨hpbuf, hplen, hpad, hvalid⟩ := hp
  exact ⟨by rw [hplen, h.plen], hpad.trans h.pad, hvalid.trans h.payloadValid, hpbuf ▸ h.held⟩

/-- A result is no part of the payload. -/
theorem Payload.withOutput (h : Payload bs pad t) (m : Memory) (l : Word)
    (n : Nat) : Payload bs pad { t with mem := m, outLen := l, draws := n } :=
  h.of_same ⟨rfl, rfl, rfl, rfl⟩

theorem Payload.same (h : Payload bs pad t) (h' : Payload bs pad t') :
    SamePacked t t' := by
  refine ⟨BitVec.eq_of_toNat_eq (h'.plen.trans h.plen.symm), h'.pad.trans h.pad.symm,
    h'.payloadValid.trans h.payloadValid.symm, fun k hk => ?_⟩
  rw [h.plen] at hk
  have := (h'.held k hk).trans (h.held k hk).symm
  rwa [Nat.zero_add] at this

theorem PayloadCleared.same (h : PayloadCleared t) (h' : PayloadCleared t') : SamePacked t t' := by
  obtain ⟨hplen, hpad, hvalid⟩ := h
  obtain ⟨hplen', hpad', hvalid'⟩ := h'
  refine ⟨hplen'.trans hplen.symm, hpad'.trans hpad.symm, hvalid'.trans hvalid.symm, fun k hk => ?_⟩
  rw [hplen] at hk
  exact absurd hk (Nat.not_lt_zero k)

theorem Payload.retainedOf (h : Payload bs pad t) :
    retainedOf t = retainedBits bs pad := by
  rw [Machine.retainedOf, payloadOf_of_holds h.held h.plen.symm, h.pad]

theorem withResult_same (bs : List Byte) (b b' : State) :
    SameResult (withResult bs b) (withResult bs b') := by
  obtain ⟨hheld, -⟩ := withResult_mem bs b
  obtain ⟨hheld', -⟩ := withResult_mem bs b'
  refine ⟨rfl, fun k hk => ?_⟩
  have hlt : k < bs.length := hk.trans_le (by
    rw [withResult, BitVec.toNat_ofNat]
    exact Nat.mod_le ..)
  rw [hheld k hlt, hheld' k hlt]

end

/-! ## Bodies that end alike -/

/-- Two bodies end alike: with the same result, registers and payload, or with the same error, in states that
agree in what `Left` says. -/
inductive SameEnd (Left : Raised → State → State → Prop) : BodyResult → BodyResult → Prop
  | ok {b b' : State} (result : SameResult b b') (registers : SameRegisters b b')
    (payload : SamePacked b b') : SameEnd Left (.ok b) (.ok b')
  | raised {e : Raised} {b b' : State} (left : Left e b b') : SameEnd Left (.raised e b) (.raised e b')

/-- Bodies that end alike complete with the same outcome and result. -/
theorem SameEnd.outcome {Left : Raised → State → State → Prop} {r r' : BodyResult}
    (h : SameEnd Left r r') {i : Instr} (hi : clearsOutLenOnFailure i = true) :
    (complete i r').err = (complete i r).err
      ∧ ((complete i r).err ≠ 0#4 → (complete i r').errSub = (complete i r).errSub
        ∧ (complete i r').errSym = (complete i r).errSym
        ∧ (complete i r').errStage = (complete i r).errStage
        ∧ (complete i r').errArg = (complete i r).errArg)
      ∧ SameResult (complete i r) (complete i r') := by
  cases h with
  | ok result => exact ⟨rfl, fun h => absurd rfl h, result⟩
  | @raised e b b' =>
    rw [complete_raised, complete_raised, if_pos hi, if_pos hi]
    exact ⟨rfl, fun _ => ⟨rfl, rfl, rfl, rfl⟩, rfl, fun k hk => absurd hk (Nat.not_lt_zero k)⟩

/-! ## COMPRESS -/

section

variable (s : State) (d : List Byte)

theorem uncoded_registers : Registers s.cfg.tie (countBytes d) absentTable false (uncoded s d) := by
  obtain ⟨hhist, htree, hcoh, -, -, -, hcode, hcodes, -⟩ := uncoded_leaves s d
  exact ⟨rfl, hhist, htree, hcoh, hcode, hcodes⟩

theorem coded_registers :
    Registers s.cfg.tie (countBytes d) (histCodes s.cfg.tie (countBytes d)) true (coded s d) := by
  obtain ⟨hhist, htree, hcoh, -, -, -, hcode, hcodes⟩ := coded_leaves s d
  exact ⟨rfl, hhist, htree, hcoh, hcode, hcodes⟩

theorem packed_registers :
    Registers s.cfg.tie (countBytes d) (histCodes s.cfg.tie (countBytes d)) true (packed s d) := by
  obtain ⟨hhist, htree, hcoh, -, -, -, hcode, hcodes, -⟩ := packed_leaves s d
  exact ⟨rfl, hhist, htree, hcoh, hcode, hcodes⟩

variable {s d}

theorem packed_payload (hw : s.cfg.wf = true) (hf : (packedOf s.cfg.tie d).length ≤ s.cfg.pbufCap) :
    Payload (packedOf s.cfg.tie d)
      (BitVec.ofNat 3 (padCount (encodeWith (histCodes s.cfg.tie (countBytes d)) d).length))
      (packed s d) := by
  obtain ⟨hplen, -⟩ := serializeBody_packed (d := d) hw hf
  obtain ⟨-, -, -, -, -, -, -, -, hvalid, hheld, hpad⟩ := packed_leaves s d
  exact ⟨hplen, hpad, hvalid, hheld⟩

/-- What a COMPRESS issued in `s` that raised `e` leaves: COUNT writes nothing when it raises, and GENCODES
raises before PACK. -/
def CompressLeft (s : State) (e : Raised) (b b' : State) : Prop :=
  s.inLen.toNat ≤ s.cfg.inCap →
    SameRegisters b b' ∧ (e.err ≠ .degenerateSingleSymbol → SamePacked b b')

/-- The registers after two COMPRESSes that end alike. -/
theorem SameEnd.compress_registers {r r' : BodyResult} (h : SameEnd (CompressLeft s) r r')
    (hc : s.inLen.toNat ≤ s.cfg.inCap) :
    SameRegisters (complete .compress r) (complete .compress r')
      ∧ ((complete .compress r).err ≠ 3#4 → SamePacked (complete .compress r) (complete .compress r')) := by
  cases h with
  | ok result registers payload => exact ⟨registers, fun _ => payload⟩
  | raised left =>
    obtain ⟨hregs, hpacked⟩ := left hc
    exact ⟨hregs, fun herr => hpacked fun he => herr (congrArg ErrCode.code he)⟩

/-- COMPRESS of one written input from two states of one configuration and LATCHED_DEGEN. -/
theorem compress_sameEnd_of_holds {s' : State} (hw : s.cfg.wf = true) (hcfg : s'.cfg = s.cfg)
    (hin : s'.inLen = s.inLen) (hdegen : s'.latchedDegen = s.latchedDegen) (h : Holds s.mem inBase d)
    (h' : Holds s'.mem inBase d) (hl : d.length = s.inLen.toNat) (hc : s.inLen.toNat ≤ s.cfg.inCap) :
    SameEnd (CompressLeft s) (compressBody s) (compressBody s') := by
  have hl' : d.length = s'.inLen.toNat := by rw [hl, hin]
  have hc' : s'.inLen.toNat ≤ s'.cfg.inCap := by rwa [hin, hcfg]
  obtain ⟨hk, hd⟩ | ⟨hk, hrest⟩ := compress_checks s d
  · obtain ⟨b, hb⟩ := mem_of_nonzeroCount_one hk
    have hreg' := uncoded_registers s' d
    rw [compressBody_rejected h hl hc hk hd hb,
      compressBody_rejected h' hl' hc' hk (hdegen.trans hd) hb, hin]
    rw [hcfg] at hreg'
    exact .raised fun _ => ⟨(uncoded_registers s d).same hreg', fun hne => absurd rfl hne⟩
  have hk' : s'.latchedDegen = false ∨ nonzeroCount (countBytes d) ≠ 1 := by rwa [hdegen]
  obtain hf | ⟨hf, hrest⟩ := hrest
  · obtain ⟨b, i, hloop, hbody⟩ := compressBody_pbufOver h hl hc hk hf
    obtain ⟨b', i', hloop', hbody'⟩ := compressBody_pbufOver h' hl' hc' hk' (by rwa [hcfg])
    have hreg' := coded_registers s' d
    rw [hcfg] at hloop' hreg'
    cases hloop.symm.trans hloop'
    rw [hbody, hbody']
    exact .raised fun _ => ⟨(coded_registers s d).invalidatePayload.same hreg'.invalidatePayload,
      fun _ => PayloadCleared.same ⟨rfl, rfl, rfl⟩ ⟨rfl, rfl, rfl⟩⟩
  have hw' : s'.cfg.wf = true := by rwa [hcfg]
  have hf' : (packedOf s'.cfg.tie d).length ≤ s'.cfg.pbufCap := by rwa [hcfg]
  have hreg := packed_registers s d
  have hreg' := packed_registers s' d
  have hpay := packed_payload hw hf
  have hpay' := packed_payload hw' hf'
  obtain ho | ho := hrest
  · rw [compressBody_outOver h hl hc hk hw hf ho,
      compressBody_outOver h' hl' hc' hk' hw' hf' (by rwa [hcfg])]
    rw [hcfg] at hreg' hpay' ⊢
    exact .raised fun _ => ⟨(hreg.withOutput _ _ _).same (hreg'.withOutput _ _ _),
      fun _ => (hpay.withOutput _ _ _).same (hpay'.withOutput _ _ _)⟩
  · rw [compressBody_fits h hl hc hk hw hf ho,
      compressBody_fits h' hl' hc' hk' hw' hf' (by rwa [hcfg])]
    rw [hcfg] at hreg' hpay' ⊢
    exact .ok (withResult_same ..) ((hreg.withOutput _ _ _).same (hreg'.withOutput _ _ _))
      ((hpay.withOutput _ _ _).same (hpay'.withOutput _ _ _))

/-- COMPRESS from two states with the same operands. -/
theorem compress_sameEnd {s' : State} (hw : s.cfg.wf = true) (hcfg : s'.cfg = s.cfg)
    (hin : s'.inLen = s.inLen) (hdegen : s'.latchedDegen = s.latchedDegen)
    (hwritten : s.inLen.toNat ≤ s.cfg.inCap → Written s.mem inBase s.inLen.toNat)
    (hmem : ∀ k, k < s.inLen.toNat → s'.mem.get? (inBase + k) = s.mem.get? (inBase + k)) :
    SameEnd (CompressLeft s) (compressBody s) (compressBody s') := by
  obtain hover | hc := Nat.lt_or_ge s.cfg.inCap s.inLen.toNat
  · rw [compressBody_over hover, compressBody_over (by rwa [hin, hcfg]), inLenOver, inLenOver, hin]
    exact .raised fun hc => absurd hover (Nat.not_lt.2 hc)
  · obtain ⟨d, hl, h⟩ := (hwritten hc).exists_holds
    exact compress_sameEnd_of_holds hw hcfg hin hdegen h (h.copy (by rwa [hl])) hl hc

end

/-! ## DECOMPRESS -/

/-- What a DECOMPRESS that raised `e` leaves: DESERIALIZE writes nothing when it raises. -/
def DecompressLeft (e : Raised) (b b' : State) : Prop :=
  e.stage = 0x21#8 → SameRegisters b b' ∧ SamePacked b b'

/-- UNPACK over the same registers and payload in two states of one configuration. -/
theorem unpack_sameEnd {u u' : State} {tie : TiePolicy} {hist : Vector Word 256} {code : Vector Code 256}
    {v : Bool} {bs : List Byte} {pad : BitVec 3} (hcfg : u'.cfg = u.cfg) (hreg : Registers tie hist code v u)
    (hreg' : Registers tie hist code v u') (hpay : Payload bs pad u) (hpay' : Payload bs pad u') :
    SameEnd DecompressLeft (unpackBody u) (unpackBody u') := by
  obtain ⟨-, -, hroot, htotal, -, hwalk⟩ := hreg.coherent.congr hreg'.coherent hreg.treeValid
    hreg'.treeValid (hreg'.hist.trans hreg.hist.symm) (hreg'.tie.trans hreg.tie.symm)
  have hregs := hreg.same hreg'
  have hpacked := hpay.same hpay'
  have hplen : u'.plen = u.plen := BitVec.eq_of_toNat_eq (hpay'.plen.trans hpay.plen.symm)
  have hret := hpay'.retainedOf.trans hpay.retainedOf.symm
  have htree := hreg.treeValid
  have htree' := hreg'.treeValid
  have hvalid := hpay.payloadValid
  have hvalid' := hpay'.payloadValid
  obtain hover | hfits := Nat.lt_or_ge u.cfg.outCap u.total.toNat
  · rw [unpackBody_outOver htree hvalid hover,
      unpackBody_outOver htree' hvalid' (by rwa [hcfg, htotal]), htotal]
    exact .raised fun _ => ⟨hregs, hpacked⟩
  have hfits' : u'.total.toNat ≤ u'.cfg.outCap := by rwa [hcfg, htotal]
  obtain hr | ⟨r, hr⟩ := Option.eq_none_or_eq_some u.root
  · rw [unpackBody_none htree hvalid hfits hr, unpackBody_none htree' hvalid' hfits' (hroot.trans hr)]
    by_cases hempty : u.plen = 0#32
    · rw [if_neg (not_not_intro hempty), if_neg (not_not_intro (hplen.trans hempty))]
      exact .ok ⟨rfl, fun k hk => absurd hk (Nat.not_lt_zero k)⟩ hregs hpacked
    · rw [if_pos hempty, if_pos (hplen ▸ hempty), hplen]
      exact .raised fun _ => ⟨hregs, hpacked⟩
  · have hr' := hroot.trans hr
    have hsame : walk u'.node r u'.total.toNat (retainedOf u')
        = walk u.node r u.total.toNat (retainedOf u) := by
      rw [htotal, hret, hwalk r hr]
    cases he : (walk u.node r u.total.toNat (retainedOf u)).error with
    | none =>
      rw [unpackBody_walk_done htree hvalid hfits hr he,
        unpackBody_walk_done htree' hvalid' hfits' hr' (by rw [hsame, he]), hsame]
      exact .ok (withResult_same _ { u with draws := (readPayload u).2.draws }
        { u' with draws := (readPayload u').2.draws }) hregs hpacked
    | some e =>
      rw [unpackBody_walk_error htree hvalid hfits hr he,
        unpackBody_walk_error htree' hvalid' hfits' hr' (by rw [hsame, he])]
      exact .raised fun _ => ⟨hregs, hpacked⟩

section

variable (s : State) {B : List Byte} (n : Nat)

theorem rebuilt_registers : Registers s.cfg.tie (parseHist B) absentTable false (rebuilt s B n) := by
  obtain ⟨hhist, htree, hcoh, -, -, -, hcode, hcodes, -⟩ := rebuilt_leaves s n B
  exact ⟨rfl, hhist, htree, hcoh, hcode, hcodes⟩

theorem rebuilt_cfg : (rebuilt s B n).cfg = s.cfg := rfl

theorem rebuilt_holdsPayload (hlt : B.length < 2 ^ 32) :
    Payload (parsePayload B) ((parsePad B).setWidth 3) (rebuilt s B n) := by
  obtain ⟨hplen, hheld, hpad⟩ := rebuilt_payload s n hlt
  exact ⟨by rw [hplen, parsePayload_length], hpad, rfl, hheld⟩

end

/-- The registers after two DECOMPRESSes that end alike. -/
theorem SameEnd.decompress_registers {r r' : BodyResult} (h : SameEnd DecompressLeft r r')
    (herr : (complete .decompress r).err = 0#4 ∨ (complete .decompress r).errStage = 0x21#8) :
    SameRegisters (complete .decompress r) (complete .decompress r')
      ∧ SamePacked (complete .decompress r) (complete .decompress r') := by
  cases h with
  | ok result registers payload => exact ⟨registers, payload⟩
  | raised left =>
    obtain hzero | hstage := herr
    · exact absurd hzero (ErrCode.code_ne_zero _)
    · exact left hstage

section

variable {s s' : State}

/-- DESERIALIZE raises the same error in both states. -/
theorem decompress_sameEnd_of_raised {e : Raised} {b b' : State} (h : deserializeBody s = .raised e b)
    (h' : deserializeBody s' = .raised e b') (hstage : e.stage = 0x20#8) :
    SameEnd DecompressLeft (decompressBody s) (decompressBody s') := by
  rw [decompressBody_of_raised h, decompressBody_of_raised h']
  refine .raised fun hunpack => ?_
  rw [hstage] at hunpack
  cases hunpack

/-- DECOMPRESS of one written container from two states of one configuration. -/
theorem decompress_sameEnd_of_holds {B : List Byte} (hcfg : s'.cfg = s.cfg) (hin : s'.inLen = s.inLen)
    (h : Holds s.mem inBase B) (h' : Holds s'.mem inBase B) (hl : B.length = s.inLen.toNat)
    (hc : s.inLen.toNat ≤ s.cfg.inCap) :
    SameEnd DecompressLeft (decompressBody s) (decompressBody s') := by
  have hl' : B.length = s'.inLen.toNat := by rw [hl, hin]
  have hc' : s'.inLen.toNat ≤ s'.cfg.inCap := by rwa [hin, hcfg]
  obtain hshort | hlong := Nat.lt_or_ge s.inLen.toNat 1025
  · have hbody' := deserializeBody_short hc' (by rwa [hin])
    rw [hin] at hbody'
    exact decompress_sameEnd_of_raised (deserializeBody_short hc hshort) hbody' rfl
  have hread := deserializeBody_read hc hlong
  have hread' := deserializeBody_read hc' (by rwa [hin])
  rw [inputOf_of_holds h hl] at hread
  rw [inputOf_of_holds h' hl', hin, hcfg] at hread'
  by_cases hrange : 7 < (parsePad B).toNat
  · rw [if_pos hrange] at hread hread'
    exact decompress_sameEnd_of_raised hread hread' rfl
  rw [if_neg hrange] at hread hread'
  by_cases hexceeds : 8 * (s.inLen.toNat - 1025) < (parsePad B).toNat
  · rw [if_pos hexceeds] at hread hread'
    exact decompress_sameEnd_of_raised hread hread' rfl
  rw [if_neg hexceeds] at hread hread'
  by_cases hover : s.cfg.pbufCap < s.inLen.toNat - 1025
  · rw [if_pos hover] at hread hread'
    exact decompress_sameEnd_of_raised hread hread' rfl
  rw [if_neg hover] at hread hread'
  rw [decompressBody_of_ok hread, decompressBody_of_ok hread']
  have hlt : B.length < 2 ^ 32 := hl.trans_lt s.inLen.isLt
  have hreg' := rebuilt_registers s' (B := B) (readInput s').2.draws
  rw [hcfg] at hreg'
  have hcfgs := (rebuilt_cfg s' (B := B) (readInput s').2.draws).trans
    (hcfg.trans (rebuilt_cfg s (B := B) (readInput s).2.draws).symm)
  exact unpack_sameEnd hcfgs (rebuilt_registers s _) hreg' (rebuilt_holdsPayload s _ hlt)
    (rebuilt_holdsPayload s' _ hlt)

/-- DECOMPRESS from two states with the same operands. -/
theorem decompress_sameEnd (hcfg : s'.cfg = s.cfg) (hin : s'.inLen = s.inLen)
    (hwritten : s.inLen.toNat ≤ s.cfg.inCap → Written s.mem inBase s.inLen.toNat)
    (hmem : ∀ k, k < s.inLen.toNat → s'.mem.get? (inBase + k) = s.mem.get? (inBase + k)) :
    SameEnd DecompressLeft (decompressBody s) (decompressBody s') := by
  obtain hover | hc := Nat.lt_or_ge s.cfg.inCap s.inLen.toNat
  · have hbody' := deserializeBody_inLenOver (s := s') (by rwa [hin, hcfg])
    rw [inLenOver, hin] at hbody'
    exact decompress_sameEnd_of_raised (deserializeBody_inLenOver hover) hbody' rfl
  · obtain ⟨B, hl, h⟩ := (hwritten hc).exists_holds
    exact decompress_sameEnd_of_holds hcfg hin h (h.copy (by rwa [hl])) hl hc

end

/-- Settles O40: the bodies end alike, and so do the commands; the registers agree where the bodies wrote
them. -/
theorem pipelinesAreStateless : Obligations.PipelinesAreStateless := by
  refine ⟨fun s s' t t' hw hcfg hin hdegen hwritten hmem hexec hexec' => ?_,
    fun s s' t t' hw hcfg hin hwritten hmem hexec hexec' => ?_⟩ <;>
    obtain rfl := exec_next hexec <;> obtain rfl := exec_next hexec'
  · have hend := compress_sameEnd hw hcfg hin hdegen hwritten hmem
    obtain ⟨herr, hinfo, hout, hbytes⟩ := hend.outcome (i := .compress) rfl
    refine ⟨herr, hout, hinfo, hbytes, fun hc => ?_⟩
    obtain ⟨⟨hhist, hnsym, hnnodes, hroot, htotal, hvalid, hcode, hcodes, hnodes⟩, hpacked⟩ :=
      hend.compress_registers hc
    exact ⟨hhist, hnsym, hnnodes, hroot, htotal, hvalid, hcode, hcodes, hnodes, hpacked⟩
  · have hend := decompress_sameEnd hcfg hin hwritten hmem
    obtain ⟨herr, hinfo, hout, hbytes⟩ := hend.outcome (i := .decompress) rfl
    refine ⟨herr, hout, hinfo, hbytes, fun hwrites => ?_⟩
    obtain ⟨⟨hhist, hnsym, hnnodes, hroot, htotal, hvalid, hcode, hcodes, hnodes⟩, hpacked⟩ :=
      hend.decompress_registers hwrites
    exact ⟨hhist, hnsym, hnnodes, hroot, htotal, hvalid, hcode, hcodes, hnodes, hpacked⟩

end Sys2Proof.Machine
end

section
/-! PROOF. The completion step of every command, the totality of a step, and the interrupt line
(30_encoding.md R94; 60_exceptions.md R177, R185, R187; 10_state.md R59). -/

namespace Sys2Proof.Machine

/-! ## Completion -/

/-- The completion step leaves the configuration, the host's registers and the port to the body, which
leaves them alone (30_encoding.md R94). -/
theorem complete_sameControl (i : Instr) (s : State) : SameControl s (complete i (bodyOf i s)) := by
  obtain ⟨hcontrol, -⟩ := bodyOf_kept i s
  obtain ⟨_, _, _, _, _, _, hcomplete, -⟩ := complete_state i (bodyOf i s)
  rw [hcomplete]
  exact hcontrol

theorem complete_busy (i : Instr) (r : BodyResult) : (complete i r).busy = false := by
  cases r <;> rfl

theorem complete_done (i : Instr) (r : BodyResult) : (complete i r).done = true := by
  cases r <;> rfl

/-- A success leaves ERRINFO and ERRARG as they were (60_exceptions.md R177). -/
theorem complete_success_keeps_errInfo {i : Instr} {s : State}
    (h : (complete i (bodyOf i s)).err = 0#4) :
    (complete i (bodyOf i s)).errSub = s.errSub ∧ (complete i (bodyOf i s)).errSym = s.errSym
      ∧ (complete i (bodyOf i s)).errStage = s.errStage
      ∧ (complete i (bodyOf i s)).errArg = s.errArg := by
  obtain ⟨b, hb⟩ := complete_err_zero h
  obtain ⟨-, ⟨-, hsub, hsym, hstage, harg, -⟩, -⟩ := exec_completedOk hb
  rw [hb]
  exact ⟨hsub, hsym, hstage, harg⟩

/-! ## Every step answers a next state -/

/-- The core's turn neither faults nor refuses (60_exceptions.md R185). -/
theorem coreTurn_next (s : State) : ∃ t, coreTurn s = .next t ∧ t.cfg = s.cfg := by
  obtain ⟨-, h⟩ | ⟨-, i, -, h⟩ | ⟨-, e, -, h⟩ := coreTurn_cases s
  · exact ⟨s, h, rfl⟩
  · exact ⟨_, h, (complete_sameControl i s).1⟩
  · exact ⟨_, h, rfl⟩

theorem step_next (s : State) : ∃ t, step s = .next t ∧ t.cfg = s.cfg := by
  cases hi : s.inbox with
  | nil => rw [step_of_nil hi]; exact coreTurn_next s
  | cons event rest =>
    cases event with
    | bus x => exact ⟨_, step_of_bus hi, busStep_cfg x _⟩
    | core => rw [step_of_core hi]; exact coreTurn_next { s with inbox := rest }
    | reset => exact ⟨_, step_of_reset hi, rfl⟩

/-- Settles O5: no body writes what the statement names, and every event has its next state. -/
theorem everyCommandCompletes : Obligations.EveryCommandCompletes :=
  ⟨fun i s => ⟨_, exec_eq i s, complete_busy i _, complete_done i _, complete_sameControl i s,
    complete_success_keeps_errInfo⟩, step_next⟩

/-! ## The interrupt line -/

/-- A completion step, whatever its outcome, sets DONE and leaves IE alone (60_exceptions.md R177). -/
theorem coreTurn_raises_done {s t : State} (hb : s.busy = true) (h : coreTurn s = .next t) :
    t.done = true ∧ t.ie = s.ie := by
  obtain ⟨hidle, -⟩ | ⟨-, i, -, e⟩ | ⟨-, why, -, e⟩ := coreTurn_cases s
  · exact absurd (hidle.symm.trans hb) Bool.false_ne_true
  · obtain rfl := Host.Outcome.next.inj (e.symm.trans h)
    obtain ⟨-, hie, -⟩ := complete_sameControl i s
    exact ⟨complete_done i _, hie⟩
  · obtain rfl := Host.Outcome.next.inj (e.symm.trans h)
    exact ⟨rfl, rfl⟩

/-- Settles O51: the completion step sets DONE, and the writes of STATUS, CTRL and CMD are `csrWrite`. -/
theorem interruptFollowsIeAndDone : Obligations.InterruptFollowsIeAndDone := by
  refine ⟨fun _ => rfl, fun s t hb h => ?_, fun s v => ?_, fun s v => ?_, fun s w hb => ?_,
    fun s => rfl⟩
  · obtain ⟨hdone, hie⟩ := coreTurn_raises_done hb h
    exact ⟨hdone, by rw [irq, hdone, hie, Bool.and_true]⟩
  · have hwrite := busStep_write s .status v (.inr rfl)
    rw [csrWrite, writeStatus_eq] at hwrite
    exact hwrite ▸ ⟨rfl, rfl⟩
  · have hwrite := busStep_write s .ctrl v (.inr rfl)
    exact hwrite ▸ ⟨rfl, rfl⟩
  · have hwrite := busStep_write s .cmd w (.inl hb)
    exact hwrite ▸ Bool.and_false s.ie

end Sys2Proof.Machine
end

section
/-! PROOF. Failures: which errors each command raises, with or without a symbol, and what a failure does
to OUT_LEN (60_exceptions.md R173, R174, R178). -/

namespace Sys2Proof.Machine

/-! ## OUT_LEN -/

theorem countBody_outLen (s : State) : (countBody s).state.outLen = s.outLen := by
  unfold countBody
  split <;> rfl

theorem gencodesBody_outLen (s : State) : (gencodesBody s).state.outLen = s.outLen := by
  unfold gencodesBody
  repeat' split
  all_goals rfl

theorem packBody_outLen (s : State) : (packBody s).state.outLen = s.outLen := by
  unfold packBody
  dsimp only
  repeat' split
  all_goals rfl

theorem deserializeBody_outLen (s : State) : (deserializeBody s).state.outLen = s.outLen := by
  unfold deserializeBody
  dsimp only
  repeat' split
  all_goals rfl

/-- Where a failure does not clear OUT_LEN, the body has not written it either. -/
theorem bodyOf_raised_outLen {i : Instr} {s t : State} {e : Raised}
    (hi : clearsOutLenOnFailure i = false) (h : bodyOf i s = .raised e t) : t.outLen = s.outLen := by
  have hstate : t = (bodyOf i s).state := by rw [h]; rfl
  rw [hstate]
  cases i with
  | nop => rfl
  | clear => cases h
  | count => exact countBody_outLen s
  | build => rfl
  | gencodes => exact gencodesBody_outLen s
  | pack => exact packBody_outLen s
  | deserialize => exact deserializeBody_outLen s
  | serialize | unpack | compress | decompress => cases hi

theorem exec_failed {i : Instr} {s t : State} (h : exec i s = .next t) (he : t.err ≠ 0#4) :
    ∃ e b, bodyOf i s = .raised e b ∧ t = complete i (.raised e b) := by
  obtain rfl := exec_next h
  obtain ⟨e, b, hb⟩ := complete_err_ne_zero he
  exact ⟨e, b, hb, congrArg (complete i) hb⟩

/-- Settles O46: the completion step clears OUT_LEN for the four commands, and for the others neither it
nor the body writes OUT_LEN. -/
theorem failureClearsOutLen : Obligations.FailureClearsOutLen := by
  intro i s t hexec herr
  obtain ⟨e, b, hbody, rfl⟩ := exec_failed hexec herr
  rw [complete_raised]
  refine ⟨fun hi => if_pos ?_, fun hi => ?_⟩
  · obtain rfl | rfl | rfl | rfl := hi <;> rfl
  · have hkeeps : clearsOutLenOnFailure i = false := by
      obtain rfl | rfl | rfl | rfl | rfl | rfl | rfl := hi <;> rfl
    exact (if_neg (by simp [hkeeps])).trans (bodyOf_raised_outLen hkeeps hbody)

/-! ## The table of errors -/

/-- The row of a raise in the table of errors, as (ERR, SUBCODE, STAGE). -/
def Raised.row (e : Raised) : Nat × Nat × Nat := (e.err.code.toNat, e.sub.toNat, e.stage.toNat)

/-- The raise is in one of the rows, and carries a symbol only where its row has one
(60_exceptions.md R174). -/
def Raised.IsIn (rows : List (Nat × Nat × Nat)) (e : Raised) : Prop :=
  e.row ∈ rows ∧ (e.sym ≠ 0#8 → e.row ∈ errorsWithSym)

section

variable {rows rows' : List (Nat × Nat × Nat)} {e : Raised}

theorem Raised.IsIn.mono (h : e.IsIn rows) (hsub : rows ⊆ rows') : e.IsIn rows' := ⟨hsub h.1, h.2⟩

theorem Raised.isIn_of_noSym (row : Nat × Nat × Nat) (hrow : e.row = row) (hsym : e.sym = 0#8)
    (hmem : row ∈ rows) : e.IsIn rows := ⟨hrow ▸ hmem, fun h => absurd hsym h⟩

theorem Raised.isIn_of_withSym (row : Nat × Nat × Nat) (hrow : e.row = row) (hsym : row ∈ errorsWithSym)
    (hmem : row ∈ rows) : e.IsIn rows := ⟨hrow ▸ hmem, fun _ => hrow ▸ hsym⟩

end

/-! ## What each body raises -/

section

variable {s t : State} {e : Raised}

theorem countBody_raised_isIn (h : countBody s = .raised e t) : e.IsIn (errorsOf .count) := by
  obtain hover | hin := Nat.lt_or_ge s.cfg.inCap s.inLen.toNat
  · cases (countBody_over hover).symm.trans h
    exact Raised.isIn_of_noSym (5, 1, 0x10) rfl rfl (by decide)
  · cases (countBody_ok hin).symm.trans h

theorem gencodesBody_raised_isIn (h : gencodesBody s = .raised e t) :
    (s.treeValid = false ∧ e.IsIn [(6, 1, 0x12)]) ∨ e.IsIn [(3, 1, 0x12)] := by
  cases htree : s.treeValid with
  | false =>
    cases (gencodesBody_invalid htree).symm.trans h
    exact .inl ⟨rfl, Raised.isIn_of_noSym (6, 1, 0x12) rfl rfl (by decide)⟩
  | true =>
    by_cases hforce : singleLeafSym s = none ∨ s.latchedDegen = false
    · cases (gencodesBody_ok htree hforce).symm.trans h
    · rw [not_or, Bool.not_eq_false, ← ne_eq, Option.ne_none_iff_exists'] at hforce
      obtain ⟨⟨sym, hsym⟩, hreject⟩ := hforce
      cases (gencodesBody_reject htree hsym hreject).symm.trans h
      exact .inr (Raised.isIn_of_withSym (3, 1, 0x12) rfl (by decide) (by decide))

theorem packBody_raised_isIn (h : packBody s = .raised e t) :
    (s.codesValid = false ∧ e.IsIn [(6, 2, 0x13)])
      ∨ (s.cfg.inCap < s.inLen.toNat ∧ e.IsIn [(5, 1, 0x13)])
      ∨ e.IsIn [(7, 1, 0x13), (5, 2, 0x13)] := by
  cases hcodes : s.codesValid with
  | false =>
    cases (packBody_codesInvalid hcodes).symm.trans h
    exact .inl ⟨rfl, Raised.isIn_of_noSym (6, 2, 0x13) rfl rfl (by decide)⟩
  | true =>
    obtain hover | hin := Nat.lt_or_ge s.cfg.inCap s.inLen.toNat
    · cases (packBody_inLenOver hcodes hover).symm.trans h
      exact .inr (.inl ⟨hover, Raised.isIn_of_noSym (5, 1, 0x13) rfl rfl (by decide)⟩)
    · rw [packBody_run hcodes hin] at h
      split at h <;> cases h
      · exact .inr (.inr (Raised.isIn_of_withSym (7, 1, 0x13) rfl (by decide) (by decide)))
      · exact .inr (.inr (Raised.isIn_of_withSym (5, 2, 0x13) rfl (by decide) (by decide)))

theorem serializeBody_raised_isIn (h : serializeBody s = .raised e t) :
    (s.payloadValid = false ∧ e.IsIn [(6, 3, 0x14)]) ∨ e.IsIn [(5, 3, 0x14)] := by
  cases hpayload : s.payloadValid with
  | false =>
    cases (serializeBody_payloadInvalid hpayload).symm.trans h
    exact .inl ⟨rfl, Raised.isIn_of_noSym (6, 3, 0x14) rfl rfl (by decide)⟩
  | true =>
    obtain hover | hfits := Nat.lt_or_ge s.cfg.outCap (1025 + s.plen.toNat)
    · cases (serializeBody_outOver hpayload hover).symm.trans h
      exact .inr (Raised.isIn_of_noSym (5, 3, 0x14) rfl rfl (by decide))
    · cases (serializeBody_ok hpayload hfits).symm.trans h

theorem deserializeBody_raised_isIn (h : deserializeBody s = .raised e t) :
    e.IsIn (errorsOf .deserialize) := by
  obtain hover | hin := Nat.lt_or_ge s.cfg.inCap s.inLen.toNat
  · cases (deserializeBody_inLenOver hover).symm.trans h
    exact Raised.isIn_of_noSym (5, 1, 0x20) rfl rfl (by decide)
  obtain hshort | hlong := Nat.lt_or_ge s.inLen.toNat 1025
  · cases (deserializeBody_short hin hshort).symm.trans h
    exact Raised.isIn_of_noSym (1, 1, 0x20) rfl rfl (by decide)
  rw [deserializeBody_read hin hlong] at h
  split at h
  · cases h
    exact Raised.isIn_of_withSym (1, 2, 0x20) rfl (by decide) (by decide)
  split at h
  · cases h
    exact Raised.isIn_of_withSym (1, 3, 0x20) rfl (by decide) (by decide)
  split at h <;> cases h
  exact Raised.isIn_of_noSym (5, 2, 0x20) rfl rfl (by decide)

end

/-! ## What UNPACK raises -/

/-- The errors of a walk (43_bit_packer.md R148). -/
def walkErrors : List (Nat × Nat × Nat) := [(1, 4, 0x21), (1, 5, 0x21), (1, 6, 0x21)]

theorem truncatedCode_isIn (j : Nat) : (walkError 4#8 0#8 j).IsIn walkErrors :=
  Raised.isIn_of_noSym (1, 4, 0x21) rfl rfl (by decide)

theorem countMismatch_isIn (sym : Byte) (j : Nat) : (walkError 5#8 sym j).IsIn walkErrors :=
  Raised.isIn_of_withSym (1, 5, 0x21) rfl (by decide) (by decide)

theorem badBit_isIn (sym : Byte) (j : Nat) : (walkError 6#8 sym j).IsIn walkErrors :=
  Raised.isIn_of_withSym (1, 6, 0x21) rfl (by decide) (by decide)

theorem walkLeaf_error_isIn {sym : Byte} {total j n : Nat} {bits : Bits} {e : Raised}
    (h : (walkLeaf sym total j n bits).error = some e) : e.IsIn walkErrors := by
  induction bits generalizing j n with
  | nil =>
    rw [walkLeaf] at h
    split at h <;> cases h
    exact countMismatch_isIn _ _
  | cons b bits ih =>
    rw [walkLeaf] at h
    split at h
    · cases h
      exact badBit_isIn _ _
    split at h
    · cases h
      exact countMismatch_isIn _ _
    · exact ih h

theorem walkTree_error_isIn {node : Vector Node 511} {root pos : NodeIdx} {total j n : Nat} {bits : Bits}
    {e : Raised} (h : (walkTree node root total pos j n bits).error = some e) : e.IsIn walkErrors := by
  induction bits generalizing pos j n with
  | nil =>
    rw [walkTree] at h
    dsimp only at h
    split at h
    · cases h
      exact truncatedCode_isIn _
    split at h <;> cases h
    exact countMismatch_isIn _ _
  | cons b bits ih =>
    rw [walkTree] at h
    split at h
    · split at h
      · cases h
        exact countMismatch_isIn _ _
      · exact ih h
    · exact ih h

theorem walk_error_isIn {node : Vector Node 511} {root : NodeIdx} {total : Nat} {bits : Bits} {e : Raised}
    (h : (walk node root total bits).error = some e) : e.IsIn walkErrors := by
  unfold walk at h
  split at h
  · exact walkLeaf_error_isIn h
  · exact walkTree_error_isIn h

section

variable {s t : State} {e : Raised}

theorem unpackBody_raised_isIn (h : unpackBody s = .raised e t) :
    (s.treeValid = false ∧ e.IsIn [(6, 1, 0x21)]) ∨ (s.payloadValid = false ∧ e.IsIn [(6, 3, 0x21)])
      ∨ e.IsIn ((5, 3, 0x21) :: (2, 1, 0x21) :: walkErrors) := by
  obtain ht | ⟨ht, hp⟩ | ⟨ht, hp, hover⟩ | ⟨ht, hp, hfits, hr | ⟨r, hr⟩⟩ := unpack_checks s
  · cases (unpackBody_treeInvalid ht).symm.trans h
    exact .inl ⟨ht, Raised.isIn_of_noSym (6, 1, 0x21) rfl rfl (by decide)⟩
  · cases (unpackBody_payloadInvalid ht hp).symm.trans h
    exact .inr (.inl ⟨hp, Raised.isIn_of_noSym (6, 3, 0x21) rfl rfl (by decide)⟩)
  · cases (unpackBody_outOver ht hp hover).symm.trans h
    exact .inr (.inr (Raised.isIn_of_noSym (5, 3, 0x21) rfl rfl (by decide)))
  · rw [unpackBody_none ht hp hfits hr] at h
    split at h <;> cases h
    exact .inr (.inr (Raised.isIn_of_noSym (2, 1, 0x21) rfl rfl (by decide)))
  · cases he : (walk s.node r s.total.toNat (retainedOf s)).error with
    | none => cases (unpackBody_walk_done ht hp hfits hr he).symm.trans h
    | some e' =>
      cases (unpackBody_walk_error ht hp hfits hr he).symm.trans h
      exact .inr (.inr ((walk_error_isIn he).mono (by decide)))

/-! ## What the composites raise -/

/-- COUNT's check is PACK's, BUILD leaves a valid tree, GENCODES a valid table and PACK a valid payload, so
these checks do not fail (45_pipeline_and_control.md R161). -/
theorem compressBody_raised_isIn (h : compressBody s = .raised e t) : e.IsIn (errorsOf .compress) := by
  obtain h | ⟨packed, hpacked, hserialize⟩ := BodyResult.andThen_raised h
  swap
  · obtain ⟨coded, -, hpack⟩ := BodyResult.andThen_ok hpacked
    obtain ⟨-, -, bits, -, rfl⟩ := packBody_cases hpack
    obtain ⟨hinvalid, -⟩ | hrow := serializeBody_raised_isIn hserialize
    · cases hinvalid
    · exact hrow.mono (by decide)
  obtain h | ⟨coded, hcoded, hpack⟩ := BodyResult.andThen_raised h
  swap
  · obtain ⟨built, hbuilt, hgencodes⟩ := BodyResult.andThen_ok hcoded
    obtain ⟨counted, hcount, hbuild⟩ := BodyResult.andThen_ok hbuilt
    obtain ⟨hin, rfl⟩ := countBody_cases hcount
    cases hbuild
    obtain ⟨-, -, rfl⟩ := gencodesBody_cases hgencodes
    obtain ⟨hinvalid, -⟩ | ⟨hover, -⟩ | hrow := packBody_raised_isIn hpack
    · cases hinvalid
    · exact absurd hin (Nat.not_le.2 hover)
    · exact hrow.mono (by decide)
  obtain h | ⟨built, hbuilt, hgencodes⟩ := BodyResult.andThen_raised h
  swap
  · obtain ⟨counted, -, hbuild⟩ := BodyResult.andThen_ok hbuilt
    cases hbuild
    obtain ⟨hinvalid, -⟩ | hrow := gencodesBody_raised_isIn hgencodes
    · cases hinvalid
    · exact hrow.mono (by decide)
  obtain h | ⟨counted, -, hbuild⟩ := BodyResult.andThen_raised h
  swap
  · cases hbuild
  exact (countBody_raised_isIn h).mono (by decide)

/-- DESERIALIZE leaves a valid payload and BUILD a valid tree (45_pipeline_and_control.md R162). -/
theorem decompressBody_raised_isIn (h : decompressBody s = .raised e t) :
    e.IsIn (errorsOf .decompress) := by
  obtain h | ⟨built, hbuilt, hunpack⟩ := BodyResult.andThen_raised h
  swap
  · obtain ⟨parsed, hparse, hbuild⟩ := BodyResult.andThen_ok hbuilt
    obtain ⟨-, -, -, -, -, rfl⟩ := deserializeBody_cases hparse
    cases hbuild
    obtain ⟨hinvalid, -⟩ | ⟨hinvalid, -⟩ | hrow := unpackBody_raised_isIn hunpack
    · cases hinvalid
    · cases hinvalid
    · exact hrow.mono (by decide)
  obtain h | ⟨parsed, -, hbuild⟩ := BodyResult.andThen_raised h
  swap
  · cases hbuild
  exact (deserializeBody_raised_isIn h).mono (by decide)

end

/-- Each command's body raises only what the table lists for it. -/
theorem bodyOf_raised_isIn {i : Instr} {s t : State} {e : Raised} (h : bodyOf i s = .raised e t) :
    e.IsIn (errorsOf i) := by
  cases i with
  | nop | clear | build => cases h
  | count => exact countBody_raised_isIn h
  | gencodes =>
    obtain ⟨-, hrow⟩ | hrow := gencodesBody_raised_isIn h <;> exact hrow.mono (by decide)
  | pack =>
    obtain ⟨-, hrow⟩ | ⟨-, hrow⟩ | hrow := packBody_raised_isIn h <;> exact hrow.mono (by decide)
  | serialize =>
    obtain ⟨-, hrow⟩ | hrow := serializeBody_raised_isIn h <;> exact hrow.mono (by decide)
  | deserialize => exact deserializeBody_raised_isIn h
  | unpack =>
    obtain ⟨-, hrow⟩ | ⟨-, hrow⟩ | hrow := unpackBody_raised_isIn h <;> exact hrow.mono (by decide)
  | compress => exact compressBody_raised_isIn h
  | decompress => exact decompressBody_raised_isIn h

/-- Settles O47: the completion step records what the body raised. -/
theorem failuresAreInTheTable : Obligations.FailuresAreInTheTable := by
  intro i s t hexec herr
  obtain ⟨e, b, hbody, rfl⟩ := exec_failed hexec herr
  rw [complete_raised]
  exact bodyOf_raised_isIn hbody

end Sys2Proof.Machine
end

section
/-! PROOF. A composite command ends as its components do when the host issues them one by one, apart from
LASTCMD (60_exceptions.md R195; 45_pipeline_and_control.md R161, R162). -/

namespace Sys2Proof.Machine

/-! ## LASTCMD does not matter to a body -/

/-- LASTCMD ← w. -/
def setLastCmd (w : Word) (s : State) : State := { s with lastCmd := w }

section

variable {s t : State} (w : Word)

theorem countBody_setLastCmd (h : countBody s = .ok t) :
    countBody (setLastCmd w s) = .ok (setLastCmd w t) := by
  obtain ⟨hin, rfl⟩ := countBody_cases h
  exact countBody_ok hin

theorem gencodesBody_setLastCmd (h : gencodesBody s = .ok t) :
    gencodesBody (setLastCmd w s) = .ok (setLastCmd w t) := by
  obtain ⟨hvalid, hforce, rfl⟩ := gencodesBody_cases h
  exact gencodesBody_ok hvalid hforce

theorem packBody_setLastCmd (h : packBody s = .ok t) :
    packBody (setLastCmd w s) = .ok (setLastCmd w t) := by
  obtain ⟨hcodes, hin, hpresent, hfits, rfl⟩ := packBody_ok_cases h
  exact packBody_ok (s := setLastCmd w s) hcodes hin hpresent hfits

theorem serializeBody_setLastCmd (h : serializeBody s = .ok t) :
    serializeBody (setLastCmd w s) = .ok (setLastCmd w t) := by
  obtain ⟨hvalid, hfits, rfl⟩ := serializeBody_cases h
  exact serializeBody_ok hvalid hfits

theorem deserializeBody_setLastCmd (h : deserializeBody s = .ok t) :
    deserializeBody (setLastCmd w s) = .ok (setLastCmd w t) := by
  obtain ⟨hin, hlong, hpad, hbits, hfits, rfl⟩ := deserializeBody_cases h
  exact deserializeBody_ok hin hlong hpad hbits hfits

theorem unpackBody_setLastCmd (h : unpackBody s = .ok t) :
    unpackBody (setLastCmd w s) = .ok (setLastCmd w t) := by
  obtain ⟨htree, hpayload, hfits, ⟨hroot, hplen, rfl⟩ | ⟨r, hroot, hwalk, rfl⟩⟩ := unpackBody_cases h
  · exact (unpackBody_none (s := setLastCmd w s) htree hpayload hfits hroot).trans
       (if_neg (not_not_intro hplen))
  · exact unpackBody_walk_done (s := setLastCmd w s) htree hpayload hfits hroot hwalk

/-- Each sub-operation runs to its end whatever LASTCMD holds, so their chain does. -/
theorem andThen_setLastCmd {r r' : BodyResult} {f : State → BodyResult}
    (hr : ∀ u, r = .ok u → r' = .ok (setLastCmd w u))
    (hf : ∀ u v, f u = .ok v → f (setLastCmd w u) = .ok (setLastCmd w v))
    (h : r.andThen f = .ok t) : r'.andThen f = .ok (setLastCmd w t) := by
  obtain ⟨u, hu, ht⟩ := BodyResult.andThen_ok h
  rw [hr u hu]
  exact hf u t ht

end

/-- No body reads LASTCMD: one that runs to its end does so whatever LASTCMD holds, and keeps it. -/
theorem bodyOf_setLastCmd (i : Instr) (w : Word) {s t : State} (h : bodyOf i s = .ok t) :
    bodyOf i (setLastCmd w s) = .ok (setLastCmd w t) := by
  have hbuild : ∀ u v, buildBody u = .ok v → buildBody (setLastCmd w u) = .ok (setLastCmd w v) :=
    fun _ _ h => by cases h; rfl
  cases i with
  | nop => cases h; rfl
  | clear => cases h; rfl
  | count => exact countBody_setLastCmd w h
  | build => exact hbuild s t h
  | gencodes => exact gencodesBody_setLastCmd w h
  | pack => exact packBody_setLastCmd w h
  | serialize => exact serializeBody_setLastCmd w h
  | deserialize => exact deserializeBody_setLastCmd w h
  | unpack => exact unpackBody_setLastCmd w h
  | compress =>
    exact andThen_setLastCmd w (fun _ => andThen_setLastCmd w (fun _ => andThen_setLastCmd w
      (fun _ => andThen_setLastCmd w (fun _ => countBody_setLastCmd w) hbuild)
      fun _ _ => gencodesBody_setLastCmd w) fun _ _ => packBody_setLastCmd w)
      (fun _ _ => serializeBody_setLastCmd w) h
  | decompress =>
    exact andThen_setLastCmd w (fun _ => andThen_setLastCmd w
      (fun _ => deserializeBody_setLastCmd w) hbuild) (fun _ _ => unpackBody_setLastCmd w) h

/-! ## The bodies of a composite, one after another -/

/-- The bodies of the components run one after another, each to its end, within one completion step. -/
def BodiesInTurn : List Instr → State → State → Prop
  | [], s, t => t = s
  | i :: is, s, t => ∃ u, bodyOf i s = .ok u ∧ BodiesInTurn is u t

theorem compressBody_bodiesInTurn {s t : State} (h : compressBody s = .ok t) :
    BodiesInTurn [.count, .build, .gencodes, .pack, .serialize] s t := by
  obtain ⟨packed, h, hserialize⟩ := BodyResult.andThen_ok h
  obtain ⟨coded, h, hpack⟩ := BodyResult.andThen_ok h
  obtain ⟨built, h, hgencodes⟩ := BodyResult.andThen_ok h
  obtain ⟨counted, hcount, hbuild⟩ := BodyResult.andThen_ok h
  exact ⟨counted, hcount, built, hbuild, coded, hgencodes, packed, hpack, t, hserialize, rfl⟩

theorem decompressBody_bodiesInTurn {s t : State} (h : decompressBody s = .ok t) :
    BodiesInTurn [.deserialize, .build, .unpack] s t := by
  obtain ⟨built, h, hunpack⟩ := BodyResult.andThen_ok h
  obtain ⟨parsed, hparse, hbuild⟩ := BodyResult.andThen_ok h
  exact ⟨parsed, hparse, built, hbuild, t, hunpack, rfl⟩

/-! ## Between two components -/

/-- BUSY, DONE, the outcome registers and LATCHED_DEGEN as an issue leaves them (20_memory.md R73). -/
def Issued (s : State) : Prop :=
  s.busy = true ∧ s.done = false ∧ s.err = 0#4 ∧ OutcomeClear s ∧ s.latchedDegen = s.degen

theorem issue_issued (w : Word) (s : State) : Issued (issue w s) :=
  ⟨rfl, rfl, rfl, ⟨rfl, rfl, rfl, rfl⟩, rfl⟩

/-- A body writes none of these. -/
theorem Issued.bodyOf {i : Instr} {s t : State} (h : Issued s) (hbody : bodyOf i s = .ok t) :
    Issued t := by
  obtain ⟨hbusy, hdone, herr, ⟨hsub, hsym, hstage, harg⟩, hlatched⟩ := h
  have hkept := bodyOf_kept i s
  rw [hbody] at hkept
  obtain ⟨⟨-, -, kdegen, -, klatched, -⟩, kbusy, kdone, kerr, ksub, ksym, kstage, karg⟩ := hkept
  exact ⟨kbusy.trans hbusy, kdone.trans hdone, kerr.trans herr,
    ⟨ksub.trans hsub, ksym.trans hsym, kstage.trans hstage, karg.trans harg⟩,
    klatched.trans (hlatched.trans kdegen.symm)⟩

/-- Issuing again in a state that an issue has left changes LASTCMD alone. -/
theorem Issued.issue_eq {s : State} (h : Issued s) (w : Word) : issue w s = setLastCmd w s := by
  obtain ⟨hbusy, hdone, herr, ⟨hsub, hsym, hstage, harg⟩, hlatched⟩ := h
  simp only [issue, setLastCmd, hbusy, hdone, herr, hsub, hsym, hstage, harg, hlatched]

/-- A component whose body runs to its end in `u`, issued in a state that issues as `u` does. -/
theorem exec_issue_of_ok {i : Instr} {s u v : State} (hbody : bodyOf i u = .ok v) (hissued : Issued u)
    (hs : ∀ w, issue w s = issue w u) :
    exec i (issue (encode i) s) = .next (complete i (.ok (setLastCmd (encode i) v))) := by
  rw [hs, hissued.issue_eq, exec_eq, bodyOf_setLastCmd i (encode i) hbody]

/-- Where the bodies run one after another in `u`, the commands do when issued one by one from a state
that issues as `u` does: an issue rewrites all that the completion before it wrote. -/
theorem BodiesInTurn.runsInTurn {is : List Instr} {i : Instr} {s u t : State}
    (h : BodiesInTurn (i :: is) u t) (hissued : Issued u) (hs : ∀ w, issue w s = issue w u) :
    RunsInTurn (i :: is) s
      (complete i (.ok (setLastCmd (encode ((i :: is).getLast (List.cons_ne_nil i is))) t))) := by
  induction is generalizing i s u with
  | nil =>
    obtain ⟨v, hbody, rfl⟩ := h
    exact ⟨_, exec_issue_of_ok hbody hissued hs, rfl, rfl⟩
  | cons j is ih =>
    obtain ⟨v, hbody, hrest⟩ := h
    exact ⟨_, exec_issue_of_ok hbody hissued hs, rfl, ih hrest (hissued.bodyOf hbody) fun _ => rfl⟩

/-- A composite that succeeds ran the bodies of its components in turn, so they do when issued. -/
theorem runsInTurn_of_bodies {c i : Instr} {is : List Instr} {s t : State}
    (hbodies : ∀ u v, bodyOf c u = .ok v → BodiesInTurn (i :: is) u v)
    (hexec : exec c (issue (encode c) s) = .next t) (herr : t.err = 0#4) :
    RunsInTurn (i :: is) s (setLastCmd (encode ((i :: is).getLast (List.cons_ne_nil i is))) t) := by
  obtain ⟨b, hbody, rfl⟩ := exec_ok hexec herr
  exact (hbodies _ b hbody).runsInTurn (issue_issued _ s) fun _ => rfl

/-- Settles O44, from the chain of bodies that each composite is. -/
theorem compositesEqualTheirComponents : Obligations.CompositesEqualTheirComponents := fun _ _ =>
  ⟨runsInTurn_of_bodies (c := .compress) fun _ _ => compressBody_bodiesInTurn,
    runsInTurn_of_bodies (c := .decompress) fun _ _ => decompressBody_bodiesInTurn⟩

end Sys2Proof.Machine
end
